-- ==== Sys2Proof/Word.lean ====
section
/-! DEFINITION. The plain words the model is written in: bytes, numbered tables of a fixed size, and
limits. Byte order and byte layouts are not here: they are in Machine/Formats.lean. -/

namespace Sys2Proof

/-- A byte of a frame, a tag record or a member record (spec 11.8). -/
abbrev Byte := BitVec 8

/-- Read place `i` of a table of `n` things. -/
def vget {α : Type} {n : Nat} (v : Vector α n) (i : Fin n) : α := v[i.val]

/-- Put `x` at place `i` of a table of `n` things. -/
def vset {α : Type} {n : Nat} (v : Vector α n) (i : Fin n) (x : α) : Vector α n :=
  v.set i.val x i.isLt

@[simp] theorem vget_vset_self {α : Type} {n : Nat} (v : Vector α n) (i : Fin n) (x : α) :
    vget (vset v i x) i = x := by
  simp [vget, vset]

theorem vget_vset {α : Type} {n : Nat} (v : Vector α n) (i j : Fin n) (x : α) :
    vget (vset v i x) j = if i = j then x else vget v j := by
  simp [vget, vset, Vector.getElem_set, Fin.ext_iff]

@[simp] theorem vget_vset_ne {α : Type} {n : Nat} (v : Vector α n) {i j : Fin n} (x : α)
    (h : i ≠ j) : vget (vset v i x) j = vget v j := by
  simp [vget_vset, h]

@[simp] theorem vget_replicate {α : Type} {n : Nat} (x : α) (i : Fin n) :
    vget (Vector.replicate n x) i = x := by
  simp [vget]

/-- The numbers below `n`, lowest first. -/
def finList (n : Nat) : List (Fin n) :=
  (List.range n).filterMap fun k => if h : k < n then some ⟨k, h⟩ else none

/-- A value taken at the nearest limit of its range (the manual's "limited"). -/
def limit (lo hi x : Int) : Int := max lo (min hi x)

/-- Whether limiting changed the value. -/
def limited (lo hi x : Int) : Bool := decide (limit lo hi x ≠ x)

end Sys2Proof
end

