-- ==== Sys2Proof/Syntax.lean ====
section
/-! DEFINITION. The commands of the AJ48, one constructor of `Instr` for each row of
spec/opcode_table.json, with the operands each row carries. A request row stands for a request frame
whose check word matches and whose body spells these operands; an event row stands for the event with
what the docks, the clock or the supply bring with it. -/

namespace Sys2Proof

/-- A dock number, 0 to 47 (00_scope, Quantities). -/
abbrev DockNo := Fin 48

/-- The three master ports (R196). -/
inductive Port where
  | terminal | uplink | service
  deriving DecidableEq, Repr

/-- The authorisation kinds of a hire stamp (R25). -/
inductive AuthKind where
  | online | stale | offlineUnknown
  deriving DecidableEq, Repr

/-- A hire stamp (R25): the fields from origin station to authorisation kind. -/
structure Stamp where
  origin : Nat
  trip : Nat
  card : Nat
  start : Nat
  plan : Nat
  auth : AuthKind
  deriving DecidableEq, Repr

/-- The fourteen fault kinds (R152). -/
inductive FaultKind where
  | lockJam | dockSilent | dockReturned | tagReadFail | tagDuplicate | riderDockReport
  | tagWriteFail | riderBikeReport | bikeUnaccounted
  | linkDown | storeWeakRow | storeDamaged | orderAborted | clockSkew
  deriving DecidableEq, Repr

/-- The fault policies (R152). -/
inductive Policy where
  | ignore | log | logNotify | suspend
  deriving DecidableEq, Repr

/-- The nine order kinds (R128). -/
inductive OrderKind where
  | collect | place | suspend | flagBike | jumpIf | endList | resume | clearBike | clearFault
  deriving DecidableEq, Repr

/-- What CLEAR_FAULT names: one kind, or ALL (R132). -/
inductive FaultChoice where
  | all
  | kind (k : FaultKind)
  deriving DecidableEq, Repr

/-- The conditions of JUMP_IF (R146). -/
inductive Condition where
  | always
  | vacantAtLeast (n : Nat)
  | hireableAtLeast (n : Nat)
  | lastBelow (n : Nat)
  deriving DecidableEq, Repr

/-- One order of a work order list, as submitted (R132). -/
inductive Order where
  | collect (first last count : Nat) (includeFlagged : Bool)
  | place (count timeout : Nat)
  | suspend (first last : Nat)
  | resume (first last : Nat)
  | flagBike (bike : Nat)
  | clearBike (bike : Nat)
  | clearFault (dock : Nat) (choice : FaultChoice)
  | jumpIf (cond : Condition) (target : Nat)
  | endList (notify : Bool)
  deriving DecidableEq, Repr

/-- The dock request of a HIRE (R65): a dock number as sent, or ANY. -/
inductive DockRequest where
  | any
  | dock (n : Nat)
  deriving DecidableEq, Repr

/-- A member record as FILL_ANSWER and CARD_PUSH carry it (R206): every field as sent, before any
check or limit. -/
structure MemberRecord where
  card : Nat
  standing : Nat
  plan : Nat
  balance : Int
  hireLimit : Nat
  baseOpen : Nat
  baseMark : Nat
  deriving DecidableEq, Repr

/-- A band entry of TARIFF_LOAD, as sent (R94). -/
structure BandEntry where
  span : Int
  block : Int
  rate : Int
  deriving DecidableEq, Repr

/-- The record of TARIFF_LOAD, as sent (R94); the manual's body has four band entries. -/
structure TariffEntry where
  free : Int
  bandCount : Int
  cap : Int
  minBalance : Int
  offline : Bool
  bands : List BandEntry
  deriving DecidableEq, Repr

/-- The conditions of a watch (R167). -/
inductive WatchCond where
  | release | take | arrival | fault | any
  deriving DecidableEq, Repr

/-- The actions of a watch (R167). -/
inductive WatchAction where
  | report | hold
  deriving DecidableEq, Repr

/-- The nine configuration items (R188). -/
inductive ConfigItem where
  | takeWindow | fillTimeout | maximumAge | offlineUnknownAllowed | offlineQuota
  | defaultOfflinePlan | grace | buttonWindow | serviceMaySetMode
  deriving DecidableEq, Repr

/-- The value CONFIG_SET carries (R188). -/
inductive ConfigValue where
  | num (n : Int)
  | yesNo (b : Bool)
  deriving DecidableEq, Repr

/-- The station modes (R187). -/
inductive Mode where
  | starting | inService | maintenance
  deriving DecidableEq, Repr

/-- The commands whose tag write a CLEARED or WRITE_FAIL confirms (R29). -/
inductive WriteCommand where
  | accept | relock | mark
  deriving DecidableEq, Repr

/-- A dock event other than NOTHING (section 1.4). LATCHED carries the 23 bytes of the tag record
(R205), or none for "tag unreadable". -/
inductive DockEvent where
  | latched (tag : Option (List Byte))
  | opened
  | stampFail
  | closed
  | taken
  | button
  | cleared (command : WriteCommand)
  | writeFail (command : WriteCommand)
  | actuatorFault
  deriving DecidableEq, Repr

/-- The bike a dock senses: its id and tag mark as last read, id 0 when the tag could not be read
(section 1.4). -/
structure SensedBike where
  id : Nat
  mark : Bool
  deriving DecidableEq, Repr

/-- The condition carried in every answer (section 1.4). -/
structure DockCondition where
  lockOpen : Bool
  bike : Option SensedBike
  deriving DecidableEq, Repr

/-- A dock's answer (R7): the oldest event not yet taken with its event number, or NOTHING (none),
and the dock's present condition. -/
structure DockAnswer where
  event : Option (Nat × DockEvent)
  condition : DockCondition
  deriving DecidableEq, Repr

/-- A dock's last-release memory (R26): no RELEASE ever carried out, or the last one, with its stamp
or the indication that it had none. -/
inductive ReleaseMemory where
  | nothing
  | release (stamp : Option Stamp)
  deriving DecidableEq, Repr

/-- What a survey answer carries besides event and condition (R192): the whole tag record of a sensed
bike (none is "tag unreadable") and the last-release memory. -/
structure SurveyExtra where
  tag : Option (List Byte)
  memory : ReleaseMemory
  deriving DecidableEq, Repr

/-- How a word of the retained array reads once bits of it have flipped (R173): one flipped bit, two, or
three and more, which may give any of the three results. `wrong` reads clean, and `miscorrected` reads as
a single-bit error and is corrected, each as another word than the one written; the number tells one such
word from another. Three and more that read as a double-bit error are `double`. -/
inductive Flip where
  | single | double
  | wrong (word : Nat)
  | miscorrected (word : Nat)
  deriving DecidableEq, Repr

/-- Bits that flipped in one word of the retained array since it was last looked at. -/
structure Upset where
  row : Nat
  word : Nat
  error : Flip
  deriving DecidableEq, Repr

/-- The 44 request kinds of the catalogue (R203), in its order. -/
inductive RequestKind where
  | read | noticeRead | portClear
  | hire | cancel | stationView | quote
  | fillFetch | fillAnswer | cardPush | cardInvalidate | cacheFlush | cacheMode | linkState
  | reportRead | reportRelease
  | tariffLoad | tariffDrop
  | crewLoad | crewDrop | floorSet
  | orderSubmit | orderStatus | orderAbort
  | policySet
  | faultRead | faultDiscard | dockFaultRead
  | bikeFlag | bikeClear
  | bikeFlagRead | watchSet | watchDrop | watchClearHits | watchRead
  | storeStatus | storeClear
  | timeSet | stationIdSet
  | stationMode
  | configSet
  | configRead | stationStatus
  | stationRestart
  deriving DecidableEq, Repr

/-- The commands: one constructor for each row of spec/opcode_table.json. `tag` is the request tag. -/
inductive Instr where
  /-- FRAME_REFUSED (R197): a request frame as clocked in, byte by byte. -/
  | frameRefused (port : Port) (frame : List Byte)
  | read (port : Port) (tag : Nat)
  | readRepeat (port : Port) (tag : Nat)
  | readAnswerComplete (port : Port)
  | noticeRead (port : Port) (tag : Nat)
  | noticeAnswerComplete (port : Port)
  | portClear (port : Port) (tag : Nat)
  | hire (tag : Nat) (card : Nat) (dock : DockRequest) (plan : Option Nat)
  | cancel (tag : Nat) (target : Nat)
  | stationView (tag : Nat)
  | quote (tag : Nat) (plan : Nat) (minutes : Nat)
  | fillFetch (tag : Nat)
  | fillAnswer (tag : Nat) (record : MemberRecord)
  | fillAnswerNotFound (tag : Nat) (card : Nat)
  | cardPush (tag : Nat) (record : MemberRecord)
  | cardInvalidate (tag : Nat) (card : Nat)
  | cacheFlush (tag : Nat)
  | cacheMode (tag : Nat) (allocate : Bool) (serve : Bool)
  | linkStateUp (tag : Nat)
  | linkStateDown (tag : Nat)
  | reportRead (tag : Nat) (n : Nat)
  | reportReadRestart (tag : Nat) (n : Nat)
  | reportRelease (tag : Nat) (seq : Nat)
  | tariffLoad (tag : Nat) (plan : Nat) (record : TariffEntry)
  | tariffDrop (tag : Nat) (plan : Nat)
  | crewLoad (tag : Nat) (crew : Nat) (level : Nat) (mapLength : Nat) (permits : List Bool)
  | crewDrop (tag : Nat) (crew : Nat)
  | floorSet (tag : Nat) (kind : OrderKind) (floor : Nat)
  | orderSubmit (tag : Nat) (crew : Nat) (orders : List Order)
  | orderStatus (tag : Nat) (slot : Nat)
  | orderAbort (tag : Nat) (slot : Nat) (crew : Nat)
  | policySet (tag : Nat) (kind : FaultKind) (policy : Policy)
  | faultRead (port : Port) (tag : Nat) (n : Nat)
  | faultDiscard (port : Port) (tag : Nat) (n : Nat) (clearLost : Bool)
  | dockFaultRead (port : Port) (tag : Nat)
  | bikeFlag (tag : Nat) (bike : Nat)
  | bikeClear (tag : Nat) (bike : Nat)
  | bikeFlagRead (port : Port) (tag : Nat) (start : Nat) (n : Nat)
  | watchSet (port : Port) (tag : Nat) (slot : Nat) (crew : Nat) (base : Nat) (span : Nat)
    (cond : WatchCond) (action : WatchAction) (enabled : Bool)
  | watchDrop (port : Port) (tag : Nat) (slot : Nat) (crew : Nat)
  /-- WATCH_CLEAR_HITS (R170): a slot, or none for ALL. -/
  | watchClearHits (port : Port) (tag : Nat) (slot : Option Nat)
  | watchRead (port : Port) (tag : Nat)
  | storeStatus (tag : Nat)
  | storeClear (tag : Nat) (clearMap : Bool)
  | timeSet (tag : Nat) (time : Nat)
  | stationIdSet (tag : Nat) (id : Nat)
  | stationMode (port : Port) (tag : Nat) (mode : Mode) (crew : Nat)
  | configSet (tag : Nat) (item : ConfigItem) (value : ConfigValue)
  | configRead (port : Port) (tag : Nat)
  | stationStatus (port : Port) (tag : Nat)
  | stationRestartWarm (tag : Nat)
  | stationRestartCold (tag : Nat)
  | dockAnswer (dock : DockNo) (answer : DockAnswer)
  | dockExchangeMissed (dock : DockNo)
  | dockServiceRequest (dock : DockNo)
  | sweepDue (dock : DockNo)
  | actuationDeadline (dock : DockNo)
  | takeDeadline (dock : DockNo)
  | fillExpiry (card : Nat)
  | placeDeadline
  | orderExecute
  | clockTick
  /-- SCRUB_ROW (R180): the scrub reads its next row; `upsets` are the bits that flipped anywhere in
  the array since the last step that brought some. -/
  | scrubRow (upsets : List Upset)
  | recordWriteDone
  /-- PWRFAIL (R181): `written` is how many words of the write in progress stand written. -/
  | pwrfail (written : Nat)
  | reset
  | mainPowerReturn
  /-- START_BEGIN (R183): `upsets` are the bits that flipped in the array since the last step that
  brought some (an outage among them). -/
  | startBegin (upsets : List Upset)
  | surveyPollAnswer (dock : DockNo) (answer : DockAnswer) (extra : SurveyExtra)
  | batterySupplyLoss
  | mainPowerLoss
  | surveyBegin
  deriving DecidableEq, Repr

end Sys2Proof
end

