-- ==== Sys2Proof/Decode.lean ====
section
/-! DEFINITION. Words that spell a command. The AJ48 is a block: its commands reach it as frames on its
ports, answers on its dock line and events on its pins, and no row of spec/opcode_table.json has bits. -/

namespace Sys2Proof

/-- The command that a word of `nbits` bits spells by the table's bits: none, since no row has any. -/
def decodeTableWord (_nbits _w : Nat) : Option Instr := none

end Sys2Proof
end

