-- ==== Sys2Proof/Machine/State.lean ====
section
/-! DEFINITION. The state of the AJ48 as plain data, block by block (00_scope, Block diagram), the
queue of waiting commands, the reasons a step can stop, and the state right after reset. -/

namespace Sys2Proof.Machine

/-! ### The dock table and the dock line (chapters 1 and 2) -/

/-- The dock states (R1, section 1.2). -/
inductive DockState where
  | vacant | docked | unlocking | offered | relocking | jammed | absent | parked
  deriving DecidableEq, Repr

/-- Bike, tag mark and docked since, which are present together (R1). -/
structure Bike where
  id : Nat
  mark : Bool
  since : Nat
  deriving DecidableEq, Repr

/-- A holder record (R2). -/
inductive Holder where
  | hire (tag : Nat) (stamp : Option Stamp)
  | order (slot : Fin 2) (index : Nat) (crew : Nat)
  deriving DecidableEq, Repr

/-- The kind of a holder (R2). -/
inductive HolderKind where
  | hire | order
  deriving DecidableEq, Repr

/-- A dock record's deadline (R1, R13). An ACTUATION deadline carries retry used, which is present
exactly with it; its expiry is none while it is held open, before the command is sent. -/
inductive Deadline where
  | take (expiry : Nat)
  | actuation (expiry : Option Nat) (retryUsed : Bool)
  deriving DecidableEq, Repr

/-- A dock's fault set: for each DOCK-class kind, whether it is in the set (R1). -/
structure FaultSet where
  lockJam : Bool
  dockSilent : Bool
  dockReturned : Bool
  tagReadFail : Bool
  tagDuplicate : Bool
  riderDockReport : Bool
  deriving DecidableEq, Repr

/-- A dock record's last arrival (R1, R40). -/
structure LastArrival where
  bike : Nat
  time : Nat
  reported : Bool
  deriving DecidableEq, Repr

/-- A dock record (R1). -/
structure DockRecord where
  state : DockState
  suspended : Bool
  bike : Option Bike
  holder : Option Holder
  deadline : Option Deadline
  faults : FaultSet
  lastArrival : Option LastArrival
  deriving DecidableEq, Repr

/-- The part of a dock record that the retained store keeps (R171). -/
structure RetainedDock where
  state : DockState
  suspended : Bool
  bike : Option Bike
  faults : FaultSet
  lastArrival : Option LastArrival
  deriving DecidableEq, Repr

/-- Why a RELOCK with stamp clearing was placed (R28). -/
inductive RelockCause where
  | lapse | cancel | probe
  deriving DecidableEq, Repr

/-- The dock line commands (section 1.4). -/
inductive Command where
  | poll
  | release (stamp : Option Stamp)
  | relock (clearing : Bool) (cause : RelockCause)
  | accept (clearing : Bool)
  | mark (set : Bool)
  | inhibit (on : Bool)
  deriving DecidableEq, Repr

/-- What a tag write writes (R28). -/
inductive TagWriteKind where
  | stampClear | markSet | markClear
  deriving DecidableEq, Repr

/-- Why a tag write was sent (R28). -/
inductive TagWriteCause where
  | arrival | lapse | cancel | probe | button | bikeClear
  deriving DecidableEq, Repr

/-- An entry of a dock's tag write list (R28). -/
structure TagWrite where
  command : WriteCommand
  write : TagWriteKind
  bike : Nat
  cause : TagWriteCause
  deriving DecidableEq, Repr

/-- A dock's survey reference (R3), or the mark that its retained record was found damaged (R177). -/
inductive SurveyReference where
  | record (r : RetainedDock)
  | damaged
  deriving DecidableEq, Repr

/-- A dock's line state (R8), its tag write list (R28) and its survey reference (R3). Service
request and sweep due are R9's two reasons to want a turn that no other field shows; `actuation` is the
RELEASE or RELOCK the running ACTUATION deadline belongs to (R13). -/
structure LineState where
  waiting : List Command
  missCount : Nat
  lastExchange : Nat
  lastEvent : Option Nat
  lastCondition : Option DockCondition
  surveyed : Bool
  tagWrites : List TagWrite
  serviceRequest : Bool
  sweepDue : Bool
  actuation : Option Command
  reference : Option SurveyReference
  deriving DecidableEq, Repr

/-- The exchange in progress on the dock line (R7, R9). `ack` is the event number its command carries:
that of the last event the DLC took from the dock, none where it took none since the last start.
`survey` marks a survey poll (R192). -/
structure Exchange where
  dock : DockNo
  command : Command
  ack : Option Nat
  survey : Bool
  sentAt : Nat
  deriving DecidableEq, Repr

/-- A tag as the part judges it: readable, or unreadable (R25). -/
inductive TagReading where
  | unreadable
  | readable (bike : Nat) (mark : Bool) (stamp : Option Stamp)
  deriving DecidableEq, Repr

/-- What the survey found at a dock (R192): the last survey answer. -/
structure Finding where
  lockOpen : Bool
  bike : Option TagReading
  memory : ReleaseMemory
  deriving DecidableEq, Repr

/-- The survey of one dock in progress (R192): how many answers were received, how many survey polls
were missed in a row, and the last answer. -/
structure Survey where
  dock : DockNo
  answers : Nat
  misses : Nat
  finding : Option Finding
  deriving DecidableEq, Repr

/-- The Dock Line Controller. -/
structure DockLine where
  docks : Vector DockRecord 48
  lines : Vector LineState 48
  exchange : Option Exchange
  survey : Option Survey
  deriving DecidableEq, Repr

/-! ### The card cache (chapter 3) -/

/-- The states of a card entry (R42). -/
inductive EntryState where
  | valid | provisional | revoked
  deriving DecidableEq, Repr

/-- A member's standing (R42). -/
inductive Standing where
  | active | expired | barred
  deriving DecidableEq, Repr

/-- A card entry (R42). -/
structure CardEntry where
  state : EntryState
  card : Nat
  standing : Option Standing
  plan : Nat
  balance : Int
  hireLimit : Nat
  baseOpen : Nat
  filledAt : Option Nat
  hireAdj : Int
  fareAdj : Nat
  pendingTrips : List Nat
  deriving DecidableEq, Repr

/-- The waiter of a fill entry (R51). -/
structure Waiter where
  tag : Nat
  plan : Option Nat
  deriving DecidableEq, Repr

/-- A fill entry (R51). `expiry` is on the part's millisecond timebase. -/
structure Fill where
  card : Nat
  fetched : Bool
  issuedAt : Nat
  expiry : Nat
  waiter : Option Waiter
  poisoned : Bool
  deriving DecidableEq, Repr

/-- The Card Cache: 32 sets, each a recency list of at most 4 entries, most recently used first
(R43); the fill queue (R51); the run counter (R52); the offline grant count (R62); the two switches of
the cache mode (R60). -/
structure CardCache where
  sets : Vector (List CardEntry) 32
  fills : List Fill
  runCounter : Nat
  offlineGrants : Nat
  allocate : Bool
  serve : Bool
  deriving DecidableEq, Repr

/-! ### The hire unit (chapter 4) -/

/-- The states of a hire record (R66). -/
inductive HireState where
  | authWait | unlocking | offered | ended
  deriving DecidableEq, Repr

/-- A hire record (R65); its dock request is none for ANY. -/
structure HireRecord where
  tag : Nat
  card : Nat
  dockRequest : Option DockNo
  plan : Option Nat
  state : HireState
  chosen : Option DockNo
  cancelRequested : Bool
  deriving DecidableEq, Repr

/-! ### The fare unit (chapter 5) -/

/-- A band of a plan (R92); the last band has no span. -/
structure Band where
  span : Option Nat
  block : Nat
  rate : Nat
  deriving DecidableEq, Repr

/-- The terms of a defined plan (R92). -/
structure Plan where
  free : Nat
  bands : List Band
  cap : Nat
  minBalance : Int
  offline : Bool
  deriving DecidableEq, Repr

/-- The fare flags (R98). -/
structure FareFlags where
  skew : Bool
  clamped : Bool
  redock : Bool
  saturated : Bool
  planMissing : Bool
  deriving DecidableEq, Repr

/-! ### The report queue (chapter 6) -/

/-- The report record kinds (R108). -/
inductive ReportKind where
  | departure | arrival | moveOut | moveIn | strayIn | removed
  deriving DecidableEq, Repr

/-- Time, dock and bike of a report record, which are absent together in a damaged one (R108). -/
structure ReportPlace where
  time : Nat
  dock : DockNo
  bike : Nat
  deriving DecidableEq, Repr

/-- The flags of a report record (R108). -/
structure ReportFlags where
  timeInvalid : Bool
  fare : FareFlags
  clearFailed : Bool
  damaged : Bool
  deriving DecidableEq, Repr

/-- The move part of a report record (R108). -/
structure MovePart where
  crew : Nat
  slot : Fin 2
  index : Nat
  deriving DecidableEq, Repr

/-- A report record (R108). The kind is none for UNKNOWN (R121); the hire part is a stamp's fields. -/
structure Report where
  seq : Nat
  kind : Option ReportKind
  place : Option ReportPlace
  flags : ReportFlags
  hire : Option Stamp
  fare : Option Nat
  move : Option MovePart
  deriving DecidableEq, Repr

/-- The Report Queue: the held records, oldest first, and the place in the ring of 96 that the oldest
stands at (R109, R122); next sequence number and read mark (R109, R116); the counted claims and
their total (R111). -/
structure ReportQueue where
  held : List Report
  oldestPlace : Fin 96
  nextSeq : Nat
  readMark : Nat
  claims : Vector Nat 48
  claimTotal : Nat
  deriving DecidableEq, Repr

/-! ### The work order engine (chapter 7) -/

/-- A crew entry (R124). -/
structure Crew where
  id : Nat
  level : Nat
  mapLength : Nat
  map : List Bool
  deriving DecidableEq, Repr

/-- The states of a work order slot that is not EMPTY (R130). -/
inductive SlotState where
  | queued | running | waiting | ended | aborted
  deriving DecidableEq, Repr

/-- The reasons of a PARTIAL result (R129). -/
inductive PartialReason where
  | backlog | timeout | registryFull | aborted
  deriving DecidableEq, Repr

/-- The result of a completed order (R129). -/
inductive OrderResult where
  | done (n : Nat)
  | partialDone (n : Nat) (reason : PartialReason)
  | notApplied
  deriving DecidableEq, Repr

/-- The abort reasons (R129). -/
inductive AbortReason where
  | permission | level | unknownCrew | orderLimit | requested
  deriving DecidableEq, Repr

/-- The progress of a WAITING slot (R130). -/
inductive Progress where
  | collect (outstanding : List DockNo) (taken : Nat) (ended : Nat) (stopped : Bool)
  | place (placed : Nat) (deadline : Nat)
  deriving DecidableEq, Repr

/-- A work order slot that is not EMPTY (R129). -/
structure WorkSlot where
  state : SlotState
  crew : Nat
  orders : List Order
  index : Nat
  executed : Nat
  results : List OrderResult
  submittedAt : Nat
  startedAt : Option Nat
  endedAt : Option Nat
  abort : Option (AbortReason × Nat)
  progress : Option Progress
  deriving DecidableEq, Repr

/-- The Work Order Engine: the crew table by its 16 places (R124), the floors (R128), the two slots
(none is EMPTY, R129) and the start list (R131). -/
structure WorkOrders where
  crews : Vector (Option Crew) 16
  floors : Vector Nat 9
  slots : Vector (Option WorkSlot) 2
  startList : List (Fin 2)
  deriving DecidableEq, Repr

/-! ### The fault unit (chapter 8) -/

/-- The fault classes (R152). -/
inductive FaultClass where
  | dock | bike | station
  deriving DecidableEq, Repr

/-- The phase of a LOCK_JAM (R151). -/
inductive JamPhase where
  | release | relock | probe | reported
  deriving DecidableEq, Repr

/-- The cause of a DOCK_RETURNED (R151). -/
inductive ReturnCause where
  | returned | survey | store
  deriving DecidableEq, Repr

/-- The write of a TAG_WRITE_FAIL (R151); STAMP carries the trip number. -/
inductive FailedWrite where
  | stamp (trip : Nat)
  | clear
  | mark
  deriving DecidableEq, Repr

/-- The cause of a BIKE_UNACCOUNTED (R151). -/
inductive UnaccountedCause where
  | takeFromDocked | takeFromJammed | survey
  deriving DecidableEq, Repr

/-- The retained collections (R171). -/
inductive Collection where
  | signature | stationRecord | configuration | policyTable | orderFloors | dockTable | queueHead
  | reportRecords | faultLogHead | faultRecords | registryHead | registryEntries | tariffPlans
  | crewPlaces
  deriving DecidableEq, Repr

/-- The detail of a fault record (R151). -/
inductive FaultDetail where
  | none
  | lockJam (phase : JamPhase) (holder : Option HolderKind)
  | dockSilent (left : Option DockState)
  | dockReturned (cause : ReturnCause)
  | tagDuplicate (bike : Nat)
  | tagWriteFail (write : FailedWrite)
  | bikeUnaccounted (cause : UnaccountedCause)
  | storeWeakRow (row : Nat)
  | storeDamaged (collection : Collection) (row : Nat) (word : Nat)
  | orderAborted (slot : Fin 2) (index : Nat) (reason : AbortReason) (crew : Nat) (left : Nat)
  | clockSkew (origin : Nat) (start : Nat) (arrival : Nat)
  deriving DecidableEq, Repr

/-- A fault record (R151); its class is its kind's. -/
structure FaultRecord where
  seq : Nat
  kind : FaultKind
  time : Nat
  dock : Option DockNo
  bike : Option Nat
  detail : FaultDetail
  deriving DecidableEq, Repr

/-- The lost flags (R158). -/
structure LostFlags where
  dock : Bool
  bike : Bool
  station : Bool
  deriving DecidableEq, Repr

/-- The origins of a registry entry (R163). -/
inductive FlagOrigin where
  | rider | crew | uplink | tag | station
  deriving DecidableEq, Repr

/-- An entry of the bike flag registry (R163). -/
structure FlagEntry where
  bike : Nat
  origin : FlagOrigin
  time : Nat
  deriving DecidableEq, Repr

/-- A defined watch slot (R167). -/
structure Watch where
  owner : Port
  base : Nat
  span : Nat
  cond : WatchCond
  action : WatchAction
  enabled : Bool
  hit : Bool
  deriving DecidableEq, Repr

/-- The Fault Unit: the fault log, oldest first, and the place in the ring of 32 that the oldest
stands at (R157, R176); next fault sequence; lost flags (R158); the policy table (R152); the registry,
oldest first (R163); the four watch slots (none is undefined, R167). -/
structure FaultUnit where
  log : List FaultRecord
  oldestPlace : Fin 32
  nextSeq : Nat
  lost : LostFlags
  policies : Vector Policy 14
  registry : List FlagEntry
  watches : Vector (Option Watch) 4
  deriving DecidableEq, Repr

/-! ### Station control (chapter 10) -/

/-- The nine configuration values (R188). -/
structure Configuration where
  takeWindow : Nat
  fillTimeout : Nat
  maximumAge : Nat
  offlineUnknownAllowed : Bool
  offlineQuota : Nat
  defaultOfflinePlan : Nat
  grace : Nat
  buttonWindow : Nat
  serviceMaySetMode : Bool
  deriving DecidableEq, Repr

/-- The station record (R171). -/
structure StationRecord where
  id : Nat
  trip : Nat
  target : Mode
  clockValid : Bool
  deriving DecidableEq, Repr

/-- The kinds of start (R183). -/
inductive StartKind where
  | cold | warm
  deriving DecidableEq, Repr

/-- The causes of a start (R190). -/
inductive StartCause where
  | powerReturn | resetLine | restartWarm | restartCold
  deriving DecidableEq, Repr

/-- The restart reasons (R190). -/
inductive RestartReason where
  | coldPower | warmPower | lineReset | restartRequest | coldRequest
  deriving DecidableEq, Repr

/-- Where the part stands between its starts: without main power; HALTED (R182); stopped by the cause
of a start that has not begun (R190); in the start check or the cold clearing (R183); or running,
from the beginning of the survey on. -/
inductive Power where
  | off | halted | stopped | starting | running
  deriving DecidableEq, Repr

/-- Station Control: the station record's values (R171), the clock count (R184), the mode (R187), the
link state (R53), the configuration values (R188), the kind and reason of the last start (R190), the
cause of a start that has not begun, the RESET line, and the part's own millisecond timebase (R1). -/
structure StationControl where
  station : StationRecord
  clock : Nat
  mode : Mode
  linkUp : Bool
  config : Configuration
  startKind : StartKind
  startReason : RestartReason
  power : Power
  cause : Option StartCause
  resetLine : Bool
  timebase : Nat
  deriving DecidableEq, Repr

/-! ### The retained store (chapter 9) -/

/-- The record places of the retained store (R171). -/
inductive Place where
  | signature
  | station (copy : Fin 2)
  | config (item : ConfigItem)
  | policy (kind : FaultKind)
  | floor (kind : OrderKind)
  | dock (dock : DockNo)
  | queueHead (copy : Fin 2)
  | report (n : Fin 96)
  | faultHead (copy : Fin 2)
  | fault (n : Fin 32)
  | registryHead (copy : Fin 2)
  | flag (n : Fin 64)
  | plan (n : Fin 16)
  | crew (n : Fin 16)
  deriving DecidableEq, Repr

/-- The queue head (R122); the count of held records is kept beside the oldest position. -/
structure QueueHead where
  nextSeq : Nat
  readMark : Nat
  oldest : Fin 96
  count : Nat
  deriving DecidableEq, Repr

/-- The fault log head (R171). -/
structure FaultHead where
  nextSeq : Nat
  oldest : Fin 32
  count : Nat
  lost : LostFlags
  deriving DecidableEq, Repr

/-- What a record place can hold (R171): a word set to zero that is no record's, a word that reads clean
as another than the one written (R173), or a record of the place's collection. -/
inductive Content where
  | blank
  | garbled (word : Nat)
  | signature (valid : Bool)
  | station (r : StationRecord)
  | config (v : ConfigValue)
  | policy (p : Policy)
  | floor (n : Nat)
  | dock (r : RetainedDock)
  | queueHead (h : QueueHead)
  | report (r : Report)
  | faultHead (h : FaultHead)
  | fault (r : FaultRecord)
  | registryHead (count : Nat)
  | flag (e : Option FlagEntry)
  | plan (p : Option Plan)
  | crew (c : Option Crew)
  deriving DecidableEq, Repr

/-- An entry of the write list (R172): the record handed, the step in which its place entered the
list, and the step in which this content was handed. -/
structure WriteEntry where
  place : Place
  content : Content
  entered : Nat
  handed : Nat
  deriving DecidableEq, Repr

/-- How a word of the retained array stands against its check bits (R173): a single-bit error, a
double-bit error, or a corrected word whose write-back need not have been made yet. -/
inductive WordError where
  | single | double | corrected
  deriving DecidableEq, Repr

/-- The store fault capture (R178); the collection is none for NONE. -/
structure Capture where
  locked : Bool
  collection : Option Collection
  row : Nat
  word : Nat
  second : Bool
  deriving DecidableEq, Repr

/-- The Retained Store. `array` lists, by the address of a place's first word (row times 64 plus word),
the content each of its words is a word of, for the places that differ from their cold value; `errors`
lists, by address, the words in error and those whose write-back may still wait. -/
structure RetainedStore where
  array : List (Nat × List Content)
  errors : List (Nat × WordError)
  writeList : List WriteEntry
  weakRows : Vector Bool 64
  capture : Capture
  supplyLost : Bool
  scrubRow : Fin 64
  stepNo : Nat
  deriving DecidableEq, Repr

/-! ### The port interface (chapter 11) -/

/-- The outcomes of a reply (section 11.7), in the table's order. -/
inductive ReplyOutcome where
  | done | released | releaseFailed | cancelled | denied | backlog | noBike | retry | notInService
  | notCommissioned | pending | tooLate | noSuchTag | placed | refreshed | notKept | discarded
  | notFoundTaken | badMode | noSuchRecord | notRead | loaded | dropped | notDefined | added
  | replaced | tableFull | noSuchCrew | submitted | unknownCrew | badOrder | slotsFull | aborted
  | notActive | notPermitted | fixed | entered | present | registryFull | removed | notPresent
  | set | owned | cleared
  deriving DecidableEq, Repr

/-- The reasons of DENIED (R67). -/
inductive DenyReason where
  | revoked | unknownCard | barred | expired | lowBalance | limit | planUndefined | offlineRefused
  deriving DecidableEq, Repr

/-- The causes of RETRY (R67). -/
inductive RetryCause where
  | sameCard | dockHeld
  deriving DecidableEq, Repr

/-- Where a submitted list stands after its step (R133): started, QUEUED behind the other slot, or QUEUED
behind the survey. -/
inductive SubmitState where
  | started | behindSlot | behindSurvey
  deriving DecidableEq, Repr

/-- The cache effect of an invalidation (R58). -/
inductive CacheEffect where
  | noEntry | removed | revoked
  deriving DecidableEq, Repr

/-- A dock's entry in STATION_VIEW (R89); the bike id is there exactly when the dock is hireable. -/
structure ViewEntry where
  state : DockState
  suspended : Bool
  hireable : Bool
  bike : Option Nat
  deriving DecidableEq, Repr

/-- What STATION_STATUS returns (R189). -/
structure StatusView where
  mode : Mode
  target : Mode
  id : Nat
  commissioned : Bool
  clock : Nat
  clockValid : Bool
  linkUp : Bool
  trip : Nat
  startKind : StartKind
  startReason : RestartReason
  surveyed : Option Nat
  deriving DecidableEq, Repr

/-- What ORDER_STATUS returns for a slot that is not EMPTY (R147). -/
structure SlotView where
  state : SlotState
  crew : Nat
  index : Nat
  executed : Nat
  results : List OrderResult
  submittedAt : Nat
  startedAt : Option Nat
  endedAt : Option Nat
  abort : Option (AbortReason × Nat)
  progress : Option Progress
  startPlace : Option Nat
  deriving DecidableEq, Repr

/-- The body of a reply: what the owning rule says the reply carries. `bytes` is a body whose layout
section 11.8 gives. -/
inductive Body where
  | empty
  | bytes (b : List Byte)
  | hireReleased (dock : DockNo) (bike : Nat) (trip : Nat) (start : Nat) (plan : Nat) (auth : AuthKind)
  | dock (d : Option DockNo)
  | denied (reason : DenyReason)
  | noBike (failing : List Nat)
  | retry (cause : RetryCause)
  | stationView (mode : Mode) (commissioned : Bool) (docks : List ViewEntry)
  | fare (fare : Nat) (flags : FareFlags)
  | fills (entries : List (Nat × Nat))
  | clamped (c : Bool)
  | invalidated (effect : CacheEffect) (poisoned : Bool)
  | count (n : Nat)
  | planLoaded (clamped : Bool) (replaced : Bool) (plan : Plan)
  | submitted (slot : Fin 2) (state : SubmitState)
  | index (n : Nat)
  | slotStatus (v : Option SlotView)
  | policyWas (p : Policy)
  | faults (records : List FaultRecord) (lost : LostFlags) (held : Nat) (next : Nat)
  | faultsDiscarded (n : Nat) (oldest : Option Nat) (lost : LostFlags)
  | faultSets (sets : List FaultSet)
  | flagKept (origin : FlagOrigin) (time : Nat)
  | flags (entries : List FlagEntry) (held : Nat)
  | watchReplaced (replaced : Bool)
  | watchHit (hit : Bool)
  | watches (slots : List (Option Watch))
  | storeStatus (capture : Capture) (weak : List Bool) (writes : Nat)
  | capture (c : Capture)
  | clockWas (count : Nat) (valid : Bool)
  | modeWas (m : Mode)
  | configSet (kept : ConfigValue) (was : ConfigValue) (clamped : Bool)
  | config (c : Configuration)
  | status (v : StatusView)
  deriving DecidableEq, Repr

/-- A reply (R204): the request's tag and kind, the outcome and the body. -/
structure Reply where
  tag : Nat
  kind : RequestKind
  outcome : ReplyOutcome
  body : Body
  deriving DecidableEq, Repr

/-- The acceptance codes (R204), in their order. -/
inductive Acceptance where
  | accepted | full | badCheck | badForm | dupTag | notOnPort | powerFail
  deriving DecidableEq, Repr

/-- The event notices (R201): which kinds are set on a port. -/
structure EventNotices where
  stationChanged : Bool
  linkDown : Bool
  orderEnded : Bool
  faultAlert : Bool
  watchHit : Bool
  restarted : Bool
  deriving DecidableEq, Repr

/-- The event notice kinds (R201). -/
inductive EventKind where
  | stationChanged | linkDown | orderEnded | faultAlert | watchHit | restarted
  deriving DecidableEq, Repr

/-- The content of an answer frame (R204). -/
inductive AnswerContent where
  | nothing
  | reply (r : Option Reply) (isRepeat : Bool)
  | notices (bits : List Byte)
  | withdrawn (n : Nat)
  deriving DecidableEq, Repr

/-- The answer frame the part gave last on a port (R196, R204). `complete` says that its last check
byte has been clocked out. -/
structure Answer where
  code : Acceptance
  tag : Nat
  kind : Nat
  content : AnswerContent
  complete : Bool
  deriving DecidableEq, Repr

/-- One port (R198 to R202): the UNFINISHED slots in the order of their acceptance, the finished list,
oldest first, the last-read copy, the event notices set, those a NOTICE_READ answer in progress
reported and no rule has set again since, the last answer, and the attention line (true is asserted).
A slot that is neither UNFINISHED nor FINISHED is FREE. -/
structure PortState where
  unfinished : List (Nat × RequestKind)
  finished : List Reply
  lastRead : Option Reply
  events : EventNotices
  reported : EventNotices
  answer : Option Answer
  attention : Bool
  deriving DecidableEq, Repr

/-- The Port Interface. -/
structure PortInterface where
  terminal : PortState
  uplink : PortState
  service : PortState
  deriving DecidableEq, Repr

/-! ### The whole part -/

/-- The state of the AJ48: the queue of waiting commands and the ten blocks. -/
structure State where
  pending : List Instr
  pi : PortInterface
  dlc : DockLine
  cc : CardCache
  hu : List HireRecord
  fu : Vector (Option Plan) 16
  rq : ReportQueue
  woe : WorkOrders
  flt : FaultUnit
  rs : RetainedStore
  sc : StationControl
  deriving DecidableEq, Repr

/-- No command of the AJ48 stops the part with a fault that is not part of its state: HALTED is a
state, and damage is handled by the store's rules. The type has no constructor. -/
inductive Fault where
  deriving DecidableEq, Repr

/-- Why a command is refused by the model itself. -/
inductive Refusal where
  /-- Raised by an arm of `exec` for a command without a meaning yet; safe. No arm raises it. -/
  | notModelled (mnemonic : String)
  deriving DecidableEq, Repr

/-! ### The state right after reset -/

/-- The empty fault set. -/
def FaultSet.empty : FaultSet := ⟨false, false, false, false, false, false⟩

/-- A dock record's start values with a fault set (R3). -/
def DockRecord.start (faults : FaultSet) : DockRecord :=
  { state := .absent, suspended := true, bike := none, holder := none, deadline := none,
    faults := faults, lastArrival := none }

/-- The cold dock record (R183). -/
def RetainedDock.cold : RetainedDock :=
  { state := .absent, suspended := true, bike := none, faults := .empty, lastArrival := none }

/-- A line state's start values (R8, R28), at a start at `now`, with a survey reference (R3). -/
def LineState.start (now : Nat) (reference : SurveyReference) : LineState :=
  { waiting := [], missCount := 0, lastExchange := now, lastEvent := none, lastCondition := none,
    surveyed := false, tagWrites := [], serviceRequest := false, sweepDue := false,
    actuation := none, reference := some reference }

/-- The Card Cache after every start (R64). -/
def CardCache.start : CardCache :=
  { sets := Vector.replicate 32 [], fills := [], runCounter := 0, offlineGrants := 0,
    allocate := true, serve := true }

/-- No lost flag set. -/
def LostFlags.clear : LostFlags := ⟨false, false, false⟩

/-- The default policies, in the order of R152's table. -/
def defaultPolicies : Vector Policy 14 :=
  ⟨#[.suspend, .logNotify, .logNotify, .log, .logNotify, .log, .log, .log, .logNotify, .logNotify,
     .log, .logNotify, .log, .log], rfl⟩

/-- The default floors, in the order of R128's table. -/
def defaultFloors : Vector Nat 9 := ⟨#[2, 2, 2, 2, 2, 2, 1, 1, 1], rfl⟩

/-- The default configuration (R188). -/
def Configuration.default : Configuration :=
  { takeWindow := 30, fillTimeout := 8, maximumAge := 240, offlineUnknownAllowed := false,
    offlineQuota := 4, defaultOfflinePlan := 0, grace := 120, buttonWindow := 120,
    serviceMaySetMode := false }

/-- The cold station record (R183). -/
def StationRecord.cold : StationRecord :=
  { id := 0, trip := 0, target := .inService, clockValid := false }

/-- The capture as a cold start clears it (R178, R183): not locked, second no, and collection NONE, row 0
and word 0 (DESIGN CHOICE, assumption 49). -/
def Capture.clear : Capture :=
  { locked := false, collection := none, row := 0, word := 0, second := false }

/-- No event notice set. -/
def EventNotices.clear : EventNotices := ⟨false, false, false, false, false, false⟩

/-- A port after every start (R191): slots empty, RESTARTED alone set. The attention line is held
released until the survey begins (R200). -/
def PortState.start : PortState :=
  { unfinished := [], finished := [], lastRead := none,
    events := { EventNotices.clear with restarted := true }, reported := .clear, answer := none,
    attention := false }

/-- The Report Queue after a cold start (R123), the ring at place 0 (DESIGN CHOICE, assumption 22). -/
def ReportQueue.cold : ReportQueue :=
  { held := [], oldestPlace := 0, nextSeq := 1, readMark := 1, claims := Vector.replicate 48 0,
    claimTotal := 0 }

/-- The Work Order Engine after a cold start (R124, R128, R129). -/
def WorkOrders.cold : WorkOrders :=
  { crews := Vector.replicate 16 none, floors := defaultFloors, slots := Vector.replicate 2 none,
    startList := [] }

/-- The Fault Unit after a cold start (R157, R152, R163, R167), the log's ring at place 0 (DESIGN CHOICE,
assumption 22). -/
def FaultUnit.cold : FaultUnit :=
  { log := [], oldestPlace := 0, nextSeq := 1, lost := .clear, policies := defaultPolicies,
    registry := [], watches := Vector.replicate 4 none }

/-- The Dock Line Controller after a cold start (R3, R8). -/
def DockLine.cold : DockLine :=
  { docks := Vector.replicate 48 (DockRecord.start .empty),
    lines := Vector.replicate 48 (LineState.start 0 (.record .cold)), exchange := none,
    survey := none }

/-- The machine right after reset: a part that has never run has begun its first start, a cold one by
main power (R183, R190, R191). The store is being cleared, so its signature is not yet written, and
the ports take frames once SURVEY_BEGIN ends the clearing. That this is the state right after reset, and
the values of the fields that no rule gives a start value (the last answer and the reported notices, the
timebase, service requests and sweeps, the step number) are the model's (DESIGN CHOICE, assumptions 2, 4,
8 and 25). -/
def State.reset : State :=
  { pending := [],
    pi := { terminal := .start, uplink := .start, service := .start },
    dlc := .cold,
    cc := .start,
    hu := [],
    fu := Vector.replicate 16 none,
    rq := .cold,
    woe := .cold,
    flt := .cold,
    rs :=
      { array := [(0, [Content.signature false])], errors := [], writeList := [],
        weakRows := Vector.replicate 64 false, capture := .clear, supplyLost := false,
        scrubRow := 0, stepNo := 0 },
    sc :=
      { station := .cold, clock := 0, mode := .starting, linkUp := false, config := .default,
        startKind := .cold, startReason := .coldPower, power := .starting, cause := none,
        resetLine := false, timebase := 0 } }

end Sys2Proof.Machine
end

