-- ==== Sys2Proof/Config.lean ====
section
/-! DEFINITION. What an implementation of the AJ48 fixes and the manual does not: the free values. Each
is a constant without a body, so that nothing in Lean can evaluate it. -/

namespace Sys2Proof.Config

open Sys2Proof.Machine

/-- Whether a request body has the length and the values its owning rule requires (R197, check 4), for
the kinds whose body layout section 11.8 does not show. Free: the manual gives those bodies as named
arguments only (DESIGN CHOICE, assumption 6). -/
opaque bodyInForm : RequestKind → List Byte → Bool

/-- How many words of the record then being written stand written when the main supply goes absent with
no PWRFAIL before it. Free: chapter 9 says only that such a record may read clean with mixed content.
Applied to the step number, so that each loss has its own value (DESIGN CHOICE, assumption 24). -/
opaque wordsAtPowerLoss : Nat → Nat

/-- What a record reads as whose words are of different records, or of none, and read clean: such a record
is left where the main supply went absent during its write with no PWRFAIL before it (note of section
9.8), and where three or more bits of a word flipped and the word reads clean (R173). Free: the manual
says only that it may read clean. The sequence, kind or class that words of the record's own carry (R171)
are not taken from it. An answer that is no content of the place's collection counts as its cold content,
and for a report or fault place as the record that its first word is of (DESIGN CHOICE, assumptions 24 and
35). -/
opaque mixedContent : Place → List Content → Option Content

/-- The record that a garbled word of a place reads as a word of: what its sequence and kind words say then
(R121, R158, R175); none for one of no record. Free: the manual says only that an error of three or more
bits may read clean (DESIGN CHOICE, assumption 35). -/
opaque garbledWord : Place → Nat → Nat → Option Content

/-- Whether the write-back of a corrected word, waiting when PWRFAIL asserts or the supply goes, has
been made by then. Free: the manual says only that a write-back not yet made is abandoned (R173).
Applied to the step number and the word's address (DESIGN CHOICE, assumption 36). -/
opaque writeBackMade : Nat → Nat → Bool

end Sys2Proof.Config
end

