-- ==== Sys2Proof/Machine/Layout.lean ====
section
/-! DEFINITION. The retained array: how many words each record has (R171), where its words stand, what a
place holds when cold (R183), and which owner's collection it belongs to. The positions are this
model's (DESIGN CHOICE, assumption 20); the manual fixes only that no record spans two rows. -/

namespace Sys2Proof.Machine

/-- The number of a fault kind in R152's table. -/
def faultIndex : FaultKind → Fin 14
  | .lockJam => 0 | .dockSilent => 1 | .dockReturned => 2 | .tagReadFail => 3
  | .tagDuplicate => 4 | .riderDockReport => 5 | .tagWriteFail => 6 | .riderBikeReport => 7
  | .bikeUnaccounted => 8 | .linkDown => 9 | .storeWeakRow => 10 | .storeDamaged => 11
  | .orderAborted => 12 | .clockSkew => 13

/-- The fault kinds in R152's order. -/
def faultKinds : List FaultKind :=
  [.lockJam, .dockSilent, .dockReturned, .tagReadFail, .tagDuplicate, .riderDockReport,
   .tagWriteFail, .riderBikeReport, .bikeUnaccounted, .linkDown, .storeWeakRow, .storeDamaged,
   .orderAborted, .clockSkew]

/-- The number of an order kind in R128's table. -/
def orderIndex : OrderKind → Fin 9
  | .collect => 0 | .place => 1 | .suspend => 2 | .flagBike => 3 | .jumpIf => 4 | .endList => 5
  | .resume => 6 | .clearBike => 7 | .clearFault => 8

/-- The order kinds in R128's order. -/
def orderKinds : List OrderKind :=
  [.collect, .place, .suspend, .flagBike, .jumpIf, .endList, .resume, .clearBike, .clearFault]

/-- The number of a configuration item in R188's table. -/
def configIndex : ConfigItem → Fin 9
  | .takeWindow => 0 | .fillTimeout => 1 | .maximumAge => 2 | .offlineUnknownAllowed => 3
  | .offlineQuota => 4 | .defaultOfflinePlan => 5 | .grace => 6 | .buttonWindow => 7
  | .serviceMaySetMode => 8

/-- The configuration items in R188's order. -/
def configItems : List ConfigItem :=
  [.takeWindow, .fillTimeout, .maximumAge, .offlineUnknownAllowed, .offlineQuota,
   .defaultOfflinePlan, .grace, .buttonWindow, .serviceMaySetMode]

/-- The value of an item (R188). -/
def configValue (c : Configuration) : ConfigItem → ConfigValue
  | .takeWindow => .num c.takeWindow
  | .fillTimeout => .num c.fillTimeout
  | .maximumAge => .num c.maximumAge
  | .offlineUnknownAllowed => .yesNo c.offlineUnknownAllowed
  | .offlineQuota => .num c.offlineQuota
  | .defaultOfflinePlan => .num c.defaultOfflinePlan
  | .grace => .num c.grace
  | .buttonWindow => .num c.buttonWindow
  | .serviceMaySetMode => .yesNo c.serviceMaySetMode

/-- A value as a number, for the numeric items. -/
def valueNat : ConfigValue → Nat
  | .num n => n.toNat
  | .yesNo b => if b then 1 else 0

/-- A value as yes or no, for the yes-or-no items. -/
def valueYes : ConfigValue → Bool
  | .num n => decide (n ≠ 0)
  | .yesNo b => b

/-- The configuration with one item set. -/
def setConfigValue (c : Configuration) (item : ConfigItem) (v : ConfigValue) : Configuration :=
  match item with
  | .takeWindow => { c with takeWindow := valueNat v }
  | .fillTimeout => { c with fillTimeout := valueNat v }
  | .maximumAge => { c with maximumAge := valueNat v }
  | .offlineUnknownAllowed => { c with offlineUnknownAllowed := valueYes v }
  | .offlineQuota => { c with offlineQuota := valueNat v }
  | .defaultOfflinePlan => { c with defaultOfflinePlan := valueNat v }
  | .grace => { c with grace := valueNat v }
  | .buttonWindow => { c with buttonWindow := valueNat v }
  | .serviceMaySetMode => { c with serviceMaySetMode := valueYes v }

/-- The words of a record (R171). -/
def placeWords : Place → Nat
  | .signature => 1
  | .station _ => 2
  | .config _ => 1
  | .policy _ => 1
  | .floor _ => 1
  | .dock _ => 5
  | .queueHead _ => 3
  | .report _ => 10
  | .faultHead _ => 2
  | .fault _ => 5
  | .registryHead _ => 1
  | .flag _ => 3
  | .plan _ => 7
  | .crew _ => 3

/-- The address (row times 64 plus word) of a record's first word. The single records and the heads
stand in row 0, dock records in rows 1 to 4, reports in 5 to 20, faults in 21 to 23, plans in 24 and 25,
registry entries in 40 to 43 (entry 12 at row 41, word 18, as section 9.9 shows), crews in 52. -/
def placeBase : Place → Nat
  | .signature => 0
  | .station c => 1 + 2 * c.val
  | .config i => 5 + (configIndex i).val
  | .policy k => 14 + (faultIndex k).val
  | .floor k => 28 + (orderIndex k).val
  | .queueHead c => 37 + 3 * c.val
  | .faultHead c => 43 + 2 * c.val
  | .registryHead c => 47 + c.val
  | .dock d => (1 + d.val / 12) * 64 + 5 * (d.val % 12)
  | .report n => (5 + n.val / 6) * 64 + 10 * (n.val % 6)
  | .fault n => (21 + n.val / 12) * 64 + 5 * (n.val % 12)
  | .plan n => (24 + n.val / 9) * 64 + 7 * (n.val % 9)
  | .flag n => (40 + (n.val + 15) / 21) * 64 + 3 * ((n.val + 15) % 21)
  | .crew n => 52 * 64 + 3 * n.val

/-- The addresses of a record's words, ascending. -/
def placeAddresses (p : Place) : List Nat :=
  (List.range (placeWords p)).map (placeBase p + ·)

/-- Every record place, in the order of the words. -/
def allPlaces : List Place :=
  [.signature, .station 0, .station 1] ++ configItems.map .config ++ faultKinds.map .policy
    ++ orderKinds.map .floor
    ++ [.queueHead 0, .queueHead 1, .faultHead 0, .faultHead 1, .registryHead 0, .registryHead 1]
    ++ (finList 48).map .dock ++ (finList 96).map .report ++ (finList 32).map .fault
    ++ (finList 16).map .plan ++ (finList 64).map .flag ++ (finList 16).map .crew

/-- The place whose record has the word at an address, if any. -/
def placeAt (w : Nat) : Option Place :=
  allPlaces.find? fun p => decide (placeBase p ≤ w ∧ w < placeBase p + placeWords p)

/-- The collection of a place (R171). -/
def placeCollection : Place → Collection
  | .signature => .signature
  | .station _ => .stationRecord
  | .config _ => .configuration
  | .policy _ => .policyTable
  | .floor _ => .orderFloors
  | .dock _ => .dockTable
  | .queueHead _ => .queueHead
  | .report _ => .reportRecords
  | .faultHead _ => .faultLogHead
  | .fault _ => .faultRecords
  | .registryHead _ => .registryHead
  | .flag _ => .registryEntries
  | .plan _ => .tariffPlans
  | .crew _ => .crewPlaces

/-- The order in which the records handed in one step enter the write list (R172). Among the two-copy
records it is station, queue, fault log, registry, and records of one rank keep the order they are handed
in (DESIGN CHOICE, assumption 48). -/
def placeRank : Place → Nat
  | .dock _ => 0
  | .station c => 1 + c.val
  | .queueHead c => 3 + c.val
  | .faultHead c => 5 + c.val
  | .registryHead c => 7 + c.val
  | .report _ => 9
  | .fault _ => 9
  | .flag _ => 9
  | _ => 10

/-- The cold content of a place (R183). Report and fault places outside the held records are free words,
and hold zero. -/
def coldContent : Place → Content
  | .signature => .signature true
  | .station _ => .station .cold
  | .config i => .config (configValue .default i)
  | .policy k => .policy (vget defaultPolicies (faultIndex k))
  | .floor k => .floor (vget defaultFloors (orderIndex k))
  | .dock _ => .dock .cold
  | .queueHead _ => .queueHead { nextSeq := 1, readMark := 1, oldest := 0, count := 0 }
  | .report _ => .blank
  | .faultHead _ => .faultHead { nextSeq := 1, oldest := 0, count := 0, lost := .clear }
  | .fault _ => .blank
  | .registryHead _ => .registryHead 0
  | .flag _ => .flag none
  | .plan _ => .plan none
  | .crew _ => .crew none

/-- The words of a place that nothing has written since the store was cleared. -/
def coldCell (p : Place) : List Content := List.replicate (placeWords p) (coldContent p)

end Sys2Proof.Machine
end

