-- ==== Sys2Proof/Machine/Ops.lean ====
section
/-! DEFINITION. The shared operations over the state: block updates, tables by key, the ports' reply
places, the retained store's write list, the dock table with its claims and inhibits, and the hand-over
of each owner's records. -/

namespace Sys2Proof.Machine

/-! ### Block updates -/

/-- Put the queue of waiting commands. -/
def State.setPending (x : List Instr) (s : State) : State := { s with pending := x }
/-- Put the Port Interface's state. -/
def State.setPi (x : PortInterface) (s : State) : State := { s with pi := x }
/-- Put the Dock Line Controller's state. -/
def State.setDlc (x : DockLine) (s : State) : State := { s with dlc := x }
/-- Put the Card Cache's state. -/
def State.setCc (x : CardCache) (s : State) : State := { s with cc := x }
/-- Put the Hire Unit's state. -/
def State.setHu (x : List HireRecord) (s : State) : State := { s with hu := x }
/-- Put the Fare Unit's state. -/
def State.setFu (x : Vector (Option Plan) 16) (s : State) : State := { s with fu := x }
/-- Put the Report Queue's state. -/
def State.setRq (x : ReportQueue) (s : State) : State := { s with rq := x }
/-- Put the Work Order Engine's state. -/
def State.setWoe (x : WorkOrders) (s : State) : State := { s with woe := x }
/-- Put the Fault Unit's state. -/
def State.setFlt (x : FaultUnit) (s : State) : State := { s with flt := x }
/-- Put the Retained Store's state. -/
def State.setRs (x : RetainedStore) (s : State) : State := { s with rs := x }
/-- Put Station Control's state. -/
def State.setSc (x : StationControl) (s : State) : State := { s with sc := x }

/-! ### Tables by key, in rising order of the key -/

/-- The entry of a key. -/
def assocGet {α : Type} (k : Nat) : List (Nat × α) → Option α
  | [] => none
  | (k', v) :: t => if k = k' then some v else assocGet k t

/-- Set the entry of a key, keeping the keys rising. -/
def assocPut {α : Type} (k : Nat) (v : α) : List (Nat × α) → List (Nat × α)
  | [] => [(k, v)]
  | (k', v') :: t =>
    if k < k' then (k, v) :: (k', v') :: t
    else if k = k' then (k, v) :: t
    else (k', v') :: assocPut k v t

/-- Remove the entry of a key. -/
def assocDel {α : Type} (k : Nat) : List (Nat × α) → List (Nat × α)
  | [] => []
  | (k', v') :: t => if k = k' then t else (k', v') :: assocDel k t

/-- The keys rise strictly. -/
def assocSorted {α : Type} : List (Nat × α) → Bool
  | [] => true
  | [_] => true
  | (k, _) :: (k', v') :: t => decide (k < k') && assocSorted ((k', v') :: t)

/-! ### Rings of places -/

/-- The place `i` after the oldest in the ring of 96 report places. -/
def reportRing (o : Fin 96) (i : Nat) : Fin 96 := ⟨(o.val + i) % 96, Nat.mod_lt _ (by decide)⟩

/-- The place `i` after the oldest in the ring of 32 fault places. -/
def faultRing (o : Fin 32) (i : Nat) : Fin 32 := ⟨(o.val + i) % 32, Nat.mod_lt _ (by decide)⟩

/-- The registry place with a number, if there is one. -/
def flagPlace (i : Nat) : Fin 64 := ⟨i % 64, Nat.mod_lt _ (by decide)⟩

/-- How far report place `n` lies after the oldest. -/
def reportOffset (o n : Fin 96) : Nat := (n.val + 96 - o.val) % 96

/-- How far fault place `n` lies after the oldest. -/
def faultOffset (o n : Fin 32) : Nat := (n.val + 32 - o.val) % 32

/-! ### Station control -/

/-- The station time as a rule stores it: 0 while the clock is not valid (R184). -/
def stationTime (s : State) : Nat := if s.sc.station.clockValid then s.sc.clock else 0

/-- Whether the station is commissioned (R186). -/
def commissioned (s : State) : Bool := decide (s.sc.station.id ≠ 0) && s.sc.station.clockValid

/-- Whether the part serves its ports, the dock line and its timers: from the beginning of the survey on,
and not HALTED or stopped (R182, R190). -/
def running (s : State) : Bool := decide (s.sc.power = .running)

/-- Whether main power is present. -/
def powered (s : State) : Bool := decide (s.sc.power ≠ .off)

/-- Advance the millisecond timebase to at least `t`. -/
def reachTime (t : Nat) (s : State) : State :=
  s.setSc { s.sc with timebase := max s.sc.timebase t }

/-! ### Ports -/

/-- A port's state. -/
def getPort (p : Port) (s : State) : PortState :=
  match p with
  | .terminal => s.pi.terminal
  | .uplink => s.pi.uplink
  | .service => s.pi.service

/-- Put a port's state. -/
def setPort (p : Port) (x : PortState) (s : State) : State :=
  match p with
  | .terminal => s.setPi { s.pi with terminal := x }
  | .uplink => s.setPi { s.pi with uplink := x }
  | .service => s.setPi { s.pi with service := x }

/-- The request slots of a port (R198). -/
def portSlots : Port → Nat
  | .terminal => 4
  | .uplink => 8
  | .service => 4

/-- The tags a port's slots hold (R198). -/
def heldTags (q : PortState) : List Nat := q.unfinished.map Prod.fst ++ q.finished.map Reply.tag

/-- A reply is finished: its slot becomes FINISHED and joins the end of the finished list (R198). -/
def finishReply (p : Port) (r : Reply) (s : State) : State :=
  let q := getPort p s
  setPort p { q with unfinished := q.unfinished.filter (fun u => u.1 ≠ r.tag),
                     finished := q.finished ++ [r] } s

/-- Set one event notice in a notice set. -/
def putEvent (k : EventKind) (b : Bool) (e : EventNotices) : EventNotices :=
  match k with
  | .stationChanged => { e with stationChanged := b }
  | .linkDown => { e with linkDown := b }
  | .orderEnded => { e with orderEnded := b }
  | .faultAlert => { e with faultAlert := b }
  | .watchHit => { e with watchHit := b }
  | .restarted => { e with restarted := b }

/-- An event notice is set on a port. One set while a NOTICE_READ answer is being clocked out stays set
when that answer ends (R201). -/
def setEvent (p : Port) (k : EventKind) (s : State) : State :=
  let q := getPort p s
  setPort p { q with events := putEvent k true q.events, reported := putEvent k false q.reported } s

/-! ### The retained store's write list -/

/-- Enter a record handed in this step: after every entry of an earlier step, in R172's order among
those that entered in this step, and after those of its own rank (DESIGN CHOICE, assumption 48). -/
def insertEntry (e : WriteEntry) : List WriteEntry → List WriteEntry
  | [] => [e]
  | x :: t =>
    if x.entered = e.entered ∧ placeRank e.place < placeRank x.place then e :: x :: t
    else x :: insertEntry e t

/-- A record handed while its place has an entry replaces that entry's content (R172). -/
def putEntry (step : Nat) (p : Place) (c : Content) (l : List WriteEntry) : List WriteEntry :=
  if l.any (fun x => x.place = p) then
    l.map fun x => if x.place = p then { x with content := c, handed := step } else x
  else insertEntry { place := p, content := c, entered := step, handed := step } l

/-- An owner hands a record to the RS to be written (R172). -/
def hand (p : Place) (c : Content) (s : State) : State :=
  s.setRs { s.rs with writeList := putEntry s.rs.stepNo p c s.rs.writeList }

/-- Whether a place has an entry in the write list (R172). -/
def inWriteList (p : Place) (s : State) : Bool := s.rs.writeList.any fun x => x.place = p

/-- The words a place of the array holds. -/
def cellOf (p : Place) (s : State) : List Content :=
  (assocGet (placeBase p) s.rs.array).getD (coldCell p)

/-- The array with a place's words put, keeping its canonical form: rising addresses, and no entry
equal to the place's cold words. -/
def putCell (p : Place) (c : List Content) (a : List (Nat × List Content)) :
    List (Nat × List Content) :=
  if c = coldCell p then assocDel (placeBase p) a else assocPut (placeBase p) c a

/-- The array's canonical form. -/
def arrayWf (a : List (Nat × List Content)) : Bool :=
  assocSorted a &&
    allPlaces.all fun p => decide (assocGet (placeBase p) a ≠ some (coldCell p))

/-- The words in error without those of a place. -/
def clearErrors (addresses : List Nat) (e : List (Nat × WordError)) : List (Nat × WordError) :=
  addresses.foldl (fun e w => assocDel w e) e

/-- How a word reads against its check bits (R173); none is clean. -/
def errorAt (w : Nat) (s : State) : Option WordError := assocGet w s.rs.errors

/-- The first word of a place that reads a double-bit error, if any. -/
def firstDouble (p : Place) (s : State) : Option Nat :=
  (placeAddresses p).find? fun w => errorAt w s = some .double

/-- Whether a word is another than the one written (R173). -/
def isGarbled : Content → Bool
  | .garbled _ => true
  | _ => false

/-- The class of a fault kind (R152). -/
def faultClass : FaultKind → FaultClass
  | .lockJam | .dockSilent | .dockReturned | .tagReadFail | .tagDuplicate | .riderDockReport => .dock
  | .tagWriteFail | .riderBikeReport | .bikeUnaccounted => .bike
  | .linkDown | .storeWeakRow | .storeDamaged | .orderAborted | .clockSkew => .station

/-- What a word of a record is a word of; a garbled word is one of a free record (DESIGN CHOICE, assumption
35). -/
def spelledWord (p : Place) (l : List Content) (i : Nat) : Content :=
  match (l[i]?).getD .blank with
  | .garbled v => (Config.garbledWord p i v).getD .blank
  | x => x

/-- The report that a word is of. -/
def reportIn : Content → Option Report
  | .report r => some r
  | _ => none

/-- The fault record that a word is of. -/
def faultIn : Content → Option FaultRecord
  | .fault r => some r
  | _ => none

/-- A report place whose words are of several records, or of none: the sequence is that of its first word,
or else of its commit word, the kind that of its second word, or else of the word before the commit word
(R171), and the rest is free. With no record in the first and the commit word it is none (DESIGN CHOICE,
assumption 24). -/
def mixedReport (p : Place) (l : List Content) : Content :=
  let word := fun i => reportIn (spelledWord p l i)
  match (word 0).or (word 9) with
  | none => .blank
  | some own =>
    let free := ((Config.mixedContent p l).bind reportIn).getD own
    .report { free with
      seq := own.seq, kind := (((word 1).or (word 8)).map Report.kind).getD free.kind }

/-- A fault place whose words are of several records, or of none: the sequence and the class are those of
its first word, or else of its commit word (R171), and the rest is free. With no record in either it is
none (DESIGN CHOICE, assumption 24). -/
def mixedFault (p : Place) (l : List Content) : Content :=
  let word := fun i => faultIn (spelledWord p l i)
  match (word 0).or (word 4) with
  | none => .blank
  | some own =>
    let free := ((Config.mixedContent p l).bind faultIn).getD own
    .fault { free with
      seq := own.seq,
      kind := if faultClass free.kind = faultClass own.kind then free.kind else own.kind }

/-- What a record's words spell that are of several records, or of none: a free value, but for what R171
gives words of their own (DESIGN CHOICE, assumptions 24 and 35). -/
def mixedWords (p : Place) (l : List Content) : Content :=
  match p with
  | .report _ => mixedReport p l
  | .fault _ => mixedFault p l
  | _ => (Config.mixedContent p l).getD .blank

/-- The content that a record's words spell: that of its words where they are of one record. -/
def wordsContent (p : Place) (l : List Content) : Content :=
  match l with
  | [] => coldContent p
  | x :: t => if !isGarbled x && t.all (fun y => decide (y = x)) then x else mixedWords p l

/-- The content a read of a place returns (R172): the content handed while its entry waits, and the
array's words otherwise. -/
def readContent (p : Place) (s : State) : Content :=
  match s.rs.writeList.find? fun x => x.place = p with
  | some e => e.content
  | none => wordsContent p (cellOf p s)

/-- The content of a place that reads clean or corrected (R122, R176). -/
def readable (p : Place) (s : State) : Option Content :=
  if inWriteList p s ∨ (firstDouble p s).isNone then some (readContent p s) else none

/-! ### Hand-over of each owner's records -/

/-- Hand a two-copy record: copy A, then copy B (R172). -/
def handBoth (p : Fin 2 → Place) (c : Content) (s : State) : State := hand (p 1) c (hand (p 0) c s)

/-- SC hands the station record. -/
def handStation (s : State) : State := handBoth .station (.station s.sc.station) s

/-- SC hands a configuration value. -/
def handConfig (i : ConfigItem) (s : State) : State :=
  hand (.config i) (.config (configValue s.sc.config i)) s

/-- FLT hands a policy. -/
def handPolicy (k : FaultKind) (s : State) : State :=
  hand (.policy k) (.policy (vget s.flt.policies (faultIndex k))) s

/-- WOE hands a floor. -/
def handFloor (k : OrderKind) (s : State) : State :=
  hand (.floor k) (.floor (vget s.woe.floors (orderIndex k))) s

/-- WOE hands a crew place. -/
def handCrew (i : Fin 16) (s : State) : State := hand (.crew i) (.crew (vget s.woe.crews i)) s

/-- FU hands a plan. -/
def handPlan (p : Fin 16) (s : State) : State := hand (.plan p) (.plan (vget s.fu p)) s

/-- The queue head as it stands (R122). -/
def queueHeadOf (s : State) : QueueHead :=
  { nextSeq := s.rq.nextSeq, readMark := s.rq.readMark, oldest := s.rq.oldestPlace,
    count := s.rq.held.length }

/-- RQ hands the queue head. -/
def handQueueHead (s : State) : State := handBoth .queueHead (.queueHead (queueHeadOf s)) s

/-- RQ hands the held record `i`. -/
def handReport (i : Nat) (s : State) : State :=
  match s.rq.held[i]? with
  | some r => hand (.report (reportRing s.rq.oldestPlace i)) (.report r) s
  | none => s

/-- The fault log head as it stands (R171). -/
def faultHeadOf (s : State) : FaultHead :=
  { nextSeq := s.flt.nextSeq, oldest := s.flt.oldestPlace, count := s.flt.log.length,
    lost := s.flt.lost }

/-- FLT hands the fault log head. -/
def handFaultHead (s : State) : State := handBoth .faultHead (.faultHead (faultHeadOf s)) s

/-- FLT hands the logged record `i`. -/
def handFault (i : Nat) (s : State) : State :=
  match s.flt.log[i]? with
  | some r => hand (.fault (faultRing s.flt.oldestPlace i)) (.fault r) s
  | none => s

/-- FLT hands the registry head. -/
def handRegistryHead (s : State) : State :=
  handBoth .registryHead (.registryHead s.flt.registry.length) s

/-- FLT hands registry place `i`: the entry there, or bike id 0 when the place is free. -/
def handFlag (i : Nat) (s : State) : State := hand (.flag (flagPlace i)) (.flag s.flt.registry[i]?) s

/-! ### The dock table -/

/-- A dock's record. -/
def dockOf (d : DockNo) (s : State) : DockRecord := vget s.dlc.docks d

/-- A dock's line state. -/
def lineOf (d : DockNo) (s : State) : LineState := vget s.dlc.lines d

/-- Put a dock's line state. -/
def setLine (d : DockNo) (l : LineState) (s : State) : State :=
  s.setDlc { s.dlc with lines := vset s.dlc.lines d l }

/-- Every dock, lowest first. -/
def allDocks : List DockNo := finList 48

/-- The docks from first to last, ascending. -/
def dockRange (first last : Nat) : List DockNo :=
  allDocks.filter fun d => decide (first ≤ d.val ∧ d.val ≤ last)

/-- What the store keeps of a dock record (R171). -/
def retainedOf (r : DockRecord) : RetainedDock :=
  { state := r.state, suspended := r.suspended, bike := r.bike, faults := r.faults,
    lastArrival := r.lastArrival }

/-- Whether a dock is to be inhibited (R6). -/
def toInhibit (r : DockRecord) : Bool :=
  match r.state with
  | .vacant => r.suspended
  | .parked => true
  | .jammed => r.bike.isNone
  | _ => false

/-- Whether a dock record has an ACTUATION deadline (R13). -/
def actuating (r : DockRecord) : Bool :=
  match r.deadline with
  | some (.actuation _ _) => true
  | _ => false

/-- A dock's counted claim by its record (R111). -/
def claimOf (r : DockRecord) : Nat :=
  match r.state with
  | .vacant => if r.suspended then 0 else 1
  | .docked => 0
  | .unlocking | .offered | .relocking => if r.suspended then 1 else 2
  | .jammed => if r.bike.isSome then 1 else 0
  | .absent => 0
  | .parked => if actuating r then 1 else 0

/-- The kind of a dock line command, for R8's one command of each kind. -/
def commandKind : Command → Nat
  | .poll => 0
  | .release _ => 1
  | .relock _ _ => 2
  | .accept _ => 3
  | .mark _ => 4
  | .inhibit _ => 5

/-- A command placed among the waiting commands: in place of the one of its kind, or last (R8). -/
def placeIn (c : Command) (l : List Command) : List Command :=
  if l.any (fun x => commandKind x = commandKind c) then
    l.map fun x => if commandKind x = commandKind c then c else x
  else l ++ [c]

/-- A command is placed among a dock's waiting commands (R8). -/
def placeCommand (d : DockNo) (c : Command) (s : State) : State :=
  setLine d { lineOf d s with waiting := placeIn c (lineOf d s).waiting } s

/-- The inhibit follows the record of a surveyed dock (R6). -/
def followInhibit (d : DockNo) (old new : DockRecord) (s : State) : State :=
  if (lineOf d s).surveyed then
    if toInhibit new && !toInhibit old then placeCommand d (.inhibit true) s
    else if toInhibit old && !toInhibit new && decide (new.state ≠ .absent) then
      placeCommand d (.inhibit false) s
    else s
  else s

/-- RQ sets a dock's counted claim and the claim total (R111). -/
def countClaim (d : DockNo) (n : Nat) (s : State) : State :=
  let claims := vset s.rq.claims d n
  s.setRq { s.rq with claims := claims, claimTotal := claims.toList.sum }

/-- DLC hands a dock's record. -/
def handDock (d : DockNo) (s : State) : State := hand (.dock d) (.dock (retainedOf (dockOf d s))) s

/-- The DLC makes a change of a dock record: the claim is counted in the same step (R111), the inhibit
follows (R6), and the record is handed to the store when what the store keeps of it changed (R172). -/
def putDock (d : DockNo) (r : DockRecord) (s : State) : State :=
  let old := dockOf d s
  let s := s.setDlc { s.dlc with docks := vset s.dlc.docks d r }
  let s := countClaim d (claimOf r) s
  let s := followInhibit d old r s
  if retainedOf r = retainedOf old then s else handDock d s

/-- The dock, if any, whose record names a bike id that is not 0 (R1). -/
def dockNaming (bike : Nat) (s : State) : Option DockNo :=
  if bike = 0 then none
  else allDocks.find? fun d => decide ((dockOf d s).bike.map Bike.id = some bike)

/-- The kind of a holder. -/
def holderKind : Holder → HolderKind
  | .hire _ _ => .hire
  | .order _ _ _ => .order

/-! ### Fault sets -/

/-- Put one kind of a fault set; kinds of class BIKE and STATION have no place in it (R154). -/
def FaultSet.put (k : FaultKind) (b : Bool) (f : FaultSet) : FaultSet :=
  match k with
  | .lockJam => { f with lockJam := b }
  | .dockSilent => { f with dockSilent := b }
  | .dockReturned => { f with dockReturned := b }
  | .tagReadFail => { f with tagReadFail := b }
  | .tagDuplicate => { f with tagDuplicate := b }
  | .riderDockReport => { f with riderDockReport := b }
  | _ => f

/-- Whether a kind is in a fault set. -/
def FaultSet.has (k : FaultKind) (f : FaultSet) : Bool :=
  match k with
  | .lockJam => f.lockJam
  | .dockSilent => f.dockSilent
  | .dockReturned => f.dockReturned
  | .tagReadFail => f.tagReadFail
  | .tagDuplicate => f.tagDuplicate
  | .riderDockReport => f.riderDockReport
  | _ => false

/-- Enter a kind in a dock's fault set (R154, R155). -/
def enterFault (d : DockNo) (k : FaultKind) (s : State) : State :=
  let r := dockOf d s
  putDock d { r with faults := r.faults.put k true } s

/-! ### Suspension -/

/-- A suspend request (R4): suspended becomes yes whatever the state. The claim and the inhibit follow
the record. -/
def suspendDock (d : DockNo) (s : State) : State :=
  let r := dockOf d s
  if r.suspended then s else putDock d { r with suspended := true } s

end Sys2Proof.Machine
end

