-- ==== Sys2Proof/Machine/Flags.lean ====
section
/-! DEFINITION. The flags the part shows its masters: lost flags, condition notices, the notice bits of
a NOTICE_READ answer, the attention lines, and the ends of a step. -/

namespace Sys2Proof.Machine

/-- Set the lost flag of a class (R158). -/
def setLost (c : FaultClass) (l : LostFlags) : LostFlags :=
  match c with
  | .dock => { l with dock := true }
  | .bike => { l with bike := true }
  | .station => { l with station := true }

/-- A record of a class was dropped: its lost flag is set and the fault log head is handed (R158). -/
def loseRecord (c : FaultClass) (s : State) : State :=
  handFaultHead (s.setFlt { s.flt with lost := setLost c s.flt.lost })

/-- FILL_WANTED is pending while the fill queue holds a WAITING entry (R51). -/
def fillWanted (s : State) : Bool := s.cc.fills.any fun f => !f.fetched

/-- A sequence number's distance from the oldest held record (R109); with an empty queue the oldest
stands for the next sequence number. -/
def reportDistance (q : Nat) (s : State) : Nat :=
  let oldest := (s.rq.held.head?.map Report.seq).getD s.rq.nextSeq
  (q + 4294967296 - oldest % 4294967296) % 4294967296

/-- The number of held records already read (R116). -/
def readCount (s : State) : Nat := reportDistance s.rq.readMark s

/-- The number of held records at or after the read mark (R116). -/
def unreadCount (s : State) : Nat := s.rq.held.length - readCount s

/-- REPORTS_WAITING is pending while a held record lies at or after the read mark (R119). -/
def reportsWaiting (s : State) : Bool := decide (0 < unreadCount s)

/-- FAULTS_WAITING is pending while the log holds a record (R161). -/
def faultsWaiting (s : State) : Bool := !s.flt.log.isEmpty

/-- STORE_ERROR is pending while the capture is locked (R178). -/
def storeError (s : State) : Bool := s.rs.capture.locked

/-- The notices of a port in the order of its row of R201: event notices first, then condition
notices. -/
def noticeRow (p : Port) (e : EventNotices) (s : State) : List Bool :=
  match p with
  | .terminal => [e.stationChanged, e.restarted]
  | .uplink =>
    [e.linkDown, e.faultAlert, e.watchHit, e.restarted, fillWanted s, reportsWaiting s,
     faultsWaiting s, storeError s]
  | .service => [e.orderEnded, e.faultAlert, e.watchHit, e.restarted, faultsWaiting s]

/-- Bits as a number, bit 0 first. -/
def bitsToNat : List Bool → Nat
  | [] => 0
  | b :: t => (if b then 1 else 0) + 2 * bitsToNat t

/-- The 2-byte content of a NOTICE_READ answer (R204). -/
def noticeBytes (p : Port) (s : State) : List Byte :=
  let n := bitsToNat (noticeRow p (getPort p s).events s)
  [BitVec.ofNat 8 n, BitVec.ofNat 8 (n / 256)]

/-- Whether a port has a notice set or pending. -/
def anyNotice (p : Port) (s : State) : Bool := (noticeRow p (getPort p s).events s).any id

/-- The level R200 gives a port's attention line: asserted while the port has a finished reply or a
notice, and held released while the part is HALTED or in a start before its survey. -/
def attentionLevel (p : Port) (s : State) : Bool :=
  running s && (!(getPort p s).finished.isEmpty || anyNotice p s)

/-- Give a port's attention line its level. -/
def levelPort (p : Port) (s : State) : State :=
  setPort p { getPort p s with attention := attentionLevel p s } s

/-- The end of every step: the attention lines take their levels (R200), and a step that handed a
record closes its group of records (R172). -/
def endStep (s : State) : State :=
  let s := levelPort .service (levelPort .uplink (levelPort .terminal s))
  if s.rs.writeList.any (fun e => e.handed = s.rs.stepNo) then
    s.setRs { s.rs with stepNo := s.rs.stepNo + 1 }
  else s

/-- A command's step: its effect, and the end of the step. -/
def stepOf (f : State → State) (s : State) : Host.Outcome State Fault Refusal :=
  .next (endStep (f s))

/-- An event of the running part: while the part is HALTED, stopped, in a start before its survey or
without main power, it does not act (R182, R190). -/
def whileRunning (f : State → State) (s : State) : State := if running s then f s else s

end Sys2Proof.Machine
end

