-- ==== Sys2Proof/Machine/Formats.lean ====
section
/-! DEFINITION. The byte layouts of section 11.8: the check word, request and answer frames (R204), the
tag record (R205), the member record (R206) and the report record (R207); and the catalogue (R203). -/

namespace Sys2Proof.Machine

/-! ### Bytes -/

/-- A number in `k` bytes, least significant byte first. -/
def leBytes : Nat → Nat → List Byte
  | 0, _ => []
  | k + 1, n => BitVec.ofNat 8 n :: leBytes k (n / 256)

/-- The number that bytes spell, least significant byte first. -/
def leNat : List Byte → Nat
  | [] => 0
  | b :: t => b.toNat + 256 * leNat t

/-- The number in the bytes from `i` on, `k` of them. -/
def field (b : List Byte) (i k : Nat) : Nat := leNat ((b.drop i).take k)

/-- Four bytes read as signed two's complement (R206). -/
def signed32 (n : Nat) : Int := if n < 2147483648 then (n : Int) else (n : Int) - 4294967296

/-- A signed number in four bytes. -/
def signedBytes (x : Int) : List Byte := leBytes 4 (x % 4294967296).toNat

/-- One bit shifted through the check register: polynomial x^16 + x^12 + x^5 + 1 (R204). -/
def checkShift (c : BitVec 16) : BitVec 16 := if c.msb then (c <<< 1) ^^^ 0x1021#16 else c <<< 1

/-- One byte entered in the check register, most significant bit first (R204). -/
def checkByte (c : BitVec 16) (b : Byte) : BitVec 16 :=
  (List.range 8).foldl (fun c _ => checkShift c) (c ^^^ ((b.zeroExtend 16) <<< 8))

/-- The check word over bytes: a register started at all ones, no final inversion (R204). -/
def checkWord (b : List Byte) : BitVec 16 := b.foldl checkByte 0xFFFF#16

/-! ### The catalogue (R203) -/

/-- The request kinds in the catalogue's order; READ is 1. -/
def catalogue : List RequestKind :=
  [.read, .noticeRead, .portClear, .hire, .cancel, .stationView, .quote, .fillFetch, .fillAnswer,
   .cardPush, .cardInvalidate, .cacheFlush, .cacheMode, .linkState, .reportRead, .reportRelease,
   .tariffLoad, .tariffDrop, .crewLoad, .crewDrop, .floorSet, .orderSubmit, .orderStatus,
   .orderAbort, .policySet, .faultRead, .faultDiscard, .dockFaultRead, .bikeFlag, .bikeClear,
   .bikeFlagRead, .watchSet, .watchDrop, .watchClearHits, .watchRead, .storeStatus, .storeClear,
   .timeSet, .stationIdSet, .stationMode, .configSet, .configRead, .stationStatus,
   .stationRestart]

/-- The kind a kind byte names; 0 and numbers above 44 name none. -/
def kindOf (n : Nat) : Option RequestKind := if n = 0 then none else catalogue[n - 1]?

/-- The kind byte of a kind. -/
def kindCode (k : RequestKind) : Nat := catalogue.idxOf k + 1

/-- Whether a kind is served on a port. -/
def served (k : RequestKind) (p : Port) : Bool :=
  match k with
  | .read | .noticeRead | .portClear => true
  | .hire | .cancel | .stationView | .quote => decide (p = .terminal)
  | .orderSubmit | .orderStatus | .orderAbort => decide (p = .service)
  | .faultRead | .faultDiscard | .dockFaultRead | .bikeFlagRead | .watchSet | .watchDrop
  | .watchClearHits | .watchRead | .stationMode | .configRead | .stationStatus =>
    decide (p ≠ .terminal)
  | _ => decide (p = .uplink)

/-- Whether a kind takes no slot (R198). -/
def slotless : RequestKind → Bool
  | .read | .noticeRead | .portClear => true
  | _ => false

/-! ### The tag record (R205) -/

/-- An authorisation kind as the layouts number it. -/
def authCode : AuthKind → Nat
  | .online => 0
  | .stale => 1
  | .offlineUnknown => 2

/-- The authorisation kind of a number; 3 is none. -/
def authOf : Nat → Option AuthKind
  | 0 => some .online
  | 1 => some .stale
  | 2 => some .offlineUnknown
  | _ => none

/-- The 16 stamp bytes of a tag record (bytes 5 to 20); zero without a stamp. -/
def stampBytes : Option Stamp → List Byte
  | none => List.replicate 16 0
  | some t =>
    leBytes 2 t.origin ++ leBytes 2 t.trip ++ leBytes 7 t.card ++ leBytes 4 t.start
      ++ [BitVec.ofNat 8 (t.plan % 16 + 16 * authCode t.auth)]

/-- The 23 bytes of a tag record (R205). -/
def tagBytes (bike : Nat) (mark : Bool) (stamp : Option Stamp) : List Byte :=
  let b := leBytes 4 bike
    ++ [BitVec.ofNat 8 ((if mark then 1 else 0) + (if stamp.isSome then 2 else 0))]
    ++ stampBytes stamp
  b ++ leBytes 2 (checkWord b).toNat

/-- A tag record as the DLC judges it (R25): unreadable when the dock reports it so, or when it holds
bike id 0 or, with a stamp, origin 0, card 0 or an authorisation kind other than the three. The dock
has verified the tag's own check. -/
def tagReading : Option (List Byte) → TagReading
  | none => .unreadable
  | some b =>
    if b.length ≠ 23 ∨ field b 0 4 = 0 then .unreadable
    else
      let bits := field b 4 1
      let mark := decide (bits % 2 = 1)
      if bits / 2 % 2 = 0 then .readable (field b 0 4) mark none
      else
        match authOf (field b 20 1 / 16 % 4) with
        | none => .unreadable
        | some a =>
          if field b 5 2 = 0 ∨ field b 9 7 = 0 then .unreadable
          else .readable (field b 0 4) mark
            (some { origin := field b 5 2, trip := field b 7 2, card := field b 9 7,
                    start := field b 16 4, plan := field b 20 1 % 16, auth := a })

/-- The bike id of a reading; 0 when unreadable. -/
def readingBike : TagReading → Nat
  | .unreadable => 0
  | .readable b _ _ => b

/-- The tag mark of a reading; set when unreadable (R32). -/
def readingMark : TagReading → Bool
  | .unreadable => true
  | .readable _ m _ => m

/-- The stamp of a reading. -/
def readingStamp : TagReading → Option Stamp
  | .unreadable => none
  | .readable _ _ t => t

/-! ### The member record (R206) -/

/-- The 19 bytes of a member record. -/
def memberBytes (m : MemberRecord) : List Byte :=
  leBytes 7 m.card ++ leBytes 1 m.standing ++ leBytes 1 m.plan ++ signedBytes m.balance
    ++ leBytes 1 m.hireLimit ++ leBytes 1 m.baseOpen ++ leBytes 4 m.baseMark

/-- The member record that 19 bytes spell. -/
def memberOf (b : List Byte) : Option MemberRecord :=
  if b.length = 19 then
    some { card := field b 0 7, standing := field b 7 1, plan := field b 8 1,
           balance := signed32 (field b 9 4), hireLimit := field b 13 1, baseOpen := field b 14 1,
           baseMark := field b 15 4 }
  else none

/-- The standing of a member record's number (R206). -/
def standingOf : Nat → Option Standing
  | 1 => some .active
  | 2 => some .expired
  | 3 => some .barred
  | _ => none

/-! ### The report record (R207) -/

/-- A report kind as the layout numbers it; 0 is UNKNOWN. -/
def reportKindCode : Option ReportKind → Nat
  | none => 0
  | some .departure => 1
  | some .arrival => 2
  | some .moveOut => 3
  | some .moveIn => 4
  | some .strayIn => 5
  | some .removed => 6

/-- The flags byte, bit 0 to bit 7. -/
def reportFlagBits (f : ReportFlags) : List Bool :=
  [f.timeInvalid, f.fare.skew, f.fare.clamped, f.fare.redock, f.fare.saturated,
   f.fare.planMissing, f.clearFailed, f.damaged]

/-- Time, dock and bike, with the dock first as the layout has it. -/
def reportPlaceBytes : Option ReportPlace → List Byte
  | none => List.replicate 9 0
  | some p => leBytes 1 p.dock.val ++ leBytes 4 p.time ++ leBytes 4 p.bike

/-- The fare's two bytes. -/
def fareBytes : Option Nat → List Byte
  | none => List.replicate 2 0
  | some n => leBytes 2 n

/-- The move part's three bytes: bit 7 the slot, bits 0 to 4 the index. -/
def moveBytes : Option MovePart → List Byte
  | none => List.replicate 3 0
  | some m => leBytes 2 m.crew ++ leBytes 1 (m.slot.val * 128 + m.index % 32)

/-- The 40 bytes of a report record as REPORT_READ returns it (R207). -/
def reportBytes (r : Report) : List Byte :=
  leBytes 4 r.seq ++ leBytes 1 (reportKindCode r.kind)
    ++ leBytes 1 (bitsToNat (reportFlagBits r.flags))
    ++ leBytes 1 (bitsToNat [r.hire.isSome, r.fare.isSome, r.move.isSome, r.place.isSome])
    ++ reportPlaceBytes r.place ++ stampBytes r.hire ++ fareBytes r.fare ++ moveBytes r.move
    ++ List.replicate 3 0

/-! ### Frames (R204) -/

/-- A request frame: tag, kind, length, body and check word. -/
def requestFrame (tag kind : Nat) (body : List Byte) : List Byte :=
  let b := BitVec.ofNat 8 tag :: BitVec.ofNat 8 kind :: BitVec.ofNat 8 body.length :: body
  b ++ leBytes 2 (checkWord b).toNat

/-- An acceptance code's byte. -/
def acceptanceCode : Acceptance → Nat
  | .accepted => 1
  | .full => 2
  | .badCheck => 3
  | .badForm => 4
  | .dupTag => 5
  | .notOnPort => 6
  | .powerFail => 7

/-- The outcomes in the table's order (section 11.7); DONE is 1. -/
def outcomeTable : List ReplyOutcome :=
  [.done, .released, .releaseFailed, .cancelled, .denied, .backlog, .noBike, .retry,
   .notInService, .notCommissioned, .pending, .tooLate, .noSuchTag, .placed, .refreshed, .notKept,
   .discarded, .notFoundTaken, .badMode, .noSuchRecord, .notRead, .loaded, .dropped, .notDefined,
   .added, .replaced, .tableFull, .noSuchCrew, .submitted, .unknownCrew, .badOrder, .slotsFull,
   .aborted, .notActive, .notPermitted, .fixed, .entered, .present, .registryFull, .removed,
   .notPresent, .set, .owned, .cleared]

/-- An outcome's byte. -/
def outcomeCode (o : ReplyOutcome) : Nat := outcomeTable.idxOf o + 1

/-- The bytes of a reply body, where section 11.8 gives its layout. -/
def bodyBytes : Body → Option (List Byte)
  | .empty => some []
  | .bytes b => some b
  | _ => none

/-- A reply as a READ carries it: tag, kind, outcome, body length and body (R204). -/
def replyBytes (r : Reply) : Option (List Byte) :=
  (bodyBytes r.body).map fun b =>
    leBytes 1 r.tag ++ leBytes 1 (kindCode r.kind) ++ leBytes 1 (outcomeCode r.outcome)
      ++ leBytes 1 b.length ++ b

/-- The content bytes of an answer, where section 11.8 gives their layout. The number of slots withdrawn,
to which R204 gives no width, takes 1 byte (DESIGN CHOICE, assumption 45). -/
def contentBytes : AnswerContent → Option (List Byte)
  | .nothing => some []
  | .reply none _ => some []
  | .reply (some r) _ => replyBytes r
  | .notices b => some b
  | .withdrawn n => some (leBytes 1 n)

/-- The bytes of an answer frame with a content of given layout. -/
def answerFrame (a : Answer) : Option (List Byte) :=
  (contentBytes a.content).map fun c =>
    let b := leBytes 1 (acceptanceCode a.code) ++ leBytes 1 a.tag ++ leBytes 1 a.kind
      ++ leBytes 1 c.length ++ c
    b ++ leBytes 2 (checkWord b).toNat

end Sys2Proof.Machine
end

