-- ==== Sys2Proof/Machine/Operands.lean ====
section
/-! DEFINITION. The form of each request's operands: check 4 of R197, request by request as the owning
rules give it, and the form of a raw body where section 11.8 gives its layout. -/

namespace Sys2Proof.Machine

/-- A card number (00_scope): 1 to 2^56 − 1. -/
def cardInForm (k : Nat) : Bool := decide (0 < k ∧ k < 72057594037927936)

/-- A bike id that a request may name (R165). -/
def bikeInForm (b : Nat) : Bool := decide (0 < b ∧ b ≤ 4294967295)

/-- A member record in form (R206): card number not 0, standing 1 to 3, plan at most 15. -/
def memberInForm (m : MemberRecord) : Bool :=
  cardInForm m.card && decide (1 ≤ m.standing ∧ m.standing ≤ 3 ∧ m.plan ≤ 15)

/-- HIRE (R65). -/
def hireInForm (card : Nat) (dock : DockRequest) (plan : Option Nat) : Bool :=
  cardInForm card
    && (match dock with
        | .any => true
        | .dock n => decide (n < 48))
    && (match plan with
        | none => true
        | some p => decide (p ≤ 15))

/-- QUOTE (R90). -/
def quoteInForm (plan minutes : Nat) : Bool := decide (plan ≤ 15 ∧ minutes ≤ 10080)

/-- CREW_LOAD (R125): the dock map is one of 48 permit indications. -/
def crewInForm (crew level : Nat) (permits : List Bool) : Bool :=
  decide (0 < crew ∧ crew ≤ 65535 ∧ level ≤ 2 ∧ permits.length = 48)

/-- A watch slot (R170). -/
def watchSlotInForm (slot : Nat) : Bool := decide (slot ≤ 3)

/-- WATCH_SET (R170). -/
def watchInForm (slot base span : Nat) : Bool :=
  watchSlotInForm slot && decide (base ≤ 47) && decide (span = 1 ∨ span = 2 ∨ span = 4 ∨ span = 8)

/-- Whether an item is yes-or-no (R188). -/
def yesNoItem : ConfigItem → Bool
  | .offlineUnknownAllowed => true
  | .serviceMaySetMode => true
  | _ => false

/-- CONFIG_SET (R188): a yes-or-no item takes yes or no, a numeric item a number. -/
def configInForm (item : ConfigItem) (v : ConfigValue) : Bool :=
  match v with
  | .num _ => !yesNoItem item
  | .yesNo _ => yesNoItem item

/-- Whether a kind's body is empty, because its request has no arguments. -/
def argumentless : RequestKind → Bool
  | .noticeRead | .portClear | .stationView | .fillFetch | .cacheFlush | .dockFaultRead | .watchRead
  | .storeStatus | .configRead | .stationStatus => true
  | _ => false

/-- The form of a raw body (R197, check 4; R206): READ's is empty or holds its option (R199). -/
def rawBodyInForm (k : RequestKind) (body : List Byte) : Bool :=
  if argumentless k then body.isEmpty
  else
    match k with
    | .read => body.isEmpty || Config.bodyInForm k body
    | .cardPush => (memberOf body).any memberInForm
    | .fillAnswer =>
      decide (body.length = 20) &&
        (if field body 0 1 = 1 then (memberOf (body.drop 1)).any memberInForm
         else if field body 0 1 = 2 then cardInForm (field body 1 7)
         else false)
    | _ => Config.bodyInForm k body

end Sys2Proof.Machine
end

