-- ==== Sys2Proof/Machine/Faults.lean ====
section
/-! DEFINITION. The Fault Unit's handling of a raising: watches, policies, fault sets, the fault log and
its lost flags (R151 to R158, R161, R167, R168). Reading the policy and the log's head from the store,
which comes first, is in Store.lean. -/

namespace Sys2Proof.Machine

/-- A fault raising as a block hands it to the FLT (R153). -/
structure Raising where
  kind : FaultKind
  dock : Option DockNo
  bike : Option Nat
  detail : FaultDetail
  deriving DecidableEq, Repr

/-- Whether a dock lies in a watch's range: the aligned block of its span that holds its base (R167). -/
def watchCovers (w : Watch) (d : DockNo) : Bool :=
  let first := w.base - w.base % w.span
  decide (first ≤ d.val ∧ d.val < first + w.span)

/-- Whether a dock event matches a watch (R168). -/
def watchMatches (w : Watch) (c : WatchCond) (d : DockNo) : Bool :=
  watchCovers w d && (decide (w.cond = c) || decide (w.cond = .any))

/-- A dock event is matched against one watch slot (R168). -/
def matchWatch (c : WatchCond) (d : DockNo) (s : State) (i : Fin 4) : State :=
  match vget s.flt.watches i with
  | none => s
  | some w =>
    if watchMatches w c d then
      let s := s.setFlt { s.flt with watches := vset s.flt.watches i (some { w with hit := true }) }
      if w.enabled then setEvent w.owner .watchHit s else s
    else s

/-- The DLC reports a dock event to the FLT for the watches (R168). -/
def dockEvent (c : WatchCond) (d : DockNo) (s : State) : State :=
  (finList 4).foldl (matchWatch c d) s

/-- Whether an enabled HOLD watch covers a dock (R169). -/
def held (d : DockNo) (s : State) : Bool :=
  s.flt.watches.toList.any fun o =>
    match o with
    | none => false
    | some w => w.enabled && decide (w.action = .hold) && watchCovers w d

/-- A raising is logged: it takes the next fault sequence and is appended, or, on a full log, is dropped
with its class's lost flag set (R157). -/
def logFault (r : Raising) (s : State) : State :=
  if 32 ≤ s.flt.log.length then loseRecord (faultClass r.kind) s
  else
    let f : FaultRecord :=
      { seq := s.flt.nextSeq, kind := r.kind, time := stationTime s, dock := r.dock,
        bike := r.bike.filter fun b => decide (b ≠ 0), detail := r.detail }
    let n := s.flt.log.length
    let s := s.setFlt
      { s.flt with log := s.flt.log ++ [f], nextSeq := (s.flt.nextSeq + 1) % 65536 }
    handFault n (handFaultHead s)

/-- A raising of class DOCK is entered in its dock's fault set (R154). -/
def enterRaising (r : Raising) (s : State) : State :=
  match r.dock with
  | some d => if faultClass r.kind = .dock then enterFault d r.kind s else s
  | none => s

/-- FAULT_ALERT is set on the Uplink and Service ports (R161). -/
def faultAlert (s : State) : State := setEvent .service .faultAlert (setEvent .uplink .faultAlert s)

/-- The SUSPEND policy suspends the dock of a DOCK class raising (R154). -/
def suspendRaising (r : Raising) (s : State) : State :=
  match r.dock with
  | some d => if faultClass r.kind = .dock then suspendDock d s else s
  | none => s

/-- What a policy does with a raising (R154). -/
def policyAction (p : Policy) (r : Raising) (s : State) : State :=
  match p with
  | .ignore => s
  | .log => enterRaising r (logFault r s)
  | .logNotify => faultAlert (enterRaising r (logFault r s))
  | .suspend => suspendRaising r (faultAlert (enterRaising r (logFault r s)))

/-- The fault set entries made whatever the policy (R155): LOCK_JAM at its dock, and DOCK_RETURNED at a
PARKED dock. -/
def fixedEntries (r : Raising) (s : State) : State :=
  match r.dock with
  | none => s
  | some d =>
    if r.kind = .lockJam then enterFault d .lockJam s
    else if r.kind = .dockReturned ∧ (dockOf d s).state = .parked then enterFault d .dockReturned s
    else s

/-- The policy in force for a kind (R152). -/
def policyOf (k : FaultKind) (s : State) : Policy := vget s.flt.policies (faultIndex k)

/-- The watches are told of a raising that names a dock, whatever its policy (R153, step 1). -/
def watchRaising (r : Raising) (s : State) : State :=
  match r.dock with
  | some d => dockEvent .fault d s
  | none => s

/-- A raising once the store has been read for its policy and the log's head: policy, then fixed entries
(R153, steps 2 and 3). -/
def raiseRead (r : Raising) (s : State) : State :=
  fixedEntries r (policyAction (policyOf r.kind s) r s)

end Sys2Proof.Machine
end

