-- ==== Sys2Proof/Machine/Store.lean ====
section
/-! DEFINITION. The Retained Store: reading words against their check bits, the weak row map, the
capture, the effects of damage on each collection, the rebuilding of heads, record writes, and the
writes that a power failure cuts short (R173 to R178, R180, R181, R121, R122, R158). -/

namespace Sys2Proof.Machine

/-! ### What owners hold of each collection -/

/-- The number of a held report at a place, if the place is held (R171). -/
def heldReportAt (n : Fin 96) (s : State) : Option Nat :=
  let i := reportOffset s.rq.oldestPlace n
  if i < s.rq.held.length then some i else none

/-- The number of a logged fault record at a place, if the place is held (R171). -/
def heldFaultAt (n : Fin 32) (s : State) : Option Nat :=
  let i := faultOffset s.flt.oldestPlace n
  if i < s.flt.log.length then some i else none

/-- Whether a place's words are free words: a report, fault or registry place outside the held records
of its collection (R171). -/
def freePlace (p : Place) (s : State) : Bool :=
  match p with
  | .report n => (heldReportAt n s).isNone
  | .fault n => (heldFaultAt n s).isNone
  | .flag n => decide (s.flt.registry.length ≤ n.val)
  | _ => false

/-- The other copy of a two-copy record. -/
def otherCopy : Place → Option Place
  | .station c => some (.station (1 - c))
  | .queueHead c => some (.queueHead (1 - c))
  | .faultHead c => some (.faultHead (1 - c))
  | .registryHead c => some (.registryHead (1 - c))
  | _ => none

/-! ### Single-bit errors (R173, R174) -/

/-- The raising of a kind of class STATION. -/
def stationRaising (k : FaultKind) (d : FaultDetail) : Raising :=
  { kind := k, dock := none, bike := none, detail := d }

/-- A corrected word: its write-back waits, and its row is marked weak, or raises STORE_WEAK_ROW when it
is already marked (R173, R174). -/
def correctWord (raise : Raising → State → State) (w : Nat) (s : State) : State :=
  let s := s.setRs { s.rs with errors := assocPut w .corrected s.rs.errors }
  let r : Fin 64 := ⟨w / 64 % 64, Nat.mod_lt _ (by decide)⟩
  if vget s.rs.weakRows r then raise (stationRaising .storeWeakRow (.storeWeakRow r.val)) s
  else s.setRs { s.rs with weakRows := vset s.rs.weakRows r true }

/-- The write-back of a corrected word has been made: it is before any later read of the word (R173). -/
def settleWord (w : Nat) (s : State) : State :=
  s.setRs { s.rs with errors := assocDel w s.rs.errors }

/-- What a read of a word finds to correct: a single-bit error is corrected, and a write-back that
waited has been made. -/
def soundWord (raise : Raising → State → State) (s : State) (w : Nat) : State :=
  match errorAt w s with
  | some .single => correctWord raise w s
  | some .corrected => settleWord w s
  | _ => s

/-- Records are read for what they have to correct; those with an entry in the write list are not
checked (R172). -/
def soundPlaces (raise : Raising → State → State) (ps : List Place) (s : State) : State :=
  (ps.filter fun p => !inWriteList p s).foldl
    (fun s p => (placeAddresses p).foldl (soundWord raise) s) s

/-- The write-backs that wait are abandoned: such a word keeps its single-bit error, unless its
write-back has been made by then (R173). -/
def abandonWriteBacks (s : State) : State :=
  s.setRs { s.rs with
    errors := s.rs.errors.filterMap (fun e =>
      if e.2 ≠ .corrected then some e
      else if Config.writeBackMade s.rs.stepNo e.1 then none else some (e.1, .single)),
    stepNo := if s.rs.errors.any (fun e => e.2 = .corrected) then s.rs.stepNo + 1
      else s.rs.stepNo }

/-! ### The capture (R178) -/

/-- A double-bit error acts on the capture; the collection is none for a free word. -/
def captureError (c : Option Collection) (w : Nat) (s : State) : State :=
  let k := s.rs.capture
  s.setRs { s.rs with
    capture := if k.locked then { k with second := true }
      else { k with locked := true, collection := c, row := w / 64, word := w % 64 } }

/-- The raising of a damaged word of a collection (R175). -/
def damageRaising (c : Collection) (w : Nat) : Raising :=
  stationRaising .storeDamaged (.storeDamaged c (w / 64) (w % 64))

/-- What a word of a place set to zero is a word of: of a free registry place the record with bike id 0
(R176), and of any other place no record. -/
def zeroWord : Place → Content
  | .flag _ => .flag none
  | _ => .blank

/-- A double-bit error in a free word: NONE in the capture, and the word is set to zero (R175). -/
def clearFreeWord (p : Option Place) (w : Nat) (s : State) : State :=
  let s := captureError none w s
  let array :=
    match p with
    | some p => putCell p ((cellOf p s).set (w - placeBase p) (zeroWord p)) s.rs.array
    | none => s.rs.array
  s.setRs { s.rs with errors := assocDel w s.rs.errors, array := array }

/-! ### Sequence tests (R175) -/

/-- The content that one word of a place is a word of; a garbled word reads as one of a free record. -/
def wordContent (p : Place) (i : Nat) (s : State) : Content := spelledWord p (cellOf p s) i

/-- Whether one word of a place reads clean or corrected. -/
def wordReads (p : Place) (i : Nat) (s : State) : Bool :=
  decide (errorAt (placeBase p + i) s ≠ some .double)

/-- The sequence that a report word carries. -/
def reportWordSeq (c : Content) : Option Nat := (reportIn c).map Report.seq

/-- The fault sequence that a fault word carries. -/
def faultWordSeq (c : Content) : Option Nat := (faultIn c).map FaultRecord.seq

/-- The sequence in a report place's first word and in its commit word agree with its place, as far as
they can be read. -/
def reportSeqOk (n : Fin 96) (i : Nat) (s : State) : Bool :=
  let expected := (s.rq.held[i]?).map Report.seq
  let ok := fun k => !wordReads (.report n) k s
    || decide (reportWordSeq (wordContent (.report n) k s) = expected)
  ok 0 && ok 9

/-- The fault sequence test: a sequence lies after that of the held record before it, where there is
one, and before the next fault sequence, by distance from that of the oldest held record. -/
def faultSeqFits (oldest : Nat) (before : Option Nat) (next q : Nat) : Bool :=
  let distance := fun x => (x + 65536 - oldest % 65536) % 65536
  before.all (fun b => decide (distance b < distance q)) && decide (distance q < distance next)

/-- The fault sequence in a fault place's first word and in its commit word pass the test against the
oldest held record and the one before it, as far as they can be read. The oldest record itself is judged
by distance from its own sequence (DEDUCED, assumption 30). -/
def faultWordsFit (n : Fin 32) (oldest : Nat) (before : Option Nat) (s : State) : Bool :=
  let ok := fun k => !wordReads (.fault n) k s
    || (match faultWordSeq (wordContent (.fault n) k s) with
        | none => false
        | some q => faultSeqFits oldest before s.flt.nextSeq q)
  ok 0 && ok 4

/-- The fault sequence of the logged record `i`. -/
def loggedSeq (i : Nat) (s : State) : Option Nat := (s.flt.log[i]?).map FaultRecord.seq

/-- The fault sequence of the record before the logged record `i`. -/
def seqBefore (i : Nat) (s : State) : Option Nat := if i = 0 then none else loggedSeq (i - 1) s

/-- The logged record `i`, at a place, passes the fault sequence test. -/
def faultSeqOk (n : Fin 32) (i : Nat) (s : State) : Bool :=
  (loggedSeq 0 s).any fun o => faultWordsFit n o (seqBefore i s) s

/-! ### Damage of single-copy records (R175) -/

/-- A report record in its damaged form (R121). -/
def damagedReport (seq : Nat) (kind : Option ReportKind) : Report :=
  { seq := seq, kind := kind, place := none,
    flags := { timeInvalid := false, fare := ⟨false, false, false, false, false⟩,
               clearFailed := false, damaged := true },
    hire := none, fare := none, move := none }

/-- The kind a damaged report record keeps: from its second word, else from the word before its commit
word, and UNKNOWN when neither can be read or the sequence disagrees with the place (R121). -/
def damagedKind (n : Fin 96) (i : Nat) (s : State) : Option ReportKind :=
  let kindOfWord := fun k =>
    match wordContent (.report n) k s with
    | .report r => r.kind
    | _ => none
  if !reportSeqOk n i s then none
  else if wordReads (.report n) 1 s then kindOfWord 1
  else if wordReads (.report n) 8 s then kindOfWord 8
  else none

/-- A held report record takes its damaged form and is handed (R121, R175). -/
def damageReport (n : Fin 96) (i : Nat) (s : State) : State :=
  match s.rq.held[i]? with
  | none => s
  | some r =>
    let kind := damagedKind n i s
    handReport i (s.setRq { s.rq with held := s.rq.held.set i (damagedReport r.seq kind) })

/-- The class a damaged fault record's loss counts for: from its first or its commit word, and none
when neither can be read or the fault sequence test failed (R158). -/
def damagedClass (n : Fin 32) (fits : Bool) (s : State) : Option FaultClass :=
  let classOfWord := fun k =>
    match wordContent (.fault n) k s with
    | .fault r => some (faultClass r.kind)
    | _ => none
  if !fits then none
  else if wordReads (.fault n) 0 s then classOfWord 0
  else if wordReads (.fault n) 4 s then classOfWord 4
  else none

/-- The lost flags after the loss of a damaged fault record: its class's, or all three (R158). -/
def loseDamaged (n : Fin 32) (fits : Bool) (lost : LostFlags) (s : State) : LostFlags :=
  match damagedClass n fits s with
  | some c => setLost c lost
  | none => ⟨true, true, true⟩

/-! ### Records that close up (R158, R163, R172) -/

/-- The logged records after number `i`, each with its place: those that close up when it is removed. -/
def laterFaults (i : Nat) (s : State) : List (Fin 32 × FaultRecord) :=
  (s.flt.log.zipIdx.filter fun x => decide (i < x.2)).map
    fun x => (faultRing s.flt.oldestPlace x.2, x.1)

/-- Whether a record that is to move reads sound: its words read clean or corrected and its fault
sequence passes the test. A record with an entry in the write list is not checked (R172). -/
def faultSound (n : Fin 32) (oldest : Nat) (before : Option Nat) (s : State) : Bool :=
  inWriteList (.fault n) s
    || ((firstDouble (.fault n) s).isNone && faultWordsFit n oldest before s)

/-- The records that move, as they are read: those that read sound stay, in their order, and the loss of
each other one sets its lost flag. With no oldest record left, each is judged by its own sequence. -/
def judgeMoved (s : State) :
    List (Fin 32 × FaultRecord) → Option Nat → Option Nat → LostFlags → List FaultRecord × LostFlags
  | [], _, _, lost => ([], lost)
  | (n, r) :: t, oldest, before, lost =>
    let first := oldest.getD r.seq
    if faultSound n first before s then
      let x := judgeMoved s t (some first) (some r.seq) lost
      (r :: x.1, x.2)
    else
      judgeMoved s t oldest before (loseDamaged n (faultWordsFit n first before s) lost s)

/-- The words at which double-bit errors are found in records that move: the first of each record. -/
def movedDoubles (ps : List Place) (s : State) : List Nat :=
  (ps.filter fun p => !inWriteList p s).filterMap fun p => firstDouble p s

/-- Double-bit errors found in records that move act on the capture (R178). -/
def captureAll (c : Collection) (ws : List Nat) (s : State) : State :=
  ws.foldl (fun s w => captureError (some c) w s) s

/-- The records from position `i` on are handed to their new places. -/
def handFaultsFrom (i : Nat) (s : State) : State :=
  ((List.range s.flt.log.length).filter (fun k => decide (i ≤ k))).foldl
    (fun s k => handFault k s) s

/-- The logged record `i`, at a place, is removed as damaged, with its lost flag or all three set; the
records after it are read as they close up, and those found damaged are removed with it (R158, R172). -/
def removeFault (n : Fin 32) (i : Nat) (s : State) : State :=
  let later := laterFaults i s
  let s := captureAll .faultRecords (movedDoubles (later.map fun x => .fault x.1) s) s
  let lost := loseDamaged n (faultSeqOk n i s) s.flt.lost s
  let oldest := if i = 0 then none else loggedSeq 0 s
  let kept := judgeMoved s later oldest (seqBefore i s) lost
  handFaultsFrom i
    (handFaultHead (s.setFlt { s.flt with log := s.flt.log.take i ++ kept.1, lost := kept.2 }))

/-- A fault record at a place is found damaged (R158): what the records after it have to correct is
corrected first (DESIGN CHOICE, assumption 23), and then it is removed. -/
def damageFault (raise : Raising → State → State) (n : Fin 32) (s : State) : State :=
  match heldFaultAt n s with
  | none => s
  | some i =>
    let s := soundPlaces raise ((laterFaults i s).map fun x => .fault x.1) s
    match heldFaultAt n s with
    | none => s
    | some i => removeFault n i s

/-- The registry places from position `i` up to `m` are handed: the entries there, and bike id 0 at the
places left free (R172). -/
def handFlagsFrom (i m : Nat) (s : State) : State :=
  ((List.range m).filter (fun k => decide (i ≤ k))).foldl (fun s k => handFlag k s) s

/-- Put the registry; its head and its places from position `i` on are handed, as far as the registry
reached before. -/
def putRegistry (i : Nat) (l : List FlagEntry) (s : State) : State :=
  let m := s.flt.registry.length
  handFlagsFrom i m (handRegistryHead (s.setFlt { s.flt with registry := l }))

/-- The registry entry at position `i` is removed and the later entries close up (R163, R172). -/
def removeFlag (i : Nat) (s : State) : State := putRegistry i (s.flt.registry.eraseIdx i) s

/-- The places of the registry entries after position `i`. -/
def laterFlags (i : Nat) (s : State) : List Place :=
  ((List.range s.flt.registry.length).filter fun k => decide (i < k)).map fun k =>
    .flag (flagPlace k)

/-- Whether the registry entry at position `k` reads sound. -/
def flagSound (k : Nat) (s : State) : Bool :=
  inWriteList (.flag (flagPlace k)) s || (firstDouble (.flag (flagPlace k)) s).isNone

/-- The registry without the entry at position `i` and without the later ones that do not read sound. -/
def soundFlags (i : Nat) (s : State) : List FlagEntry :=
  (s.flt.registry.zipIdx.filter fun x =>
    decide (x.2 < i) || (decide (i < x.2) && flagSound x.2 s)).map Prod.fst

/-- The registry entry at position `i` is found damaged (R163, R175): the entries after it are read as
they close up, and those found damaged are removed with it, each with its own STORE_DAMAGED. -/
def damageFlag (raise : Raising → State → State) (i : Nat) (s : State) : State :=
  let later := laterFlags i s
  let s := soundPlaces raise later s
  let doubles := movedDoubles later s
  let s := captureAll .registryEntries doubles s
  let s := putRegistry i (soundFlags i s) s
  doubles.foldl (fun s w => raise (damageRaising .registryEntries w) s) s

/-- Whether the part is in a start before its survey. -/
def atStart (s : State) : Bool := decide (s.sc.power = .starting)

/-- A dock record found damaged: at a start its survey reference becomes damaged, and while running it
is rewritten from the DLC's record (R177). At a start nothing is handed before the survey, so that each of
its damaged words raises STORE_DAMAGED, and again where the scrub reads it first (DESIGN CHOICE, assumption
44). -/
def damageDock (d : DockNo) (s : State) : State :=
  if atStart s then setLine d { lineOf d s with reference := some .damaged } s else handDock d s

/-- The owner's effect of damage in a single-copy record, and the hand-over of its new content (R175). -/
def damageSingle (raise : Raising → State → State) (p : Place) (s : State) : State :=
  match p with
  | .signature => hand .signature (.signature true) s
  | .config i =>
    handConfig i
      (s.setSc { s.sc with config := setConfigValue s.sc.config i (configValue .default i) })
  | .policy k =>
    handPolicy k
      (s.setFlt { s.flt with
        policies := vset s.flt.policies (faultIndex k) (vget defaultPolicies (faultIndex k)) })
  | .floor k =>
    handFloor k
      (s.setWoe { s.woe with
        floors := vset s.woe.floors (orderIndex k) (vget defaultFloors (orderIndex k)) })
  | .dock d => damageDock d s
  | .report n =>
    match heldReportAt n s with
    | some i => damageReport n i s
    | none => s
  | .fault n => damageFault raise n s
  | .flag n => damageFlag raise n.val s
  | .plan n => handPlan n (s.setFu (vset s.fu n none))
  | .crew n => handCrew n (s.setWoe { s.woe with crews := vset s.woe.crews n none })
  | .station _ | .queueHead _ | .faultHead _ | .registryHead _ => s

/-! ### What the owners find in the store (R171, R176, R183)

A content that is none of its place's collection counts as the collection's cold content. -/

/-- The station record in a content. -/
def stationIn : Content → StationRecord
  | .station r => r
  | _ => .cold

/-- The queue head in a content. -/
def queueHeadIn : Content → QueueHead
  | .queueHead h => h
  | _ => { nextSeq := 1, readMark := 1, oldest := 0, count := 0 }

/-- The fault log head in a content. -/
def faultHeadIn : Content → FaultHead
  | .faultHead h => h
  | _ => { nextSeq := 1, oldest := 0, count := 0, lost := .clear }

/-- The entry count in a content. -/
def registryCountIn : Content → Nat
  | .registryHead n => n
  | _ => 0

/-- The retained value of an item. -/
def storedConfig (s : State) (i : ConfigItem) : ConfigValue :=
  match readContent (.config i) s with
  | .config v => v
  | _ => configValue .default i

/-- The retained policy of a kind. -/
def storedPolicy (s : State) (k : FaultKind) : Policy :=
  match readContent (.policy k) s with
  | .policy p => p
  | _ => vget defaultPolicies (faultIndex k)

/-- The retained floor of a kind. -/
def storedFloor (s : State) (k : OrderKind) : Nat :=
  match readContent (.floor k) s with
  | .floor n => n
  | _ => vget defaultFloors (orderIndex k)

/-- The report that stands at a held place, with the place's sequence (R109); in damaged form where the
place holds none. A record of another sequence is found damaged at the first read of the place (R175). -/
def storedReport (s : State) (n : Fin 96) (seq : Nat) : Report :=
  match readContent (.report n) s with
  | .report r => { r with seq := seq }
  | _ => damagedReport seq none

/-- The fault record that stands at a held place; where the place holds none, one that the fault
sequence test removes. -/
def storedFault (s : State) (next : Nat) (n : Fin 32) : FaultRecord :=
  match readContent (.fault n) s with
  | .fault r => r
  | _ => { seq := next, kind := .storeDamaged, time := 0, dock := none, bike := none,
           detail := .none }

/-- The registry entry that stands at a place; bike id 0 where the place holds none, which at a warm start
stays an entry (DESIGN CHOICE, assumption 37). -/
def storedFlag (s : State) (i : Nat) : FlagEntry :=
  match readContent (.flag (flagPlace i)) s with
  | .flag (some e) => e
  | _ => { bike := 0, origin := .station, time := 0 }

/-- The retained plan at a place. -/
def storedPlan (s : State) (i : Fin 16) : Option Plan :=
  match readContent (.plan i) s with
  | .plan p => p
  | _ => none

/-- The retained crew at a place. -/
def storedCrew (s : State) (i : Fin 16) : Option Crew :=
  match readContent (.crew i) s with
  | .crew c => c
  | _ => none

/-- The RQ takes a queue head: the records it names as held, each with its place's sequence, limited to
the newest 96 less the claim total, as R122 limits a rebuilt one (DESIGN CHOICE, assumption 22). A read
mark outside them goes to the oldest (R116). -/
def takeQueueHead (h : QueueHead) (s : State) : State :=
  let named := min h.count 96
  let count := min named (96 - s.rq.claimTotal)
  let oldest := reportRing h.oldest (named - count)
  let next := h.nextSeq % 4294967296
  let first := (next + 4294967296 - count) % 4294967296
  let distance := (h.readMark + 4294967296 - first) % 4294967296
  s.setRq { s.rq with
    held := (List.range count).map fun i =>
      storedReport s (reportRing oldest i) ((first + i) % 4294967296),
    oldestPlace := oldest, nextSeq := next,
    readMark := if distance ≤ count then h.readMark % 4294967296 else first }

/-- The FLT takes a fault log head. -/
def takeFaultHead (h : FaultHead) (s : State) : State :=
  let next := h.nextSeq % 65536
  s.setFlt { s.flt with
    log := (List.range (min h.count 32)).map fun i => storedFault s next (faultRing h.oldest i),
    oldestPlace := h.oldest, nextSeq := next, lost := h.lost }

/-- The FLT takes a registry head. -/
def takeRegistryHead (n : Nat) (s : State) : State :=
  s.setFlt { s.flt with registry := (List.range (min n 64)).map (storedFlag s) }

/-- An owner takes the head that a copy reads as, where that is not the head it has (R122, R176). -/
def takeHead (p : Place) (c : Content) (s : State) : State :=
  match p with
  | .queueHead _ => if queueHeadIn c = queueHeadOf s then s else takeQueueHead (queueHeadIn c) s
  | .faultHead _ => if faultHeadIn c = faultHeadOf s then s else takeFaultHead (faultHeadIn c) s
  | .registryHead _ =>
    if registryCountIn c = s.flt.registry.length then s else takeRegistryHead (registryCountIn c) s
  | _ => s

/-- Whether a place is copy A of a two-copy record, which the record is read from (R176). -/
def copyA : Place → Bool
  | .station c => decide (c = 0)
  | .queueHead c => decide (c = 0)
  | .faultHead c => decide (c = 0)
  | .registryHead c => decide (c = 0)
  | _ => false

/-- The owner of a record read at each use has what its words now read as (R171): of a two-copy record,
those of copy A. The station record and the dock records are held by their owners, and the signature is
read at starts. -/
def refresh (p : Place) (s : State) : State :=
  match p with
  | .config i => s.setSc { s.sc with config := setConfigValue s.sc.config i (storedConfig s i) }
  | .policy k =>
    s.setFlt { s.flt with policies := vset s.flt.policies (faultIndex k) (storedPolicy s k) }
  | .floor k => s.setWoe { s.woe with floors := vset s.woe.floors (orderIndex k) (storedFloor s k) }
  | .report n =>
    match heldReportAt n s with
    | some i => s.setRq { s.rq with
        held := s.rq.held.modify i fun r => storedReport s n r.seq }
    | none => s
  | .fault n =>
    match heldFaultAt n s with
    | some i => s.setFlt { s.flt with log := s.flt.log.set i (storedFault s s.flt.nextSeq n) }
    | none => s
  | .flag n =>
    s.setFlt { s.flt with registry := s.flt.registry.set n.val (storedFlag s n.val) }
  | .plan n => s.setFu (vset s.fu n (storedPlan s n))
  | .crew n => s.setWoe { s.woe with crews := vset s.woe.crews n (storedCrew s n) }
  | .queueHead _ | .faultHead _ | .registryHead _ =>
    if copyA p then takeHead p (readContent p s) s else s
  | .signature | .station _ | .dock _ => s

/-! ### Rebuilding a two-copy record (R176, R122) -/

/-- The record of a readable report place, with the sequence its own words give (R122). -/
def readableReport (n : Fin 96) (s : State) : Option Report :=
  match readable (.report n) s with
  | some (.report r) => some r
  | _ => none

/-- The record of a readable fault place, with the fault sequence its own words give (R176). -/
def readableFault (n : Fin 32) (s : State) : Option FaultRecord :=
  match readable (.fault n) s with
  | some (.fault r) => some r
  | _ => none

/-- The run of a ring of `m` places taken back from place `n`: the records from the oldest of the run
to the newest, where `follows a b` says that `b` may stand in the place after `a`. -/
def runBack {α : Type} (m : Nat) (get : Nat → Option α) (follows : α → α → Bool) :
    Nat → Nat → List α → List α
  | 0, _, run => run
  | fuel + 1, n, run =>
    match get n with
    | none => run
    | some r =>
      match run.head? with
      | none => runBack m get follows fuel ((n + m - 1) % m) (r :: run)
      | some next =>
        if follows r next then runBack m get follows fuel ((n + m - 1) % m) (r :: run) else run

/-- The runs of a ring, each with the place of its newest record, lowest place first: a run ends where
the next place holds no record that follows. -/
def ringRuns {α : Type} (m : Nat) (get : Nat → Option α) (follows : α → α → Bool) :
    List (Nat × List α) :=
  (List.range m).filterMap fun n =>
    match get n with
    | none => none
    | some r =>
      let next := get ((n + 1) % m)
      if next.any (fun x => follows r x) then none
      else some (n, runBack m get follows m n [])

/-- The longest run, the one at the lowest place among equals. -/
def longestRun {α : Type} (l : List (Nat × List α)) : Option (Nat × List α) :=
  l.foldl
    (fun best x =>
      match best with
      | none => some x
      | some b => if b.2.length < x.2.length then some x else some b)
    none

/-- The report place with a number. -/
def reportPlace (n : Nat) : Fin 96 := ⟨n % 96, Nat.mod_lt _ (by decide)⟩

/-- The fault place with a number. -/
def faultPlace (n : Nat) : Fin 32 := ⟨n % 32, Nat.mod_lt _ (by decide)⟩

/-- The queue head rebuilt from the report places (R122). With no place readable the oldest position is
place 0 (DESIGN CHOICE, assumption 22). -/
def rebuildQueue (s : State) : State :=
  let runs := ringRuns 96 (fun n => readableReport (reportPlace n) s)
    (fun a b => decide (b.seq = (a.seq + 1) % 4294967296))
  match longestRun runs with
  | none => s.setRq { s.rq with held := [], oldestPlace := 0, nextSeq := 1, readMark := 1 }
  | some (n, run) =>
    let count := min run.length (96 - s.rq.claimTotal)
    let held := run.drop (run.length - count)
    let next := ((run.getLast?.map Report.seq).getD 0 + 1) % 4294967296
    s.setRq { s.rq with
      held := held, oldestPlace := reportPlace (n + 1 + 96 - count), nextSeq := next,
      readMark := (held.head?.map Report.seq).getD next }

/-- The fault log head rebuilt from the fault places (R176). With no place readable the oldest position is
place 0 (DESIGN CHOICE, assumption 22). -/
def rebuildLog (s : State) : State :=
  let runs := ringRuns 32 (fun n => readableFault (faultPlace n) s)
    (fun a b =>
      let d := (b.seq + 65536 - a.seq % 65536) % 65536
      decide (1 ≤ d ∧ d ≤ 32))
  match longestRun runs with
  | none =>
    s.setFlt { s.flt with log := [], oldestPlace := 0, nextSeq := 1, lost := ⟨true, true, true⟩ }
  | some (n, run) =>
    s.setFlt { s.flt with
      log := run, oldestPlace := faultPlace (n + 1 + 32 - run.length),
      nextSeq := ((run.getLast?.map FaultRecord.seq).getD 0 + 1) % 65536,
      lost := ⟨true, true, true⟩ }

/-- The entry of a readable registry place that holds a bike id other than 0. -/
def readableFlag (n : Nat) (s : State) : Option FlagEntry :=
  match readable (.flag (flagPlace n)) s with
  | some (.flag (some e)) => if e.bike = 0 then none else some e
  | _ => none

/-- The entries from place 0 up to the first place that does not qualify. -/
def leadingFlags (s : State) : List FlagEntry :=
  (((List.range 64).map fun n => readableFlag n s).takeWhile Option.isSome).filterMap id

/-- The registry head rebuilt from the entry places (R176). -/
def rebuildRegistry (s : State) : State :=
  s.setFlt { s.flt with registry := leadingFlags s }

/-- The places a rebuild reads: every report place, every fault place, or the entry places up to the first
that does not qualify. -/
def rebuildPlaces (p : Place) (s : State) : List Place :=
  match p with
  | .queueHead _ => (finList 96).map .report
  | .faultHead _ => (finList 32).map .fault
  | .registryHead _ =>
    (List.range (min 64 (s.flt.registry.length + 1))).map fun i => .flag (flagPlace i)
  | _ => []

/-- The owner's values of a two-copy record with both copies damaged, rebuilt, and both copies handed
(R176). -/
def rebuildRecord (p : Place) (s : State) : State :=
  match p with
  | .station _ =>
    handStation (if atStart s then s.setSc { s.sc with station := .cold } else s)
  | .queueHead _ => handQueueHead (rebuildQueue s)
  | .faultHead _ => handFaultHead (rebuildLog s)
  | .registryHead _ => handRegistryHead (rebuildRegistry s)
  | _ => s

/-- A word of a place that a rebuild reads: a double-bit error in a place left free is one in a free word
(R175), and any other word is read for what it has to correct (R173). -/
def rebuildWord (raise : Raising → State → State) (p : Place) (s : State) (w : Nat) : State :=
  if inWriteList p s then s
  else if errorAt w s = some .double then
    if freePlace p s then clearFreeWord (some p) w s else s
  else soundWord raise s w

/-- The words of the places that a rebuild reads. -/
def rebuildReads (raise : Raising → State → State) (ps : List Place) (s : State) : State :=
  ps.foldl (fun s p => (placeAddresses p).foldl (rebuildWord raise p) s) s

/-- A two-copy record with both copies damaged is rebuilt (R176), and the words read for it take the effect
of their reads (R173, R175). -/
def rebuild (raise : Raising → State → State) (p : Place) (s : State) : State :=
  let s := rebuildRecord p s
  rebuildReads raise (rebuildPlaces p s) s

/-- The content that a copy is rewritten with from the other: for copy A of a head the head that its owner
takes from copy B, and otherwise what the other copy reads as. -/
def copyContent (p other : Place) (s : State) : Content :=
  match p with
  | .queueHead c => if c = 0 then .queueHead (queueHeadOf s) else readContent other s
  | .faultHead c => if c = 0 then .faultHead (faultHeadOf s) else readContent other s
  | .registryHead c => if c = 0 then .registryHead s.flt.registry.length else readContent other s
  | _ => readContent other s

/-- One damaged copy is rewritten from the other; the record is then read from copy B where copy A is the
damaged one (R122, R176). -/
def rewriteCopy (p other : Place) (s : State) : State :=
  let s := if copyA p then takeHead p (readContent other s) s else s
  hand p (copyContent p other s) s

/-- Damage of one copy of a two-copy record (R176): the other copy is read, its words in order as far as
the first that damages it, and damage there acts on the capture too. With both copies damaged,
STORE_DAMAGED names the word found first, and what the words ahead of the second have to correct is
corrected once the record is rebuilt (DESIGN CHOICE, assumption 23). -/
def damageCopy (raise : Raising → State → State) (p other : Place) (w : Nat) (s : State) : State :=
  if inWriteList other s then rewriteCopy p other s
  else
    match firstDouble other s with
    | none => soundPlaces raise [other] (rewriteCopy p other s)
    | some w2 =>
      let ahead := (placeAddresses other).filter fun x => decide (x < w2)
      let s := captureError (some (placeCollection other)) w2 s
      let s := ahead.foldl (soundWord raise) (rebuild raise p s)
      raise (damageRaising (placeCollection p) w) s

/-! ### Reading words (R173) -/

/-- A word of a record reads a double-bit error. -/
def damageWord (raise : Raising → State → State) (p : Place) (w : Nat) (s : State) : State :=
  let s := captureError (some (placeCollection p)) w s
  match otherCopy p with
  | some other => damageCopy raise p other w s
  | none =>
    match p with
    | .fault _ => damageSingle raise p s
    | _ => raise (damageRaising (placeCollection p) w) (damageSingle raise p s)

/-- A word of a copy of a two-copy record is read for the record's owner. -/
def readCopyWord (raise : Raising → State → State) (p other : Place) (s : State) (w : Nat) : State :=
  if inWriteList p s then s
  else if errorAt w s = some .double then
    damageCopy raise p other w (captureError (some (placeCollection p)) w s)
  else soundWord raise s w

/-- The head that a fault record's or a registry entry's removal changes is read first (R171, "read at each
use"). -/
def readHeadOf (raise : Raising → State → State) (p : Place) (s : State) : State :=
  match p with
  | .fault _ => (placeAddresses (.faultHead 0)).foldl
      (readCopyWord raise (.faultHead 0) (.faultHead 1)) s
  | .flag _ => (placeAddresses (.registryHead 0)).foldl
      (readCopyWord raise (.registryHead 0) (.registryHead 1)) s
  | _ => s

/-- A fault place whose sequence test failed, once the log's head is read: where the log still holds it and
the test still fails, the record is damaged (R175). -/
def misplacedFault (raise : Raising → State → State) (n : Fin 32) (s : State) : State :=
  match heldFaultAt n s with
  | some i => if inWriteList (.fault n) s ∨ faultSeqOk n i s then s else damageFault raise n s
  | none => s

/-- The commit word of a held report or fault place was read: a record whose sequence disagrees is
damaged, with the capture unchanged (R175). STORE_DAMAGED names the commit word then (DESIGN CHOICE,
assumption 23). -/
def testCommit (raise : Raising → State → State) (p : Place) (w : Nat) (s : State) : State :=
  match p with
  | .report n =>
    match heldReportAt n s with
    | some i =>
      if w = placeBase p + 9 ∧ !reportSeqOk n i s then
        raise (damageRaising .reportRecords w) (damageReport n i s)
      else s
    | none => s
  | .fault n =>
    match heldFaultAt n s with
    | some i =>
      if w = placeBase p + 4 ∧ !faultSeqOk n i s then misplacedFault raise n (readHeadOf raise p s)
      else s
    | none => s
  | _ => s

/-- A word that reads clean or corrected was read: of a record, its sequence may disagree (R175). -/
def testWord (raise : Raising → State → State) (p : Option Place) (w : Nat) (s : State) : State :=
  match p with
  | some p => if inWriteList p s then s else testCommit raise p w s
  | none => s

/-- A double-bit error was read, once the head that its effect changes is read: of a record, or of a word
that this read leaves free. -/
def doubleRead (raise : Raising → State → State) (p : Place) (w : Nat) (s : State) : State :=
  if inWriteList p s ∨ errorAt w s ≠ some .double then s
  else if freePlace p s then clearFreeWord (some p) w s else damageWord raise p w s

/-- A double-bit error was read: of a record, or of a free word. -/
def doubleWord (raise : Raising → State → State) (p : Option Place) (w : Nat) (s : State) : State :=
  match p with
  | some p =>
    if freePlace p s then clearFreeWord (some p) w s else doubleRead raise p w (readHeadOf raise p s)
  | none => clearFreeWord none w s

/-- A read of one word of the array (R173): of a record place, or of a word of none. Words of a record
with an entry in the write list are not checked (R172). -/
def readWord (raise : Raising → State → State) (p : Option Place) (w : Nat) (s : State) : State :=
  if p.any (fun p => inWriteList p s) then s
  else if errorAt w s = some .double then doubleWord raise p w s
  else testWord raise p w (soundWord raise s w)

/-- An owner's read of one record: its words in ascending order. -/
def readPlace (raise : Raising → State → State) (s : State) (p : Place) : State :=
  (placeAddresses p).foldl (fun s w => readWord raise (some p) w s) s

/-- An owner's reads of records, in order. -/
def readPlacesWith (raise : Raising → State → State) (ps : List Place) (s : State) : State :=
  ps.foldl (readPlace raise) s

/-- A fault raising (R153): the watches; the policy, read from the store; and, unless it is IGNORE, the
log, whose head is read from the store. The depth bounds how far reads that find damage can raise in
turn (DESIGN CHOICE, assumption 29). -/
def raiseWith : Nat → Raising → State → State
  | 0, r, s => raiseRead r (watchRaising r s)
  | n + 1, r, s =>
    let s := readPlacesWith (raiseWith n) [.policy r.kind] (watchRaising r s)
    let s := if policyOf r.kind s = .ignore then s
      else readPlacesWith (raiseWith n) [.faultHead 0] s
    raiseRead r s

/-- A block hands a fault raising to the FLT (R153). -/
def raise (r : Raising) (s : State) : State := raiseWith 8 r s

/-- An owner reads records from the store (R173). -/
def readPlaces (ps : List Place) (s : State) : State := readPlacesWith raise ps s

/-! ### What owners read at each use (R171) -/

/-- The places of the held report records, oldest first. -/
def heldReportPlaces (s : State) : List Place :=
  (List.range s.rq.held.length).map fun i => .report (reportRing s.rq.oldestPlace i)

/-- The queue head is read. -/
def readQueueHead (s : State) : State := readPlaces [.queueHead 0] s

/-- The registry is read: its head and its entries (R163). -/
def readRegistry (s : State) : State :=
  let s := readPlaces [.registryHead 0] s
  readPlaces ((List.range s.flt.registry.length).map fun i => .flag (flagPlace i)) s

/-- The crew table is read (R124). -/
def readCrews (s : State) : State := readPlaces ((finList 16).map .crew) s

/-- The fault log head is read. -/
def readFaultHead (s : State) : State := readPlaces [.faultHead 0] s

/-- A plan is read (R93). -/
def readPlan (p : Nat) (s : State) : State :=
  readPlaces [.plan ⟨p % 16, Nat.mod_lt _ (by decide)⟩] s

/-- A configuration value is read (R188). -/
def readConfig (i : ConfigItem) (s : State) : State := readPlaces [.config i] s

/-! ### The scrub (R180) -/

/-- The places whose words lie in a row. -/
def rowPlaces (r : Fin 64) : List Place :=
  allPlaces.filter fun p => decide (placeBase p / 64 = r.val)

/-- The place among some that has a word. -/
def placeAmong (ps : List Place) (w : Nat) : Option Place :=
  ps.find? fun p => decide (placeBase p ≤ w ∧ w < placeBase p + placeWords p)

/-- Every word of a row is read, in ascending order. -/
def readRow (r : Fin 64) (s : State) : State :=
  let ps := rowPlaces r
  (List.range 64).foldl
    (fun s i => readWord raise (placeAmong ps (64 * r.val + i)) (64 * r.val + i) s) s

/-- A word now reads clean as another than the one written (R173): the owner of its record reads it so,
unless the record has an entry in the write list. -/
def garbleWord (p : Option Place) (w v : Nat) (s : State) : State :=
  match p with
  | none => s
  | some p =>
    let cell := (cellOf p s).set (w - placeBase p) (.garbled v)
    let s := s.setRs { s.rs with array := putCell p cell s.rs.array }
    if inWriteList p s then s else refresh p s

/-- Bits flipped in a word (R173): a clean word takes the error told, and one more flipped bit in a word
in error makes a double-bit error. -/
def flipWord (s : State) (u : Upset) : State :=
  let w := 64 * u.row + u.word
  if u.row < 64 ∧ u.word < 64 then
    match u.error with
    | .single =>
      let e := if errorAt w s = some .single ∨ errorAt w s = some .double then WordError.double
        else .single
      s.setRs { s.rs with errors := assocPut w e s.rs.errors }
    | .double => s.setRs { s.rs with errors := assocPut w .double s.rs.errors }
    | .wrong v => garbleWord (placeAt w) w v (settleWord w s)
    | .miscorrected v =>
      garbleWord (placeAt w) w v (s.setRs { s.rs with errors := assocPut w .single s.rs.errors })
  else s

/-- The bits that flipped since they were last told of. -/
def flipWords (upsets : List Upset) (s : State) : State := upsets.foldl flipWord s

/-! ### Record writes (R172, R181) -/

/-- A record's words are written whole. -/
def writeRecord (p : Place) (c : Content) (s : State) : State :=
  s.setRs { s.rs with
    array := putCell p (List.replicate (placeWords p) c) s.rs.array,
    errors := clearErrors (placeAddresses p) s.rs.errors }

/-- The first `k` words of a record are written and the others are not. -/
def writeWords (p : Place) (c : Content) (k : Nat) (s : State) : State :=
  s.setRs { s.rs with
    array := putCell p (List.replicate k c ++ (cellOf p s).drop k) s.rs.array,
    errors := clearErrors ((placeAddresses p).take k) s.rs.errors }

/-- The forced pattern is written to a record's commit word (R181). -/
def forceCommit (p : Place) (s : State) : State :=
  s.setRs { s.rs with
    errors := assocPut (placeBase p + placeWords p - 1) .double s.rs.errors }

/-- The write of a record is ended by PWRFAIL after `k` words (R181). -/
def cutWrite (p : Place) (c : Content) (k : Nat) (s : State) : State :=
  forceCommit p (writeWords p c (min k (placeWords p - 1)) s)

/-- The places a head names as held (R181). -/
def headNames : Content → List Place
  | .queueHead h => (List.range h.count).map fun i => .report (reportRing h.oldest i)
  | .faultHead h => (List.range h.count).map fun i => .fault (faultRing h.oldest i)
  | .registryHead n => (List.range n).map fun i => .flag (flagPlace i)
  | _ => []

/-- The places a head newly names as held, against what its place of the array held. -/
def newlyNamed (e : WriteEntry) (s : State) : List Place :=
  let before := headNames (wordsContent e.place (cellOf e.place s))
  (headNames e.content).filter fun p => !(before.contains p)

/-- What PWRFAIL does to the write list (R181). -/
def failWrites (written : Nat) (s : State) : State :=
  match s.rs.writeList with
  | [] => s
  | e :: rest =>
    let named := newlyNamed e s
    let forced := (rest.filter fun x => decide (x.handed = e.handed) && named.contains x.place)
    let s := cutWrite e.place e.content written s
    let s := forced.foldl (fun s x => forceCommit x.place s) s
    s.setRs { s.rs with writeList := [] }

end Sys2Proof.Machine
end

