-- ==== Sys2Proof/Machine/Frames.lean ====
section
/-! DEFINITION. Frames as the Port Interface judges and answers them (R196 to R198, R204): the checks, the
answer given, and the slot an accepted request takes. -/

namespace Sys2Proof.Machine

/-- The part gives an answer frame: a new exchange has begun, so an earlier answer is complete or was
cut short (R196). -/
def giveAnswer (p : Port) (a : Answer) (s : State) : State :=
  setPort p { getPort p s with answer := some a, reported := .clear } s

/-- An answer with a code and a content. -/
def answerFor (code : Acceptance) (tag kind : Nat) (content : AnswerContent) : Answer :=
  { code := code, tag := tag, kind := kind, content := content, complete := false }

/-- Checks 1 and 3 to 6 of R197 for a frame whose check word matches, in order. -/
def judgeKind (p : Port) (k : RequestKind) (tag : Nat) (inForm : Bool) (s : State) : Acceptance :=
  if !running s then .powerFail
  else if !served k p then .notOnPort
  else if !inForm || decide (15 < tag) then .badForm
  else if slotless k then .accepted
  else if (heldTags (getPort p s)).contains tag then .dupTag
  else if portSlots p ≤ (heldTags (getPort p s)).length then .full
  else .accepted

/-- An accepted request takes a free slot, which is UNFINISHED (R198). -/
def takeSlot (p : Port) (k : RequestKind) (tag : Nat) (s : State) : State :=
  let q := getPort p s
  setPort p { q with unfinished := q.unfinished ++ [(tag, k)] } s

/-- A request that takes a slot: judged, answered, and, when accepted, taken by its owner (R197,
R198). Without main power there is no exchange. -/
def slotRequest (p : Port) (k : RequestKind) (tag : Nat) (inForm : Bool) (take : State → State)
    (s : State) : State :=
  if !powered s then s
  else
    let code := judgeKind p k tag inForm s
    let s := giveAnswer p (answerFor code tag (kindCode k) .nothing) s
    if code = .accepted then take (takeSlot p k tag s) else s

/-- A request that takes no slot: READ, NOTICE_READ or PORT_CLEAR; `take` gives the answer's content and
the state after it is taken. -/
def plainRequest (p : Port) (k : RequestKind) (tag : Nat) (take : State → AnswerContent × State)
    (s : State) : State :=
  if !powered s then s
  else
    let code := judgeKind p k tag true s
    if code = .accepted then
      let r := take s
      giveAnswer p (answerFor code tag (kindCode k) r.1) r.2
    else giveAnswer p (answerFor code tag (kindCode k) .nothing) s

/-- The owner finishes its reply to a request (R198). -/
def reply (p : Port) (k : RequestKind) (tag : Nat) (o : ReplyOutcome) (b : Body) (s : State) : State :=
  finishReply p { tag := tag, kind := k, outcome := o, body := b } s

/-- The check word that a complete frame carries matches its bytes (R204). -/
def checkMatches (earlier : List Byte) (check : List Byte) : Bool :=
  decide (check = leBytes 2 (checkWord earlier).toNat)

/-- The code of a complete raw frame that is refused; none when it passes every check, or when it is not
complete (R196, R197). -/
def refusalOf (p : Port) (frame : List Byte) (s : State) : Option (Acceptance × Nat × Nat) :=
  match frame with
  | tag :: kind :: len :: rest =>
    if 120 < len.toNat then
      some (if running s then .badForm else .powerFail, tag.toNat, kind.toNat)
    else if rest.length < len.toNat + 2 then none
    else
      let body := rest.take len.toNat
      if !running s then some (.powerFail, tag.toNat, kind.toNat)
      else if !checkMatches (tag :: kind :: len :: body) ((rest.drop len.toNat).take 2) then
        some (.badCheck, 0, 0)
      else
        match kindOf kind.toNat with
        | none => some (.notOnPort, tag.toNat, kind.toNat)
        | some k =>
          let code := judgeKind p k tag.toNat (rawBodyInForm k body) s
          if code = .accepted then none else some (code, tag.toNat, kind.toNat)
  | _ => none

/-- A raw frame that fails a check is answered with its code and not taken (R197). -/
def refuseFrame (p : Port) (frame : List Byte) (s : State) : State :=
  if !powered s then s
  else
    match refusalOf p frame s with
    | none => s
    | some (code, tag, kind) => giveAnswer p (answerFor code tag kind .nothing) s

end Sys2Proof.Machine
end

