-- ==== Sys2Proof/Machine/Registry.lean ====
section
/-! DEFINITION. Faults, bike flags and watches as their masters ask for them (R156, R159 to R166, R170),
and the flag entries that blocks of the part ask for (R164). -/

namespace Sys2Proof.Machine

/-! ### The bike flag registry (R163, R164) -/

/-- Whether an origin is automatic (R164). -/
def automaticOrigin : FlagOrigin → Bool
  | .rider | .tag | .station => true
  | .crew | .uplink => false

/-- The outcomes of a flag entry (R164). -/
inductive FlagOutcome where
  | entered
  | present (e : FlagEntry)
  | full
  deriving DecidableEq, Repr

/-- The registry's entry of a bike. -/
def flagOf (bike : Nat) (s : State) : Option FlagEntry :=
  s.flt.registry.find? fun e => decide (e.bike = bike)

/-- Whether a bike is in the registry. -/
def flagged (bike : Nat) (s : State) : Bool := (flagOf bike s).isSome

/-- The outcome of a flag entry as the registry stands (R164). -/
def flagOutcome (bike : Nat) (s : State) : FlagOutcome :=
  match flagOf bike s with
  | some e => .present e
  | none => if s.flt.registry.length < 64 then .entered else .full

/-- A flag entry is appended, kept as present, or lost (R164): the lost flag stands in the fault log's head,
which is read first (R171). -/
def enterFlag (bike : Nat) (origin : FlagOrigin) (s : State) : State :=
  match flagOutcome bike s with
  | .present _ => s
  | .entered =>
    let n := s.flt.registry.length
    let e : FlagEntry := { bike := bike, origin := origin, time := stationTime s }
    handFlag n (handRegistryHead (s.setFlt { s.flt with registry := s.flt.registry ++ [e] }))
  | .full => if automaticOrigin origin then loseRecord .bike (readFaultHead s) else s

/-- A block or a request asks a flag entry: the registry is read, then the entry judged. -/
def askFlag (bike : Nat) (origin : FlagOrigin) (s : State) : State :=
  enterFlag bike origin (readRegistry s)

/-- A bike's entry is removed, if present, and the later entries close up (R163, R165). -/
def clearFlag (bike : Nat) (s : State) : State :=
  match s.flt.registry.findIdx? fun e => decide (e.bike = bike) with
  | some i => removeFlag i s
  | none => s

/-- BIKE_FLAG (R165). -/
def takeBikeFlag (tag bike : Nat) (s : State) : State :=
  let s := readRegistry s
  match flagOutcome bike s with
  | .present e => reply .uplink .bikeFlag tag .present (.flagKept e.origin e.time) s
  | .entered => reply .uplink .bikeFlag tag .entered .empty (enterFlag bike .uplink s)
  | .full => reply .uplink .bikeFlag tag .registryFull .empty s

/-- BIKE_FLAG. -/
def execBikeFlag (tag bike : Nat) (s : State) : Host.Outcome State Fault Refusal :=
  stepOf (slotRequest .uplink .bikeFlag tag (bikeInForm bike) (takeBikeFlag tag bike)) s

/-- BIKE_CLEAR (R165): the tag write's cause is BIKE_CLEAR by the dock line command it is sent with. -/
def takeBikeClear (tag bike : Nat) (s : State) : State :=
  let s := readRegistry s
  let present := flagged bike s
  let s := clearFlag bike s
  let d := dockNaming bike s
  let s :=
    match d with
    | some d => placeCommand d (.mark false) s
    | none => s
  reply .uplink .bikeClear tag (if present then .removed else .notPresent) (.dock d) s

/-- BIKE_CLEAR. -/
def execBikeClear (tag bike : Nat) (s : State) : Host.Outcome State Fault Refusal :=
  stepOf (slotRequest .uplink .bikeClear tag (bikeInForm bike) (takeBikeClear tag bike)) s

/-- BIKE_FLAG_READ (R166): an entry found damaged at the read is not returned, and neither is one that
closes up into the range asked for in its place (DESIGN CHOICE, assumption 47). -/
def takeBikeFlagRead (p : Port) (tag start n : Nat) (s : State) : State :=
  let s := readPlaces [.registryHead 0] s
  let asked := (s.flt.registry.drop start).take n
  let s := readPlaces ((List.range asked.length).map fun i => .flag (flagPlace (start + i))) s
  let kept := asked.filter fun e => s.flt.registry.contains e
  reply p .bikeFlagRead tag .done (.flags kept s.flt.registry.length) s

/-- BIKE_FLAG_READ. -/
def execBikeFlagRead (p : Port) (tag start n : Nat) (s : State) : Host.Outcome State Fault Refusal :=
  stepOf
    (slotRequest p .bikeFlagRead tag (decide (start ≤ 63 ∧ n ≤ 8)) (takeBikeFlagRead p tag start n)) s

/-! ### Policies and the fault log (R156, R159, R160, R162) -/

/-- Whether a kind's policy is fixed (R152). -/
def policyFixed : FaultKind → Bool
  | .lockJam | .storeDamaged => true
  | _ => false

/-- POLICY_SET (R156): the kind's policy is read first, for a kind answered FIXED too (DESIGN CHOICE,
assumption 18). -/
def takePolicySet (tag : Nat) (k : FaultKind) (p : Policy) (s : State) : State :=
  let s := readPlaces [.policy k] s
  if policyFixed k then reply .uplink .policySet tag .fixed .empty s
  else
    let was := policyOf k s
    let s := s.setFlt { s.flt with policies := vset s.flt.policies (faultIndex k) p }
    reply .uplink .policySet tag .done (.policyWas was) (handPolicy k s)

/-- POLICY_SET. -/
def execPolicySet (tag : Nat) (k : FaultKind) (p : Policy) (s : State) :
    Host.Outcome State Fault Refusal :=
  stepOf (slotRequest .uplink .policySet tag true (takePolicySet tag k p)) s

/-- FAULT_READ (R159): a record found damaged at the read is not returned. -/
def takeFaultRead (p : Port) (tag n : Nat) (s : State) : State :=
  let s := readFaultHead s
  let asked := s.flt.log.take n
  let places := (List.range asked.length).map fun i => Place.fault (faultRing s.flt.oldestPlace i)
  let s := readPlaces places s
  let kept := asked.filter fun r => s.flt.log.contains r
  reply p .faultRead tag .done (.faults kept s.flt.lost s.flt.log.length s.flt.nextSeq) s

/-- FAULT_READ. -/
def execFaultRead (p : Port) (tag n : Nat) (s : State) : Host.Outcome State Fault Refusal :=
  stepOf (slotRequest p .faultRead tag (decide (n ≤ 4)) (takeFaultRead p tag n)) s

/-- The `n` oldest records leave the log, or all of them if fewer are held (R160). -/
def discardFaults (n : Nat) (clearLost : Bool) (s : State) : State :=
  let k := min n s.flt.log.length
  handFaultHead (s.setFlt { s.flt with
    log := s.flt.log.drop k, oldestPlace := faultRing s.flt.oldestPlace k,
    lost := if clearLost then .clear else s.flt.lost })

/-- The oldest record of the log is read from the store; where it is found damaged, the records after it
are read as they close up (R158, R171). -/
def readOldestFault (s : State) : State :=
  readPlaces (if s.flt.log.isEmpty then [] else [.fault s.flt.oldestPlace]) s

/-- FAULT_DISCARD (R160): the new oldest record is read for its sequence (R171, "read at each use"). The
records that are discarded are not read (DEDUCED, assumption 18). -/
def takeFaultDiscard (p : Port) (tag n : Nat) (clearLost : Bool) (s : State) : State :=
  let s := readFaultHead s
  let k := min n s.flt.log.length
  let s := readOldestFault (discardFaults n clearLost s)
  reply p .faultDiscard tag .done
    (.faultsDiscarded k (s.flt.log.head?.map FaultRecord.seq) s.flt.lost) s

/-- FAULT_DISCARD. -/
def execFaultDiscard (p : Port) (tag n : Nat) (clearLost : Bool) (s : State) :
    Host.Outcome State Fault Refusal :=
  stepOf
    (slotRequest p .faultDiscard tag (decide (n ≤ 32)) (takeFaultDiscard p tag n clearLost)) s

/-- DOCK_FAULT_READ (R162). -/
def takeDockFaultRead (p : Port) (tag : Nat) (s : State) : State :=
  reply p .dockFaultRead tag .done (.faultSets (s.dlc.docks.toList.map DockRecord.faults)) s

/-- DOCK_FAULT_READ. -/
def execDockFaultRead (p : Port) (tag : Nat) (s : State) : Host.Outcome State Fault Refusal :=
  stepOf (slotRequest p .dockFaultRead tag true (takeDockFaultRead p tag)) s

/-! ### Watches (R170) -/

/-- The watch slot with a number. -/
def watchSlot (n : Nat) : Fin 4 := ⟨n % 4, Nat.mod_lt _ (by decide)⟩

/-- The crew entry of an id (R124). -/
def crewOf (id : Nat) (s : State) : Option Crew :=
  s.woe.crews.toList.findSome? fun c => c.filter fun c => decide (c.id = id)

/-- Whether a crew id names an entry of level 0. -/
def supervisor (crew : Nat) (s : State) : Bool :=
  (crewOf crew s).any fun c => decide (c.level = 0)

/-- What stands against a watch request on a slot: OWNED or NOT_PERMITTED (R170). -/
def watchRefusal (p : Port) (slot : Fin 4) (crew : Nat) (s : State) : Option ReplyOutcome :=
  if (vget s.flt.watches slot).any (fun w => decide (w.owner ≠ p)) then some .owned
  else if p = .service ∧ !supervisor crew s then some .notPermitted
  else none

/-- Put a watch slot. -/
def putWatch (slot : Fin 4) (w : Option Watch) (s : State) : State :=
  s.setFlt { s.flt with watches := vset s.flt.watches slot w }

/-- The crew table is read where a request names a crew: on the Service port, also for a request that is
answered OWNED (R170; DESIGN CHOICE, assumption 53). -/
def readCrewsFor (p : Port) (s : State) : State := if p = .service then readCrews s else s

/-- WATCH_SET (R170). -/
def takeWatchSet (p : Port) (tag slot crew base span : Nat) (cond : WatchCond) (action : WatchAction)
    (enabled : Bool) (s : State) : State :=
  let s := readCrewsFor p s
  match watchRefusal p (watchSlot slot) crew s with
  | some o => reply p .watchSet tag o .empty s
  | none =>
    let replaced := (vget s.flt.watches (watchSlot slot)).isSome
    let w : Watch :=
      { owner := p, base := base, span := span, cond := cond, action := action, enabled := enabled,
        hit := false }
    reply p .watchSet tag .set (.watchReplaced replaced) (putWatch (watchSlot slot) (some w) s)

/-- WATCH_SET. -/
def execWatchSet (p : Port) (tag slot crew base span : Nat) (cond : WatchCond) (action : WatchAction)
    (enabled : Bool) (s : State) : Host.Outcome State Fault Refusal :=
  stepOf
    (slotRequest p .watchSet tag (watchInForm slot base span)
      (takeWatchSet p tag slot crew base span cond action enabled)) s

/-- WATCH_DROP (R170). -/
def takeWatchDrop (p : Port) (tag slot crew : Nat) (s : State) : State :=
  let s := readCrewsFor p s
  match vget s.flt.watches (watchSlot slot), watchRefusal p (watchSlot slot) crew s with
  | _, some o => reply p .watchDrop tag o .empty s
  | none, none => reply p .watchDrop tag .notDefined .empty s
  | some w, none =>
    reply p .watchDrop tag .dropped (.watchHit w.hit) (putWatch (watchSlot slot) none s)

/-- WATCH_DROP. -/
def execWatchDrop (p : Port) (tag slot crew : Nat) (s : State) : Host.Outcome State Fault Refusal :=
  stepOf (slotRequest p .watchDrop tag (watchSlotInForm slot) (takeWatchDrop p tag slot crew)) s

/-- The hit of a slot owned by a port is set to no. -/
def clearHit (p : Port) (s : State) (i : Fin 4) : State :=
  match vget s.flt.watches i with
  | some w => if w.owner = p then putWatch i (some { w with hit := false }) s else s
  | none => s

/-- How many slots a port owns. -/
def ownedWatches (p : Port) (s : State) : Nat :=
  (s.flt.watches.toList.filter fun o => o.any fun w => decide (w.owner = p)).length

/-- WATCH_CLEAR_HITS (R170). -/
def takeWatchClearHits (p : Port) (tag : Nat) (slot : Option Nat) (s : State) : State :=
  match slot with
  | none =>
    let n := ownedWatches p s
    reply p .watchClearHits tag .cleared (.count n) ((finList 4).foldl (clearHit p) s)
  | some i =>
    match vget s.flt.watches (watchSlot i) with
    | none => reply p .watchClearHits tag .notDefined .empty s
    | some w =>
      if w.owner = p then reply p .watchClearHits tag .cleared .empty (clearHit p s (watchSlot i))
      else reply p .watchClearHits tag .owned .empty s

/-- WATCH_CLEAR_HITS. -/
def execWatchClearHits (p : Port) (tag : Nat) (slot : Option Nat) (s : State) :
    Host.Outcome State Fault Refusal :=
  stepOf
    (slotRequest p .watchClearHits tag (slot.all watchSlotInForm) (takeWatchClearHits p tag slot)) s

/-- WATCH_READ (R170). -/
def takeWatchRead (p : Port) (tag : Nat) (s : State) : State :=
  reply p .watchRead tag .done (.watches s.flt.watches.toList) s

/-- WATCH_READ. -/
def execWatchRead (p : Port) (tag : Nat) (s : State) : Host.Outcome State Fault Refusal :=
  stepOf (slotRequest p .watchRead tag true (takeWatchRead p tag)) s

end Sys2Proof.Machine
end

