-- ==== Sys2Proof/Machine/Fares.lean ====
section
/-! DEFINITION. The Fare Unit (chapter 5): loading and dropping plans, plan terms, and the nine stages of
a fare. -/

namespace Sys2Proof.Machine

/-! ### Plans (R92 to R97) -/

/-- The plan code as a place in the tariff table. -/
def planIndex (p : Nat) : Fin 16 := ⟨p % 16, Nat.mod_lt _ (by decide)⟩

/-- A plan's terms as they stand; none is undefined (R92, R97). -/
def planOf (p : Nat) (s : State) : Option Plan := vget s.fu (planIndex p)

/-- Band `i` of a load with `n` bands kept, limited; the last band has no span (R94). -/
def limitBand (last : Bool) (b : BandEntry) : Band :=
  { span := if last then none else some (limit 1 1440 b.span).toNat,
    block := (limit 1 120 b.block).toNat, rate := (limit 0 5000 b.rate).toNat }

/-- Whether limiting changed a kept field of a band. -/
def bandLimited (last : Bool) (b : BandEntry) : Bool :=
  (!last && limited 1 1440 b.span) || limited 1 120 b.block || limited 0 5000 b.rate

/-- The number of bands a load keeps (R94). -/
def keptBands (r : TariffEntry) : Nat := (limit 1 4 r.bandCount).toNat

/-- The kept band entries, each with whether it is the last. -/
def keptEntries (r : TariffEntry) : List (Bool × BandEntry) :=
  let n := keptBands r
  ((r.bands.take n).zipIdx).map fun x => (decide (x.2 + 1 = n), x.1)

/-- The plan a load keeps (R94). -/
def limitPlan (r : TariffEntry) : Plan :=
  { free := (limit 0 240 r.free).toNat,
    bands := (keptEntries r).map fun x => limitBand x.1 x.2,
    cap := (limit 0 65535 r.cap).toNat,
    minBalance := limit (-100000) 100000 r.minBalance,
    offline := r.offline }

/-- Whether a load limited a kept field: CLAMPED (R94). The band count is one of them (DESIGN CHOICE,
assumption 42). -/
def planLimited (r : TariffEntry) : Bool :=
  limited 1 4 r.bandCount || limited 0 240 r.free || limited 0 65535 r.cap
    || limited (-100000) 100000 r.minBalance
    || (keptEntries r).any fun x => bandLimited x.1 x.2

/-- The form of TARIFF_LOAD: a plan code, and four band entries (R94). -/
def tariffInForm (plan : Nat) (r : TariffEntry) : Bool :=
  decide (plan ≤ 15 ∧ r.bands.length = 4)

/-- TARIFF_LOAD (R94): the plan it replaces is read first (DESIGN CHOICE, assumption 18). -/
def takeTariffLoad (tag plan : Nat) (r : TariffEntry) (s : State) : State :=
  let s := readPlan plan s
  let replaced := (planOf plan s).isSome
  let s := handPlan (planIndex plan) (s.setFu (vset s.fu (planIndex plan) (some (limitPlan r))))
  reply .uplink .tariffLoad tag .loaded (.planLoaded (planLimited r) replaced (limitPlan r)) s

/-- TARIFF_LOAD. -/
def execTariffLoad (tag plan : Nat) (r : TariffEntry) (s : State) :
    Host.Outcome State Fault Refusal :=
  stepOf (slotRequest .uplink .tariffLoad tag (tariffInForm plan r) (takeTariffLoad tag plan r)) s

/-- TARIFF_DROP (R95): the plan it drops is read first (DESIGN CHOICE, assumption 18). -/
def takeTariffDrop (tag plan : Nat) (s : State) : State :=
  let s := readPlan plan s
  let defined := (planOf plan s).isSome
  let s := handPlan (planIndex plan) (s.setFu (vset s.fu (planIndex plan) none))
  reply .uplink .tariffDrop tag (if defined then .dropped else .notDefined) .empty s

/-- TARIFF_DROP. -/
def execTariffDrop (tag plan : Nat) (s : State) : Host.Outcome State Fault Refusal :=
  stepOf (slotRequest .uplink .tariffDrop tag (decide (plan ≤ 15)) (takeTariffDrop tag plan)) s

/-! ### The fare (R98 to R105) -/

/-- No fare flag. -/
def FareFlags.none : FareFlags := ⟨false, false, false, false, false⟩

/-- Started minutes of a duration in seconds (R102). -/
def startedMinutes (d : Nat) : Nat := (d + 59) / 60

/-- The band walk over a remainder (R103): the last band takes all that remains. -/
def bandWalk : List Band → Nat → Nat
  | [], _ => 0
  | b :: rest, r =>
    let portion :=
      match rest, b.span with
      | [], _ => r
      | _ :: _, some k => min r k
      | _ :: _, Option.none => r
    (portion + b.block - 1) / b.block * b.rate + bandWalk rest (r - portion)

/-- Started days of started minutes (R104). -/
def startedDays (m : Nat) : Nat := max 1 ((m + 1439) / 1440)

/-- The total after the day cap (R104). -/
def capTotal (plan : Plan) (m total : Nat) : Nat :=
  if plan.cap = 0 then total else min total (plan.cap * startedDays m)

/-- Stages 5 to 9 on a duration (R102 to R105), with the flags of the earlier stages. -/
def priceDuration (plan : Plan) (d : Nat) (flags : FareFlags) : Nat × FareFlags :=
  let m := startedMinutes d
  let total := capTotal plan m (bandWalk plan.bands (m - plan.free))
  if 65535 < total then (65535, { flags with saturated := true }) else (total, flags)

/-- The longest duration that is priced: seven days (R100). -/
def sevenDays : Nat := 604800

/-- An arrival's fare from its plan's terms, start and end time, origin and grace (R99 to R105). -/
def arrivalFare (plan : Option Plan) (start stop origin stationId grace : Nat) : Nat × FareFlags :=
  match plan with
  | none => (0, { FareFlags.none with planMissing := true })
  | some plan =>
    let skew := decide (stop < start)
    let d := if stop < start then 0 else stop - start
    let clamped := decide (sevenDays < d)
    let d := min d sevenDays
    let flags : FareFlags := { FareFlags.none with skew := skew, clamped := clamped }
    if origin = stationId ∧ d ≤ grace then (0, { flags with redock := true })
    else priceDuration plan d flags

/-- A quote's fare (R107). -/
def quoteFare (plan : Option Plan) (minutes : Nat) : Nat × FareFlags :=
  match plan with
  | none => (0, { FareFlags.none with planMissing := true })
  | some plan => priceDuration plan (min (60 * minutes) sevenDays) .none

/-- QUOTE (R90, R107). -/
def takeQuote (tag plan minutes : Nat) (s : State) : State :=
  let s := readPlan plan s
  let f := quoteFare (planOf plan s) minutes
  reply .terminal .quote tag .done (.fare f.1 f.2) s

/-- QUOTE. -/
def execQuote (tag plan minutes : Nat) (s : State) : Host.Outcome State Fault Refusal :=
  stepOf (slotRequest .terminal .quote tag (quoteInForm plan minutes) (takeQuote tag plan minutes)) s

/-- The raising of a skewed arrival fare (R106). -/
def skewRaising (dock : DockNo) (bike : Nat) (t : Stamp) (arrival : Nat) : Raising :=
  { kind := .clockSkew, dock := some dock, bike := some bike,
    detail := .clockSkew t.origin t.start arrival }

end Sys2Proof.Machine
end

