-- ==== Sys2Proof/Machine/Reports.lean ====
section
/-! DEFINITION. The Report Queue (chapter 6): the claim gate, the queueing of records, and their reading
and release. -/

namespace Sys2Proof.Machine

/-- The claim gate's formula (R112). -/
def gateAdmits (n : Nat) (s : State) : Bool := decide (s.rq.held.length + s.rq.claimTotal + n ≤ 96)

/-- The next sequence number after one (R109). -/
def nextSequence (q : Nat) : Nat := (q + 1) % 4294967296

/-- The flags of a new record with fare flags. -/
def newFlags (fare : FareFlags) (clearFailed : Bool) (s : State) : ReportFlags :=
  { timeInvalid := !s.sc.station.clockValid, fare := fare, clearFailed := clearFailed,
    damaged := false }

/-- What a producer gives of a report record (R108). -/
structure NewReport where
  kind : ReportKind
  dock : DockNo
  bike : Nat
  fareFlags : FareFlags
  clearFailed : Bool
  hire : Option Stamp
  fare : Option Nat
  move : Option MovePart
  deriving DecidableEq, Repr

/-- The record that a producer's fields make in a state (R108, R110). -/
def reportOf (n : NewReport) (s : State) : Report :=
  { seq := s.rq.nextSeq, kind := some n.kind,
    place := some { time := stationTime s, dock := n.dock, bike := n.bike },
    flags := newFlags n.fareFlags n.clearFailed s, hire := n.hire, fare := n.fare, move := n.move }

/-- A record is appended with the next sequence number; the head and the record are handed (R109,
R110). -/
def appendReport (r : Report) (s : State) : State :=
  let n := s.rq.held.length
  let s := s.setRq { s.rq with held := s.rq.held ++ [r], nextSeq := nextSequence s.rq.nextSeq }
  handReport n (handQueueHead s)

/-- A report record is queued (R110): the queue head is read from the store first. -/
def queueReport (n : NewReport) (s : State) : State :=
  let s := readQueueHead s
  appendReport (reportOf n s) s

/-- A report without fare and without optional parts. -/
def plainReport (k : ReportKind) (d : DockNo) (bike : Nat) : NewReport :=
  { kind := k, dock := d, bike := bike, fareFlags := .none, clearFailed := false, hire := none,
    fare := none, move := none }

/-! ### Reading and releasing (R116 to R119) -/

/-- The sequence of the oldest held record, or the next sequence number. -/
def oldestSeq (s : State) : Nat := (s.rq.held.head?.map Report.seq).getD s.rq.nextSeq

/-- Put the read mark, handing the head when it changed (R116). -/
def setReadMark (q : Nat) (s : State) : State :=
  if s.rq.readMark = q then s else handQueueHead (s.setRq { s.rq with readMark := q })

/-- The read mark goes back to the oldest held record (R117, R119). -/
def restartRead (s : State) : State := setReadMark (oldestSeq s) s

/-- The numbers of the held records a read of `n` takes (R116). -/
def readRange (n : Nat) (s : State) : List Nat :=
  (List.range (min n (unreadCount s))).map fun i => readCount s + i

/-- A read of `n` records: those read from the store, and the mark advanced past them (R116). -/
def readReports (n : Nat) (s : State) : List Report × State :=
  let range := readRange n s
  let s := readPlaces (range.map fun i => .report (reportRing s.rq.oldestPlace i)) s
  let records := range.filterMap fun i => s.rq.held[i]?
  (records, setReadMark ((s.rq.readMark + range.length) % 4294967296) s)

/-- The body of a REPORT_READ reply (R207). -/
def reportReadBody (records : List Report) (left : Nat) : Body :=
  .bytes (leBytes 1 left ++ (records.map reportBytes).flatten)

/-- REPORT_READ (R116). -/
def takeReportRead (tag n : Nat) (s : State) : State :=
  let r := readReports n (readQueueHead s)
  reply .uplink .reportRead tag .done (reportReadBody r.1 (unreadCount r.2)) r.2

/-- REPORT_READ. -/
def execReportRead (tag n : Nat) (s : State) : Host.Outcome State Fault Refusal :=
  stepOf (slotRequest .uplink .reportRead tag (decide (n ≤ 4)) (takeReportRead tag n)) s

/-- REPORT_READ with restart (R117). -/
def takeReportReadRestart (tag n : Nat) (s : State) : State :=
  let r := readReports n (restartRead (readQueueHead s))
  reply .uplink .reportRead tag .done (reportReadBody r.1 (unreadCount r.2)) r.2

/-- REPORT_READ_RESTART. -/
def execReportReadRestart (tag n : Nat) (s : State) : Host.Outcome State Fault Refusal :=
  stepOf (slotRequest .uplink .reportRead tag (decide (n ≤ 4)) (takeReportReadRestart tag n)) s

/-- The `k` oldest held records leave the queue, and the new oldest position is handed (R118). -/
def dropReports (k : Nat) (s : State) : State :=
  handQueueHead (s.setRq { s.rq with
    held := s.rq.held.drop k, oldestPlace := reportRing s.rq.oldestPlace k })

/-- REPORT_RELEASE (R118). -/
def takeReportRelease (tag seq : Nat) (s : State) : State :=
  let s := readQueueHead s
  let d := reportDistance seq s
  if s.rq.held.length ≤ d then reply .uplink .reportRelease tag .noSuchRecord .empty s
  else if readCount s ≤ d then reply .uplink .reportRelease tag .notRead .empty s
  else reply .uplink .reportRelease tag .released (.count (d + 1)) (dropReports (d + 1) s)

/-- REPORT_RELEASE. -/
def execReportRelease (tag seq : Nat) (s : State) : Host.Outcome State Fault Refusal :=
  stepOf (slotRequest .uplink .reportRelease tag true (takeReportRelease tag seq)) s

end Sys2Proof.Machine
end

