-- ==== Sys2Proof/Machine/Cards.lean ====
section
/-! DEFINITION. The Card Cache (chapter 3): entries and their derived values, placement, write-through
adjustments, the lookup, the fill queue, the link, the offline decision, and its own requests. -/

namespace Sys2Proof.Machine

/-! ### Entries (R42 to R44) -/

/-- The set of a card (R43). -/
def cardSet (k : Nat) : Fin 32 := ⟨k % 32, Nat.mod_lt _ (by decide)⟩

/-- The entry of a card. -/
def entryOf (k : Nat) (s : State) : Option CardEntry :=
  (vget s.cc.sets (cardSet k)).find? fun e => decide (e.card = k)

/-- Put a card's set. -/
def setSet (k : Nat) (l : List CardEntry) (s : State) : State :=
  s.setCc { s.cc with sets := vset s.cc.sets (cardSet k) l }

/-- A card's entry is changed in its way. -/
def mapEntry (k : Nat) (f : CardEntry → CardEntry) (s : State) : State :=
  setSet k ((vget s.cc.sets (cardSet k)).map fun e => if e.card = k then f e else e) s

/-- A card's entry is removed. -/
def dropEntry (k : Nat) (s : State) : State :=
  setSet k ((vget s.cc.sets (cardSet k)).filter fun e => decide (e.card ≠ k)) s

/-- A card's entry moves to the head of its set's recency list (R43). -/
def touchEntry (k : Nat) (s : State) : State :=
  let l := vget s.cc.sets (cardSet k)
  setSet k (l.filter (fun e => decide (e.card = k)) ++ l.filter (fun e => decide (e.card ≠ k))) s

/-- An entry is pinned while its pending list is not empty (R42). -/
def pinned (e : CardEntry) : Bool := !e.pendingTrips.isEmpty

/-- Remove the last entry of a recency list that is not pinned. -/
def evict (l : List CardEntry) : Option (List CardEntry) :=
  match l.reverse.findIdx? fun e => !pinned e with
  | some i => some (l.reverse.eraseIdx i).reverse
  | none => none

/-- Allocate a new entry at the head of its set: in a free way, or in that of the least recently used
entry that is not pinned; none when all four ways are pinned (R43). -/
def allocate (e : CardEntry) (s : State) : Option State :=
  let l := vget s.cc.sets (cardSet e.card)
  if l.length < 4 then some (setSet e.card (e :: l) s)
  else (evict l).map fun l => setSet e.card (e :: l) s

/-- Effective open (R44). -/
def effectiveOpen (baseOpen : Nat) (hireAdj : Int) : Nat := (limit 0 15 (baseOpen + hireAdj)).toNat

/-- Effective balance (R44). -/
def effectiveBalance (balance : Int) (fareAdj : Nat) : Int := max (-1000000) (balance - fareAdj)

/-- Freshness (R44). -/
def fresh (e : CardEntry) (s : State) : Bool :=
  match e.filledAt with
  | none => false
  | some t =>
    s.sc.station.clockValid &&
      decide (t ≤ s.sc.clock ∧ s.sc.clock - t ≤ s.sc.config.maximumAge * 60)

/-- The values handed to the HU for the online decision (R50). -/
structure HandedValues where
  standing : Standing
  plan : Nat
  hireLimit : Nat
  pendingCount : Nat
  openCount : Nat
  balance : Int
  deriving DecidableEq, Repr

/-- The values of an entry. -/
def entryValues (e : CardEntry) : HandedValues :=
  { standing := e.standing.getD .active, plan := e.plan, hireLimit := e.hireLimit,
    pendingCount := e.pendingTrips.length, openCount := effectiveOpen e.baseOpen e.hireAdj,
    balance := effectiveBalance e.balance e.fareAdj }

/-! ### Placement (R45, R46) -/

/-- The entry a member record makes, limited to its fields, with adjustments. -/
def memberEntry (m : MemberRecord) (pending : List Nat) (adj : Int × Nat) (s : State) : CardEntry :=
  { state := .valid, card := m.card, standing := standingOf m.standing, plan := m.plan,
    balance := limit (-1000000) 1000000 m.balance, hireLimit := (limit 1 4 m.hireLimit).toNat,
    baseOpen := (limit 0 15 m.baseOpen).toNat, filledAt := some (stationTime s), hireAdj := adj.1,
    fareAdj := adj.2, pendingTrips := pending }

/-- Whether a placement limits a value: CLAMPED (R45). -/
def memberLimited (m : MemberRecord) : Bool :=
  limited (-1000000) 1000000 m.balance || limited 1 4 m.hireLimit || limited 0 15 m.baseOpen

/-- Whether the held record at distance `i` lies after a base mark (R46). -/
def afterMark (mark i : Nat) (s : State) : Bool :=
  let x := reportDistance mark s
  if x < s.rq.held.length then decide (x < i) else decide (2147483648 ≤ x)

/-- The held records after a base mark. -/
def recordsAfter (mark : Nat) (s : State) : List Report :=
  (s.rq.held.zipIdx.filter fun x => afterMark mark x.2 s).map Prod.fst

/-- Whether a record of a kind has a hire part that names a card, and is not damaged (R120). -/
def namesCard (k : ReportKind) (card : Nat) (r : Report) : Bool :=
  decide (r.kind = some k) && !r.flags.damaged && r.hire.any fun t => decide (t.card = card)

/-- The adjustments recomputed from the held records (R46). -/
def recompute (card mark pendingCount : Nat) (s : State) : Int × Nat :=
  let after := recordsAfter mark s
  let departures := after.filter (namesCard .departure card)
  let arrivals := after.filter (namesCard .arrival card)
  ((pendingCount : Int) + departures.length - arrivals.length,
   (arrivals.map fun r => r.fare.getD 0).sum)

/-- The docks in UNLOCKING, OFFERED or RELOCKING whose HIRE holder's stamp names a card (R45). -/
def releasesOf (card : Nat) (s : State) : Nat :=
  (allDocks.filter fun d =>
    let r := dockOf d s
    (decide (r.state = .unlocking) || decide (r.state = .offered) || decide (r.state = .relocking))
      && (match r.holder with
          | some (.hire _ (some t)) => decide (t.card = card)
          | _ => false)).length

/-- What a placement came to (R45); `notKept` carries whether the entry was found REVOKED. -/
inductive Placement where
  | placed
  | refreshed
  | notKept (revoked : Bool)
  deriving DecidableEq, Repr

/-- The outcome a reply reports for a placement. -/
def placementOutcome : Placement → ReplyOutcome
  | .placed => .placed
  | .refreshed => .refreshed
  | .notKept _ => .notKept

/-- The RQ's held records are read for a recomputation (R120). -/
def readHeldReports (s : State) : State :=
  let s := readQueueHead s
  readPlaces (heldReportPlaces s) s

/-- A member record is placed, refreshed or not kept (R45). -/
def placeMember (m : MemberRecord) (s : State) : Placement × State :=
  match entryOf m.card s with
  | some e =>
    if e.state = .revoked then (.notKept true, s)
    else
      let s := readHeldReports s
      let adj := recompute m.card m.baseMark e.pendingTrips.length s
      (.refreshed, touchEntry m.card (mapEntry m.card (fun e => memberEntry m e.pendingTrips adj s) s))
  | none =>
    if s.cc.allocate then
      let s := readHeldReports s
      match allocate (memberEntry m [] (recompute m.card m.baseMark 0 s) s) s with
      | some t => (.placed, t)
      | none => (.notKept false, s)
    else (.notKept false, s)

/-- The values handed for a record that was not kept (R45). -/
def notionalValues (m : MemberRecord) (s : State) : HandedValues × State :=
  let s := readHeldReports s
  let n := releasesOf m.card s
  let e := memberEntry m [] (recompute m.card m.baseMark n s) s
  ({ entryValues e with pendingCount := n }, s)

/-! ### Write-through adjustments (R47 to R49) -/

/-- The beginning of a release (R47): the hire adjustment rises by 1, within R42's bound of +100 (DEDUCED,
assumption 41). -/
def releaseBegun (card trip : Nat) (s : State) : State :=
  mapEntry card
    (fun e =>
      if e.pendingTrips.length < 4 then
        { e with pendingTrips := e.pendingTrips ++ [trip], hireAdj := min 100 (e.hireAdj + 1) }
      else e) s

/-- A REVOKED entry whose pending list is empty is removed (R48). -/
def dropRevoked (card : Nat) (s : State) : State :=
  match entryOf card s with
  | some e => if e.state = .revoked ∧ e.pendingTrips = [] then dropEntry card s else s
  | none => s

/-- The lapsed or failed end of a release (R48). -/
def releaseUndone (card trip : Nat) (s : State) : State :=
  dropRevoked card
    (mapEntry card
      (fun e =>
        if e.pendingTrips.contains trip then
          { e with pendingTrips := e.pendingTrips.erase trip, hireAdj := max (-96) (e.hireAdj - 1) }
        else e) s)

/-- The taken end of a release, or a late take (R48). -/
def releaseTaken (card trip : Nat) (s : State) : State :=
  dropRevoked card
    (mapEntry card
      (fun e =>
        if e.pendingTrips.contains trip then { e with pendingTrips := e.pendingTrips.erase trip }
        else { e with hireAdj := min 100 (e.hireAdj + 1) }) s)

/-- An arrival write-through (R49). -/
def arrivalWrite (card fare : Nat) (s : State) : State :=
  mapEntry card
    (fun e =>
      { e with hireAdj := max (-96) (e.hireAdj - 1), fareAdj := min 6291360 (e.fareAdj + fare) }) s

/-! ### The link and the fill queue (R51 to R54, R63) -/

/-- The link state becomes UP (R53). -/
def linkUp (s : State) : State :=
  if s.sc.linkUp then s
  else
    let s := s.setSc { s.sc with linkUp := true }
    s.setCc { s.cc with runCounter := 0, offlineGrants := 0 }

/-- The link state becomes DOWN by request (R53). -/
def linkDown (s : State) : State := s.setSc { s.sc with linkUp := false }

/-- A FILL_ANSWER acts on the link (R53). -/
def answerLink (s : State) : State :=
  let s := linkUp s
  s.setCc { s.cc with runCounter := 0 }

/-- The fill entry of a card. -/
def fillOf (k : Nat) (s : State) : Option Fill := s.cc.fills.find? fun f => decide (f.card = k)

/-- A card's fill entry leaves the queue. -/
def dropFill (k : Nat) (s : State) : State :=
  s.setCc { s.cc with fills := s.cc.fills.filter fun f => decide (f.card ≠ k) }

/-- A hire is withdrawn as waiter (R63). -/
def withdrawWaiter (tag : Nat) (s : State) : State :=
  s.setCc { s.cc with
    fills := s.cc.fills.map fun f =>
      if f.waiter.any (fun w => decide (w.tag = tag)) then { f with waiter := none } else f }

/-- A fill is issued for a card, or the hire becomes the waiter of the card's fill entry (R51). -/
def issueFill (k : Nat) (w : Waiter) (s : State) : State :=
  match fillOf k s with
  | some _ =>
    s.setCc { s.cc with
      fills := s.cc.fills.map fun f => if f.card = k then { f with waiter := some w } else f }
  | none =>
    let s := readConfig .fillTimeout s
    let f : Fill :=
      { card := k, fetched := false, issuedAt := stationTime s,
        expiry := s.sc.timebase + 1000 * s.sc.config.fillTimeout, waiter := some w,
        poisoned := false }
    s.setCc { s.cc with fills := s.cc.fills ++ [f] }

/-- Whether there is fill room for a card (R50). -/
def fillRoom (k : Nat) (s : State) : Bool :=
  (fillOf k s).isSome || decide (s.cc.fills.length < 8)

/-- Every FETCHED entry returns to WAITING (R54). -/
def rewaitFills (s : State) : State :=
  s.setCc { s.cc with fills := s.cc.fills.map fun f => { f with fetched := false } }

/-! ### The offline decision (R61, R62) -/

/-- A decision on a hire. -/
inductive Decision where
  | grant (kind : AuthKind) (plan : Nat)
  | deny (reason : DenyReason)
  deriving DecidableEq, Repr

/-- The tests that the online and the offline decision share, in order (R61, R72). -/
def decisionTests (terms : Option Plan) (v : HandedValues) : Option DenyReason :=
  match terms with
  | none => some .planUndefined
  | some p =>
    if v.standing = .barred then some .barred
    else if v.standing = .expired then some .expired
    else if v.balance < p.minBalance then some .lowBalance
    else if v.hireLimit ≤ v.openCount ∨ 4 ≤ v.pendingCount then some .limit
    else none

/-- The decision on a VALID entry while the mode serves (R61). -/
def decideValid (e : CardEntry) (planAsked : Option Nat) (s : State) : Decision × State :=
  let plan := planAsked.getD e.plan
  let s := readPlan plan s
  let terms := planOf plan s
  match decisionTests terms (entryValues e) with
  | some r => (.deny r, s)
  | none =>
    if terms.any (fun p => p.offline) then (.grant .stale plan, s) else (.deny .offlineRefused, s)

/-- The values the unknown-card test reads from the store: all of them, in the order of its conditions, and
then the plan (DESIGN CHOICE, assumptions 52 and 53). -/
def readUnknownTest (s : State) : State :=
  let s := readConfig .defaultOfflinePlan
    (readConfig .offlineQuota (readConfig .offlineUnknownAllowed s))
  readPlan s.sc.config.defaultOfflinePlan s

/-- The unknown-card test (R62). -/
def unknownTest (s : State) : Option DenyReason :=
  if !s.sc.config.offlineUnknownAllowed then some .offlineRefused
  else if s.sc.config.offlineQuota ≤ s.cc.offlineGrants then some .offlineRefused
  else if (planOf s.sc.config.defaultOfflinePlan s).isNone then some .planUndefined
  else none

/-- The PROVISIONAL entry of a card (R42). -/
def provisionalEntry (k plan : Nat) : CardEntry :=
  { state := .provisional, card := k, standing := none, plan := plan, balance := 0, hireLimit := 1,
    baseOpen := 0, filledAt := none, hireAdj := 0, fareAdj := 0, pendingTrips := [] }

/-- An OFFLINE_UNKNOWN grant raises the offline grant count (R62). -/
def countGrant (s : State) : State :=
  s.setCc { s.cc with offlineGrants := s.cc.offlineGrants + 1 }

/-- The unknown-card test decides; on a grant without an entry a PROVISIONAL entry is allocated where
allocation is on (R62). -/
def decideUnknown (k : Nat) (allocating : Bool) (s : State) : Decision × State :=
  let s := readUnknownTest s
  match unknownTest s with
  | some r => (.deny r, s)
  | none =>
    let plan := s.sc.config.defaultOfflinePlan
    let s := countGrant s
    let s :=
      if allocating && s.cc.allocate then (allocate (provisionalEntry k plan) s).getD s else s
    (.grant .offlineUnknown plan, s)

/-- The offline decision (R61, R62). -/
def decideOffline (k : Nat) (planAsked : Option Nat) (s : State) : Decision × State :=
  match entryOf k s with
  | none => decideUnknown k true s
  | some e =>
    if e.state = .revoked then (.deny .revoked, s)
    else if !s.cc.serve then decideUnknown k false s
    else if e.state = .valid then decideValid e planAsked s
    else if pinned e ∨ 1 ≤ effectiveOpen e.baseOpen e.hireAdj then (.deny .limit, s)
    else decideUnknown k false s

/-! ### The lookup (R50) -/

/-- The answers of an authorisation lookup. -/
inductive LookupAnswer where
  | deny
  | decide (v : HandedValues)
  | fill
  | offline (d : Decision)
  deriving DecidableEq, Repr

/-- The answer of a lookup that neither denies nor decides: FILL, or OFFLINE with its decision. -/
def lookupFill (k : Nat) (w : Waiter) (s : State) : LookupAnswer × State :=
  if s.sc.linkUp && fillRoom k s then (.fill, issueFill k w s)
  else
    let r := decideOffline k w.plan s
    (.offline r.1, r.2)

/-- The authorisation lookup (R50). -/
def lookup (k : Nat) (w : Waiter) (s : State) : LookupAnswer × State :=
  match entryOf k s with
  | none => lookupFill k w s
  | some e =>
    let s := touchEntry k s
    if e.state = .revoked then (.deny, s)
    else if e.state = .valid ∧ s.cc.serve then
      let s := readConfig .maximumAge s
      if fresh e s then (.decide (entryValues e), s) else lookupFill k w s
    else lookupFill k w s

/-! ### Requests (R54, R57 to R60, R53) -/

/-- The WAITING entries a FILL_FETCH returns: the oldest four. -/
def fillsToFetch (s : State) : List Fill := (s.cc.fills.filter fun f => !f.fetched).take 4

/-- FILL_FETCH (R54). -/
def takeFillFetch (tag : Nat) (s : State) : State :=
  let l := fillsToFetch s
  let s := s.setCc { s.cc with
    fills := s.cc.fills.map fun f =>
      if l.any (fun g => decide (g.card = f.card)) then { f with fetched := true } else f }
  reply .uplink .fillFetch tag .done (.fills (l.map fun f => (f.card, f.issuedAt))) s

/-- FILL_FETCH. -/
def execFillFetch (tag : Nat) (s : State) : Host.Outcome State Fault Refusal :=
  stepOf (slotRequest .uplink .fillFetch tag true (takeFillFetch tag)) s

/-- CARD_PUSH (R57). -/
def takeCardPush (tag : Nat) (m : MemberRecord) (s : State) : State :=
  let r := placeMember m s
  reply .uplink .cardPush tag (placementOutcome r.1) (.clamped (memberLimited m)) r.2

/-- CARD_PUSH. -/
def execCardPush (tag : Nat) (m : MemberRecord) (s : State) : Host.Outcome State Fault Refusal :=
  stepOf (slotRequest .uplink .cardPush tag (memberInForm m) (takeCardPush tag m)) s

/-- The cache effect of an invalidation (R58). An entry that is already REVOKED stays and is reported
REVOKED, and one made from a PROVISIONAL entry keeps no filled at (DESIGN CHOICE, assumption 39). -/
def invalidateEntry (k : Nat) (s : State) : CacheEffect × State :=
  match entryOf k s with
  | none => (.noEntry, s)
  | some e =>
    if e.state = .revoked then (.revoked, s)
    else if pinned e then
      (.revoked, mapEntry k (fun e => { e with state := .revoked, standing := none }) s)
    else (.removed, dropEntry k s)

/-- A card's fill entry is marked poisoned (R58). -/
def poisonFill (k : Nat) (s : State) : State :=
  s.setCc { s.cc with
    fills := s.cc.fills.map fun f => if f.card = k then { f with poisoned := true } else f }

/-- CARD_INVALIDATE (R58). A fill entry that is already poisoned is reported poisoned (DESIGN CHOICE,
assumption 39). -/
def takeCardInvalidate (tag k : Nat) (s : State) : State :=
  let r := invalidateEntry k s
  let poisoned := (fillOf k r.2).isSome
  reply .uplink .cardInvalidate tag .done (.invalidated r.1 poisoned) (poisonFill k r.2)

/-- CARD_INVALIDATE. A number that no card has is BAD_FORM (DESIGN CHOICE, assumption
54). -/
def execCardInvalidate (tag k : Nat) (s : State) : Host.Outcome State Fault Refusal :=
  stepOf (slotRequest .uplink .cardInvalidate tag (cardInForm k) (takeCardInvalidate tag k)) s

/-- The number of entries in the cache. -/
def entryCount (c : CardCache) : Nat := (c.sets.toList.map List.length).sum

/-- CACHE_FLUSH (R59). -/
def takeCacheFlush (tag : Nat) (s : State) : State :=
  let c := { s.cc with sets := s.cc.sets.map fun l => l.filter pinned }
  reply .uplink .cacheFlush tag .done (.count (entryCount s.cc - entryCount c)) (s.setCc c)

/-- CACHE_FLUSH. -/
def execCacheFlush (tag : Nat) (s : State) : Host.Outcome State Fault Refusal :=
  stepOf (slotRequest .uplink .cacheFlush tag true (takeCacheFlush tag)) s

/-- CACHE_MODE (R60). -/
def takeCacheMode (tag : Nat) (allocate serve : Bool) (s : State) : State :=
  if allocate && !serve then reply .uplink .cacheMode tag .badMode .empty s
  else reply .uplink .cacheMode tag .done .empty
    (s.setCc { s.cc with allocate := allocate, serve := serve })

/-- CACHE_MODE. -/
def execCacheMode (tag : Nat) (allocate serve : Bool) (s : State) :
    Host.Outcome State Fault Refusal :=
  stepOf (slotRequest .uplink .cacheMode tag true (takeCacheMode tag allocate serve)) s

/-- LINK_STATE(up). -/
def execLinkStateUp (tag : Nat) (s : State) : Host.Outcome State Fault Refusal :=
  stepOf
    (slotRequest .uplink .linkState tag true
      (fun s => reply .uplink .linkState tag .done .empty (linkUp s))) s

/-- LINK_STATE(down). -/
def execLinkStateDown (tag : Nat) (s : State) : Host.Outcome State Fault Refusal :=
  stepOf
    (slotRequest .uplink .linkState tag true
      (fun s => reply .uplink .linkState tag .done .empty (linkDown s))) s

end Sys2Proof.Machine
end

