-- ==== Sys2Proof/Machine/Docks.lean ====
section
/-! DEFINITION. What other blocks ask of the dock table: hireability and the choice of a dock (R23, R24),
holders (R2), and the beginning of a release (R12). -/

namespace Sys2Proof.Machine

/-- Whether each condition of R23 fails at a dock, in their order. Conditions 5 and 6 speak of a dock's
bike and can fail only where there is one (DEDUCED, assumption 12). -/
def conditionsFail (d : DockNo) (s : State) : List Bool :=
  let r := dockOf d s
  [decide (r.state ≠ .docked), r.suspended, r.holder.isSome,
   !(r.bike.any fun b => decide (b.id ≠ 0)), r.bike.any (fun b => flagged b.id s),
   r.bike.any (fun b => b.mark), held d s]

/-- The numbers of the conditions of R23 that fail at a dock. -/
def failing (d : DockNo) (s : State) : List Nat :=
  ((conditionsFail d s).zipIdx.filter fun x => x.1).map fun x => x.2 + 1

/-- Whether a dock is hireable (R23). -/
def hireable (d : DockNo) (s : State) : Bool := !((conditionsFail d s).any id)

/-- A dock's docked since, for the choice of R24. -/
def dockedSince (d : DockNo) (s : State) : Nat := ((dockOf d s).bike.map Bike.since).getD 0

/-- The dock chosen for a hire of ANY: the hireable dock whose docked since is the oldest, the
lowest-numbered among equals (R24). -/
def chooseDock (s : State) : Option DockNo :=
  (allDocks.filter fun d => hireable d s).foldl
    (fun best d =>
      match best with
      | none => some d
      | some b => if dockedSince d s < dockedSince b s then some d else some b)
    none

/-! ### Holders (R2) -/

/-- A holder is placed on a dock. -/
def placeHolder (d : DockNo) (h : Holder) (s : State) : State :=
  putDock d { dockOf d s with holder := some h } s

/-- Whether a dock has the holder of a hire with a tag. -/
def heldByHire (d : DockNo) (tag : Nat) (s : State) : Bool :=
  match (dockOf d s).holder with
  | some (.hire t _) => decide (t = tag)
  | _ => false

/-- The HU withdraws its holder, if it is still on the dock and the dock still DOCKED. -/
def withdrawHire (d : DockNo) (tag : Nat) (s : State) : State :=
  if heldByHire d tag s ∧ (dockOf d s).state = .docked then
    putDock d { dockOf d s with holder := none } s
  else s

/-! ### The beginning of a release (R12) -/

/-- The answers to a begin-release. -/
inductive BeginAnswer where
  | started | notHireable | backlog
  deriving DecidableEq, Repr

/-- Whether a begin-release is taken for a holder's owner: the dock DOCKED, the holder the requester's
own, no deadline. -/
def beginOwn (d : DockNo) (h : Holder) (s : State) : Bool :=
  let r := dockOf d s
  decide (r.state = .docked) && decide (r.holder = some h) && r.deadline.isNone

/-- Whether every condition of R23 but the absence of a holder holds. -/
def hireableButHolder (d : DockNo) (s : State) : Bool := (failing d s).all fun c => decide (c = 3)

/-- What a begin-release asks of the claim gate (R12, R113). -/
def releaseIncrease (d : DockNo) (s : State) : Nat := if (dockOf d s).suspended then 1 else 2

/-- The release begins: UNLOCKING, the holder as it stands from now on, RELEASE waiting, the ACTUATION
deadline held open (R12), and the RELEASE dock event of R168. -/
def startRelease (d : DockNo) (h : Holder) (stamp : Option Stamp) (s : State) : State :=
  let r := dockOf d s
  let s := putDock d
    { r with state := .unlocking, holder := some h, deadline := some (.actuation none false) } s
  dockEvent .release d (placeCommand d (.release stamp) s)

/-- A begin-release for a hire with a tag, with its stamp (R12). -/
def beginHireRelease (d : DockNo) (tag : Nat) (stamp : Stamp) (s : State) : BeginAnswer × State :=
  let s := readRegistry s
  if beginOwn d (.hire tag none) s && hireableButHolder d s then
    let s := readQueueHead s
    if gateAdmits (releaseIncrease d s) s then
      (.started, startRelease d (.hire tag (some stamp)) (some stamp) s)
    else (.backlog, s)
  else (.notHireable, s)

/-- A begin-release for a collect's holder (R12). -/
def beginOrderRelease (d : DockNo) (h : Holder) (s : State) : BeginAnswer × State :=
  if beginOwn d h s then
    let s := readQueueHead s
    if gateAdmits (releaseIncrease d s) s then (.started, startRelease d h none s) else (.backlog, s)
  else (.notHireable, s)

/-! ### Resumes, probes and re-admission (R5, R21, R22) -/

/-- The answers to a resume request (R5). -/
inductive ResumeAnswer where
  | resumed | unchanged | busy | notResumable | backlog
  deriving DecidableEq, Repr

/-- A dock's suspension is lifted. -/
def unsuspend (d : DockNo) (s : State) : State := putDock d { dockOf d s with suspended := false } s

/-- A resume request (R5). -/
def resumeDock (d : DockNo) (s : State) : ResumeAnswer × State :=
  let r := dockOf d s
  match r.state with
  | .docked => if r.suspended then (.resumed, unsuspend d s) else (.unchanged, s)
  | .vacant =>
    if r.suspended then
      let s := readQueueHead s
      if gateAdmits 1 s then (.resumed, unsuspend d s) else (.backlog, s)
    else (.unchanged, s)
  | .unlocking | .offered | .relocking => (.busy, s)
  | .jammed | .absent | .parked => (.notResumable, s)

/-- Whether a dock of a kind that is probed has a probe in flight: JAMMED, PARKED or being surveyed, with
an ACTUATION deadline (section 1.8). -/
def probing (d : DockNo) (s : State) : Bool :=
  let r := dockOf d s
  actuating r && (decide (r.state = .jammed) || decide (r.state = .parked) || decide (r.state = .absent))

/-- A probe is started: RELOCK waiting, the ACTUATION deadline held open (R21). The fault set is put in
the same change of the record. -/
def startProbe (d : DockNo) (clearing : Bool) (faults : FaultSet) (s : State) : State :=
  let r := dockOf d s
  let s := putDock d { r with deadline := some (.actuation none false), faults := faults } s
  placeCommand d (.relock clearing .probe) s

/-- A fault kind leaves a dock's fault set. -/
def clearDockFault (d : DockNo) (k : FaultKind) (s : State) : State :=
  let r := dockOf d s
  putDock d { r with faults := r.faults.put k false } s

/-- The re-admission of a PARKED dock (R22): whether the gate admitted it. -/
def readmit (d : DockNo) (s : State) : Bool × State :=
  let s := readQueueHead s
  if gateAdmits 1 s then
    (true, startProbe d false ((dockOf d s).faults.put .dockReturned false) s)
  else (false, s)

end Sys2Proof.Machine
end

