-- ==== Sys2Proof/Machine/Hires.lean ====
section
/-! DEFINITION. The Hire Unit (chapter 4), and the fill answers and expiries that decide its waiters
(R52, R55, R56). -/

namespace Sys2Proof.Machine

/-! ### Hire records (R65) -/

/-- The hire record of a tag. -/
def hireOf (tag : Nat) (s : State) : Option HireRecord := s.hu.find? fun h => decide (h.tag = tag)

/-- A tag's hire record is changed. -/
def mapHire (tag : Nat) (f : HireRecord → HireRecord) (s : State) : State :=
  s.setHu (s.hu.map fun h => if h.tag = tag then f h else h)

/-- A tag's hire record is removed. -/
def dropHire (tag : Nat) (s : State) : State :=
  s.setHu (s.hu.filter fun h => decide (h.tag ≠ tag))

/-- A hire's reply is finished and its record moves to OFFERED or ENDED (R66, R67). -/
def finishHire (tag : Nat) (o : ReplyOutcome) (b : Body) (s : State) : State :=
  let st := if o = .released then HireState.offered else .ended
  reply .terminal .hire tag o b (mapHire tag (fun h => { h with state := st }) s)

/-- Whether a hire record has not ended (R66). -/
def notEnded (h : HireRecord) : Bool :=
  decide (h.state = .authWait) || decide (h.state = .unlocking)

/-! ### Denials and grants (R72 to R77) -/

/-- The HU withdraws a hire's holder from its chosen dock. -/
def withdrawChosen (h : HireRecord) (s : State) : State :=
  match h.chosen with
  | some d => withdrawHire d h.tag s
  | none => s

/-- A denial ends a hire (R74). -/
def denyHire (h : HireRecord) (reason : DenyReason) (s : State) : State :=
  finishHire h.tag .denied (.denied reason) (withdrawChosen h s)

/-- The stamp of a grant (R75). -/
def stampFor (h : HireRecord) (kind : AuthKind) (plan : Nat) (s : State) : Stamp :=
  { origin := s.sc.station.id, trip := (s.sc.station.trip + 1) % 65536, card := h.card,
    start := stationTime s, plan := plan, auth := kind }

/-- The trip counter takes a stamp's trip number (R77). -/
def setTrip (t : Nat) (s : State) : State :=
  handStation (s.setSc { s.sc with station := { s.sc.station with trip := t } })

/-- What the HU does on STARTED (R76). -/
def hireStarted (h : HireRecord) (stamp : Stamp) (s : State) : State :=
  mapHire h.tag (fun r => { r with state := .unlocking })
    (releaseBegun h.card stamp.trip (setTrip stamp.trip s))

/-- The conditions a NO_BIKE reply carries: those that fail at a named dock, none for ANY (R67). -/
def noBikeBody (h : HireRecord) (d : DockNo) (s : State) : Body :=
  .noBike (if h.dockRequest.isSome then failing d s else [])

/-- A grant asks for the release (R75, R76). -/
def grantHire (h : HireRecord) (kind : AuthKind) (plan : Nat) (s : State) : State :=
  match h.chosen with
  | none => s
  | some d =>
    let stamp := stampFor h kind plan s
    let r := beginHireRelease d h.tag stamp s
    match r.1 with
    | .started => hireStarted h stamp r.2
    | .backlog => finishHire h.tag .backlog .empty (withdrawHire d h.tag r.2)
    | .notHireable =>
      let s := withdrawHire d h.tag r.2
      finishHire h.tag .noBike (noBikeBody h d s) s

/-- The HU acts on a decision (R71, R73). -/
def actOn (h : HireRecord) (x : Decision) (s : State) : State :=
  match x with
  | .grant kind plan => grantHire h kind plan s
  | .deny reason => denyHire h reason s

/-- The online decision (R72). -/
def decideOnline (h : HireRecord) (v : HandedValues) (s : State) : State :=
  let plan := h.plan.getD v.plan
  let s := readPlan plan s
  match decisionTests (planOf plan s) v with
  | some r => denyHire h r s
  | none => grantHire h .online plan s

/-! ### HIRE (R68 to R71) -/

/-- Whether a dock has a collect's holder (R2, R137). -/
def collectHeld (d : DockNo) (s : State) : Bool :=
  match (dockOf d s).holder with
  | some (.order _ _ _) => true
  | _ => false

/-- Whether a HIRE that names a dock may find it free later: another's holder is all that the dock lacks to
be hireable (R69), or the release of a collect's holder is (R137). Such a dock is not DOCKED either, so that
R69's list has condition 1 too; R137, which names the case, is followed (DESIGN CHOICE, assumption 38). -/
def mayComeFree (d : DockNo) (s : State) : Bool :=
  decide (failing d s = [3]) || (decide (failing d s = [1, 3]) && collectHeld d s)

/-- The dock check (R69): the dock that passes it, or the reply that a failure gives. -/
def dockCheck (d : Option DockNo) (s : State) : Except (ReplyOutcome × Body) DockNo :=
  match d with
  | some d =>
    if hireable d s then .ok d
    else if mayComeFree d s then .error (.retry, .retry .dockHeld)
    else .error (.noBike, .noBike (failing d s))
  | none =>
    match chooseDock s with
    | some d => .ok d
    | none => .error (.noBike, .noBike [])

/-- The first of checks 1 to 3 of R68 that fails. -/
def hireRefusal (h : HireRecord) (s : State) : Option (ReplyOutcome × Body) :=
  if s.sc.mode ≠ .inService then some (.notInService, .empty)
  else if !commissioned s then some (.notCommissioned, .empty)
  else if s.hu.any (fun x => decide (x.tag ≠ h.tag) && decide (x.card = h.card) && notEnded x) then
    some (.retry, .retry .sameCard)
  else none

/-- The lookup and what the HU does with its answer (R71). -/
def authorise (h : HireRecord) (s : State) : State :=
  let r := lookup h.card { tag := h.tag, plan := h.plan } s
  match r.1 with
  | .deny => denyHire h .revoked r.2
  | .decide v => decideOnline h v r.2
  | .fill => r.2
  | .offline x => actOn h x r.2

/-- The holder is placed on the dock, which becomes the record's chosen dock, and the lookup is asked
(R70). -/
def reserveDock (h : HireRecord) (d : DockNo) (s : State) : State :=
  let h := { h with chosen := some d }
  let s := mapHire h.tag (fun _ => h) (placeHolder d (.hire h.tag none) s)
  authorise h s

/-- The dock request of a HIRE as a dock, none for ANY. -/
def requestedDock : DockRequest → Option DockNo
  | .any => none
  | .dock n => if h : n < 48 then some ⟨n, h⟩ else none

/-- HIRE once accepted (R68). -/
def takeHire (tag card : Nat) (dock : DockRequest) (plan : Option Nat) (s : State) : State :=
  let h : HireRecord :=
    { tag := tag, card := card, dockRequest := requestedDock dock, plan := plan, state := .authWait,
      chosen := none, cancelRequested := false }
  let s := s.setHu (s.hu ++ [h])
  match hireRefusal h s with
  | some (o, b) => finishHire tag o b s
  | none =>
    let s := readRegistry s
    match dockCheck h.dockRequest s with
    | .error (o, b) => finishHire tag o b s
    | .ok d =>
      let s := readQueueHead s
      if gateAdmits 2 s then reserveDock h d s else finishHire tag .backlog .empty s

/-- HIRE. -/
def execHire (tag card : Nat) (dock : DockRequest) (plan : Option Nat) (s : State) :
    Host.Outcome State Fault Refusal :=
  stepOf (slotRequest .terminal .hire tag (hireInForm card dock plan) (takeHire tag card dock plan)) s

/-! ### CANCEL (R83 to R85) -/

/-- The dock a CANCELLED reply carries: the chosen one, if a holder was withdrawn (R84). -/
def withdrawnDock (h : HireRecord) (s : State) : Option DockNo :=
  h.chosen.filter fun d => heldByHire d h.tag s && decide ((dockOf d s).state = .docked)

/-- CANCEL of a hire in AUTH_WAIT (R84). -/
def cancelWaiting (h : HireRecord) (s : State) : State :=
  let d := withdrawnDock h s
  finishHire h.tag .cancelled (.dock d) (withdrawChosen h (withdrawWaiter h.tag s))

/-- CANCEL once accepted (R83). -/
def takeCancel (tag target : Nat) (s : State) : State :=
  match hireOf target s with
  | none => reply .terminal .cancel tag .noSuchTag .empty s
  | some h =>
    match h.state with
    | .authWait => reply .terminal .cancel tag .done .empty (cancelWaiting h s)
    | .unlocking =>
      reply .terminal .cancel tag .pending .empty
        (mapHire target (fun h => { h with cancelRequested := true }) s)
    | .offered => reply .terminal .cancel tag .tooLate .empty s
    | .ended => reply .terminal .cancel tag .tooLate .empty s

/-- CANCEL. -/
def execCancel (tag target : Nat) (s : State) : Host.Outcome State Fault Refusal :=
  stepOf (slotRequest .terminal .cancel tag true (takeCancel tag target)) s

/-! ### STATION_VIEW (R89) -/

/-- A dock's entry in the station view. -/
def viewEntry (s : State) (d : DockNo) : ViewEntry :=
  let r := dockOf d s
  { state := r.state, suspended := r.suspended, hireable := hireable d s,
    bike := if hireable d s then r.bike.map Bike.id else none }

/-- STATION_VIEW once accepted. -/
def takeStationView (tag : Nat) (s : State) : State :=
  let s := readRegistry s
  reply .terminal .stationView tag .done
    (.stationView s.sc.mode (commissioned s) (allDocks.map (viewEntry s))) s

/-- STATION_VIEW. -/
def execStationView (tag : Nat) (s : State) : Host.Outcome State Fault Refusal :=
  stepOf (slotRequest .terminal .stationView tag true (takeStationView tag)) s

/-! ### Outcomes of a release (R78 to R82) -/

/-- The record in UNLOCKING that matches a holder by tag and dock (R78). -/
def matchingHire (d : DockNo) (tag : Nat) (s : State) : Option HireRecord :=
  s.hu.find? fun h =>
    decide (h.tag = tag) && decide (h.state = .unlocking) && decide (h.chosen = some d)

/-- Whether cancel is requested for a holder (R78). -/
def cancelAsked (d : DockNo) (tag : Nat) (s : State) : Bool :=
  (matchingHire d tag s).any fun h => h.cancelRequested

/-- A reply is finished for the matching record, if there is one. -/
def finishMatching (d : DockNo) (tag : Nat) (o : ReplyOutcome) (b : Body) (s : State) : State :=
  match matchingHire d tag s with
  | some _ => finishHire tag o b s
  | none => s

/-- The RELEASED reply of a stamp (R79). -/
def releasedBody (d : DockNo) (bike : Nat) (t : Stamp) : Body :=
  .hireReleased d bike t.trip t.start t.plan t.auth

/-- OPENED handed for a HIRE holder (R79). -/
def hireOpened (d : DockNo) (tag : Nat) (bike : Nat) (stamp : Option Stamp) (s : State) : State :=
  match stamp with
  | some t => finishMatching d tag .released (releasedBody d bike t) s
  | none => s

/-- FAILED handed for a HIRE holder (R80). -/
def hireFailed (d : DockNo) (tag : Nat) (stamp : Option Stamp) (s : State) : State :=
  let s :=
    match stamp with
    | some t => releaseUndone t.card t.trip s
    | none => s
  finishMatching d tag .releaseFailed (.dock (some d)) s

/-- TAKEN handed for a HIRE holder (R81). -/
def hireTaken (d : DockNo) (tag : Nat) (bike : Nat) (stamp : Option Stamp) (s : State) : State :=
  match stamp with
  | some t => finishMatching d tag .released (releasedBody d bike t) (releaseTaken t.card t.trip s)
  | none => s

/-- LAPSED handed for a HIRE holder (R82). -/
def hireLapsed (d : DockNo) (tag : Nat) (stamp : Option Stamp) (s : State) : State :=
  let s :=
    match stamp with
    | some t => releaseUndone t.card t.trip s
    | none => s
  finishMatching d tag .cancelled (.dock (some d)) (setEvent .terminal .stationChanged s)

/-! ### Mode changes and port clearing (R87, R88) -/

/-- A hire in AUTH_WAIT ends with NOT_IN_SERVICE (R87). -/
def endWaiting (s : State) (h : HireRecord) : State :=
  finishHire h.tag .notInService .empty (withdrawChosen h (withdrawWaiter h.tag s))

/-- Entering MAINTENANCE ends every hire in AUTH_WAIT (R87), in the order in which they were accepted (DESIGN
CHOICE, assumption 15). -/
def endWaitingHires (s : State) : State :=
  (s.hu.filter fun h => decide (h.state = .authWait)).foldl endWaiting s

/-- A Terminal PORT_CLEAR: hires in AUTH_WAIT end silently, and every record is removed (R88). -/
def clearHires (s : State) : State :=
  let s := (s.hu.filter fun h => decide (h.state = .authWait)).foldl
    (fun s h => withdrawChosen h (withdrawWaiter h.tag s)) s
  s.setHu []

/-! ### Fill answers and expiries (R52, R55, R56) -/

/-- A fill's waiter, if any, is acted on through its hire record (R73). -/
def forWaiter (f : Fill) (act : HireRecord → State → State) (s : State) : State :=
  match f.waiter with
  | some w =>
    match hireOf w.tag s with
    | some h => act h s
    | none => s
  | none => s

/-- The values a waiter is decided on after a placement, or none when it is denied REVOKED (R55). -/
def waiterValues (m : MemberRecord) (p : Placement) (s : State) : Option HandedValues × State :=
  match p with
  | .notKept true => (none, s)
  | .notKept false =>
    let r := notionalValues m s
    (some r.1, r.2)
  | _ => ((entryOf m.card s).map entryValues, s)

/-- The waiter of an answered fill is decided by the record (R55). -/
def decideWaiter (m : MemberRecord) (f : Fill) (p : Placement) (s : State) : State :=
  if f.waiter.isSome then
    let r := waiterValues m p s
    match r.1 with
    | some v => forWaiter f (fun h s => decideOnline h v s) r.2
    | none => forWaiter f (fun h s => denyHire h .revoked s) r.2
  else s

/-- An answer to a poisoned fill entry is discarded (R56). -/
def discardFill (tag : Nat) (f : Fill) (s : State) : State :=
  reply .uplink .fillAnswer tag .discarded .empty
    (forWaiter f (fun h s => denyHire h .revoked s) (dropFill f.card s))

/-- FILL_ANSWER with a member record, once accepted (R55 to R57). -/
def takeFillAnswer (tag : Nat) (m : MemberRecord) (s : State) : State :=
  let s := answerLink s
  match fillOf m.card s with
  | none =>
    let r := placeMember m s
    reply .uplink .fillAnswer tag (placementOutcome r.1) (.clamped (memberLimited m)) r.2
  | some f =>
    if f.poisoned then discardFill tag f s
    else
      let r := placeMember m (dropFill m.card s)
      reply .uplink .fillAnswer tag (placementOutcome r.1) (.clamped (memberLimited m))
        (decideWaiter m f r.1 r.2)

/-- FILL_ANSWER with a member record. -/
def execFillAnswer (tag : Nat) (m : MemberRecord) (s : State) : Host.Outcome State Fault Refusal :=
  stepOf (slotRequest .uplink .fillAnswer tag (memberInForm m) (takeFillAnswer tag m)) s

/-- FILL_ANSWER with NOT_FOUND, once accepted (R56). -/
def takeFillNotFound (tag card : Nat) (s : State) : State :=
  let s := answerLink s
  match fillOf card s with
  | none =>
    reply .uplink .fillAnswer tag .notFoundTaken .empty (invalidateEntry card s).2
  | some f =>
    if f.poisoned then discardFill tag f s
    else
      let s := forWaiter f (fun h s => denyHire h .unknownCard s) (dropFill card s)
      reply .uplink .fillAnswer tag .notFoundTaken .empty (invalidateEntry card s).2

/-- FILL_ANSWER with NOT_FOUND. -/
def execFillAnswerNotFound (tag card : Nat) (s : State) : Host.Outcome State Fault Refusal :=
  stepOf (slotRequest .uplink .fillAnswer tag (cardInForm card) (takeFillNotFound tag card)) s

/-- The run counter advances, and reaching 3 while UP takes the link down (R52). -/
def advanceRun (s : State) : State :=
  let n := min 3 (s.cc.runCounter + 1)
  let s := s.setCc { s.cc with runCounter := n }
  if n = 3 ∧ s.sc.linkUp then
    setEvent .uplink .linkDown
      (raise (stationRaising .linkDown .none) (s.setSc { s.sc with linkUp := false }))
  else s

/-- The waiter of an expired fill: the offline decision, or REVOKED when poisoned (R52). -/
def expireWaiter (f : Fill) (s : State) : State :=
  if f.poisoned then forWaiter f (fun h s => denyHire h .revoked s) s
  else
    match f.waiter with
    | none => s
    | some w =>
      let r := decideOffline f.card w.plan s
      forWaiter f (fun h s => actOn h r.1 s) r.2

/-- A fill entry's expiry is reached (R52). -/
def fillExpires (card : Nat) (s : State) : State :=
  match fillOf card s with
  | none => s
  | some f => advanceRun (expireWaiter f (dropFill card (reachTime f.expiry s)))

/-- FILL_EXPIRY. -/
def execFillExpiry (card : Nat) (s : State) : Host.Outcome State Fault Refusal :=
  stepOf (whileRunning (fillExpires card)) s

end Sys2Proof.Machine
end

