-- ==== Sys2Proof/Machine/WorkOrders.lean ====
section
/-! DEFINITION. The Work Order Engine (chapter 7): crews and floors, submission, the execution of orders,
their progress and their end. -/

namespace Sys2Proof.Machine

/-! ### Crews and floors (R124 to R128) -/

/-- The place of a crew's entry. -/
def crewPlace (id : Nat) (s : State) : Option (Fin 16) :=
  (finList 16).find? fun i => (vget s.woe.crews i).any fun c => decide (c.id = id)

/-- The first empty crew place. -/
def freeCrewPlace (s : State) : Option (Fin 16) :=
  (finList 16).find? fun i => (vget s.woe.crews i).isNone

/-- Put a crew place and hand it. -/
def putCrew (i : Fin 16) (c : Option Crew) (s : State) : State :=
  handCrew i (s.setWoe { s.woe with crews := vset s.woe.crews i c })

/-- The crew entry a load makes (R125). -/
def loadedCrew (crew level mapLength : Nat) (permits : List Bool) : Crew :=
  { id := crew, level := level, mapLength := min mapLength 48,
    map := permits.take (min mapLength 48) }

/-- CREW_LOAD (R125). -/
def takeCrewLoad (tag crew level mapLength : Nat) (permits : List Bool) (s : State) : State :=
  let s := readCrews s
  let c := loadedCrew crew level mapLength permits
  let body := Body.clamped (decide (48 < mapLength))
  match crewPlace crew s with
  | some i => reply .uplink .crewLoad tag .replaced body (putCrew i (some c) s)
  | none =>
    match freeCrewPlace s with
    | some i => reply .uplink .crewLoad tag .added body (putCrew i (some c) s)
    | none => reply .uplink .crewLoad tag .tableFull body s

/-- CREW_LOAD. -/
def execCrewLoad (tag crew level mapLength : Nat) (permits : List Bool) (s : State) :
    Host.Outcome State Fault Refusal :=
  stepOf
    (slotRequest .uplink .crewLoad tag (crewInForm crew level permits)
      (takeCrewLoad tag crew level mapLength permits)) s

/-- CREW_DROP (R126). -/
def takeCrewDrop (tag crew : Nat) (s : State) : State :=
  let s := readCrews s
  match crewPlace crew s with
  | some i => reply .uplink .crewDrop tag .dropped .empty (putCrew i none s)
  | none => reply .uplink .crewDrop tag .noSuchCrew .empty s

/-- CREW_DROP. Every crew id is in form (DESIGN CHOICE, assumption 54). -/
def execCrewDrop (tag crew : Nat) (s : State) : Host.Outcome State Fault Refusal :=
  stepOf (slotRequest .uplink .crewDrop tag true (takeCrewDrop tag crew)) s

/-- Whether a dock is permitted to a crew (R127). -/
def permits (c : Crew) (d : Nat) : Bool := decide (d < c.mapLength) && (c.map[d]?).getD false

/-- The floor of an order kind (R128). -/
def floorOf (k : OrderKind) (s : State) : Nat := vget s.woe.floors (orderIndex k)

/-- FLOOR_SET (R128). -/
def takeFloorSet (tag : Nat) (k : OrderKind) (floor : Nat) (s : State) : State :=
  let s := readPlaces [.floor k] s
  let was := floorOf k s
  let s := handFloor k (s.setWoe { s.woe with floors := vset s.woe.floors (orderIndex k) floor })
  reply .uplink .floorSet tag .done (.count was) s

/-- FLOOR_SET. -/
def execFloorSet (tag : Nat) (k : OrderKind) (floor : Nat) (s : State) :
    Host.Outcome State Fault Refusal :=
  stepOf (slotRequest .uplink .floorSet tag (decide (floor ≤ 2)) (takeFloorSet tag k floor)) s

/-! ### Slots (R129 to R131) -/

/-- A slot's contents; none is EMPTY. -/
def slotOf (i : Fin 2) (s : State) : Option WorkSlot := vget s.woe.slots i

/-- Put a slot. -/
def setSlot (i : Fin 2) (w : WorkSlot) (s : State) : State :=
  s.setWoe { s.woe with slots := vset s.woe.slots i (some w) }

/-- Whether a slot is RUNNING or WAITING (R131). -/
def activeSlot (w : WorkSlot) : Bool := decide (w.state = .running) || decide (w.state = .waiting)

/-- Whether some slot is active. -/
def anyActive (s : State) : Bool := s.woe.slots.toList.any fun o => o.any activeSlot

/-- The start list is judged (R131). -/
def judgeStart (s : State) : State :=
  match s.woe.startList with
  | [] => s
  | i :: rest =>
    if anyActive s ∨ s.sc.mode = .starting then s
    else
      let s := s.setWoe { s.woe with startList := rest }
      match slotOf i s with
      | some w =>
        setSlot i { w with state := .running, index := 0, startedAt := some (stationTime s) } s
      | none => s

/-- A slot ends, and the start list is judged (R146). -/
def endSlot (i : Fin 2) (w : WorkSlot) (s : State) : State :=
  judgeStart (setSlot i { w with state := .ended, endedAt := some (stationTime s) } s)

/-- An order completes: its result is appended and the slot goes on at the next index, or runs past its
last order (R134). -/
def completeOrder (i : Fin 2) (w : WorkSlot) (r : OrderResult) (next : Nat) (s : State) : State :=
  let w := { w with results := w.results ++ [r], index := next, state := .running, progress := none }
  if w.orders.length ≤ next then endSlot i w s else setSlot i w s

/-- A slot waits on its order (R134). -/
def waitOrder (i : Fin 2) (w : WorkSlot) (p : Progress) (s : State) : State :=
  setSlot i { w with state := .waiting, progress := some p } s

/-- The result of an order cut short by an abort, if the slot is WAITING (R136). -/
def cutResult (w : WorkSlot) : List OrderResult :=
  match w.progress with
  | some (.collect _ taken _ _) => [.partialDone taken .aborted]
  | some (.place placed _) => [.partialDone placed .aborted]
  | none => []

/-- The releases an abort leaves outstanding (R136). -/
def leftOutstanding (w : WorkSlot) : Nat :=
  match w.progress with
  | some (.collect outstanding _ _ _) => outstanding.length
  | _ => 0

/-- The raising of an abort (R136). -/
def abortRaising (i : Fin 2) (w : WorkSlot) (reason : AbortReason) : Raising :=
  stationRaising .orderAborted (.orderAborted i w.index reason w.crew (leftOutstanding w))

/-- An abort of an active slot (R136). -/
def abortActive (i : Fin 2) (w : WorkSlot) (reason : AbortReason) (s : State) : State :=
  let a := { w with
    results := w.results ++ cutResult w, state := .aborted, abort := some (reason, w.index),
    endedAt := some (stationTime s), progress := none }
  judgeStart (raise (abortRaising i w reason) (setSlot i a s))

/-- An abort of a QUEUED slot (R136). -/
def abortQueued (i : Fin 2) (w : WorkSlot) (s : State) : State :=
  let w := { w with index := 0 }
  let a := { w with
    state := .aborted, abort := some (.requested, 0), endedAt := some (stationTime s) }
  let s := s.setWoe { s.woe with startList := s.woe.startList.filter fun j => decide (j ≠ i) }
  raise (abortRaising i w .requested) (setSlot i a s)

/-! ### Submission (R132, R133) -/

/-- A range of docks as an order names it. -/
def rangeInForm (first last : Nat) : Bool := decide (first < 48 ∧ last < 48 ∧ first ≤ last)

/-- A condition of JUMP_IF in form. -/
def conditionInForm : Condition → Bool
  | .always => true
  | .vacantAtLeast n => decide (n ≤ 48)
  | .hireableAtLeast n => decide (n ≤ 48)
  | .lastBelow n => decide (n ≤ 48)

/-- An order of a list of `n` is in form (R132). -/
def orderInForm (n : Nat) : Order → Bool
  | .collect first last count _ => rangeInForm first last && decide (1 ≤ count ∧ count ≤ 24)
  | .place count timeout => decide (1 ≤ count ∧ count ≤ 24 ∧ 1 ≤ timeout ∧ timeout ≤ 600)
  | .suspend first last => rangeInForm first last
  | .resume first last => rangeInForm first last
  | .flagBike bike => bikeInForm bike
  | .clearBike bike => bikeInForm bike
  | .clearFault dock choice =>
    decide (dock < 48) &&
      (match choice with
       | .all => true
       | .kind k => decide (faultClass k = .dock))
  | .jumpIf cond target => conditionInForm cond && decide (target < n)
  | .endList _ => true

/-- The index of the first order at fault in a list, if it is not well formed (R132). -/
def orderFault (orders : List Order) : Option Nat :=
  if orders.isEmpty then some 0
  else
    match orders.findIdx? fun o => !orderInForm orders.length o with
    | some i => some (min i 24)
    | none => if 24 < orders.length then some 24 else none

/-- Whether a slot takes a new list. -/
def slotOpen (i : Fin 2) (s : State) : Bool :=
  match slotOf i s with
  | none => true
  | some w => decide (w.state = .ended) || decide (w.state = .aborted)

/-- The slot a submitted list is placed in (R133). -/
def openSlot (s : State) : Option (Fin 2) := (finList 2).find? fun i => slotOpen i s

/-- A list as it is placed (R133). -/
def submittedSlot (crew : Nat) (orders : List Order) (s : State) : WorkSlot :=
  { state := .queued, crew := crew, orders := orders, index := 0, executed := 0, results := [],
    submittedAt := stationTime s, startedAt := none, endedAt := none, abort := none,
    progress := none }

/-- A list is placed and joins the start list (R133). -/
def placeList (i : Fin 2) (crew : Nat) (orders : List Order) (s : State) : State :=
  let s := setSlot i (submittedSlot crew orders s) s
  judgeStart (s.setWoe { s.woe with startList := s.woe.startList ++ [i] })

/-- Where a list stands after its submission (R133): behind the survey while the mode is STARTING, and
otherwise, when it has not started, behind the other slot (DESIGN CHOICE, assumption 17). -/
def submitState (i : Fin 2) (s : State) : SubmitState :=
  if (slotOf i s).any fun w => decide (w.state = .running) then .started
  else if s.sc.mode = .starting then .behindSurvey
  else .behindSlot

/-- ORDER_SUBMIT (R132, R133). -/
def takeOrderSubmit (tag crew : Nat) (orders : List Order) (s : State) : State :=
  let s := readCrews s
  if (crewOf crew s).isNone then reply .service .orderSubmit tag .unknownCrew .empty s
  else
    match orderFault orders with
    | some i => reply .service .orderSubmit tag .badOrder (.index i) s
    | none =>
      match openSlot s with
      | none => reply .service .orderSubmit tag .slotsFull .empty s
      | some i =>
        let s := placeList i crew orders s
        reply .service .orderSubmit tag .submitted (.submitted i (submitState i s)) s

/-- ORDER_SUBMIT. -/
def execOrderSubmit (tag crew : Nat) (orders : List Order) (s : State) :
    Host.Outcome State Fault Refusal :=
  stepOf (slotRequest .service .orderSubmit tag true (takeOrderSubmit tag crew orders)) s

/-! ### Status and abort (R147, R148) -/

/-- The work order slot with a number. -/
def workSlot (n : Nat) : Fin 2 := ⟨n % 2, Nat.mod_lt _ (by decide)⟩

/-- A slot's place in the start list, from 1. -/
def startPlace (i : Fin 2) (s : State) : Option Nat :=
  (s.woe.startList.findIdx? fun j => decide (j = i)).map fun k => k + 1

/-- What ORDER_STATUS shows of a slot (R147). -/
def slotView (i : Fin 2) (s : State) (w : WorkSlot) : SlotView :=
  { state := w.state, crew := w.crew, index := w.index, executed := w.executed,
    results := w.results, submittedAt := w.submittedAt, startedAt := w.startedAt,
    endedAt := w.endedAt, abort := w.abort, progress := w.progress,
    startPlace := if w.state = .queued then startPlace i s else none }

/-- ORDER_STATUS (R147). -/
def takeOrderStatus (tag slot : Nat) (s : State) : State :=
  let i := workSlot slot
  reply .service .orderStatus tag .done (.slotStatus ((slotOf i s).map (slotView i s))) s

/-- ORDER_STATUS. -/
def execOrderStatus (tag slot : Nat) (s : State) : Host.Outcome State Fault Refusal :=
  stepOf (slotRequest .service .orderStatus tag (decide (slot ≤ 1)) (takeOrderStatus tag slot)) s

/-- Whether a crew may abort a slot (R148). -/
def mayAbort (crew : Nat) (i : Fin 2) (s : State) : Bool :=
  (slotOf i s).any (fun w => decide (w.crew = crew)) || supervisor crew s

/-- ORDER_ABORT (R148). The crew table is read for the slot's own crew too (DESIGN CHOICE, assumption 53). -/
def takeOrderAbort (tag slot crew : Nat) (s : State) : State :=
  let s := readCrews s
  let i := workSlot slot
  if !mayAbort crew i s then reply .service .orderAbort tag .notPermitted .empty s
  else
    match slotOf i s with
    | none => reply .service .orderAbort tag .notActive .empty s
    | some w =>
      match w.state with
      | .queued => reply .service .orderAbort tag .aborted .empty (abortQueued i w s)
      | .running => reply .service .orderAbort tag .aborted .empty (abortActive i w .requested s)
      | .waiting => reply .service .orderAbort tag .aborted .empty (abortActive i w .requested s)
      | .ended => reply .service .orderAbort tag .notActive .empty s
      | .aborted => reply .service .orderAbort tag .notActive .empty s

/-- ORDER_ABORT. -/
def execOrderAbort (tag slot crew : Nat) (s : State) : Host.Outcome State Fault Refusal :=
  stepOf (slotRequest .service .orderAbort tag (decide (slot ≤ 1)) (takeOrderAbort tag slot crew)) s

/-! ### Outcomes of a collect, and arrivals of a place (R138 to R141) -/

/-- A COLLECT with nothing outstanding completes; otherwise its progress is kept (R139). -/
def collectGoesOn (i : Fin 2) (w : WorkSlot) (outstanding : List DockNo) (taken ended : Nat)
    (stopped : Bool) (s : State) : State :=
  if outstanding.isEmpty then
    completeOrder i w (if stopped then .partialDone taken .backlog else .done taken) (w.index + 1) s
  else waitOrder i w (.collect outstanding taken ended stopped) s

/-- An outcome that ends a collect's release: TAKEN, or LAPSED or FAILED (R138). -/
def collectOutcome (d : DockNo) (i : Fin 2) (taken : Bool) (s : State) : State :=
  match slotOf i s with
  | none => s
  | some w =>
    match w.state, w.progress with
    | .waiting, some (.collect outstanding t e stopped) =>
      if outstanding.contains d then
        collectGoesOn i w (outstanding.erase d) (if taken then t + 1 else t)
          (if taken then e else e + 1) stopped s
      else s
    | _, _ => s

/-- The slot, if any, that waits in a PLACE, with its order's count (R33, R140). -/
def placingSlot (s : State) : Option (Fin 2 × WorkSlot × Nat × Nat × Nat) :=
  (finList 2).findSome? fun i =>
    match slotOf i s with
    | none => none
    | some w =>
      match w.state, w.progress, w.orders[w.index]? with
      | .waiting, some (.place placed deadline), some (.place count _) =>
        if placed < count then some (i, w, placed, count, deadline) else none
      | _, _, _ => none

/-- An unstamped arrival counts toward the PLACE that executes; the move part it gets (R140). -/
def countPlace (s : State) : Option MovePart × State :=
  match placingSlot s with
  | none => (none, s)
  | some (i, w, placed, count, deadline) =>
    let part : MovePart := { crew := w.crew, slot := i, index := w.index }
    if placed + 1 < count then (some part, waitOrder i w (.place (placed + 1) deadline) s)
    else (some part, completeOrder i w (.done count) (w.index + 1) s)

/-- The PLACE deadline expires (R141). -/
def placeExpires (s : State) : State :=
  match placingSlot s with
  | none => s
  | some (i, w, placed, _, deadline) =>
    completeOrder i w (.partialDone placed .timeout) (w.index + 1) (reachTime deadline s)

/-- PLACE_DEADLINE. -/
def execPlaceDeadline (s : State) : Host.Outcome State Fault Refusal :=
  stepOf (whileRunning placeExpires) s

/-! ### The checks of an execution (R135) -/

/-- The kind of an order. -/
def orderKindOf : Order → OrderKind
  | .collect _ _ _ _ => .collect
  | .place _ _ => .place
  | .suspend _ _ => .suspend
  | .resume _ _ => .resume
  | .flagBike _ => .flagBike
  | .clearBike _ => .clearBike
  | .clearFault _ _ => .clearFault
  | .jumpIf _ _ => .jumpIf
  | .endList _ => .endList

/-- The docks an order names (R135). -/
def namedDocks : Order → List Nat
  | .collect first last _ _ => (dockRange first last).map Fin.val
  | .suspend first last => (dockRange first last).map Fin.val
  | .resume first last => (dockRange first last).map Fin.val
  | .clearFault dock _ => [dock]
  | _ => []

/-- Whether an order completes NOT_APPLIED where its crew's level is above its floor (R128). -/
def mildOrder : Order → Bool
  | .resume _ _ => true
  | .clearBike _ => true
  | .clearFault _ _ => true
  | _ => false

/-- What the checks come to: an abort, NOT_APPLIED, or the order's execution. -/
inductive CheckResult where
  | abort (reason : AbortReason)
  | notApplied
  | execute
  deriving DecidableEq, Repr

/-- The checks of R135, in order, on tables already read. -/
def checkOrder (w : WorkSlot) (o : Order) (s : State) : CheckResult :=
  if 96 ≤ w.executed then .abort .orderLimit
  else
    match crewOf w.crew s with
    | none => .abort .unknownCrew
    | some c =>
      if !((namedDocks o).all fun d => permits c d) then .abort .permission
      else if floorOf (orderKindOf o) s < c.level then
        if mildOrder o then .notApplied else .abort .level
      else .execute

/-! ### The orders (R137, R140, R142 to R146) -/

/-- Whether a dock's bike is flagged (R137). -/
def bikeFlagged (d : DockNo) (s : State) : Bool :=
  (dockOf d s).bike.any fun b => decide (b.id ≠ 0) && (flagged b.id s || b.mark)

/-- Whether a dock is eligible for a collect (R137). -/
def eligible (d : DockNo) (includeFlagged : Bool) (s : State) : Bool :=
  let r := dockOf d s
  decide (r.state = .docked) && r.holder.isNone && !held d s && (includeFlagged || !bikeFlagged d s)

/-- The withdrawal of a collect's holder from a DOCKED dock (R137). -/
def withdrawOrder (d : DockNo) (h : Holder) (s : State) : State :=
  if (dockOf d s).holder = some h ∧ (dockOf d s).state = .docked then
    putDock d { dockOf d s with holder := none } s
  else s

/-- A collect's selection over the docks of its range, in ascending order (R137). -/
def selectDocks (h : Holder) (count : Nat) (includeFlagged : Bool) :
    List DockNo → List DockNo → State → List DockNo × Bool × State
  | [], taken, s => (taken, false, s)
  | d :: rest, taken, s =>
    if count ≤ taken.length then (taken, false, s)
    else if eligible d includeFlagged s then
      let r := beginOrderRelease d h (placeHolder d h s)
      match r.1 with
      | .started => selectDocks h count includeFlagged rest (taken ++ [d]) r.2
      | .backlog => (taken, true, withdrawOrder d h r.2)
      | .notHireable =>
        selectDocks h count includeFlagged rest taken (withdrawOrder d h r.2)
    else selectDocks h count includeFlagged rest taken s

/-- COLLECT (R137). -/
def runCollect (i : Fin 2) (w : WorkSlot) (first last count : Nat) (includeFlagged : Bool)
    (s : State) : State :=
  let h := Holder.order i w.index w.crew
  let r := selectDocks h count includeFlagged (dockRange first last) [] (readRegistry s)
  collectGoesOn i w r.1 0 0 r.2.1 r.2.2

/-- PLACE (R140). -/
def runPlace (i : Fin 2) (w : WorkSlot) (timeout : Nat) (s : State) : State :=
  waitOrder i w (.place 0 (s.sc.timebase + 1000 * timeout)) s

/-- SUSPEND (R142). -/
def runSuspend (i : Fin 2) (w : WorkSlot) (first last : Nat) (s : State) : State :=
  let docks := dockRange first last
  let n := (docks.filter fun d => !(dockOf d s).suspended).length
  completeOrder i w (.done n) (w.index + 1) (docks.foldl (fun s d => suspendDock d s) s)

/-- The resumes of a range, until the gate refuses one (R143). -/
def resumeDocks : List DockNo → Nat → State → Nat × Bool × State
  | [], n, s => (n, false, s)
  | d :: rest, n, s =>
    let r := resumeDock d s
    match r.1 with
    | .resumed => resumeDocks rest (n + 1) r.2
    | .backlog => (n, true, r.2)
    | _ => resumeDocks rest n r.2

/-- RESUME (R143). -/
def runResume (i : Fin 2) (w : WorkSlot) (first last : Nat) (s : State) : State :=
  let r := resumeDocks (dockRange first last) 0 s
  completeOrder i w (if r.2.1 then .partialDone r.1 .backlog else .done r.1) (w.index + 1) r.2.2

/-- FLAG_BIKE (R144). -/
def runFlagBike (i : Fin 2) (w : WorkSlot) (bike : Nat) (s : State) : State :=
  let s := readRegistry s
  let result :=
    match flagOutcome bike s with
    | .entered => OrderResult.done 1
    | .present _ => .done 0
    | .full => .partialDone 0 .registryFull
  completeOrder i w result (w.index + 1) (enterFlag bike .crew s)

/-- A bike's entry is removed, and MARK clear is placed at the dock that names it (R144). -/
def clearBike (bike : Nat) (s : State) : State :=
  let s := clearFlag bike s
  match dockNaming bike s with
  | some d => placeCommand d (.mark false) s
  | none => s

/-- CLEAR_BIKE (R144). -/
def runClearBike (i : Fin 2) (w : WorkSlot) (bike : Nat) (s : State) : State :=
  let s := readRegistry s
  let n := if flagged bike s then 1 else 0
  completeOrder i w (.done n) (w.index + 1) (clearBike bike s)

/-- The kinds CLEAR_FAULT acts on: those of its choice that stand in the fault set, in R152's order. -/
def kindsToClear (choice : FaultChoice) (f : FaultSet) : List FaultKind :=
  (faultKinds.filter fun k =>
    match choice with
    | .all => true
    | .kind c => decide (k = c)).filter fun k => f.has k

/-- One kind is cleared at a dock (R145): whether it was removed. -/
def clearKind (d : DockNo) (k : FaultKind) (s : State) : Bool × State :=
  let r := dockOf d s
  match k with
  | .lockJam =>
    if r.state = .jammed ∧ r.deadline = none then
      let clearing := r.holder.any fun h => decide (holderKind h = .hire)
      (true, startProbe d clearing (r.faults.put .lockJam false) s)
    else (true, clearDockFault d .lockJam s)
  | .dockReturned =>
    if r.state = .parked then readmit d s else (true, clearDockFault d .dockReturned s)
  | k => (true, clearDockFault d k s)

/-- The kinds are cleared one by one: how many were removed, and whether one stayed. -/
def clearKinds (d : DockNo) : List FaultKind → Nat → Bool → State → Nat × Bool × State
  | [], n, stayed, s => (n, stayed, s)
  | k :: rest, n, stayed, s =>
    let r := clearKind d k s
    clearKinds d rest (if r.1 then n + 1 else n) (stayed || !r.1) r.2

/-- CLEAR_FAULT (R145). -/
def runClearFault (i : Fin 2) (w : WorkSlot) (dock : Nat) (choice : FaultChoice) (s : State) : State :=
  let d : DockNo := ⟨dock % 48, Nat.mod_lt _ (by decide)⟩
  let r := clearKinds d (kindsToClear choice (dockOf d s).faults) 0 false s
  completeOrder i w (if r.2.1 then .partialDone r.1 .backlog else .done r.1) (w.index + 1) r.2.2

/-- The count of a result, for LAST_BELOW (R146). -/
def resultCount : Option OrderResult → Nat
  | some (.done n) => n
  | some (.partialDone n _) => n
  | _ => 0

/-- Whether a condition of JUMP_IF holds (R146). -/
def conditionHolds (c : Condition) (w : WorkSlot) (s : State) : Bool :=
  match c with
  | .always => true
  | .vacantAtLeast n =>
    decide (n ≤ (allDocks.filter fun d =>
      decide ((dockOf d s).state = .vacant) && !(dockOf d s).suspended).length)
  | .hireableAtLeast n => decide (n ≤ (allDocks.filter fun d => hireable d s).length)
  | .lastBelow n => decide (resultCount w.results.getLast? < n)

/-- JUMP_IF (R146). -/
def runJump (i : Fin 2) (w : WorkSlot) (c : Condition) (target : Nat) (s : State) : State :=
  let s :=
    match c with
    | .hireableAtLeast _ => readRegistry s
    | _ => s
  if conditionHolds c w s then completeOrder i w (.done 1) target s
  else completeOrder i w (.done 0) (w.index + 1) s

/-- END (R146). -/
def runEnd (i : Fin 2) (w : WorkSlot) (notify : Bool) (s : State) : State :=
  let s := if notify then setEvent .service .orderEnded s else s
  endSlot i { w with results := w.results ++ [.done 0], index := w.index + 1 } s

/-- The order at a slot's current index acts (R134, step 3). -/
def runOrder (i : Fin 2) (w : WorkSlot) (o : Order) (s : State) : State :=
  match o with
  | .collect first last count f => runCollect i w first last count f s
  | .place _ timeout => runPlace i w timeout s
  | .suspend first last => runSuspend i w first last s
  | .resume first last => runResume i w first last s
  | .flagBike bike => runFlagBike i w bike s
  | .clearBike bike => runClearBike i w bike s
  | .clearFault dock choice => runClearFault i w dock choice s
  | .jumpIf c target => runJump i w c target s
  | .endList notify => runEnd i w notify s

/-- The tables that the checks read: the crew table, and then the floor of the order's kind, whichever
check fails (DESIGN CHOICE, assumptions 52 and 53). -/
def readForOrder (w : WorkSlot) (o : Order) (s : State) : State :=
  if 96 ≤ w.executed then s else readPlaces [.floor (orderKindOf o)] (readCrews s)

/-- One execution of a slot (R134). -/
def executeSlot (i : Fin 2) (w : WorkSlot) (s : State) : State :=
  match w.orders[w.index]? with
  | none => endSlot i w s
  | some o =>
    let s := readForOrder w o s
    match checkOrder w o s with
    | .abort reason => abortActive i w reason s
    | .notApplied =>
      completeOrder i { w with executed := w.executed + 1 } .notApplied (w.index + 1) s
    | .execute => runOrder i { w with executed := w.executed + 1 } o s

/-- The RUNNING slot, if any. -/
def runningSlot (s : State) : Option (Fin 2 × WorkSlot) :=
  (finList 2).findSome? fun i =>
    match slotOf i s with
    | some w => if w.state = .running then some (i, w) else none
    | none => none

/-- The RUNNING slot executes its order (R134). -/
def executeRunning (s : State) : State :=
  match runningSlot s with
  | some (i, w) => executeSlot i w s
  | none => s

/-- ORDER_EXECUTE. -/
def execOrderExecute (s : State) : Host.Outcome State Fault Refusal :=
  stepOf (whileRunning executeRunning) s

end Sys2Proof.Machine
end

