-- ==== Sys2Proof/Machine/Arrivals.lean ====
section
/-! DEFINITION. Tags and arrivals (chapter 2): the tag write list, its confirmations, arrivals and their
records, fault marks, duplicate bike ids and the fault button. -/

namespace Sys2Proof.Machine

/-! ### The tag write list (R28, R29) -/

/-- The tag write a command carries, with its cause (R28). -/
def commandWrite : Command → Option (WriteCommand × TagWriteKind × TagWriteCause)
  | .accept true => some (.accept, .stampClear, .arrival)
  | .relock true .lapse => some (.relock, .stampClear, .lapse)
  | .relock true .cancel => some (.relock, .stampClear, .cancel)
  | .relock true .probe => some (.relock, .stampClear, .probe)
  | .mark true => some (.mark, .markSet, .button)
  | .mark false => some (.mark, .markClear, .bikeClear)
  | _ => none

/-- An entry is made at the end of the list, or replaces that of its command (R28), in that entry's
position (DESIGN CHOICE, assumption 40). -/
def putTagWrite (w : TagWrite) (l : List TagWrite) : List TagWrite :=
  if l.any (fun x => decide (x.command = w.command)) then
    l.map fun x => if x.command = w.command then w else x
  else l ++ [w]

/-- The entry of a command is closed (R29). -/
def closeTagWrite (c : WriteCommand) (l : List TagWrite) : List TagWrite :=
  l.filter fun x => decide (x.command ≠ c)

/-- The entry of a command at a dock. -/
def tagWriteOf (d : DockNo) (c : WriteCommand) (s : State) : Option TagWrite :=
  (lineOf d s).tagWrites.find? fun x => decide (x.command = c)

/-- Close the entry of a command at a dock. -/
def dropTagWrite (d : DockNo) (c : WriteCommand) (s : State) : State :=
  setLine d { lineOf d s with tagWrites := closeTagWrite c (lineOf d s).tagWrites } s

/-- The bike id a dock record names, 0 when none. -/
def recordBike (d : DockNo) (s : State) : Nat := ((dockOf d s).bike.map Bike.id).getD 0

/-- A dock record's tag mark is put, if the record still names the bike (R30). -/
def putMark (d : DockNo) (bike : Nat) (mark : Bool) (s : State) : State :=
  let r := dockOf d s
  match r.bike with
  | some b => if b.id = bike then putDock d { r with bike := some { b with mark := mark } } s else s
  | none => s

/-- A bike whose stamp write or clearing failed enters the registry with origin STATION; with a full
registry its dock's tag mark is set (R27, R31). Bike 0 makes no entry. -/
def flagFailedWrite (d : DockNo) (bike : Nat) (s : State) : State :=
  if bike = 0 then s
  else
    let s := readRegistry s
    match flagOutcome bike s with
    | .full => putMark d bike true (enterFlag bike .station s)
    | _ => enterFlag bike .station s

/-- The raising of TAG_WRITE_FAIL. -/
def writeFailRaising (d : DockNo) (bike : Nat) (w : FailedWrite) : Raising :=
  { kind := .tagWriteFail, dock := some d, bike := some bike, detail := .tagWriteFail w }

/-- CLEARED (R29, R30). -/
def tagCleared (d : DockNo) (c : WriteCommand) (s : State) : State :=
  match tagWriteOf d c s with
  | none => s
  | some w =>
    let s := dropTagWrite d c s
    match w.write with
    | .stampClear => s
    | .markSet => putMark d w.bike true s
    | .markClear => putMark d w.bike false s

/-- WRITE_FAIL (R29, R31). -/
def tagWriteFailed (d : DockNo) (c : WriteCommand) (s : State) : State :=
  match tagWriteOf d c s with
  | none => s
  | some w =>
    let s := dropTagWrite d c s
    match w.write with
    | .stampClear => raise (writeFailRaising d w.bike .clear) (flagFailedWrite d w.bike s)
    | .markSet => raise (writeFailRaising d w.bike .mark) s
    | .markClear => raise (writeFailRaising d w.bike .mark) s

/-! ### A bike put into a record (R38, R39) -/

/-- The other dock whose record names a bike. -/
def otherNaming (d : DockNo) (bike : Nat) (s : State) : Option DockNo :=
  allDocks.find? fun e => decide (e ≠ d) && decide ((dockOf e s).bike.map Bike.id = some bike)

/-- The duplicate bike id check (R39). -/
def checkDuplicate (d : DockNo) (bike : Nat) (s : State) : State :=
  if bike = 0 then s
  else
    match otherNaming d bike s with
    | none => s
    | some e =>
      let r := dockOf e s
      let s := putDock e { r with bike := r.bike.map fun b => { b with id := 0 } } s
      raise
        { kind := .tagDuplicate, dock := some e, bike := none, detail := .tagDuplicate bike } s

/-- A readable bike with its fault mark set enters the registry with origin TAG (R38). -/
def flagMarked (bike : Nat) (mark : Bool) (s : State) : State :=
  if bike ≠ 0 ∧ mark then askFlag bike .tag s else s

/-- What follows whenever a bike is put into a record: the duplicate check and the tag mark's flag. -/
def bikeEntered (d : DockNo) (bike : Nat) (mark : Bool) (s : State) : State :=
  flagMarked bike mark (checkDuplicate d bike s)

/-! ### Arrivals (R32 to R37) -/

/-- The record an arrival sets (R32). -/
def arrivalRecord (r : DockRecord) (t : TagReading) (s : State) : DockRecord :=
  { r with
    state := .docked,
    bike := some { id := readingBike t, mark := readingMark t, since := stationTime s },
    lastArrival := some { bike := readingBike t, time := stationTime s, reported := false } }

/-- The fare of a stamped arrival, while the clock is valid (R34, R98). -/
def fareOf (t : Stamp) (s : State) : Option (Nat × FareFlags) :=
  if s.sc.station.clockValid then
    some (arrivalFare (planOf t.plan s) t.start s.sc.clock t.origin s.sc.station.id s.sc.config.grace)
  else none

/-- What a stamped arrival's fare reads from the store: the plan, and then the grace (DESIGN CHOICE,
assumption 52). -/
def readForFare (t : Stamp) (s : State) : State :=
  if s.sc.station.clockValid then readConfig .grace (readPlan t.plan s) else s

/-- The report of a stamped arrival (R34). -/
def stampedReport (d : DockNo) (bike : Nat) (t : Stamp) (clearFailed : Bool)
    (fare : Option (Nat × FareFlags)) : NewReport :=
  { kind := .arrival, dock := d, bike := bike, fareFlags := (fare.map Prod.snd).getD .none,
    clearFailed := clearFailed, hire := some t, fare := fare.map Prod.fst, move := none }

/-- CLOCK_SKEW is raised for a fare with SKEW (R106). -/
def raiseSkew (d : DockNo) (bike : Nat) (t : Stamp) (fare : Option (Nat × FareFlags)) (s : State) :
    State :=
  if fare.any (fun f => f.2.skew) then raise (skewRaising d bike t s.sc.clock) s else s

/-- The raising of TAG_READ_FAIL at a dock. -/
def readFailRaising (d : DockNo) : Raising :=
  { kind := .tagReadFail, dock := some d, bike := none, detail := .none }

/-- What an arrival reads from the store: the registry, the queue head, and what a stamped one's fare
takes (R34, R110, R163), in this order (DESIGN CHOICE, assumption 52). -/
def readForArrival (t : TagReading) (s : State) : State :=
  let s := readQueueHead (readRegistry s)
  match t with
  | .readable _ _ (some stamp) => readForFare stamp s
  | _ => s

/-- The report of an arrival by its kind (R33 to R36), with the count of a PLACE that executes. CLEAR_FAILED
is judged on the registry as it stands at the arrival. -/
def arrivalReport (d : DockNo) (t : TagReading) (s : State) : NewReport × State :=
  match t with
  | .unreadable => (plainReport .arrival d 0, s)
  | .readable bike _ (some stamp) =>
    let clearFailed := (flagOf bike s).any fun e => decide (e.origin = .station)
    (stampedReport d bike stamp clearFailed (fareOf stamp s), s)
  | .readable bike _ none =>
    let r := countPlace s
    match r.1 with
    | some part => ({ plainReport .moveIn d bike with move := some part }, r.2)
    | none => (plainReport .strayIn d bike, r.2)

/-- The record is queued, and in the same step its unit of claim leaves the dock, which is DOCKED with the
bike (R32, R110). -/
def recordArrival (d : DockNo) (t : TagReading) (s : State) : State :=
  let x := arrivalReport d t s
  putDock d (arrivalRecord (dockOf d x.2) t x.2) (appendReport (reportOf x.1 x.2) x.2)

/-- What a kind of arrival brings with it: the arrival write-through to the card and CLOCK_SKEW (R34, R49,
R106), or TAG_READ_FAIL (R36). -/
def followArrival (d : DockNo) (t : TagReading) (s : State) : State :=
  match t with
  | .unreadable => raise (readFailRaising d) s
  | .readable bike _ (some stamp) =>
    let fare := fareOf stamp s
    raiseSkew d bike stamp fare (arrivalWrite stamp.card ((fare.map Prod.fst).getD 0) s)
  | .readable _ _ none => s

/-- An arrival (R32): the report and the record, the duplicate check, what its kind brings, the tag
mark's flag, the ACCEPT, and the dock event for the watches. TAG_DUPLICATE is raised before CLOCK_SKEW, so
that it takes the earlier fault sequence (DESIGN CHOICE, assumption 46). -/
def arrive (d : DockNo) (t : TagReading) (s : State) : State :=
  let s := recordArrival d t (readForArrival t s)
  let s := followArrival d t (checkDuplicate d (readingBike t) s)
  let s := flagMarked (readingBike t) (readingMark t) s
  let s := placeCommand d (.accept (readingStamp t).isSome) s
  dockEvent .arrival d s

/-- A latch on a suspended vacant dock (R20): the bike is taken in, with no record and no ACCEPT. -/
def latchSuspended (d : DockNo) (t : TagReading) (s : State) : State :=
  let r := dockOf d s
  let bike : Bike := { id := readingBike t, mark := readingMark t, since := stationTime s }
  bikeEntered d (readingBike t) (readingMark t)
    (putDock d { r with state := .docked, bike := some bike } s)

/-! ### The fault button (R40, R41) -/

/-- Whether a press is a rider bike report, and of which bike (R40). -/
def riderReport (d : DockNo) (s : State) : Option (Nat × LastArrival) :=
  let r := dockOf d s
  match r.bike, r.lastArrival with
  | some b, some a =>
    if s.sc.station.clockValid = true ∧ b.id ≠ 0 ∧ a.bike = b.id ∧ a.time ≤ s.sc.clock
        ∧ s.sc.clock - a.time ≤ s.sc.config.buttonWindow then some (b.id, a)
    else none
  | _, _ => none

/-- The first rider bike report of a window (R40). -/
def reportBike (d : DockNo) (bike : Nat) (a : LastArrival) (s : State) : State :=
  let s := askFlag bike .rider s
  let s := placeCommand d (.mark true) s
  let s := putDock d { dockOf d s with lastArrival := some { a with reported := true } } s
  raise { kind := .riderBikeReport, dock := some d, bike := some bike, detail := .none } s

/-- A rider dock report (R41). -/
def reportDock (d : DockNo) (s : State) : State :=
  if (dockOf d s).faults.riderDockReport then s
  else raise { kind := .riderDockReport, dock := some d, bike := none, detail := .none } s

/-- BUTTON (R40, R41). -/
def pressButton (d : DockNo) (s : State) : State :=
  let s := readConfig .buttonWindow s
  match riderReport d s with
  | some (bike, a) => if a.reported then s else reportBike d bike a s
  | none => reportDock d s

end Sys2Proof.Machine
end

