-- ==== Sys2Proof/Machine/DockEvents.lean ====
section
/-! DEFINITION. Dock events against dock states (chapter 1): release, take window and relock, jams, takes,
probes, absence and return (R10 to R22). -/

namespace Sys2Proof.Machine

/-- The actuation a dock has is over: the command kept for a resend is dropped (R13). -/
def endActuation (d : DockNo) (s : State) : State := setLine d { lineOf d s with actuation := none } s

/-! ### Outcomes handed to holders (R2) -/

/-- OPENED is handed to a holder. -/
def handOpened (d : DockNo) (h : Option Holder) (bike : Nat) (s : State) : State :=
  match h with
  | some (.hire tag stamp) => hireOpened d tag bike stamp s
  | _ => s

/-- TAKEN is handed to a holder. -/
def handTaken (d : DockNo) (h : Option Holder) (bike : Nat) (s : State) : State :=
  match h with
  | some (.hire tag stamp) => hireTaken d tag bike stamp s
  | some (.order i _ _) => collectOutcome d i true s
  | none => s

/-- FAILED is handed to a holder. -/
def handFailed (d : DockNo) (h : Option Holder) (s : State) : State :=
  match h with
  | some (.hire tag stamp) => hireFailed d tag stamp s
  | some (.order i _ _) => collectOutcome d i false s
  | none => s

/-- LAPSED is handed to a holder. -/
def handLapsed (d : DockNo) (h : Option Holder) (s : State) : State :=
  match h with
  | some (.hire tag stamp) => hireLapsed d tag stamp s
  | some (.order i _ _) => collectOutcome d i false s
  | none => s

/-! ### Faults of a lock (R14, R15, R21) -/

/-- The raising of LOCK_JAM at a dock. -/
def jamRaising (d : DockNo) (phase : JamPhase) (h : Option Holder) (bike : Option Nat) : Raising :=
  { kind := .lockJam, dock := some d, bike := bike, detail := .lockJam phase (h.map holderKind) }

/-- LOCK_JAM is raised for a dock as its record stands. -/
def raiseJam (d : DockNo) (phase : JamPhase) (s : State) : State :=
  let r := dockOf d s
  raise (jamRaising d phase r.holder (r.bike.map Bike.id)) s

/-- A jam (R14). -/
def jamDock (d : DockNo) (s : State) : State :=
  let r := dockOf d s
  let s := putDock d { r with state := .jammed, suspended := true, deadline := none } s
  let s := endActuation d s
  if r.state = .unlocking then raiseJam d .release (handFailed d r.holder s)
  else raiseJam d .relock (handLapsed d r.holder s)

/-- ACTUATOR_FAULT with no actuation and no probe in flight (R15). -/
def idleActuatorFault (d : DockNo) (s : State) : State := raiseJam d .reported (suspendDock d s)

/-! ### Release and relock (R16, R17, R19) -/

/-- The dock passes to RELOCKING with a RELOCK among its waiting commands (R16, R17). -/
def relockDock (d : DockNo) (clearing : Bool) (cause : RelockCause) (s : State) : State :=
  let r := dockOf d s
  placeCommand d (.relock clearing cause)
    (endActuation d
      (putDock d { r with state := .relocking, deadline := some (.actuation none false) } s))

/-- Whether OPENED finds a hire with cancel requested (R16). -/
def cancelled (d : DockNo) (s : State) : Bool :=
  match (dockOf d s).holder with
  | some (.hire tag _) => cancelAsked d tag s
  | _ => false

/-- The dock is OFFERED with its take window (R16). -/
def offerDock (d : DockNo) (s : State) : State :=
  let s := readConfig .takeWindow s
  let r := dockOf d s
  let expiry := s.sc.timebase + 1000 * s.sc.config.takeWindow
  let s := endActuation d
    (putDock d { r with state := .offered, deadline := some (.take expiry) } s)
  handOpened d r.holder (recordBike d s) s

/-- OPENED in UNLOCKING (R16). -/
def openDock (d : DockNo) (s : State) : State :=
  if cancelled d s then relockDock d true .cancel s else offerDock d s

/-- Whether a holder is a hire's. -/
def holderIsHire (h : Option Holder) : Bool :=
  match h with
  | some (.hire _ _) => true
  | _ => false

/-- The TAKE deadline of an OFFERED dock expires (R17). -/
def takeExpires (d : DockNo) (s : State) : State :=
  let r := dockOf d s
  match r.state, r.deadline with
  | .offered, some (.take t) => relockDock d (holderIsHire r.holder) .lapse (reachTime t s)
  | _, _ => s

/-- A dock returns to DOCKED from a release, without deadline and holder. -/
def redock (d : DockNo) (s : State) : State :=
  let r := dockOf d s
  endActuation d (putDock d { r with state := .docked, deadline := none, holder := none } s)

/-- CLOSED in RELOCKING with a bike sensed: the release has lapsed (R19). -/
def lapseDock (d : DockNo) (s : State) : State :=
  let h := (dockOf d s).holder
  handLapsed d h (redock d s)

/-- STAMP_FAIL in UNLOCKING (R19, R27). -/
def stampFail (d : DockNo) (s : State) : State :=
  let h := (dockOf d s).holder
  let bike := recordBike d s
  let s := redock d s
  match h with
  | some (.hire _ stamp) =>
    let s := flagFailedWrite d bike s
    let s := raise (writeFailRaising d bike (.stamp ((stamp.map Stamp.trip).getD 0))) s
    handFailed d h s
  | _ => handFailed d h s

/-! ### Takes (R18) -/

/-- The report of a take at a dock with a holder: DEPARTURE or MOVE_OUT; REMOVED without one. -/
def takeReport (d : DockNo) (h : Option Holder) (bike : Nat) : NewReport :=
  match h with
  | some (.hire _ stamp) => { plainReport .departure d bike with hire := stamp }
  | some (.order i index crew) =>
    { plainReport .moveOut d bike with move := some { crew := crew, slot := i, index := index } }
  | none => plainReport .removed d bike

/-- The take wins in OFFERED or RELOCKING (R18); a RELOCK's clearing write is closed without a result
(R29). -/
def takeReleased (d : DockNo) (s : State) : State :=
  let r := dockOf d s
  let bike := recordBike d s
  let s := queueReport (takeReport d r.holder bike) s
  let s := putDock d { r with state := .vacant, bike := none, deadline := none, holder := none } s
  let s := endActuation d s
  let s := if r.state = .relocking then dropTagWrite d .relock s else s
  handTaken d r.holder bike (dockEvent .take d s)

/-- The raising of BIKE_UNACCOUNTED. -/
def unaccountedRaising (d : DockNo) (bike : Nat) (c : UnaccountedCause) : Raising :=
  { kind := .bikeUnaccounted, dock := some d, bike := some bike, detail := .bikeUnaccounted c }

/-- A HIRE holder's card is handed to the CC as a late take (R18, R48). -/
def lateTake (h : Option Holder) (s : State) : State :=
  match h with
  | some (.hire _ (some t)) => releaseTaken t.card t.trip s
  | _ => s

/-- A take at a JAMMED dock with a bike (R18). -/
def takeJammed (d : DockNo) (s : State) : State :=
  let r := dockOf d s
  let bike := recordBike d s
  let s := queueReport (takeReport d r.holder bike) s
  let s := putDock d { r with bike := none, holder := none } s
  let s := lateTake r.holder s
  let s := if r.holder.isNone then raise (unaccountedRaising d bike .takeFromJammed) s else s
  dockEvent .take d s

/-- A take from a DOCKED dock: the locked dock has lost its bike (R18). -/
def takeDocked (d : DockNo) (s : State) : State :=
  let r := dockOf d s
  let bike := recordBike d s
  let s := putDock d
    { r with state := .vacant, suspended := true, bike := none, holder := none, deadline := none } s
  dockEvent .take d (raise (unaccountedRaising d bike .takeFromDocked) s)

/-- TAKEN (R18). -/
def takenEvent (d : DockNo) (s : State) : State :=
  let r := dockOf d s
  match r.state with
  | .offered => takeReleased d s
  | .relocking => takeReleased d s
  | .unlocking => takeReleased d (openDock d s)
  | .jammed => if r.bike.isSome then takeJammed d s else s
  | .docked => takeDocked d s
  | .vacant => s
  | .parked => s
  | .absent => s

/-! ### Probes (R21, R22) -/

/-- The bike a condition senses, as a record takes it at a probe's end: docked since the station time,
the tag mark set when the tag could not be read (R25). -/
def sensedRecord (b : SensedBike) (s : State) : Bike :=
  { id := b.id, mark := b.mark || decide (b.id = 0), since := stationTime s }

/-- A probe of a JAMMED or PARKED dock ends in success (R21, R22): the dock stays suspended. The tag mark is
the condition's, also of the same bike under R27's mark (DESIGN CHOICE, assumption 51). -/
def probeCloses (d : DockNo) (c : DockCondition) (s : State) : State :=
  let r := { dockOf d s with deadline := none, holder := none }
  let s := endActuation d s
  match c.bike with
  | some b =>
    let k := sensedRecord b s
    bikeEntered d k.id k.mark
      (putDock d { r with state := .docked, suspended := true, bike := some k } s)
  | none => putDock d { r with state := .vacant, suspended := true, bike := none } s

/-- The bike sensed in a dock's last condition. -/
def lastSensed (d : DockNo) (s : State) : Option SensedBike :=
  (lineOf d s).lastCondition.bind DockCondition.bike

/-- A re-admission probe fails (R22): JAMMED with the bike of the last condition, or without one.
TAG_DUPLICATE is raised before LOCK_JAM (DESIGN CHOICE, assumption 46). -/
def readmissionFails (d : DockNo) (s : State) : State :=
  let r := { dockOf d s with deadline := none, state := .jammed, suspended := true }
  let s := endActuation d s
  match lastSensed d s with
  | some b =>
    let k := sensedRecord b s
    raiseJam d .probe
      (bikeEntered d k.id k.mark (putDock d { r with bike := some k } s))
  | none => raiseJam d .probe (putDock d { r with bike := none } s)

/-- A probe of a JAMMED dock fails: the dock stays as it was, and LOCK_JAM is raised again (R21). -/
def jamProbeFails (d : DockNo) (s : State) : State :=
  raiseJam d .probe (endActuation d (putDock d { dockOf d s with deadline := none } s))

/-- A probe of a JAMMED or PARKED dock fails. -/
def probeFails (d : DockNo) (s : State) : State :=
  if (dockOf d s).state = .parked then readmissionFails d s else jamProbeFails d s

/-! ### CLOSED and ACTUATOR_FAULT -/

/-- A CLOSED whose answer senses no bike closes the RELOCK's clearing write without a result (R29). -/
def closeRelockWrite (d : DockNo) (c : DockCondition) (s : State) : State :=
  if c.bike.isNone then dropTagWrite d .relock s else s

/-- CLOSED (R19, R21, R29): in RELOCKING with no bike sensed it is taken as TAKEN. -/
def closedEvent (d : DockNo) (c : DockCondition) (s : State) : State :=
  let s := closeRelockWrite d c s
  if (dockOf d s).state = .relocking then
    if c.bike.isSome then lapseDock d s else takeReleased d s
  else if probing d s then probeCloses d c s
  else s

/-- ACTUATOR_FAULT (R14, R15, R21). -/
def actuatorFault (d : DockNo) (s : State) : State :=
  let st := (dockOf d s).state
  if st = .unlocking ∨ st = .relocking then jamDock d s
  else if probing d s then probeFails d s
  else idleActuatorFault d s

/-- LATCHED (R20). -/
def latchedEvent (d : DockNo) (tag : Option (List Byte)) (s : State) : State :=
  let r := dockOf d s
  if r.state = .vacant then
    if r.suspended then latchSuspended d (tagReading tag) s else arrive d (tagReading tag) s
  else s

/-- An event is taken from a surveyed dock (sections 1.7 to 1.10). -/
def takeEvent (d : DockNo) (e : DockEvent) (c : DockCondition) (s : State) : State :=
  let st := (dockOf d s).state
  match e with
  | .latched tag => latchedEvent d tag s
  | .opened => if st = .unlocking then openDock d s else s
  | .stampFail => if st = .unlocking then stampFail d s else s
  | .closed => closedEvent d c s
  | .taken => takenEvent d s
  | .button => pressButton d s
  | .cleared w => if st = .parked then s else tagCleared d w s
  | .writeFail w => if st = .parked then s else tagWriteFailed d w s
  | .actuatorFault => actuatorFault d s

/-! ### Deadlines (R13) -/

/-- The first expiry of an ACTUATION deadline: the same command waits again (R13). -/
def retryActuation (d : DockNo) (s : State) : State :=
  let r := dockOf d s
  match (lineOf d s).actuation with
  | some c =>
    placeCommand d c (putDock d { r with deadline := some (.actuation none true) } s)
  | none => s

/-! ### Absence and return (R10, R11) -/

/-- A dock becomes ABSENT (R10). -/
def dockAbsent (d : DockNo) (s : State) : State :=
  let r := dockOf d s
  let s :=
    match r.state with
    | .unlocking => handFailed d r.holder s
    | .offered => handLapsed d r.holder s
    | .relocking => handLapsed d r.holder s
    | _ => s
  let s := putDock d
    { r with state := .absent, suspended := true, bike := none, holder := none, deadline := none,
             lastArrival := none } s
  let s := setLine d
    { lineOf d s with waiting := [], lastEvent := none, tagWrites := [], actuation := none } s
  raise
    { kind := .dockSilent, dock := some d, bike := none, detail := .dockSilent (some r.state) } s

/-- The raising of DOCK_RETURNED. -/
def returnedRaising (d : DockNo) (c : ReturnCause) : Raising :=
  { kind := .dockReturned, dock := some d, bike := none, detail := .dockReturned c }

/-- An ABSENT dock answers (R11). -/
def dockReturns (d : DockNo) (s : State) : State :=
  raise (returnedRaising d .returned)
    (putDock d { dockOf d s with state := .parked, deadline := none } s)

end Sys2Proof.Machine
end

