-- ==== Sys2Proof/Machine/Survey.lean ====
section
/-! DEFINITION. The survey (R192 to R195): its findings, the result of each dock on a cold and on a warm
start, survey probes, and its end. -/

namespace Sys2Proof.Machine

/-- The dock being surveyed, if any. -/
def surveyDock (s : State) : Option DockNo := s.dlc.survey.map Survey.dock

/-- Put the survey in progress. -/
def setSurvey (v : Option Survey) (s : State) : State := s.setDlc { s.dlc with survey := v }

/-- The survey of a dock before any exchange. -/
def surveyOf (d : DockNo) : Survey := { dock := d, answers := 0, misses := 0, finding := none }

/-- The survey sets a dock's record; it is handed whatever the store held of the dock (R192). -/
def surveySet (d : DockNo) (r : DockRecord) (s : State) : State := handDock d (putDock d r s)

/-! ### The end of a dock's survey, and of the survey (R192, R195) -/

/-- The survey has reached its end (R195). -/
def endSurvey (s : State) : State :=
  let s := setSurvey none s
  judgeStart (handStation (s.setSc { s.sc with mode := s.sc.station.target }))

/-- The survey goes on to the next dock, or ends after dock 47. -/
def nextSurvey (d : DockNo) (s : State) : State :=
  if h : d.val + 1 < 48 then setSurvey (some (surveyOf ⟨d.val + 1, h⟩)) s else endSurvey s

/-- The dock becomes surveyed, its reference is discarded and its INHIBIT is placed (R192, step 4). -/
def dockSurveyed (d : DockNo) (s : State) : State :=
  let s := setLine d { lineOf d s with surveyed := true, reference := none, actuation := none } s
  let r := dockOf d s
  let s :=
    if toInhibit r then placeCommand d (.inhibit true) s
    else if r.state = .absent then s
    else placeCommand d (.inhibit false) s
  nextSurvey d s

/-! ### Results -/

/-- The retained record of a dock's survey reference; none is damaged. -/
def referenceOf (d : DockNo) (s : State) : Option RetainedDock :=
  match (lineOf d s).reference with
  | some (.record r) => some r
  | _ => none

/-- A dock record of a state, with the fault set it has; no holder, deadline or last arrival. -/
def surveyRecord (d : DockNo) (st : DockState) (suspended : Bool) (bike : Option Bike) (s : State) :
    DockRecord :=
  { state := st, suspended := suspended, bike := bike, holder := none, deadline := none,
    faults := (dockOf d s).faults, lastArrival := none }

/-- The bike that a reading takes into a record, docked since a time. -/
def readingRecord (t : TagReading) (since : Nat) : Bike :=
  { id := readingBike t, mark := readingMark t, since := since }

/-- What follows when the survey takes a bike into a record (R192): the duplicate check, the registry
entry of a marked tag, and TAG_READ_FAIL for an unreadable one. -/
def surveyBike (d : DockNo) (t : TagReading) (s : State) : State :=
  let s := bikeEntered d (readingBike t) (readingMark t) s
  if t = .unreadable then raise (readFailRaising d) s else s

/-- The dock is parked, with DOCK_RETURNED raised (R194, R115, R177). -/
def surveyPark (d : DockNo) (c : ReturnCause) (s : State) : State :=
  dockSurveyed d (raise (returnedRaising d c) (surveySet d (surveyRecord d .parked true none s) s))

/-- The dock is found silent (R192 to R194): DOCK_SILENT with the reference's state, unless that was
ABSENT. -/
def surveySilent (d : DockNo) (s : State) : State :=
  let left := (lineOf d s).reference
  let s := surveySet d (surveyRecord d .absent true none s) s
  let s :=
    match left with
    | some (.record r) =>
      if r.state = .absent then s
      else raise { kind := .dockSilent, dock := some d, bike := none, detail := .dockSilent (some r.state) } s
    | some .damaged =>
      raise { kind := .dockSilent, dock := some d, bike := none, detail := .dockSilent none } s
    | none => s
  dockSurveyed d s

/-- A survey probe is started: RELOCK waiting, the ACTUATION deadline held open; the dock stands in ABSENT
until its survey ends (R21, R111, R192). -/
def surveyProbe (d : DockNo) (clearing : Bool) (s : State) : State :=
  let s := putDock d
    { dockOf d s with state := .absent, deadline := some (.actuation none false) } s
  placeCommand d (.relock clearing .probe) s

/-- A dock record set DOCKED with a reading. -/
def surveyDocked (d : DockNo) (suspended : Bool) (t : TagReading) (since : Nat) (s : State) : State :=
  dockSurveyed d
    (surveyBike d t
      (surveySet d (surveyRecord d .docked suspended (some (readingRecord t since)) s) s))

/-- A dock record set VACANT. -/
def surveyVacant (d : DockNo) (suspended : Bool) (s : State) : State :=
  dockSurveyed d (surveySet d (surveyRecord d .vacant suspended none s) s)

/-- A dock set VACANT, not suspended, and then processed as an arrival (R193, R194). -/
def surveyArrival (d : DockNo) (t : TagReading) (s : State) : State :=
  dockSurveyed d (arrive d t (surveySet d (surveyRecord d .vacant false none s) s))

/-- A dock set JAMMED by a failed survey probe, with or without a bike, and LOCK_JAM raised (R193, R194),
after the TAG_DUPLICATE or TAG_READ_FAIL of the bike (DESIGN CHOICE, assumption 46). -/
def surveyJam (d : DockNo) (bike : Option TagReading) (s : State) : State :=
  let k := bike.map fun t => readingRecord t (stationTime s)
  let s := surveySet d (surveyRecord d .jammed true k s) s
  let s :=
    match bike with
    | some t => surveyBike d t s
    | none => s
  dockSurveyed d (raiseJam d .probe s)

/-! ### The cold result (R193) -/

/-- A bike found behind a closed lock on a cold start. -/
def coldBike (d : DockNo) (t : TagReading) (s : State) : State :=
  if (readingStamp t).isSome then surveyArrival d t s else surveyDocked d false t 0 s

/-- The cold result of a finding. -/
def coldResult (d : DockNo) (f : Finding) (s : State) : State :=
  if f.lockOpen then surveyProbe d false s
  else
    match f.bike with
    | none => surveyVacant d false s
    | some t => coldBike d t s

/-! ### The warm result (R194) -/

/-- The gate for a result that queues records or leaves a claim (R115): on refusal the dock is parked. -/
def surveyGate (d : DockNo) (n : Nat) (set : State → State) (s : State) : State :=
  let s := readQueueHead s
  if gateAdmits n s then set s else surveyPark d .survey s

/-- The report of a release completed by the warm survey, by the dock's last-release memory; none
where the dock remembers no release (DESIGN CHOICE, assumption 14). -/
def memoryReport (d : DockNo) (bike : Nat) (m : ReleaseMemory) : Option NewReport :=
  match m with
  | .nothing => none
  | .release (some t) => some { plainReport .departure d bike with hire := some t }
  | .release none => some (plainReport .moveOut d bike)

/-- A dock retained under a release and found empty (R194). -/
def surveyTaken (d : DockNo) (r : RetainedDock) (m : ReleaseMemory) (s : State) : State :=
  let report := memoryReport d ((r.bike.map Bike.id).getD 0) m
  let n := (if report.isSome then 1 else 0) + (if r.suspended then 0 else 1)
  let set := fun s =>
    match report with
    | some x => surveyVacant d r.suspended (appendReport (reportOf x s) s)
    | none => surveyVacant d r.suspended s
  if n = 0 then set s else surveyGate d n set s

/-- Whether a tag mark was found set: of a readable tag. -/
def foundMarked : TagReading → Bool
  | .readable _ mark _ => mark
  | .unreadable => false

/-- A dock retained JAMMED with a bike (R194): the retained bike is taken into the record, and enters the
registry where a tag mark was found set (R192; DESIGN CHOICE, assumption 14). -/
def surveyJammed (d : DockNo) (r : RetainedDock) (found : Option TagReading) (s : State) : State :=
  let bike := (r.bike.map Bike.id).getD 0
  match found with
  | some t =>
    surveyGate d 1
      (fun s =>
        dockSurveyed d
          (bikeEntered d bike (foundMarked t)
            (surveySet d (surveyRecord d .jammed true r.bike s) s))) s
  | none =>
    surveyGate d 1
      (fun s =>
        let s := surveySet d (surveyRecord d .jammed true none s)
          (appendReport (reportOf (plainReport .removed d bike) s) s)
        dockSurveyed d (raise (unaccountedRaising d bike .takeFromJammed) s)) s

/-- Any other pairing (R194): the dock is parked, and a bike gone from a DOCKED reference is
unaccounted. The two are raised in the order of the table's row (DEDUCED, assumption 46). -/
def surveyOther (d : DockNo) (r : RetainedDock) (found : Option TagReading) (s : State) : State :=
  let s := surveySet d (surveyRecord d .parked true none s) s
  let s := raise (returnedRaising d .survey) s
  let s :=
    if r.state = .docked ∧ found.isNone then
      raise (unaccountedRaising d ((r.bike.map Bike.id).getD 0) .survey) s
    else s
  dockSurveyed d s

/-- A dock retained DOCKED and found with its bike behind a closed lock (R194). The tag mark is the
finding's, also under R27's mark (DESIGN CHOICE, assumption 51). -/
def surveySame (d : DockNo) (r : RetainedDock) (t : TagReading) (s : State) : State :=
  let since := (r.bike.map Bike.since).getD 0
  let record := { surveyRecord d .docked r.suspended (some (readingRecord t since)) s with
    lastArrival := r.lastArrival }
  dockSurveyed d (surveyBike d t (surveySet d record s))

/-- A dock retained VACANT and suspended, found with a bike (R194, R20). -/
def surveyLatched (d : DockNo) (t : TagReading) (s : State) : State :=
  surveyDocked d true t (stationTime s) s

/-- A dock retained JAMMED without a bike and found empty (R194). -/
def surveyJamEmpty (d : DockNo) (s : State) : State :=
  dockSurveyed d (surveySet d (surveyRecord d .jammed true none s) s)

/-- The memory holds a stamp. -/
def memoryStamped : ReleaseMemory → Bool
  | .release (some _) => true
  | _ => false

/-- The warm result of a finding against a retained record. -/
def warmResult (d : DockNo) (r : RetainedDock) (f : Finding) (s : State) : State :=
  match r.state with
  | .docked =>
    match f.bike with
    | some t =>
      if !f.lockOpen && decide (r.bike.map Bike.id = some (readingBike t)) then surveySame d r t s
      else surveyOther d r f.bike s
    | none => surveyOther d r f.bike s
  | .vacant =>
    if f.lockOpen then surveyOther d r f.bike s
    else
      match f.bike with
      | none =>
        if r.suspended then surveyVacant d true s
        else surveyGate d 1 (fun s => surveyVacant d false s) s
      | some t =>
        if r.suspended then surveyLatched d t s
        else surveyGate d 1 (fun s => surveyArrival d t s) s
  | .unlocking | .offered | .relocking =>
    if f.bike.isSome then surveyProbe d (memoryStamped f.memory) s
    else surveyTaken d r f.memory s
  | .jammed =>
    if r.bike.isSome then surveyJammed d r f.bike s
    else if f.bike.isNone then surveyJamEmpty d s else surveyOther d r f.bike s
  | .absent => surveyOther d r f.bike s
  | .parked => surveyOther d r f.bike s

/-- The result of a dock that answered (R192, step 3). -/
def surveyResult (d : DockNo) (f : Finding) (s : State) : State :=
  if s.sc.startKind = .cold then coldResult d f s
  else
    match referenceOf d s with
    | some r => warmResult d r f s
    | none => surveyPark d .store s

/-! ### Survey probes (R193, R194) -/

/-- What a survey probe's end finds of a bike: the tag of the finding where it is the same bike's, and
what the condition shows otherwise (DEDUCED, assumption 13). -/
def probeReading (b : SensedBike) (f : Option Finding) : TagReading :=
  if b.id = 0 then .unreadable
  else
    match f.bind Finding.bike with
    | some (.readable id _ stamp) => .readable b.id b.mark (if id = b.id then stamp else none)
    | _ => .readable b.id b.mark none

/-- The finding of the survey in progress. -/
def surveyFinding (s : State) : Option Finding := s.dlc.survey.bind Survey.finding

/-- A survey probe succeeds: CLOSED is taken, and the row that matches what it finds applies. -/
def surveyProbeCloses (d : DockNo) (c : DockCondition) (s : State) : State :=
  let f := surveyFinding s
  let memory := (f.map Finding.memory).getD .nothing
  let s := closeRelockWrite d c s
  match c.bike with
  | none =>
    if s.sc.startKind = .cold then surveyVacant d false s
    else
      match referenceOf d s with
      | some r => surveyTaken d r memory s
      | none => surveyPark d .store s
  | some b =>
    let t := probeReading b f
    if s.sc.startKind = .cold then coldBike d t s
    else
      match referenceOf d s with
      | some r => surveyDocked d r.suspended t (stationTime s) s
      | none => surveyPark d .store s

/-- A survey probe fails: JAMMED by what the finding holds (R193, R194); a warm result with a bike
leaves a claim and passes the gate. -/
def surveyProbeFails (d : DockNo) (s : State) : State :=
  match (surveyFinding s).bind Finding.bike with
  | none => surveyJam d none s
  | some t =>
    if s.sc.startKind = .cold then surveyJam d (some t) s
    else surveyGate d 1 (fun s => surveyJam d (some t) s) s

/-- An event taken from the dock being surveyed while its probe is in flight. -/
def surveyEvent (d : DockNo) (e : DockEvent) (c : DockCondition) (s : State) : State :=
  if probing d s then
    match e with
    | .closed => surveyProbeCloses d c s
    | .actuatorFault => surveyProbeFails d s
    | _ => s
  else s

end Sys2Proof.Machine
end

