-- ==== Sys2Proof/Machine/Line.lean ====
section
/-! DEFINITION. The dock line (R7 to R9, R13, R28): grants, commands sent, answers and missed exchanges,
and the commands of the dock line's events. -/

namespace Sys2Proof.Machine

/-! ### The grant (R9) -/

/-- Whether a dock counts as one whose sweep is due; the dock being surveyed always has an exchange to
make (DEDUCED, assumption 9). -/
def dueDock (s : State) (d : DockNo) : Bool :=
  decide (surveyDock s = some d) || ((lineOf d s).surveyed && (lineOf d s).sweepDue)

/-- Whether a dock wants a turn (R9). -/
def wantsTurn (s : State) (d : DockNo) : Bool :=
  dueDock s d
    || ((lineOf d s).surveyed && ((lineOf d s).serviceRequest || !(lineOf d s).waiting.isEmpty))

/-- The dock that the line is granted to, if any (R9). -/
def grantedDock (s : State) : Option DockNo :=
  match allDocks.find? (dueDock s) with
  | some d => some d
  | none => allDocks.find? (wantsTurn s)

/-- Whether a command sent to a dock is the actuation its deadline belongs to (R13): the RELEASE of a
dock in UNLOCKING, the RELOCK of any other. A RELEASE or RELOCK left waiting from an actuation that has
ended is sent all the same, and belongs to none. -/
def ownActuation (c : Command) (r : DockRecord) : Bool :=
  match c with
  | .release _ => actuating r && decide (r.state = .unlocking)
  | .relock _ _ => actuating r && decide (r.state ≠ .unlocking)
  | _ => false

/-- An ACTUATION deadline whose command is sent now: 1.5 s from the send (R13). -/
def sentDeadline (now : Nat) (d : Option Deadline) : Option Deadline :=
  match d with
  | some (.actuation _ used) => some (.actuation (some (now + 1500)) used)
  | d => d

/-- The tag write entry of a command sent to a dock (R28). -/
def sentWrites (d : DockNo) (c : Command) (s : State) : List TagWrite :=
  let l := (lineOf d s).tagWrites
  match commandWrite c with
  | some (command, write, cause) =>
    putTagWrite { command := command, write := write, bike := recordBike d s, cause := cause } l
  | none => l

/-- A command is sent to a dock, with the number of the last event taken from it (R7): it leaves the waiting
commands, its tag write is entered, and an actuation's deadline begins (R8, R13, R28). -/
def sendCommand (d : DockNo) (c : Command) (waiting : List Command) (survey : Bool) (s : State) :
    State :=
  let writes := sentWrites d c s
  let r := dockOf d s
  let own := ownActuation c r
  let ack := (lineOf d s).lastEvent
  let s := setLine d
    { lineOf d s with
      waiting := waiting, tagWrites := writes,
      actuation := if own then some c else (lineOf d s).actuation } s
  let s := putDock d
    { r with deadline := if own then sentDeadline s.sc.timebase r.deadline else r.deadline } s
  s.setDlc { s.dlc with
    exchange := some
      { dock := d, command := c, ack := ack, survey := survey, sentAt := s.sc.timebase } }

/-- A dock's turn: its oldest waiting command, a survey poll, or POLL (R9, R192). -/
def giveTurn (d : DockNo) (s : State) : State :=
  match (lineOf d s).waiting with
  | c :: rest => sendCommand d c rest false s
  | [] => sendCommand d .poll [] (decide (surveyDock s = some d) && !probing d s) s

/-- The line is granted, if it is free and a dock wants a turn (R9); not while HALTED (R182). -/
def grantLine (s : State) : State :=
  if running s ∧ s.dlc.exchange = none then
    match grantedDock s with
    | some d => giveTurn d s
    | none => s
  else s

/-! ### Answers (R7, R8) -/

/-- An exchange with a dock has ended. -/
def endExchange (d : DockNo) (s : State) : State :=
  let s := s.setDlc { s.dlc with exchange := none }
  setLine d { lineOf d s with lastExchange := s.sc.timebase, sweepDue := false } s

/-- An answer is received: the miss count, the last condition, and, with NOTHING, the service request
(R8, R9). -/
def receiveAnswer (d : DockNo) (a : DockAnswer) (s : State) : State :=
  let s := endExchange d s
  let l := lineOf d s
  setLine d
    { l with missCount := 0, lastCondition := some a.condition,
             serviceRequest := l.serviceRequest && a.event.isSome } s

/-- An event's number becomes the last event number taken (R7). -/
def noteEvent (d : DockNo) (n : Nat) (s : State) : State :=
  setLine d { lineOf d s with lastEvent := some n } s

/-- The number of an answer's event, if any, becomes the last taken. -/
def noteAnswer (d : DockNo) (a : DockAnswer) (s : State) : State :=
  match a.event with
  | some (n, _) => noteEvent d n s
  | none => s

/-- An answer's event is taken unless it is a repeat (R7). -/
def takeAnswer (d : DockNo) (a : DockAnswer) (s : State) : State :=
  match a.event with
  | none => s
  | some (n, e) =>
    if (lineOf d s).lastEvent = some n then s
    else if (lineOf d s).surveyed then takeEvent d e a.condition (noteEvent d n s)
    else surveyEvent d e a.condition (noteEvent d n s)

/-- An answer of a dock to a command or a poll (R7, R11). -/
def dockAnswers (d : DockNo) (a : DockAnswer) (s : State) : State :=
  let s := receiveAnswer d a s
  if (lineOf d s).surveyed ∧ (dockOf d s).state = .absent then dockReturns d (noteAnswer d a s)
  else takeAnswer d a s

/-- Whether the exchange in progress is with a dock, and whether it is a survey poll. -/
def exchangeWith (d : DockNo) (survey : Bool) (s : State) : Bool :=
  s.dlc.exchange.any fun x => decide (x.dock = d) && (x.survey == survey)

/-- DOCK_ANSWER (R7). -/
def answerEvent (d : DockNo) (a : DockAnswer) (s : State) : State :=
  if exchangeWith d false s then grantLine (dockAnswers d a s) else s

/-- DOCK_ANSWER. -/
def execDockAnswer (d : DockNo) (a : DockAnswer) (s : State) : Host.Outcome State Fault Refusal :=
  stepOf (whileRunning (answerEvent d a)) s

/-! ### Survey polls (R192) -/

/-- The finding of a survey answer. -/
def findingOf (a : DockAnswer) (x : SurveyExtra) : Finding :=
  { lockOpen := a.condition.lockOpen,
    bike := a.condition.bike.map fun _ => tagReading x.tag,
    memory := x.memory }

/-- A survey poll is answered (R192): its event is discarded and its number taken; the dock is polled
again until NOTHING or 16 answers. -/
def surveyAnswered (d : DockNo) (a : DockAnswer) (x : SurveyExtra) (s : State) : State :=
  let s := noteAnswer d a (receiveAnswer d a s)
  match s.dlc.survey with
  | none => s
  | some v =>
    let f := findingOf a x
    let s := setSurvey (some { v with answers := v.answers + 1, misses := 0, finding := some f }) s
    if a.event.isNone ∨ 16 ≤ v.answers + 1 then surveyResult d f s else s

/-- SURVEY_POLL_ANSWER (R192). -/
def surveyPollEvent (d : DockNo) (a : DockAnswer) (x : SurveyExtra) (s : State) : State :=
  if exchangeWith d true s ∧ surveyDock s = some d then grantLine (surveyAnswered d a x s) else s

/-- SURVEY_POLL_ANSWER. -/
def execSurveyPollAnswer (d : DockNo) (a : DockAnswer) (x : SurveyExtra) (s : State) :
    Host.Outcome State Fault Refusal :=
  stepOf (whileRunning (surveyPollEvent d a x)) s

/-! ### Missed exchanges (R7, R10, R192) -/

/-- What becomes of a command whose exchange was missed (R7): ACCEPT, MARK and INHIBIT go back to the
head, unless a newer one of the kind waits (DEDUCED, assumption 10). -/
def putBack (c : Command) (l : List Command) : List Command :=
  match c with
  | .accept _ | .mark _ | .inhibit _ =>
    if l.any (fun x => decide (commandKind x = commandKind c)) then l else c :: l
  | _ => l

/-- A missed exchange raises the dock's miss count by 1, to at most 2 (R8). -/
def countMiss (d : DockNo) (s : State) : State :=
  let l := lineOf d s
  setLine d { l with missCount := min 2 (l.missCount + 1) } s

/-- A missed survey poll (R192, step 2). -/
def surveyMissed (d : DockNo) (s : State) : State :=
  match s.dlc.survey with
  | none => s
  | some v =>
    if 3 ≤ v.misses + 1 then surveySilent d s
    else setSurvey (some { v with misses := v.misses + 1 }) s

/-- A missed exchange with a surveyed dock: the command, the miss count, and a third miss's absence
(R7, R8, R10). -/
def dockMissed (d : DockNo) (c : Command) (s : State) : State :=
  let l := lineOf d s
  let s := setLine d { l with waiting := putBack c l.waiting, missCount := min 2 (l.missCount + 1) } s
  if l.missCount = 2 ∧ (dockOf d s).state ≠ .absent then dockAbsent d s else s

/-- An exchange is missed, 20 ms after its command (R7). The miss count of a dock being surveyed rises like
any other's, and R10 does not act on it (R8, R192). -/
def exchangeMissed (x : Exchange) (s : State) : State :=
  let s := endExchange x.dock (reachTime (x.sentAt + 20) s)
  if x.survey then surveyMissed x.dock (countMiss x.dock s)
  else if (lineOf x.dock s).surveyed then dockMissed x.dock x.command s
  else countMiss x.dock s

/-- DOCK_EXCHANGE_MISSED (R7). -/
def missedEvent (d : DockNo) (s : State) : State :=
  match s.dlc.exchange with
  | some x => if x.dock = d then grantLine (exchangeMissed x s) else s
  | none => s

/-- DOCK_EXCHANGE_MISSED. -/
def execDockExchangeMissed (d : DockNo) (s : State) : Host.Outcome State Fault Refusal :=
  stepOf (whileRunning (missedEvent d)) s

/-! ### Service requests and sweeps (R9) -/

/-- DOCK_SERVICE_REQUEST (R9): in a request interval, when no exchange is in progress. -/
def serviceEvent (d : DockNo) (s : State) : State :=
  if s.dlc.exchange = none then
    grantLine (setLine d { lineOf d s with serviceRequest := true } s)
  else s

/-- DOCK_SERVICE_REQUEST. -/
def execDockServiceRequest (d : DockNo) (s : State) : Host.Outcome State Fault Refusal :=
  stepOf (whileRunning (serviceEvent d)) s

/-- SWEEP_DUE (R9): 2 s after the dock's last exchange. -/
def sweepEvent (d : DockNo) (s : State) : State :=
  if (lineOf d s).surveyed then
    let s := reachTime ((lineOf d s).lastExchange + 2000) s
    grantLine (setLine d { lineOf d s with sweepDue := true } s)
  else s

/-- SWEEP_DUE. -/
def execSweepDue (d : DockNo) (s : State) : Host.Outcome State Fault Refusal :=
  stepOf (whileRunning (sweepEvent d)) s

/-! ### Deadlines (R13, R17) -/

/-- The second expiry: a jam, or the failure of a probe (R13). -/
def actuationFails (d : DockNo) (s : State) : State :=
  let st := (dockOf d s).state
  if st = .unlocking ∨ st = .relocking then jamDock d s
  else if surveyDock s = some d then surveyProbeFails d s
  else if probing d s then probeFails d s
  else s

/-- ACTUATION_DEADLINE (R13): a deadline held open cannot expire. -/
def actuationEvent (d : DockNo) (s : State) : State :=
  match (dockOf d s).deadline with
  | some (.actuation (some t) used) =>
    if used then actuationFails d (reachTime t s) else retryActuation d (reachTime t s)
  | _ => s

/-- ACTUATION_DEADLINE. -/
def execActuationDeadline (d : DockNo) (s : State) : Host.Outcome State Fault Refusal :=
  stepOf (whileRunning (actuationEvent d)) s

/-- TAKE_DEADLINE (R17). -/
def execTakeDeadline (d : DockNo) (s : State) : Host.Outcome State Fault Refusal :=
  stepOf (whileRunning (takeExpires d)) s

end Sys2Proof.Machine
end

