-- ==== Sys2Proof/Machine/Station.lean ====
section
/-! DEFINITION. Station Control's requests (R184 to R189), the causes of a start (R190), and the Retained
Store's own commands (R172, R179, R180). -/

namespace Sys2Proof.Machine

/-! ### Clock and id (R184 to R186) -/

/-- The greatest clock count. -/
def clockMax : Nat := 4294967295

/-- A second passes (R184): the count holds at its greatest value, and stands still where the battery
domain has lost its supply and main power is absent. -/
def tickClock (s : State) : State :=
  if s.rs.supplyLost ∧ s.sc.power = .off then s
  else s.setSc { s.sc with clock := min clockMax (s.sc.clock + 1) }

/-- CLOCK_TICK. -/
def execClockTick (s : State) : Host.Outcome State Fault Refusal := stepOf tickClock s

/-- TIME_SET (R185). -/
def takeTimeSet (tag t : Nat) (s : State) : State :=
  let body := Body.clockWas s.sc.clock s.sc.station.clockValid
  let s := s.setSc
    { s.sc with clock := t, station := { s.sc.station with clockValid := true } }
  reply .uplink .timeSet tag .done body (handStation s)

/-- TIME_SET. -/
def execTimeSet (tag t : Nat) (s : State) : Host.Outcome State Fault Refusal :=
  stepOf
    (slotRequest .uplink .timeSet tag (decide (0 < t ∧ t ≤ clockMax)) (takeTimeSet tag t)) s

/-- STATION_ID_SET (R186). -/
def takeStationIdSet (tag id : Nat) (s : State) : State :=
  let was := s.sc.station.id
  let s := s.setSc { s.sc with station := { s.sc.station with id := id } }
  reply .uplink .stationIdSet tag .done (.count was) (handStation s)

/-- STATION_ID_SET. -/
def execStationIdSet (tag id : Nat) (s : State) : Host.Outcome State Fault Refusal :=
  stepOf
    (slotRequest .uplink .stationIdSet tag (decide (0 < id ∧ id ≤ 65535)) (takeStationIdSet tag id)) s

/-! ### Mode (R187) -/

/-- Whether a STATION_MODE is permitted on its port (R187). -/
def modePermitted (p : Port) (crew : Nat) (s : State) : Bool :=
  decide (p ≠ .service) || (s.sc.config.serviceMaySetMode && supervisor crew s)

/-- What a STATION_MODE on the Service port reads from the store: the configuration value, and then the
crew table, whatever the value (DESIGN CHOICE, assumptions 52 and 53). -/
def readForMode (p : Port) (s : State) : State :=
  if p = .service then readCrews (readConfig .serviceMaySetMode s) else s

/-- The target mode is put and handed. -/
def setTarget (m : Mode) (s : State) : State :=
  handStation (s.setSc { s.sc with station := { s.sc.station with target := m } })

/-- A permitted STATION_MODE outside STARTING (R187). -/
def changeMode (m : Mode) (s : State) : State :=
  if s.sc.mode = m then s
  else
    let s := setTarget m s
    let s := s.setSc { s.sc with mode := m }
    if m = .maintenance then endWaitingHires s else s

/-- STATION_MODE (R187). -/
def takeStationMode (p : Port) (tag : Nat) (m : Mode) (crew : Nat) (s : State) : State :=
  let s := readForMode p s
  if !modePermitted p crew s then reply p .stationMode tag .notPermitted .empty s
  else
    let was := s.sc.mode
    let s := if was = .starting then setTarget m s else changeMode m s
    reply p .stationMode tag .done (.modeWas was) s

/-- STATION_MODE. -/
def execStationMode (p : Port) (tag : Nat) (m : Mode) (crew : Nat) (s : State) :
    Host.Outcome State Fault Refusal :=
  stepOf
    (slotRequest p .stationMode tag (decide (m ≠ .starting)) (takeStationMode p tag m crew)) s

/-! ### Configuration (R188) -/

/-- The range of a numeric item (R188). -/
def configRange : ConfigItem → Int × Int
  | .takeWindow => (10, 90)
  | .fillTimeout => (2, 30)
  | .maximumAge => (1, 1440)
  | .offlineQuota => (0, 32)
  | .defaultOfflinePlan => (0, 15)
  | .grace => (0, 300)
  | .buttonWindow => (30, 300)
  | .offlineUnknownAllowed => (0, 1)
  | .serviceMaySetMode => (0, 1)

/-- The value an item keeps of one it is given, and whether it was limited (R188). -/
def keptValue (i : ConfigItem) (v : ConfigValue) : ConfigValue × Bool :=
  match v with
  | .yesNo b => (.yesNo b, false)
  | .num n =>
    (.num (limit (configRange i).1 (configRange i).2 n),
     limited (configRange i).1 (configRange i).2 n)

/-- CONFIG_SET (R188). -/
def takeConfigSet (tag : Nat) (i : ConfigItem) (v : ConfigValue) (s : State) : State :=
  let s := readConfig i s
  let was := configValue s.sc.config i
  let k := keptValue i v
  let s := handConfig i (s.setSc { s.sc with config := setConfigValue s.sc.config i k.1 })
  reply .uplink .configSet tag .done (.configSet k.1 was k.2) s

/-- CONFIG_SET. -/
def execConfigSet (tag : Nat) (i : ConfigItem) (v : ConfigValue) (s : State) :
    Host.Outcome State Fault Refusal :=
  stepOf (slotRequest .uplink .configSet tag (configInForm i v) (takeConfigSet tag i v)) s

/-- CONFIG_READ (R188). -/
def takeConfigRead (p : Port) (tag : Nat) (s : State) : State :=
  let s := readPlaces (configItems.map .config) s
  reply p .configRead tag .done (.config s.sc.config) s

/-- CONFIG_READ. -/
def execConfigRead (p : Port) (tag : Nat) (s : State) : Host.Outcome State Fault Refusal :=
  stepOf (slotRequest p .configRead tag true (takeConfigRead p tag)) s

/-! ### Status (R189) -/

/-- The number of docks surveyed. -/
def surveyedDocks (s : State) : Nat := (allDocks.filter fun d => (lineOf d s).surveyed).length

/-- What STATION_STATUS shows (R189). -/
def statusView (s : State) : StatusView :=
  { mode := s.sc.mode, target := s.sc.station.target, id := s.sc.station.id,
    commissioned := commissioned s, clock := s.sc.clock, clockValid := s.sc.station.clockValid,
    linkUp := s.sc.linkUp, trip := s.sc.station.trip, startKind := s.sc.startKind,
    startReason := s.sc.startReason,
    surveyed := if s.sc.mode = .starting then some (surveyedDocks s) else none }

/-- STATION_STATUS (R189). -/
def takeStationStatus (p : Port) (tag : Nat) (s : State) : State :=
  reply p .stationStatus tag .done (.status (statusView s)) s

/-- STATION_STATUS. -/
def execStationStatus (p : Port) (tag : Nat) (s : State) : Host.Outcome State Fault Refusal :=
  stepOf (slotRequest p .stationStatus tag true (takeStationStatus p tag)) s

/-! ### Causes of a start (R190) -/

/-- A cause stops the part: the line stands still; the store goes on writing. The cause first recorded
stands (R190). -/
def stopPart (c : StartCause) (s : State) : State :=
  let s := s.setDlc { s.dlc with exchange := none }
  s.setSc { s.sc with power := .stopped, cause := some c }

/-- STATION_RESTART(warm): it has no reply (R190). -/
def execStationRestartWarm (tag : Nat) (s : State) : Host.Outcome State Fault Refusal :=
  stepOf (slotRequest .uplink .stationRestart tag true (stopPart .restartWarm)) s

/-- STATION_RESTART(cold): it has no reply (R190). -/
def execStationRestartCold (tag : Nat) (s : State) : Host.Outcome State Fault Refusal :=
  stepOf (slotRequest .uplink .stationRestart tag true (stopPart .restartCold)) s

/-- RESET is asserted (R190): it stops a part with main power, and one that is stopped already keeps the
cause first recorded. -/
def resetAsserted (s : State) : State :=
  match s.sc.power with
  | .off => s
  | .stopped => s.setSc { s.sc with resetLine := true }
  | _ =>
    let s := stopPart .resetLine s
    s.setSc { s.sc with resetLine := true }

/-- RESET. -/
def execReset (s : State) : Host.Outcome State Fault Refusal := stepOf resetAsserted s

/-- Main power returns after an outage, or to a HALTED part (R182, R190). -/
def powerReturns (s : State) : State :=
  match s.sc.power with
  | .off => stopPart .powerReturn s
  | .halted => stopPart .powerReturn s
  | _ => s

/-- MAIN_POWER_RETURN. -/
def execMainPowerReturn (s : State) : Host.Outcome State Fault Refusal := stepOf powerReturns s

/-- The write in progress stops where it stands, and the rest of the list is lost: main power is gone
with no PWRFAIL before it (DESIGN CHOICE, assumption 24). -/
def dropWrites (s : State) : State :=
  match s.rs.writeList with
  | [] => s
  | e :: _ =>
    let k := min (Config.wordsAtPowerLoss s.rs.stepNo) (placeWords e.place)
    let s := writeWords e.place e.content k s
    s.setRs { s.rs with writeList := [], stepNo := s.rs.stepNo + 1 }

/-- Main power is lost (R190). -/
def powerLost (s : State) : State :=
  let s := abandonWriteBacks (dropWrites s)
  let s := s.setDlc { s.dlc with exchange := none }
  s.setSc { s.sc with power := .off, cause := none, resetLine := false }

/-- MAIN_POWER_LOSS. -/
def execMainPowerLoss (s : State) : Host.Outcome State Fault Refusal := stepOf powerLost s

/-- The battery supply is lost while main power is absent (R183, R184): the indication is set, and the
battery domain's contents are gone (DESIGN CHOICE, assumption 28). -/
def batteryLost (s : State) : State :=
  if s.sc.power = .off then
    let s := s.setRs { s.rs with
      supplyLost := true, array := [(0, [Content.signature false])], errors := [] }
    s.setSc { s.sc with clock := 0 }
  else s

/-- BATTERY_SUPPLY_LOSS. -/
def execBatterySupplyLoss (s : State) : Host.Outcome State Fault Refusal := stepOf batteryLost s

/-! ### The store's own commands (R172, R179, R180, R181) -/

/-- STORE_STATUS (R179). -/
def takeStoreStatus (tag : Nat) (s : State) : State :=
  reply .uplink .storeStatus tag .done
    (.storeStatus s.rs.capture s.rs.weakRows.toList s.rs.writeList.length) s

/-- STORE_STATUS. -/
def execStoreStatus (tag : Nat) (s : State) : Host.Outcome State Fault Refusal :=
  stepOf (slotRequest .uplink .storeStatus tag true (takeStoreStatus tag)) s

/-- The capture is unlocked, and with clear map the weak row map is cleared (R179). -/
def clearStore (clearMap : Bool) (s : State) : State :=
  s.setRs { s.rs with
    capture := { s.rs.capture with locked := false, second := false },
    weakRows := if clearMap then Vector.replicate 64 false else s.rs.weakRows }

/-- STORE_CLEAR (R179). -/
def takeStoreClear (tag : Nat) (clearMap : Bool) (s : State) : State :=
  reply .uplink .storeClear tag .done (.capture s.rs.capture) (clearStore clearMap s)

/-- STORE_CLEAR. -/
def execStoreClear (tag : Nat) (clearMap : Bool) (s : State) : Host.Outcome State Fault Refusal :=
  stepOf (slotRequest .uplink .storeClear tag true (takeStoreClear tag clearMap)) s

/-- The row after one; after row 63 row 0 (R180). -/
def nextRow (r : Fin 64) : Fin 64 := ⟨(r.val + 1) % 64, Nat.mod_lt _ (by decide)⟩

/-- The scrub reads its row (R180). -/
def scrubNext (upsets : List Upset) (s : State) : State :=
  let s := readRow s.rs.scrubRow (flipWords upsets s)
  s.setRs { s.rs with scrubRow := nextRow s.rs.scrubRow }

/-- SCRUB_ROW. -/
def execScrubRow (upsets : List Upset) (s : State) : Host.Outcome State Fault Refusal :=
  stepOf (whileRunning (scrubNext upsets)) s

/-- The oldest record of the write list is written (R172). -/
def writeOldest (s : State) : State :=
  match s.rs.writeList with
  | [] => s
  | e :: rest =>
    let s := writeRecord e.place e.content s
    s.setRs { s.rs with writeList := rest }

/-- Whether the store writes its list: with main power, and not HALTED (R182, R190). -/
def storeWrites (s : State) : Bool :=
  decide (s.sc.power ≠ .off) && decide (s.sc.power ≠ .halted)

/-- A record write is done. -/
def recordWritten (s : State) : State := if storeWrites s then writeOldest s else s

/-- RECORD_WRITE_DONE. -/
def execRecordWriteDone (s : State) : Host.Outcome State Fault Refusal := stepOf recordWritten s

/-- PWRFAIL (R181, R182): the write in progress is ended and the part is HALTED. A part that is HALTED
or without main power is not changed. -/
def powerFails (written : Nat) (s : State) : State :=
  if storeWrites s then
    let s := abandonWriteBacks (failWrites written s)
    let s := s.setDlc { s.dlc with exchange := none }
    s.setSc { s.sc with power := .halted, cause := none, resetLine := false }
  else s

/-- PWRFAIL. -/
def execPwrfail (written : Nat) (s : State) : Host.Outcome State Fault Refusal :=
  stepOf (powerFails written) s

end Sys2Proof.Machine
end

