-- ==== Sys2Proof/Machine/Starts.lean ====
section
/-! DEFINITION. Starts (R183, R190, R191): the cold or warm decision, the cold clearing, what a warm start
loads from the store and checks, the start values, and the beginning of the survey. -/

namespace Sys2Proof.Machine

/-! ### The decision (R183) -/

/-- Whether the signature reads as the signature, clean or corrected. -/
def signatureReads (s : State) : Bool := decide (readable .signature s = some (.signature true))

/-- The kind of a start (R183). -/
def startKindOf (s : State) : StartKind :=
  if !signatureReads s ∨ s.rs.supplyLost ∨ s.sc.cause = some .restartCold then .cold else .warm

/-- The restart reason of a cause and a kind (R190). -/
def reasonOf (c : StartCause) (k : StartKind) : RestartReason :=
  match c, k with
  | .powerReturn, .cold => .coldPower
  | .powerReturn, .warm => .warmPower
  | .resetLine, _ => .lineReset
  | .restartWarm, _ => .restartRequest
  | .restartCold, _ => .coldRequest

/-! ### The cold clearing (R183) -/

/-- Whether a word keeps what it held at a cold clearing: the words of report and fault places, which
are free words then, and words of no record. R183 writes entry places of the registry alone, so that a
later rebuild of a head may find the old records readable (DESIGN CHOICE, assumption 43). -/
def keptAtCold (w : Nat) : Bool :=
  match placeAt w with
  | none => true
  | some (.report _) => true
  | some (.fault _) => true
  | _ => false

/-- The store as a cold start clears it, with its signature not yet written. -/
def clearArray (s : State) : State :=
  s.setRs { s.rs with
    array := putCell .signature [Content.signature false]
      (s.rs.array.filter fun x => keptAtCold x.1),
    errors := s.rs.errors.filter fun x => keptAtCold x.1,
    weakRows := Vector.replicate 64 false, capture := .clear, supplyLost := false }

/-- The owners take their cold values (R183, R184). -/
def coldOwners (s : State) : State :=
  let s := s.setSc { s.sc with station := .cold, clock := 0, config := .default }
  let s := s.setFu (Vector.replicate 16 none)
  let s := s.setRq .cold
  let s := s.setWoe .cold
  let s := s.setFlt .cold
  s.setDlc { s.dlc with lines := Vector.replicate 48 (LineState.start s.sc.timebase (.record .cold)) }

/-! ### What a warm start loads (R183, R176) -/

/-- A two-copy record's content: copy A, or copy B where copy A is damaged. -/
def headContent (p : Fin 2 → Place) (s : State) : Option Content :=
  match readable (p 0) s with
  | some c => some c
  | none => readable (p 1) s

/-- The retained station record, or its cold values (R176). -/
def loadStation (s : State) : State :=
  s.setSc { s.sc with station := ((headContent .station s).map stationIn).getD .cold }

/-- The retained configuration. -/
def loadConfig (s : State) : State :=
  s.setSc { s.sc with
    config := configItems.foldl (fun c i => setConfigValue c i (storedConfig s i)) .default }

/-- The retained report queue, with every claim 0 (R123). -/
def loadQueue (s : State) : State :=
  let s := s.setRq .cold
  match headContent .queueHead s with
  | some c => takeQueueHead (queueHeadIn c) s
  | none => rebuildQueue s

/-- The retained fault log. -/
def loadLog (s : State) : State :=
  match headContent .faultHead s with
  | some c => takeFaultHead (faultHeadIn c) s
  | none => rebuildLog s

/-- The retained registry. -/
def loadRegistry (s : State) : State :=
  match headContent .registryHead s with
  | some c => takeRegistryHead (registryCountIn c) s
  | none => rebuildRegistry s

/-- The retained policies. -/
def loadPolicies (s : State) : State :=
  s.setFlt { s.flt with
    policies := faultKinds.foldl (fun v k => vset v (faultIndex k) (storedPolicy s k)) defaultPolicies }

/-- The retained tariff table. -/
def loadPlans (s : State) : State := s.setFu (Vector.ofFn (storedPlan s))

/-- The retained crews and floors; slots and start list empty (R129). -/
def loadOrders (s : State) : State :=
  s.setWoe { WorkOrders.cold with
    crews := Vector.ofFn (storedCrew s),
    floors := orderKinds.foldl (fun v k => vset v (orderIndex k) (storedFloor s k)) defaultFloors }

/-- The retained record of a dock. -/
def storedDock (s : State) (d : DockNo) : RetainedDock :=
  match readContent (.dock d) s with
  | .dock r => r
  | _ => .cold

/-- The survey references taken from the store (R3). -/
def loadDocks (s : State) : State :=
  s.setDlc { s.dlc with
    lines := Vector.ofFn fun d => LineState.start s.sc.timebase (.record (storedDock s d)) }

/-- What the owners find in the store at a warm start (R183). -/
def loadOwners (s : State) : State :=
  loadDocks (loadOrders (loadPlans (loadPolicies (loadRegistry (loadLog (loadQueue (loadConfig
    (loadStation s))))))))

/-- The commit words of every report and fault place are read, in the order of the words, with the
sequence tests of those that are held (R175). -/
def checkHeld (s : State) : State :=
  let places := (finList 96).map Place.report ++ (finList 32).map Place.fault
  places.foldl (fun s p => readWord raise (some p) (placeBase p + placeWords p - 1) s) s

/-- The start check reads every word, row by row (R183); with no word in error only the sequence tests
can find damage. -/
def startCheck (s : State) : State :=
  if s.rs.errors.isEmpty then checkHeld s else (finList 64).foldl (fun s r => readRow r s) s

/-! ### Start values (R191, R3) -/

/-- The fault set a dock keeps across a start: that of its survey reference; none of a damaged one
(DESIGN CHOICE, assumption 14). -/
def startFaults (l : LineState) : FaultSet :=
  match l.reference with
  | some (.record r) => r.faults
  | _ => .empty

/-- Every block's start values (R191). -/
def startValues (s : State) : State :=
  let s := s.setPi { terminal := .start, uplink := .start, service := .start }
  let s := s.setDlc
    { docks := s.dlc.lines.map fun l => DockRecord.start (startFaults l), lines := s.dlc.lines,
      exchange := none, survey := none }
  let s := s.setCc .start
  let s := s.setHu []
  let s := s.setRq { s.rq with claims := Vector.replicate 48 0, claimTotal := 0 }
  let s := s.setWoe { s.woe with slots := Vector.replicate 2 none, startList := [] }
  let s := s.setFlt { s.flt with watches := Vector.replicate 4 none }
  let s := s.setRs { s.rs with scrubRow := 0 }
  s.setSc { s.sc with mode := .starting, linkUp := false }

/-- A start begins with a cause (R183, R190, R191). -/
def beginStart (c : StartCause) (s : State) : State :=
  let kind := startKindOf s
  let s := s.setSc { s.sc with
    power := .starting, cause := none, resetLine := false, startKind := kind,
    startReason := reasonOf c kind }
  if kind = .cold then startValues (coldOwners (clearArray s))
  else startValues (startCheck (loadOwners s))

/-- START_BEGIN (R190): a stopped part starts once its write list is empty. -/
def startBegins (upsets : List Upset) (s : State) : State :=
  match s.sc.power, s.sc.cause with
  | .stopped, some c =>
    if s.rs.writeList = [] then beginStart c (flipWords upsets s) else s
  | _, _ => s

/-- START_BEGIN. -/
def execStartBegin (upsets : List Upset) (s : State) : Host.Outcome State Fault Refusal :=
  stepOf (startBegins upsets) s

/-- The signature is written, last of a cold clearing (R183). -/
def writeSignature (s : State) : State :=
  if s.sc.startKind = .cold then writeRecord .signature (.signature true) s else s

/-- The survey begins (R190, R192, R200): the ports take frames, and dock 0 is granted the line. -/
def surveyBegins (s : State) : State :=
  if s.sc.power = .starting then
    let s := writeSignature s
    let s := s.setSc { s.sc with power := .running }
    grantLine (setSurvey (some (surveyOf 0)) s)
  else s

/-- SURVEY_BEGIN. -/
def execSurveyBegin (s : State) : Host.Outcome State Fault Refusal := stepOf surveyBegins s

end Sys2Proof.Machine
end

