-- ==== Sys2Proof/Machine/Ports.lean ====
section
/-! DEFINITION. The Port Interface's own commands (R196 to R202): refused frames, READ, NOTICE_READ, the
completion of their answers, and PORT_CLEAR. -/

namespace Sys2Proof.Machine

/-- FRAME_REFUSED (R197). -/
def execFrameRefused (p : Port) (frame : List Byte) (s : State) : Host.Outcome State Fault Refusal :=
  stepOf (refuseFrame p frame) s

/-! ### Reading (R199) -/

/-- READ: the answer carries the oldest finished reply. -/
def execRead (p : Port) (tag : Nat) (s : State) : Host.Outcome State Fault Refusal :=
  stepOf
    (plainRequest p .read tag fun s => (.reply (getPort p s).finished.head? false, s)) s

/-- READ with repeat: the answer carries the last-read copy. -/
def execReadRepeat (p : Port) (tag : Nat) (s : State) : Host.Outcome State Fault Refusal :=
  stepOf (plainRequest p .read tag fun s => (.reply (getPort p s).lastRead true, s)) s

/-- The answer in progress on a port: given, and not clocked out to its last check byte. -/
def openAnswer (p : Port) (s : State) : Option Answer :=
  (getPort p s).answer.filter fun a => !a.complete

/-- The answer's last check byte has been clocked out. -/
def completeAnswer (p : Port) (s : State) : State :=
  let q := getPort p s
  setPort p { q with answer := q.answer.map fun a => { a with complete := true } } s

/-- A read reply leaves the finished list, its slot becomes FREE and it becomes the last-read copy
(R199); a HIRE's hire record goes with its slot (R65). -/
def freeReply (p : Port) (r : Reply) (s : State) : State :=
  let q := getPort p s
  let s := setPort p { q with finished := q.finished.erase r, lastRead := some r } s
  if p = .terminal ∧ r.kind = .hire then dropHire r.tag s else s

/-- READ_ANSWER_COMPLETE (R199). -/
def readComplete (p : Port) (s : State) : State :=
  match (openAnswer p s).map Answer.content with
  | some (.reply (some r) false) => completeAnswer p (freeReply p r s)
  | some (.reply _ _) => completeAnswer p s
  | _ => s

/-- READ_ANSWER_COMPLETE. An answer in progress when the part stops running takes no effect at its end
(DESIGN CHOICE, assumption 50). -/
def execReadAnswerComplete (p : Port) (s : State) : Host.Outcome State Fault Refusal :=
  stepOf (whileRunning (readComplete p)) s

/-! ### Notices (R201) -/

/-- NOTICE_READ: the answer reports every notice set or pending; its event notices are remembered. -/
def noticeReads (p : Port) (tag : Nat) (s : State) : State :=
  let accepted := powered s && decide (judgeKind p .noticeRead tag true s = .accepted)
  let events := (getPort p s).events
  let s := plainRequest p .noticeRead tag (fun s => (.notices (noticeBytes p s), s)) s
  if accepted then setPort p { getPort p s with reported := events } s else s

/-- NOTICE_READ. -/
def execNoticeRead (p : Port) (tag : Nat) (s : State) : Host.Outcome State Fault Refusal :=
  stepOf (noticeReads p tag) s

/-- The event notices less those reported. -/
def clearReported (e r : EventNotices) : EventNotices :=
  { stationChanged := e.stationChanged && !r.stationChanged, linkDown := e.linkDown && !r.linkDown,
    orderEnded := e.orderEnded && !r.orderEnded, faultAlert := e.faultAlert && !r.faultAlert,
    watchHit := e.watchHit && !r.watchHit, restarted := e.restarted && !r.restarted }

/-- NOTICE_ANSWER_COMPLETE (R201): the event notices the answer reported are cleared, but for those set
again since. -/
def noticeComplete (p : Port) (s : State) : State :=
  match (openAnswer p s).map Answer.content with
  | some (.notices _) =>
    let s := completeAnswer p s
    let q := getPort p s
    setPort p { q with events := clearReported q.events q.reported, reported := .clear } s
  | _ => s

/-- NOTICE_ANSWER_COMPLETE. An answer in progress when the part stops running takes no effect at its end
(DESIGN CHOICE, assumption 50). -/
def execNoticeAnswerComplete (p : Port) (s : State) : Host.Outcome State Fault Refusal :=
  stepOf (whileRunning (noticeComplete p)) s

/-! ### Clearing (R202) -/

/-- What the owners of a port's withdrawn requests do (R202, step 1). -/
def ownersClear (p : Port) (s : State) : State :=
  match p with
  | .terminal => clearHires s
  | .uplink => restartRead (readQueueHead (rewaitFills s))
  | .service => s

/-- Every slot of a port is withdrawn, the owners act, and then every event notice is cleared (R202). -/
def clearPort (p : Port) (s : State) : State :=
  let s := ownersClear p (setPort p
    { getPort p s with unfinished := [], finished := [], lastRead := none } s)
  setPort p { getPort p s with events := .clear, reported := .clear } s

/-- PORT_CLEAR. -/
def execPortClear (p : Port) (tag : Nat) (s : State) : Host.Outcome State Fault Refusal :=
  stepOf
    (plainRequest p .portClear tag fun s =>
      (.withdrawn (heldTags (getPort p s)).length, clearPort p s)) s

end Sys2Proof.Machine
end

