-- ==== Sys2Proof/Machine/Dispatch.lean ====
section
/-! DEFINITION. The dispatch: one arm for each command, each a direct call of its meaning. -/

namespace Sys2Proof.Machine

/-- The meaning of a command on everything but the queue. -/
def exec (i : Instr) (s : State) : Host.Outcome State Fault Refusal :=
  match i with
  | .frameRefused port frame => Sys2Proof.Machine.execFrameRefused port frame s
  | .read port tag => Sys2Proof.Machine.execRead port tag s
  | .readRepeat port tag => Sys2Proof.Machine.execReadRepeat port tag s
  | .readAnswerComplete port => Sys2Proof.Machine.execReadAnswerComplete port s
  | .noticeRead port tag => Sys2Proof.Machine.execNoticeRead port tag s
  | .noticeAnswerComplete port => Sys2Proof.Machine.execNoticeAnswerComplete port s
  | .portClear port tag => Sys2Proof.Machine.execPortClear port tag s
  | .hire tag card dock plan => Sys2Proof.Machine.execHire tag card dock plan s
  | .cancel tag target => Sys2Proof.Machine.execCancel tag target s
  | .stationView tag => Sys2Proof.Machine.execStationView tag s
  | .quote tag plan minutes => Sys2Proof.Machine.execQuote tag plan minutes s
  | .fillFetch tag => Sys2Proof.Machine.execFillFetch tag s
  | .fillAnswer tag record => Sys2Proof.Machine.execFillAnswer tag record s
  | .fillAnswerNotFound tag card => Sys2Proof.Machine.execFillAnswerNotFound tag card s
  | .cardPush tag record => Sys2Proof.Machine.execCardPush tag record s
  | .cardInvalidate tag card => Sys2Proof.Machine.execCardInvalidate tag card s
  | .cacheFlush tag => Sys2Proof.Machine.execCacheFlush tag s
  | .cacheMode tag allocate serve => Sys2Proof.Machine.execCacheMode tag allocate serve s
  | .linkStateUp tag => Sys2Proof.Machine.execLinkStateUp tag s
  | .linkStateDown tag => Sys2Proof.Machine.execLinkStateDown tag s
  | .reportRead tag n => Sys2Proof.Machine.execReportRead tag n s
  | .reportReadRestart tag n => Sys2Proof.Machine.execReportReadRestart tag n s
  | .reportRelease tag seq => Sys2Proof.Machine.execReportRelease tag seq s
  | .tariffLoad tag plan record => Sys2Proof.Machine.execTariffLoad tag plan record s
  | .tariffDrop tag plan => Sys2Proof.Machine.execTariffDrop tag plan s
  | .crewLoad tag crew level mapLength permits => Sys2Proof.Machine.execCrewLoad tag crew level mapLength permits s
  | .crewDrop tag crew => Sys2Proof.Machine.execCrewDrop tag crew s
  | .floorSet tag kind floor => Sys2Proof.Machine.execFloorSet tag kind floor s
  | .orderSubmit tag crew orders => Sys2Proof.Machine.execOrderSubmit tag crew orders s
  | .orderStatus tag slot => Sys2Proof.Machine.execOrderStatus tag slot s
  | .orderAbort tag slot crew => Sys2Proof.Machine.execOrderAbort tag slot crew s
  | .policySet tag kind policy => Sys2Proof.Machine.execPolicySet tag kind policy s
  | .faultRead port tag n => Sys2Proof.Machine.execFaultRead port tag n s
  | .faultDiscard port tag n clearLost => Sys2Proof.Machine.execFaultDiscard port tag n clearLost s
  | .dockFaultRead port tag => Sys2Proof.Machine.execDockFaultRead port tag s
  | .bikeFlag tag bike => Sys2Proof.Machine.execBikeFlag tag bike s
  | .bikeClear tag bike => Sys2Proof.Machine.execBikeClear tag bike s
  | .bikeFlagRead port tag start n => Sys2Proof.Machine.execBikeFlagRead port tag start n s
  | .watchSet port tag slot crew base span cond action enabled => Sys2Proof.Machine.execWatchSet port tag slot crew base span cond action enabled s
  | .watchDrop port tag slot crew => Sys2Proof.Machine.execWatchDrop port tag slot crew s
  | .watchClearHits port tag slot => Sys2Proof.Machine.execWatchClearHits port tag slot s
  | .watchRead port tag => Sys2Proof.Machine.execWatchRead port tag s
  | .storeStatus tag => Sys2Proof.Machine.execStoreStatus tag s
  | .storeClear tag clearMap => Sys2Proof.Machine.execStoreClear tag clearMap s
  | .timeSet tag time => Sys2Proof.Machine.execTimeSet tag time s
  | .stationIdSet tag id => Sys2Proof.Machine.execStationIdSet tag id s
  | .stationMode port tag mode crew => Sys2Proof.Machine.execStationMode port tag mode crew s
  | .configSet tag item value => Sys2Proof.Machine.execConfigSet tag item value s
  | .configRead port tag => Sys2Proof.Machine.execConfigRead port tag s
  | .stationStatus port tag => Sys2Proof.Machine.execStationStatus port tag s
  | .stationRestartWarm tag => Sys2Proof.Machine.execStationRestartWarm tag s
  | .stationRestartCold tag => Sys2Proof.Machine.execStationRestartCold tag s
  | .dockAnswer dock answer => Sys2Proof.Machine.execDockAnswer dock answer s
  | .dockExchangeMissed dock => Sys2Proof.Machine.execDockExchangeMissed dock s
  | .dockServiceRequest dock => Sys2Proof.Machine.execDockServiceRequest dock s
  | .sweepDue dock => Sys2Proof.Machine.execSweepDue dock s
  | .actuationDeadline dock => Sys2Proof.Machine.execActuationDeadline dock s
  | .takeDeadline dock => Sys2Proof.Machine.execTakeDeadline dock s
  | .fillExpiry card => Sys2Proof.Machine.execFillExpiry card s
  | .placeDeadline => Sys2Proof.Machine.execPlaceDeadline s
  | .orderExecute => Sys2Proof.Machine.execOrderExecute s
  | .clockTick => Sys2Proof.Machine.execClockTick s
  | .scrubRow upsets => Sys2Proof.Machine.execScrubRow upsets s
  | .recordWriteDone => Sys2Proof.Machine.execRecordWriteDone s
  | .pwrfail written => Sys2Proof.Machine.execPwrfail written s
  | .reset => Sys2Proof.Machine.execReset s
  | .mainPowerReturn => Sys2Proof.Machine.execMainPowerReturn s
  | .startBegin upsets => Sys2Proof.Machine.execStartBegin upsets s
  | .surveyPollAnswer dock answer extra => Sys2Proof.Machine.execSurveyPollAnswer dock answer extra s
  | .batterySupplyLoss => Sys2Proof.Machine.execBatterySupplyLoss s
  | .mainPowerLoss => Sys2Proof.Machine.execMainPowerLoss s
  | .surveyBegin => Sys2Proof.Machine.execSurveyBegin s

end Sys2Proof.Machine
end

