-- ==== Sys2Proof/Safety.lean ====
section
/-! DEFINITION. The terms that statements about the AJ48 use: a request that its port takes, a reply
finished, what stays as it was, and the properties that hold in every step. -/

namespace Sys2Proof.Machine

/-! ### Requests and replies -/

/-- A request on a port passes the checks of R197 that its body has no part in: the part serves its
ports, the kind is the port's, the tag is 0 to 15 and not held, and a slot is free. -/
abbrev Accepts (p : Port) (k : RequestKind) (tag : Nat) (s : State) : Prop :=
  running s = true ∧ served k p = true ∧ tag ≤ 15 ∧ tag ∉ heldTags (getPort p s)
    ∧ (heldTags (getPort p s)).length < portSlots p

/-- Every word of the retained array reads clean (R173). -/
abbrev Clean (s : State) : Prop := s.rs.errors = []

/-- Every held report and every logged fault record carries the sequence of its place, as far as the
array's words are its own: those of a record with an entry in the write list are not checked (R175). -/
def SequencesAgree (s : State) : Prop :=
  (∀ n i, heldReportAt n s = some i → inWriteList (.report n) s = false → reportSeqOk n i s = true)
  ∧ ∀ n i, heldFaultAt n s = some i → inWriteList (.fault n) s = false → faultSeqOk n i s = true

/-- The ports other than `p` keep everything but their attention lines. -/
def OtherPorts (p : Port) (s t : State) : Prop :=
  ∀ q, q ≠ p → getPort q t = { getPort q s with attention := (getPort q t).attention }

/-- A request was accepted and its reply finished in the same step (R197, R198): the answer frame says
ACCEPTED, the reply is the newest of the finished list, and nothing else of any port changes but the
attention lines. -/
def Replied (p : Port) (k : RequestKind) (tag : Nat) (o : ReplyOutcome) (b : Body) (s t : State) : Prop :=
  getPort p t =
    { getPort p s with
      finished := (getPort p s).finished ++ [{ tag := tag, kind := k, outcome := o, body := b }],
      answer := some (answerFor .accepted tag (kindCode k) .nothing), reported := .clear,
      attention := (getPort p t).attention }
  ∧ OtherPorts p s t

/-- A request was accepted and its slot is UNFINISHED after the step (R198). -/
def Taken (p : Port) (k : RequestKind) (tag : Nat) (s t : State) : Prop :=
  getPort p t =
    { getPort p s with
      unfinished := (getPort p s).unfinished ++ [(tag, k)],
      answer := some (answerFor .accepted tag (kindCode k) .nothing), reported := .clear,
      attention := (getPort p t).attention }
  ∧ OtherPorts p s t

/-- The Port Interface keeps everything but the attention lines. -/
def PortsKept (s t : State) : Prop :=
  ∀ q, getPort q t = { getPort q s with attention := (getPort q t).attention }

/-- The retained store with records handed, in order, in the present step (R172). -/
def handAll (l : List (Place × Content)) (rs : RetainedStore) : RetainedStore :=
  { rs with writeList := l.foldl (fun w x => putEntry rs.stepNo x.1 x.2 w) rs.writeList }

/-- The retained store after a step that handed records, in order. -/
def stepHands (l : List (Place × Content)) (rs : RetainedStore) : RetainedStore :=
  { handAll l rs with stepNo := rs.stepNo + 1 }

/-- A two-copy record handed as copy A and then copy B (R172). -/
def bothCopies (p : Fin 2 → Place) (c : Content) : List (Place × Content) := [(p 0, c), (p 1, c)]

/-- The retained store but for the model's own step counter. -/
def StoreKept (s t : State) : Prop := t.rs = { s.rs with stepNo := t.rs.stepNo }

/-- Nothing changes but the ports and the model's own step counter. -/
def RestKept (s t : State) : Prop :=
  t = { s with pi := t.pi, rs := { s.rs with stepNo := t.rs.stepNo } }

/-- A port gives an answer frame, and nothing else of any port changes but the attention lines. -/
def Answered (p : Port) (a : Answer) (s t : State) : Prop :=
  getPort p t =
    { getPort p s with answer := some a, reported := .clear, attention := (getPort p t).attention }
  ∧ OtherPorts p s t

/-- A request is refused with a code: the first check of R197 that it fails (checks 1 and 3 to 6). -/
def Refuses (p : Port) (k : RequestKind) (tag : Nat) (inForm : Bool) (s : State) : Acceptance → Prop
  | .powerFail => running s = false
  | .notOnPort => running s = true ∧ served k p = false
  | .badForm => running s = true ∧ served k p = true ∧ (inForm = false ∨ 15 < tag)
  | .dupTag =>
    running s = true ∧ served k p = true ∧ inForm = true ∧ tag ≤ 15 ∧ tag ∈ heldTags (getPort p s)
  | .full =>
    running s = true ∧ served k p = true ∧ inForm = true ∧ tag ≤ 15 ∧ tag ∉ heldTags (getPort p s)
      ∧ portSlots p ≤ (heldTags (getPort p s)).length
  | .badCheck => False
  | .accepted => False

/-- The request a command stands for, for the rows that take a request slot: its port, its kind, its
tag, and whether its operands are in form (R197, check 4). -/
def slotRequestOf : Instr → Option (Port × RequestKind × Nat × Bool)
  | .hire tag card dock plan => some (.terminal, .hire, tag, hireInForm card dock plan)
  | .cancel tag _ => some (.terminal, .cancel, tag, true)
  | .stationView tag => some (.terminal, .stationView, tag, true)
  | .quote tag plan minutes => some (.terminal, .quote, tag, quoteInForm plan minutes)
  | .fillFetch tag => some (.uplink, .fillFetch, tag, true)
  | .fillAnswer tag record => some (.uplink, .fillAnswer, tag, memberInForm record)
  | .fillAnswerNotFound tag card => some (.uplink, .fillAnswer, tag, cardInForm card)
  | .cardPush tag record => some (.uplink, .cardPush, tag, memberInForm record)
  | .cardInvalidate tag card => some (.uplink, .cardInvalidate, tag, cardInForm card)
  | .cacheFlush tag => some (.uplink, .cacheFlush, tag, true)
  | .cacheMode tag _ _ => some (.uplink, .cacheMode, tag, true)
  | .linkStateUp tag => some (.uplink, .linkState, tag, true)
  | .linkStateDown tag => some (.uplink, .linkState, tag, true)
  | .reportRead tag n => some (.uplink, .reportRead, tag, decide (n ≤ 4))
  | .reportReadRestart tag n => some (.uplink, .reportRead, tag, decide (n ≤ 4))
  | .reportRelease tag _ => some (.uplink, .reportRelease, tag, true)
  | .tariffLoad tag plan record => some (.uplink, .tariffLoad, tag, tariffInForm plan record)
  | .tariffDrop tag plan => some (.uplink, .tariffDrop, tag, decide (plan ≤ 15))
  | .crewLoad tag crew level _ permits => some (.uplink, .crewLoad, tag, crewInForm crew level permits)
  | .crewDrop tag _ => some (.uplink, .crewDrop, tag, true)
  | .floorSet tag _ floor => some (.uplink, .floorSet, tag, decide (floor ≤ 2))
  | .orderSubmit tag _ _ => some (.service, .orderSubmit, tag, true)
  | .orderStatus tag slot => some (.service, .orderStatus, tag, decide (slot ≤ 1))
  | .orderAbort tag slot _ => some (.service, .orderAbort, tag, decide (slot ≤ 1))
  | .policySet tag _ _ => some (.uplink, .policySet, tag, true)
  | .faultRead p tag n => some (p, .faultRead, tag, decide (n ≤ 4))
  | .faultDiscard p tag n _ => some (p, .faultDiscard, tag, decide (n ≤ 32))
  | .dockFaultRead p tag => some (p, .dockFaultRead, tag, true)
  | .bikeFlag tag bike => some (.uplink, .bikeFlag, tag, bikeInForm bike)
  | .bikeClear tag bike => some (.uplink, .bikeClear, tag, bikeInForm bike)
  | .bikeFlagRead p tag start n => some (p, .bikeFlagRead, tag, decide (start ≤ 63 ∧ n ≤ 8))
  | .watchSet p tag slot _ base span _ _ _ => some (p, .watchSet, tag, watchInForm slot base span)
  | .watchDrop p tag slot _ => some (p, .watchDrop, tag, watchSlotInForm slot)
  | .watchClearHits p tag slot => some (p, .watchClearHits, tag, slot.all watchSlotInForm)
  | .watchRead p tag => some (p, .watchRead, tag, true)
  | .storeStatus tag => some (.uplink, .storeStatus, tag, true)
  | .storeClear tag _ => some (.uplink, .storeClear, tag, true)
  | .timeSet tag time => some (.uplink, .timeSet, tag, decide (0 < time ∧ time ≤ clockMax))
  | .stationIdSet tag id => some (.uplink, .stationIdSet, tag, decide (0 < id ∧ id ≤ 65535))
  | .stationMode p tag mode _ => some (p, .stationMode, tag, decide (mode ≠ .starting))
  | .configSet tag item value => some (.uplink, .configSet, tag, configInForm item value)
  | .configRead p tag => some (p, .configRead, tag, true)
  | .stationStatus p tag => some (p, .stationStatus, tag, true)
  | .stationRestartWarm tag => some (.uplink, .stationRestart, tag, true)
  | .stationRestartCold tag => some (.uplink, .stationRestart, tag, true)
  | _ => none

/-- The request a command stands for, for the rows that take no request slot: its port, kind and tag. -/
def plainRequestOf : Instr → Option (Port × RequestKind × Nat)
  | .read p tag => some (p, .read, tag)
  | .readRepeat p tag => some (p, .read, tag)
  | .noticeRead p tag => some (p, .noticeRead, tag)
  | .portClear p tag => some (p, .portClear, tag)
  | _ => none

/-! ### Hires that end without a release -/

/-- The fill queue with every hire in AUTH_WAIT withdrawn as waiter (R63). -/
def withoutWaiters (s : State) : List Fill :=
  s.cc.fills.map fun f =>
    if s.hu.any fun h => decide (h.state = .authWait) && f.waiter.any fun w => decide (w.tag = h.tag) then
      { f with waiter := none }
    else f

/-- A dock's record with the holder of a hire in AUTH_WAIT withdrawn from it, where the dock is its chosen
one and still DOCKED (R87, R88). -/
def withoutWaitingHolder (d : DockNo) (s : State) : DockRecord :=
  let r := dockOf d s
  if r.state = .docked ∧ s.hu.any fun h => decide (h.state = .authWait) && decide (h.chosen = some d)
      && r.holder.any fun x =>
        match x with
        | .hire tag _ => decide (tag = h.tag)
        | _ => false then
    { r with holder := none }
  else r

/-- How a word reads once waiting write-backs are abandoned: a corrected word keeps its single-bit error,
or reads clean where its write-back had been made (R173); every other word as before. -/
def Abandoned (before after : Option WordError) : Prop :=
  if before = some .corrected then after = none ∨ after = some .single else after = before

/-! ### Dock records put, and replies to hires -/

/-- Whether a dock is inhibited by its record: VACANT and suspended, PARKED, or JAMMED without a bike
(R6). -/
def inhibited (r : DockRecord) : Bool :=
  decide ((r.state = .vacant ∧ r.suspended = true) ∨ r.state = .parked
    ∨ (r.state = .jammed ∧ r.bike = none))

/-- A line whose dock's record changes: where that makes a surveyed dock inhibited, or no longer so, the
INHIBIT that says so waits, but none for a dock that becomes ABSENT (R6). -/
def inhibitFollows (old new : DockRecord) (l : LineState) : LineState :=
  if l.surveyed = true ∧ inhibited new ≠ inhibited old ∧ new.state ≠ .absent then
    { l with waiting := placeIn (.inhibit (inhibited new)) l.waiting }
  else l

/-- The state with a dock's record and line state put, its counted claim with the total (R111), its
inhibit following (R6), and the record handed where what the store keeps of it changed (R172). -/
def dockPut (d : DockNo) (r : DockRecord) (l : LineState) (claim : Nat) (s : State) : State :=
  { s with
    dlc := { s.dlc with
      docks := vset s.dlc.docks d r,
      lines := vset s.dlc.lines d (inhibitFollows (dockOf d s) r l) },
    rq := { s.rq with
      claims := vset s.rq.claims d claim, claimTotal := (vset s.rq.claims d claim).toList.sum },
    rs := if retainedOf r = retainedOf (dockOf d s) then s.rs
      else handAll [(.dock d, .dock (retainedOf r))] s.rs }

/-- The state in which a HIRE's reply is finished and its record is in a state (R65, R66, R198). -/
def hireAnswered (tag : Nat) (o : ReplyOutcome) (b : Body) (st : HireState) (s : State) : State :=
  { s with
    hu := s.hu.map fun h => if h.tag = tag then { h with state := st } else h,
    pi := { s.pi with
      terminal := { s.pi.terminal with
        unfinished := s.pi.terminal.unfinished.filter fun u => decide (u.1 ≠ tag),
        finished := s.pi.terminal.finished ++
          [{ tag := tag, kind := .hire, outcome := o, body := b }] } } }

/-- A hire is answered where its record in UNLOCKING matches a tag and a dock, and no reply is made where
none does (R78). -/
def hireEnds (d : DockNo) (tag : Nat) (o : ReplyOutcome) (b : Body) (st : HireState) (s : State) :
    State :=
  if ∃ h ∈ s.hu, h.tag = tag ∧ h.state = .unlocking ∧ h.chosen = some d then
    hireAnswered tag o b st s
  else s

/-- The state with the notice STATION_CHANGED set on the Terminal port. -/
def stationChanged (s : State) : State :=
  { s with
    pi := { s.pi with
      terminal := { s.pi.terminal with
        events := { s.pi.terminal.events with stationChanged := true },
        reported := { s.pi.terminal.reported with stationChanged := false } } } }

/-- The card part of a release that lapses or fails: the write-through, for a stamped holder (R48). -/
def stampUndone (stamp : Option Stamp) (s : State) : State :=
  match stamp with
  | some t => releaseUndone t.card t.trip s
  | none => s

/-- FAILED handed to a holder (R80, R138). -/
def failedFor (d : DockNo) (h : Option Holder) (s : State) : State :=
  match h with
  | some (.hire tag stamp) =>
    hireEnds d tag .releaseFailed (.dock (some d)) .ended (stampUndone stamp s)
  | some (.order i _ _) => collectOutcome d i false s
  | none => s

/-- LAPSED handed to a holder (R82, R138). -/
def lapsedFor (d : DockNo) (h : Option Holder) (s : State) : State :=
  match h with
  | some (.hire tag stamp) =>
    hireEnds d tag .cancelled (.dock (some d)) .ended (stationChanged (stampUndone stamp s))
  | some (.order i _ _) => collectOutcome d i false s
  | none => s

/-- TAKEN handed to a holder (R81, R138). -/
def takenFor (d : DockNo) (h : Option Holder) (bike : Nat) (s : State) : State :=
  match h with
  | some (.hire tag (some t)) =>
    hireEnds d tag .released (.hireReleased d bike t.trip t.start t.plan t.auth) .offered
      (releaseTaken t.card t.trip s)
  | some (.order i _ _) => collectOutcome d i true s
  | _ => s

/-- The state once the start list is judged (R131): with no slot active and the mode not STARTING, the first
slot of the list leaves it and is RUNNING from its first order on. -/
def startListJudged (s : State) : State :=
  match s.woe.startList with
  | [] => s
  | i :: rest =>
    if s.sc.mode = .starting ∨ (s.woe.slots.toList.any fun o => o.any fun w =>
        decide (w.state = .running ∨ w.state = .waiting)) = true then s
    else
      { s with woe := { s.woe with
          startList := rest,
          slots :=
            match vget s.woe.slots i with
            | some w => vset s.woe.slots i (some
                { w with state := .running, index := 0, startedAt := some (stationTime s) })
            | none => s.woe.slots } }

/-- The state with a work order slot put. -/
def slotPut (i : Fin 2) (w : WorkSlot) (s : State) : State :=
  { s with woe := { s.woe with slots := vset s.woe.slots i (some w) } }

/-- An order completes (R134): its result is appended and the slot runs on at the next index, or, past its
last order, ends, and the start list is judged. -/
def orderCompleted (i : Fin 2) (w : WorkSlot) (result : OrderResult) (next : Nat) (s : State) : State :=
  let w' := { w with results := w.results ++ [result], index := next, progress := none }
  if next < w.orders.length then slotPut i { w' with state := .running } s
  else startListJudged (slotPut i { w' with state := .ended, endedAt := some (stationTime s) } s)

/-- A slot's list is aborted (R136): ORDER_ABORTED is raised with the slot, the index, the reason, the crew
and the number of releases left outstanding. -/
def abortRaised (i : Fin 2) (w : WorkSlot) (reason : AbortReason) (left : Nat) (s : State) : State :=
  raise
    { kind := .orderAborted, dock := none, bike := none,
      detail := .orderAborted i w.index reason w.crew left } s

/-- A LOCK_JAM raised at a dock for a phase, with its record's bike and its holder's kind (R14, R15,
R21). -/
def jamRaised (d : DockNo) (phase : JamPhase) (h : Option Holder) (bike : Option Bike) (s : State) :
    State :=
  raise
    { kind := .lockJam, dock := some d, bike := bike.map Bike.id,
      detail := .lockJam phase (h.map holderKind) } s

/-- The bike that a condition senses, as a probe's end takes it into a record: docked since the station
time, the mark set for an unreadable tag (R25, R21). -/
def sensedBike (b : SensedBike) (s : State) : Bike :=
  { id := b.id, mark := b.mark || decide (b.id = 0), since := stationTime s }

/-! ### The dock line -/

/-- Dock `g` is given its turn on the line from `u` (R8, R9, R13, R28): its oldest waiting command leaves
the list and is sent, with its tag write's entry, or POLL is sent when none waits, each with the number of
the last event taken from the dock (R7); an ACTUATION deadline that the command belongs to is set 1.5 s from
the send. -/
def Turn (g : DockNo) (u x : State) : Prop :=
  let l := lineOf g u
  let r := dockOf g u
  let now := u.sc.timebase
  (l.waiting = [] → x = { u with dlc := { u.dlc with
    exchange := some
      { dock := g, command := .poll, ack := l.lastEvent, survey := false, sentAt := now } } })
  ∧ ∀ c rest, l.waiting = c :: rest →
    let belongs :=
      match c with
      | .release _ => decide (r.state = .unlocking)
      | .relock _ _ => decide (r.state ≠ .unlocking)
      | _ => false
    x = { u with dlc := { u.dlc with
      exchange := some
        { dock := g, command := c, ack := l.lastEvent, survey := false, sentAt := now },
      docks := vset u.dlc.docks g { r with
        deadline :=
          match belongs, r.deadline with
          | true, some (.actuation _ used) => some (.actuation (some (now + 1500)) used)
          | _, deadline => deadline },
      lines := vset u.dlc.lines g { l with
        waiting := rest, tagWrites := sentWrites g c u,
        actuation :=
          match belongs, r.deadline with
          | true, some (.actuation _ _) => some c
          | _, _ => l.actuation } } }

/-- The line is granted from `u`, with no dock being surveyed (R9): to no dock while an exchange is in
progress or no dock wants a turn, otherwise to the lowest-numbered dock whose sweep is due, or, with none
due, to the lowest-numbered one that wants a turn. -/
def Granted (u x : State) : Prop :=
  let due := fun e => (lineOf e u).surveyed = true ∧ (lineOf e u).sweepDue = true
  let wants := fun e => due e ∨ (lineOf e u).surveyed = true
    ∧ ((lineOf e u).serviceRequest = true ∨ (lineOf e u).waiting ≠ [])
  (u.dlc.exchange ≠ none ∨ (∀ e, ¬wants e) → x = u)
  ∧ ∀ g, u.dlc.exchange = none →
    (due g ∧ ∀ e < g, ¬due e) ∨ ((∀ e, ¬due e) ∧ wants g ∧ ∀ e < g, ¬wants e) → Turn g u x

/-! ### Properties of every step -/

/-- A port has an event notice set or a condition notice pending, of the kinds in its row of R201. -/
def Noticed (p : Port) (s : State) : Prop :=
  let e := (getPort p s).events
  let oldest := (s.rq.held.head?.map Report.seq).getD s.rq.nextSeq
  match p with
  | .terminal => e.stationChanged = true ∨ e.restarted = true
  | .uplink =>
    e.linkDown = true ∨ e.faultAlert = true ∨ e.watchHit = true ∨ e.restarted = true
      ∨ (∃ f ∈ s.cc.fills, f.fetched = false)
      ∨ (s.rq.readMark + 4294967296 - oldest % 4294967296) % 4294967296 < s.rq.held.length
      ∨ s.flt.log ≠ [] ∨ s.rs.capture.locked = true
  | .service =>
    e.orderEnded = true ∨ e.faultAlert = true ∨ e.watchHit = true ∨ e.restarted = true
      ∨ s.flt.log ≠ []

/-- Every attention line is asserted exactly while the part runs, from the beginning of its survey on and
not HALTED, and the line's port has a finished reply or a notice (R200). -/
def AttentionRight (s : State) : Prop :=
  ∀ p, (getPort p s).attention = true ↔
    s.sc.power = .running ∧ ((getPort p s).finished ≠ [] ∨ Noticed p s)

/-- Every counted claim is the one that R111's table gives its dock's record, by state, suspension, bike and
probe, and the claim total is the sum of the 48. -/
def ClaimsRight (s : State) : Prop :=
  (∀ d,
    let r := dockOf d s
    let claim := vget s.rq.claims d
    (r.state = .vacant → claim = if r.suspended then 0 else 1)
    ∧ (r.state = .docked → claim = 0)
    ∧ (r.state = .unlocking ∨ r.state = .offered ∨ r.state = .relocking →
        claim = if r.suspended then 1 else 2)
    ∧ (r.state = .jammed → claim = if r.bike = none then 0 else 1)
    ∧ (r.state = .absent → claim = 0)
    ∧ (r.state = .parked →
        ((∀ expiry used, r.deadline ≠ some (.actuation expiry used)) → claim = 0)
        ∧ ∀ expiry used, r.deadline = some (.actuation expiry used) → claim = 1))
  ∧ s.rq.claimTotal = s.rq.claims.toList.sum

/-- The held report records and the claim total come to at most 96 (R112). -/
def ClaimsFit (s : State) : Prop := s.rq.held.length + s.rq.claimTotal ≤ 96

/-- The survey of a cold start is not over: a dock is being surveyed, or one has yet to be. -/
def ColdSurvey (s : State) : Prop :=
  s.sc.startKind = .cold ∧ (s.dlc.survey ≠ none ∨ ∃ d, (lineOf d s).surveyed = false)

/-- No set of the card cache holds more entries than it has ways (R43). -/
def WaysRight (s : State) : Prop := ∀ i, (vget s.cc.sets i).length ≤ 4

/-- The retained array is in its canonical form, and so is the list of its words in error. -/
def ArrayRight (s : State) : Prop := arrayWf s.rs.array = true ∧ assocSorted s.rs.errors = true

/-! ### Runs in a ring -/

/-- `run` ends in place `n` of a ring of `m`: its records stand in consecutive places, each may stand
after the one before it, the next place holds none that may stand after its newest, and it goes back as
far as it can (R122, R176). -/
def RingRun {α : Type} (m : Nat) (get : Nat → Option α) (follows : α → α → Prop) (n : Nat)
    (run : List α) : Prop :=
  n < m ∧ 0 < run.length ∧ run.length ≤ m
  ∧ (∀ k < run.length, get ((n + m - k) % m) = run[run.length - 1 - k]?)
  ∧ (∀ k, ∀ a ∈ run[k]?, ∀ b ∈ run[k + 1]?, follows a b)
  ∧ (∀ a ∈ run.getLast?, ∀ b ∈ get ((n + 1) % m), ¬follows a b)
  ∧ (run.length < m → ∀ a ∈ get ((n + m - run.length) % m), ∀ b ∈ run.head?, ¬follows a b)

/-- The run a rebuild takes: the longest, and the one at the lowest place among equals. -/
def RebuiltRun {α : Type} (m : Nat) (get : Nat → Option α) (follows : α → α → Prop) (n : Nat)
    (run : List α) : Prop :=
  RingRun m get follows n run ∧ ∀ i other, RingRun m get follows i other →
    other.length < run.length ∨ (other.length = run.length ∧ n ≤ i)

end Sys2Proof.Machine
end

