-- ==== Sys2Proof/Certificates/Slice0/Obligations.lean ====
section
/-! DEFINITION. The statements for the provers. Each says what a command's step, or an operation of the
part, gives: the reply and the ports, the records handed to the store, and every other block whole. -/

open Sys2Proof Sys2Proof.Machine

/-! ### The queue of commands -/

/-- The command at the front of the queue acts on the state with the queue's rest, and on an empty queue
the part idles. The idling is the model's choice (assumption 1). -/
def Obligations.StepTakesTheFront : Prop :=
  (∀ c rest s, s.pending = c :: rest → step s = exec c { s with pending := rest })
  ∧ ∀ s, s.pending = [] → step s = .next s

/-! ### Ports (chapter 11) -/

/-- A request that fails one of checks 1 and 3 to 6 of R197 is answered with the code of the first it
fails and is not taken: nothing else of the part changes. READ, NOTICE_READ and PORT_CLEAR take no slot:
they fail check 1 with POWER_FAIL and check 4, a tag above 15, with BAD_FORM (R197, R198). A raw frame is
refused in the same way: BAD_FORM for a length byte above 120, judged at once; BAD_CHECK, with tag and
kind 0, for a check word that does not match; NOT_ON_PORT for a kind byte outside the catalogue or of a
kind the port does not serve; and POWER_FAIL before all of these while the part does not serve its ports
(R196, R204; what the values of a CARD_INVALIDATE and of a crew id must be is the model's choice, assumption
54). -/
def Obligations.RefusedRequestsChangeNothing : Prop :=
  (∀ c p k tag form s code, slotRequestOf c = some (p, k, tag, form) → powered s = true →
    Refuses p k tag form s code →
    ∃ t, exec c s = .next t ∧ Answered p (answerFor code tag (kindCode k) .nothing) s t ∧ RestKept s t)
  ∧ (∀ c p k tag s code, plainRequestOf c = some (p, k, tag) → powered s = true →
    (running s = false ∧ code = .powerFail) ∨ (running s = true ∧ 15 < tag ∧ code = .badForm) →
    ∃ t, exec c s = .next t ∧ Answered p (answerFor code tag (kindCode k) .nothing) s t ∧ RestKept s t)
  ∧ ∀ p (tag kind len : Byte) body (c0 c1 : Byte) s, powered s = true →
    let frame := tag :: kind :: len :: (body ++ [c0, c1])
    let matching := [c0, c1] = leBytes 2 (checkWord (tag :: kind :: len :: body)).toNat
    let refused := fun code tag kind =>
      ∃ t, exec (.frameRefused p frame) s = .next t
        ∧ Answered p (answerFor code tag kind .nothing) s t ∧ RestKept s t
    (running s = false → (120 < len.toNat ∨ body.length = len.toNat) →
      refused .powerFail tag.toNat kind.toNat)
    ∧ (running s = true → 120 < len.toNat → refused .badForm tag.toNat kind.toNat)
    ∧ (running s = true → len.toNat ≤ 120 → body.length = len.toNat →
        (¬matching → refused .badCheck 0 0)
        ∧ (matching → kindOf kind.toNat = none → refused .notOnPort tag.toNat kind.toNat)
        ∧ ∀ k, matching → kindOf kind.toNat = some k → served k p = false →
            refused .notOnPort tag.toNat kind.toNat)

/-- READ is answered with the oldest finished reply, or none, and READ with repeat with the last-read
copy, or none; the taking frees nothing. When a READ's answer has been clocked out, its reply leaves the
finished list, its slot becomes FREE and it is the last-read copy; a HIRE's hire record goes with its
slot. An answer with no reply, and one of READ with repeat, frees nothing (R199, R65). -/
def Obligations.RepliesAreReadThenFreed : Prop :=
  (∀ p tag s, running s = true → tag ≤ 15 →
     (∃ t, exec (.read p tag) s = .next t
       ∧ Answered p (answerFor .accepted tag 1 (.reply (getPort p s).finished.head? false)) s t
       ∧ RestKept s t)
     ∧ ∃ t, exec (.readRepeat p tag) s = .next t
       ∧ Answered p (answerFor .accepted tag 1 (.reply (getPort p s).lastRead true)) s t
       ∧ RestKept s t)
  ∧ ∀ p s a, running s = true → (getPort p s).answer = some a → a.complete = false →
      (∀ r rest, a.content = .reply (some r) false → (getPort p s).finished = r :: rest →
        ∃ t, exec (.readAnswerComplete p) s = .next t
          ∧ getPort p t =
            { getPort p s with
              finished := rest, lastRead := some r, answer := some { a with complete := true },
              attention := (getPort p t).attention }
          ∧ OtherPorts p s t
          ∧ StoreKept s t
          ∧ t = { s with
              pi := t.pi, rs := t.rs,
              hu := if p = .terminal ∧ r.kind = .hire then s.hu.filter (fun h => h.tag ≠ r.tag)
                else s.hu })
      ∧ ∀ c, (a.content = .reply none false ∨ a.content = .reply c true) →
        ∃ t, exec (.readAnswerComplete p) s = .next t
          ∧ getPort p t =
            { getPort p s with
              answer := some { a with complete := true }, attention := (getPort p t).attention }
          ∧ OtherPorts p s t ∧ RestKept s t

/-- NOTICE_READ reports every notice of the port's row of R201, event notices first, in two bytes, bit 0
first; the taking clears none, and the event notices reported are remembered for the end of the answer.
When its answer has been clocked out, the event notices it reported are cleared, but for those set again
since, which are no longer among the reported (R201, R204). -/
def Obligations.NoticesAreReportedThenCleared : Prop :=
  (∀ p tag s, running s = true → tag ≤ 15 →
     let e := (getPort p s).events
     let row : List Bool :=
       match p with
       | .terminal => [e.stationChanged, e.restarted]
       | .uplink =>
         [e.linkDown, e.faultAlert, e.watchHit, e.restarted, s.cc.fills.any (fun f => !f.fetched),
          decide (0 < unreadCount s), decide (s.flt.log ≠ []), s.rs.capture.locked]
       | .service => [e.orderEnded, e.faultAlert, e.watchHit, e.restarted, decide (s.flt.log ≠ [])]
     ∃ t b, exec (.noticeRead p tag) s = .next t
       ∧ getPort p t =
         { getPort p s with
           answer := some (answerFor .accepted tag 2 (.notices [b, 0#8])), reported := e,
           attention := (getPort p t).attention }
       ∧ (∀ i, b.getLsbD i = (row[i]?).getD false)
       ∧ OtherPorts p s t ∧ RestKept s t)
  ∧ ∀ p s a b, running s = true → (getPort p s).answer = some a → a.complete = false →
      a.content = .notices b →
      let e := (getPort p s).events
      let r := (getPort p s).reported
      ∃ t, exec (.noticeAnswerComplete p) s = .next t
        ∧ getPort p t =
          { getPort p s with
            events :=
              { stationChanged := e.stationChanged && !r.stationChanged,
                linkDown := e.linkDown && !r.linkDown, orderEnded := e.orderEnded && !r.orderEnded,
                faultAlert := e.faultAlert && !r.faultAlert, watchHit := e.watchHit && !r.watchHit,
                restarted := e.restarted && !r.restarted },
            reported := .clear, answer := some { a with complete := true },
            attention := (getPort p t).attention }
        ∧ OtherPorts p s t ∧ RestKept s t

/-- PORT_CLEAR withdraws every slot of its port and clears its event notices, and its answer carries the
number withdrawn. On the Uplink port every fetched fill waits again and the read mark goes back to the
oldest held record; on the Terminal port every hire record is removed, and of each in AUTH_WAIT the fill's
waiter and, on a dock that is still DOCKED, the holder are withdrawn, with no reply; on the Service port
nothing else changes (R202, R54, R119, R88). -/
def Obligations.PortClearWithdraws : Prop :=
  ∀ p tag s, running s = true → tag ≤ 15 →
    let cleared := fun t =>
      getPort p t =
          { unfinished := [], finished := [], lastRead := none, events := .clear, reported := .clear,
            answer := some (answerFor .accepted tag 3
              (.withdrawn ((getPort p s).unfinished.length + (getPort p s).finished.length))),
            attention := (getPort p t).attention }
        ∧ OtherPorts p s t
    (p = .service → ∃ t, exec (.portClear p tag) s = .next t ∧ cleared t ∧ RestKept s t)
    ∧ (p = .terminal → ClaimsRight s →
        ∃ t, exec (.portClear p tag) s = .next t ∧ cleared t ∧ StoreKept s t
          ∧ t = { s with
              pi := t.pi, rs := t.rs, hu := [], cc := { s.cc with fills := withoutWaiters s },
              dlc := { s.dlc with docks := t.dlc.docks } }
          ∧ ∀ d, dockOf d t = withoutWaitingHolder d s)
    ∧ (p = .uplink → Clean s →
        ∃ t, exec (.portClear p tag) s = .next t ∧ cleared t
          ∧ (if s.rq.readMark = oldestSeq s then StoreKept s t
              else t.rs = stepHands (bothCopies .queueHead
                (.queueHead { queueHeadOf s with readMark := oldestSeq s })) s.rs)
          ∧ t = { s with
              pi := t.pi, rs := t.rs,
              cc := { s.cc with fills := s.cc.fills.map fun f => { f with fetched := false } },
              rq := { s.rq with readMark := oldestSeq s } })

/-- In every step each attention line is asserted exactly while the part runs, from the beginning of its
survey on and not HALTED, and its port has a finished reply, an event notice set or a condition notice
pending, of the kinds of R201's row (R200). The premise is needed for the step with no command waiting,
which changes nothing (assumption 1). -/
def Obligations.AttentionEveryStep : Prop :=
  ∀ s t, AttentionRight s → step s = .next t → AttentionRight t

/-! ### Station Control (chapter 10) -/

/-- Each second the clock count rises by 1, up to 4,294,967,295, where it holds; nothing else changes. It
stands still where the battery domain is without supply, which is the model's reading (assumption 34).
TIME_SET puts the clock count and makes it valid, STATION_ID_SET puts the station id; each hands the
station record and answers with what was held before (R184 to R186). -/
def Obligations.ClockCountsAndIsSet : Prop :=
  (∀ s, ∃ t, exec .clockTick s = .next t ∧ PortsKept s t ∧ StoreKept s t
     ∧ t = { s with
         pi := t.pi, rs := t.rs,
         sc := { s.sc with
           clock :=
             if s.rs.supplyLost = true ∧ s.sc.power = .off then s.sc.clock
             else if s.sc.clock < 4294967295 then s.sc.clock + 1 else 4294967295 } })
  ∧ ∀ tag s,
      (∀ time, Accepts .uplink .timeSet tag s → 0 < time → time ≤ 4294967295 →
        let station := { s.sc.station with clockValid := true }
        ∃ t, exec (.timeSet tag time) s = .next t
          ∧ Replied .uplink .timeSet tag .done (.clockWas s.sc.clock s.sc.station.clockValid) s t
          ∧ t.rs = stepHands (bothCopies .station (.station station)) s.rs
          ∧ t = { s with
              pi := t.pi, rs := t.rs, sc := { s.sc with clock := time, station := station } })
      ∧ ∀ id, Accepts .uplink .stationIdSet tag s → 0 < id → id ≤ 65535 →
        let station := { s.sc.station with id := id }
        ∃ t, exec (.stationIdSet tag id) s = .next t
          ∧ Replied .uplink .stationIdSet tag .done (.count s.sc.station.id) s t
          ∧ t.rs = stepHands (bothCopies .station (.station station)) s.rs
          ∧ t = { s with pi := t.pi, rs := t.rs, sc := { s.sc with station := station } }

/-- STATION_MODE on a port that may set it: during STARTING it puts the target alone; the mode already
held changes nothing; otherwise it puts mode and target. A change to MAINTENANCE ends every hire in
AUTH_WAIT: its waiter and its holder are withdrawn, its record is ENDED and its reply NOT_IN_SERVICE joins
the Terminal finished list; that several such replies join it in the order of the records is the model's
choice (assumption 15). On the Service port without the permission it is answered NOT_PERMITTED and
nothing changes (R187, R87). -/
def Obligations.StationModeIsPut : Prop :=
  ∀ p tag mode crew s, Accepts p .stationMode tag s → mode ≠ .starting → Clean s →
    let permitted :=
      p = .uplink ∨ (s.sc.config.serviceMaySetMode = true
        ∧ ∃ c, crewOf crew s = some c ∧ c.level = 0)
    let station := { s.sc.station with target := mode }
    let handed := fun (t : State) => t.rs = stepHands (bothCopies .station (.station station)) s.rs
    let done := Replied p .stationMode tag .done (.modeWas s.sc.mode) s
    (¬permitted → ∃ t, exec (.stationMode p tag mode crew) s = .next t
      ∧ Replied p .stationMode tag .notPermitted .empty s t ∧ StoreKept s t
      ∧ t = { s with pi := t.pi, rs := t.rs })
    ∧ (permitted → s.sc.mode = .starting → ∃ t, exec (.stationMode p tag mode crew) s = .next t
      ∧ done t ∧ handed t
      ∧ t = { s with pi := t.pi, rs := t.rs, sc := { s.sc with station := station } })
    ∧ (permitted → s.sc.mode = mode → ∃ t, exec (.stationMode p tag mode crew) s = .next t
      ∧ done t ∧ StoreKept s t ∧ t = { s with pi := t.pi, rs := t.rs })
    ∧ (permitted → s.sc.mode ≠ .starting → s.sc.mode ≠ mode →
      (mode = .maintenance → ∀ h ∈ s.hu, h.state ≠ .authWait) →
      ∃ t, exec (.stationMode p tag mode crew) s = .next t ∧ done t ∧ handed t
        ∧ t = { s with pi := t.pi, rs := t.rs, sc := { s.sc with station := station, mode := mode } })
    ∧ (permitted → p ≠ .terminal → s.sc.mode = .inService → mode = .maintenance → ClaimsRight s →
      let ended := s.hu.filter fun h => decide (h.state = .authWait)
      ∃ t, exec (.stationMode p tag mode crew) s = .next t ∧ handed t
        ∧ getPort p t =
          { getPort p s with
            finished := (getPort p s).finished ++
              [{ tag := tag, kind := .stationMode, outcome := .done, body := .modeWas .inService }],
            answer := some (answerFor .accepted tag (kindCode .stationMode) .nothing),
            reported := .clear, attention := (getPort p t).attention }
        ∧ getPort .terminal t =
          { getPort .terminal s with
            unfinished := (getPort .terminal s).unfinished.filter fun u =>
              ended.all fun h => decide (u.1 ≠ h.tag),
            finished := (getPort .terminal s).finished ++ ended.map fun h =>
              { tag := h.tag, kind := .hire, outcome := .notInService, body := .empty },
            attention := (getPort .terminal t).attention }
        ∧ (∀ q, q ≠ p → q ≠ .terminal →
          getPort q t = { getPort q s with attention := (getPort q t).attention })
        ∧ t = { s with
            pi := t.pi, rs := t.rs, sc := { s.sc with station := station, mode := mode },
            hu := s.hu.map fun x =>
              if ended.any fun h => decide (h.tag = x.tag) then { x with state := .ended } else x,
            cc := { s.cc with fills := withoutWaiters s },
            dlc := { s.dlc with docks := t.dlc.docks } }
        ∧ ∀ d, dockOf d t = withoutWaitingHolder d s)

/-- CONFIG_SET keeps a number within its item's range, and a yes or no as given; the item takes it, it
is handed to the store, and the reply has the value kept, the value before and whether it was limited.
CONFIG_READ answers with the nine values and changes nothing (R188). STATION_STATUS answers with the
modes, the id, whether the station is commissioned, the clock and its validity, the link state, the trip
counter, the last start's kind and reason and, in STARTING, the number of docks surveyed; it changes
nothing (R189). -/
def Obligations.ConfigurationAndStatusAreKept : Prop :=
  (∀ tag s item, Accepts .uplink .configSet tag s → Clean s →
    let range : Option (Int × Int) :=
      match item with
      | .takeWindow => some (10, 90)
      | .fillTimeout => some (2, 30)
      | .maximumAge => some (1, 1440)
      | .offlineUnknownAllowed => none
      | .offlineQuota => some (0, 32)
      | .defaultOfflinePlan => some (0, 15)
      | .grace => some (0, 300)
      | .buttonWindow => some (30, 300)
      | .serviceMaySetMode => none
    let takes := fun value kept clamped =>
      ∃ t config, exec (.configSet tag item value) s = .next t
        ∧ Replied .uplink .configSet tag .done
            (.configSet kept (configValue s.sc.config item) clamped) s t
        ∧ configValue config item = kept
        ∧ (∀ other, other ≠ item → configValue config other = configValue s.sc.config other)
        ∧ t.rs = stepHands [(.config item, .config kept)] s.rs
        ∧ t = { s with pi := t.pi, rs := t.rs, sc := { s.sc with config := config } }
    (∀ b, range = none → takes (.yesNo b) (.yesNo b) false)
    ∧ ∀ lo hi n, range = some (lo, hi) →
      (n < lo → takes (.num n) (.num lo) true)
      ∧ (lo ≤ n → n ≤ hi → takes (.num n) (.num n) false)
      ∧ (hi < n → takes (.num n) (.num hi) true))
  ∧ (∀ p tag s, Accepts p .configRead tag s → Clean s →
    ∃ t, exec (.configRead p tag) s = .next t
      ∧ Replied p .configRead tag .done (.config s.sc.config) s t ∧ StoreKept s t
      ∧ t = { s with pi := t.pi, rs := t.rs })
  ∧ ∀ p tag s, Accepts p .stationStatus tag s →
    ∃ t, exec (.stationStatus p tag) s = .next t
      ∧ Replied p .stationStatus tag .done
          (.status
            { mode := s.sc.mode, target := s.sc.station.target, id := s.sc.station.id,
              commissioned := decide (s.sc.station.id ≠ 0 ∧ s.sc.station.clockValid = true),
              clock := s.sc.clock, clockValid := s.sc.station.clockValid, linkUp := s.sc.linkUp,
              trip := s.sc.station.trip, startKind := s.sc.startKind,
              startReason := s.sc.startReason,
              surveyed :=
                if s.sc.mode = .starting then some (allDocks.countP fun d => (lineOf d s).surveyed)
                else none }) s t
      ∧ StoreKept s t ∧ t = { s with pi := t.pi, rs := t.rs }

/-- RESET with main power present, STATION_RESTART, and main power returning to a part without it or
HALTED stop the part with the cause recorded: the dock line stands still, and nothing else changes. A
cause that comes before the start begins leaves the first one standing (R182, R190). -/
def Obligations.CausesStopThePart : Prop :=
  (∀ s, s.sc.power ≠ .off → s.sc.power ≠ .stopped →
    ∃ t, exec .reset s = .next t ∧ PortsKept s t ∧ StoreKept s t
      ∧ t = { s with
          pi := t.pi, rs := t.rs, dlc := { s.dlc with exchange := none },
          sc := { s.sc with power := .stopped, cause := some .resetLine, resetLine := true } })
  ∧ (∀ s, s.sc.power = .stopped →
    ∃ t, exec .reset s = .next t ∧ PortsKept s t ∧ StoreKept s t
      ∧ t = { s with pi := t.pi, rs := t.rs, sc := { s.sc with resetLine := true } })
  ∧ (∀ s, s.sc.power = .off ∨ s.sc.power = .halted →
    ∃ t, exec .mainPowerReturn s = .next t ∧ PortsKept s t ∧ StoreKept s t
      ∧ t = { s with
          pi := t.pi, rs := t.rs, dlc := { s.dlc with exchange := none },
          sc := { s.sc with power := .stopped, cause := some .powerReturn } })
  ∧ ∀ tag s, Accepts .uplink .stationRestart tag s →
    (∃ t, exec (.stationRestartWarm tag) s = .next t ∧ Taken .uplink .stationRestart tag s t
      ∧ StoreKept s t
      ∧ t = { s with
          pi := t.pi, rs := t.rs, dlc := { s.dlc with exchange := none },
          sc := { s.sc with power := .stopped, cause := some .restartWarm } })
    ∧ ∃ t, exec (.stationRestartCold tag) s = .next t ∧ Taken .uplink .stationRestart tag s t
      ∧ StoreKept s t
      ∧ t = { s with
          pi := t.pi, rs := t.rs, dlc := { s.dlc with exchange := none },
          sc := { s.sc with power := .stopped, cause := some .restartCold } }

/-! ### The Retained Store (chapter 9) -/

/-- A record handed is what a read returns until it is written, in the one entry its place has in the write
list, and no other record reads otherwise. While the part has main power and is not HALTED, the oldest
record of the write list is written whole: each of its words is a word of it and reads clean, and it leaves
the list. No other word changes. While HALTED or without main power nothing is written (R172, R182). -/
def Obligations.RecordsAreHandedAndWritten : Prop :=
  (∀ p c s, readContent p (hand p c s) = c ∧ readable p (hand p c s) = some c
      ∧ (∀ q, q ≠ p → readContent q (hand p c s) = readContent q s)
      ∧ (hand p c s).rs.writeList.countP (fun e => e.place = p)
          = max 1 (s.rs.writeList.countP (fun e => e.place = p)))
  ∧ (∀ s e rest, s.sc.power ≠ .off → s.sc.power ≠ .halted → s.rs.writeList = e :: rest →
    ArrayRight s →
    ∃ t, exec .recordWriteDone s = .next t ∧ PortsKept s t
      ∧ (∀ p, cellOf p t =
          if p = e.place then List.replicate (placeWords p) e.content else cellOf p s)
      ∧ (∀ w, errorAt w t = if w ∈ placeAddresses e.place then none else errorAt w s)
      ∧ t = { s with
          pi := t.pi,
          rs := { s.rs with
            array := t.rs.array, errors := t.rs.errors, writeList := rest, stepNo := t.rs.stepNo } })
  ∧ ∀ s, s.sc.power = .off ∨ s.sc.power = .halted →
    ∃ t, exec .recordWriteDone s = .next t ∧ PortsKept s t ∧ RestKept s t

/-- PWRFAIL ends the write of the oldest record after the words written: the rest of its words keep
what they held, but for the commit word, which reads a double-bit error. When that record is a head, the
records handed with it for places it newly names have their commit words forced too. The list is
discarded and the part is HALTED, with its attention lines released and the dock line idle. A write-back
of a corrected word that has not been made is abandoned: the word keeps its single-bit error, or reads
clean where it was made, which is open (R173, R181, R182; assumption 36).
That the records of one step and the places a head names are told by the entry's step and the words the
array held is the model's reading (assumption 26). -/
def Obligations.PowerFailureCutsTheWrite : Prop :=
  ∀ s written, s.sc.power ≠ .off → s.sc.power ≠ .halted → ArrayRight s →
    ∃ t, exec (.pwrfail written) s = .next t
      ∧ (∀ q, getPort q t = { getPort q s with attention := false })
      ∧ t = { s with
          pi := t.pi,
          rs := { s.rs with
            array := t.rs.array, errors := t.rs.errors, writeList := [], stepNo := t.rs.stepNo },
          dlc := { s.dlc with exchange := none },
          sc := { s.sc with power := .halted, cause := none, resetLine := false } }
      ∧ (s.rs.writeList = [] → t.rs.array = s.rs.array ∧ ∀ w, Abandoned (errorAt w s) (errorAt w t))
      ∧ ∀ e rest, s.rs.writeList = e :: rest →
        let n := min written (placeWords e.place - 1)
        let commit := fun p => placeBase p + placeWords p - 1
        let forced := fun p => p = e.place
          ∨ ∃ x ∈ rest, x.place = p ∧ x.handed = e.handed ∧ p ∈ headNames e.content
              ∧ p ∉ headNames (wordsContent e.place (cellOf e.place s))
        (∀ p, cellOf p t =
          if p = e.place then List.replicate n e.content ++ (cellOf p s).drop n else cellOf p s)
        ∧ (∀ p, forced p → errorAt (commit p) t = some .double)
        ∧ ∀ w, (∀ p, forced p → w ≠ commit p) →
          Abandoned (if w ∈ (placeAddresses e.place).take n then none else errorAt w s) (errorAt w t)

/-- Main power lost with no PWRFAIL before it leaves the record then being written at some number of its
words, and the rest of the list is lost; the part is off. The number is open (note of section 9.8,
assumption 24), and so is what an abandoned write-back leaves (R173, assumption 36). Battery supply lost
while main power is absent sets the supply-loss indication, and the array and the clock are gone (R183,
R184; what then stands in them is the model's choice, assumption 28); with main power present it changes
nothing. -/
def Obligations.SupplyLosses : Prop :=
  (∀ s, ArrayRight s →
    ∃ t, exec .mainPowerLoss s = .next t ∧ PortsKept s t
      ∧ t = { s with
          pi := t.pi,
          rs := { s.rs with
            array := t.rs.array, errors := t.rs.errors, writeList := [], stepNo := t.rs.stepNo },
          dlc := { s.dlc with exchange := none },
          sc := { s.sc with power := .off, cause := none, resetLine := false } }
      ∧ (s.rs.writeList = [] → t.rs.array = s.rs.array ∧ ∀ w, Abandoned (errorAt w s) (errorAt w t))
      ∧ ∀ e rest, s.rs.writeList = e :: rest → ∃ n, n ≤ placeWords e.place
        ∧ (∀ p, cellOf p t =
          if p = e.place then List.replicate n e.content ++ (cellOf p s).drop n else cellOf p s)
        ∧ ∀ w, Abandoned (if w ∈ (placeAddresses e.place).take n then none else errorAt w s)
            (errorAt w t))
  ∧ (∀ s, s.sc.power = .off →
    ∃ t, exec .batterySupplyLoss s = .next t ∧ PortsKept s t
      ∧ t = { s with
          pi := t.pi,
          rs := { s.rs with
            supplyLost := true, array := t.rs.array, errors := [], stepNo := t.rs.stepNo },
          sc := { s.sc with clock := 0 } }
      ∧ cellOf .signature t = [.signature false]
      ∧ ∀ p, p ≠ .signature → cellOf p t = coldCell p)
  ∧ ∀ s, s.sc.power ≠ .off →
    ∃ t, exec .batterySupplyLoss s = .next t ∧ PortsKept s t ∧ RestKept s t

/-- STORE_STATUS answers with the capture, the 64 weak marks and the number of entries in the write list,
and changes nothing. STORE_CLEAR sets locked and second to no, with clear map every weak mark too, and
answers DONE with the capture as it stood; STORE_ERROR stops being pending (R179). -/
def Obligations.StoreStatusAndClear : Prop :=
  ∀ tag s,
    (Accepts .uplink .storeStatus tag s →
      ∃ t, exec (.storeStatus tag) s = .next t
        ∧ Replied .uplink .storeStatus tag .done
            (.storeStatus s.rs.capture s.rs.weakRows.toList s.rs.writeList.length) s t
        ∧ StoreKept s t ∧ t = { s with pi := t.pi, rs := t.rs })
    ∧ ∀ clearMap, Accepts .uplink .storeClear tag s →
      ∃ t, exec (.storeClear tag clearMap) s = .next t
        ∧ Replied .uplink .storeClear tag .done (.capture s.rs.capture) s t
        ∧ t = { s with
            pi := t.pi,
            rs := { s.rs with
              capture := { s.rs.capture with locked := false, second := false },
              weakRows := t.rs.weakRows, stepNo := t.rs.stepNo } }
        ∧ (∀ r, vget t.rs.weakRows r = if clearMap then false else vget s.rs.weakRows r)
        ∧ storeError t = false

/-- A single-bit error found is corrected, with its write-back to be made before the next read of the word,
and marks its row; in a row already marked it raises STORE_WEAK_ROW with the row as detail, and the mark
stays. A double-bit error locks an unlocked capture with its collection (none for a free word), row and
word; a locked one takes second and keeps the captured fields. The scrub reads its row and goes on to the
next, after row 63 to row 0: a row that reads clean, with sequences that agree, is left as it is, and a
bit that flipped is found when its row's turn comes (R173, R174, R178, R180; that flips come as the
command's operands is the model's choice, assumption 21). -/
def Obligations.ErrorsFoundAreMarkedOrCaptured : Prop :=
  (∀ s (r word : Fin 64), ArrayRight s →
     let w := 64 * r.val + word.val
     let corrected := s.setRs { s.rs with errors := assocPut w .corrected s.rs.errors }
     errorAt w corrected = some .corrected
       ∧ (∀ v, v ≠ w → errorAt v corrected = errorAt v s)
       ∧ (errorAt w s = some .corrected → errorAt w (soundWord raise s w) = none
          ∧ ∀ v, v ≠ w → errorAt v (soundWord raise s w) = errorAt v s)
       ∧ (errorAt w s = some .single → vget s.rs.weakRows r = false →
         soundWord raise s w
           = corrected.setRs { corrected.rs with weakRows := vset s.rs.weakRows r true })
       ∧ (errorAt w s = some .single → vget s.rs.weakRows r = true →
         soundWord raise s w
           = raise { kind := .storeWeakRow, dock := none, bike := none, detail := .storeWeakRow r.val }
               corrected))
  ∧ (∀ s c (r word : Fin 64), ∃ k, captureError c (64 * r.val + word.val) s
        = s.setRs { s.rs with capture := k }
      ∧ storeError (s.setRs { s.rs with capture := k }) = true
      ∧ (s.rs.capture.locked = false →
        k = { s.rs.capture with locked := true, collection := c, row := r.val, word := word.val })
      ∧ (s.rs.capture.locked = true → k = { s.rs.capture with second := true }))
  ∧ (∀ s, running s = true → Clean s → SequencesAgree s →
    ∃ t, exec (.scrubRow []) s = .next t ∧ PortsKept s t
      ∧ t = { s with
          pi := t.pi,
          rs := { s.rs with
            scrubRow := ⟨(s.rs.scrubRow.val + 1) % 64, Nat.mod_lt _ (by decide)⟩,
            stepNo := t.rs.stepNo } })
  ∧ ∀ s word, running s = true → Clean s → SequencesAgree s → word < 64 →
    vget s.rs.weakRows s.rs.scrubRow = false →
    (∀ p ∈ rowPlaces s.rs.scrubRow, inWriteList p s = false) →
    ∃ t, exec (.scrubRow [{ row := s.rs.scrubRow.val, word := word, error := .single }]) s = .next t
      ∧ PortsKept s t
      ∧ t = { s with
          pi := t.pi,
          rs := { s.rs with
            errors := [(64 * s.rs.scrubRow.val + word, .corrected)],
            scrubRow := ⟨(s.rs.scrubRow.val + 1) % 64, Nat.mod_lt _ (by decide)⟩,
            weakRows := vset s.rs.weakRows s.rs.scrubRow true, stepNo := t.rs.stepNo } }

/-- What a double-bit error does to the record it is found in, besides the capture: a configuration value,
a policy or a floor becomes its default; a plan undefined; a crew place empty; the signature is rewritten;
a dock record makes the dock's survey reference damaged at a start, and is rewritten from the DLC's record
while running; a held report keeps its place, its sequence and the kind that can be read; a logged fault
record and a registry entry are removed, and the later ones close up, the lost flag of the fault's class
set, or all three; and each of these hands its new content and, but for the fault record, raises
STORE_DAMAGED. The head that a removal changes is read first, and a damaged copy A of it repaired. A held
report whose sequence disagrees at its commit word is damaged too, with kind UNKNOWN and the capture
unchanged, and a logged fault record whose sequence fails its test there is removed with all three lost
flags. One damaged copy of a two-copy record is rewritten from the other; with both damaged the record is
rebuilt, with the sequences that the records' own words give, both copies are handed, the words read are
corrected, a double-bit error in a place left free is one in a free word, and STORE_DAMAGED is raised. A
double-bit error in a free word sets it to zero (R121, R122, R158, R163, R171, R173, R175, R176, R177; here
the later records that close up read clean). The model's choices are that the head is read and repaired
before a removal and the record judged again by it (assumption 18), that a record that reads clean takes its
sequence, and a fault its class, from its first word (assumption 24), the words and rows STORE_DAMAGED names
in two cases, the order of the corrections, and the oldest place of an empty queue (assumptions 22, 23, 44);
what a word never written tells of a kind or class is its reading (assumption 30). -/
def Obligations.DamagedRecordsTakeTheirForm : Prop :=
  ∀ raised (s : State) p w, w ∈ placeAddresses p → inWriteList p s = false →
    let x := captureError (some (placeCollection p)) w s
    let found := fun y => raised
      { kind := .storeDamaged, dock := none, bike := none,
        detail := .storeDamaged (placeCollection p) (w / 64) (w % 64) } y
    let reads := fun y => readWord raised (some p) w s = y
    let hands := fun l (y : State) => { y with rs := handAll l y.rs }
    let clean := fun q => inWriteList q s = true ∨ ∀ v ∈ placeAddresses q, errorAt v s = none
    let wordOk := fun q k => errorAt (placeBase q + k) s ≠ some .double
    (errorAt w s = some .double →
      (∀ i, p = .config i →
        reads (found (hands [(p, .config (configValue .default i))]
          { x with sc := { x.sc with
            config := setConfigValue x.sc.config i (configValue .default i) } })))
      ∧ (∀ k, p = .policy k →
        let default := vget defaultPolicies (faultIndex k)
        reads (found (hands [(p, .policy default)]
          { x with flt := { x.flt with policies := vset x.flt.policies (faultIndex k) default } })))
      ∧ (∀ k, p = .floor k →
        let default := vget defaultFloors (orderIndex k)
        reads (found (hands [(p, .floor default)]
          { x with woe := { x.woe with floors := vset x.woe.floors (orderIndex k) default } })))
      ∧ (∀ n, p = .plan n →
        reads (found (hands [(p, .plan none)] { x with fu := vset x.fu n none })))
      ∧ (∀ n, p = .crew n →
        reads (found (hands [(p, .crew none)]
          { x with woe := { x.woe with crews := vset x.woe.crews n none } })))
      ∧ (p = .signature → reads (found (hands [(p, .signature true)] x)))
      ∧ (∀ d, p = .dock d →
        (s.sc.power = .starting →
          let l := { lineOf d s with reference := some .damaged }
          reads (found { x with dlc := { x.dlc with lines := vset x.dlc.lines d l } }))
        ∧ (s.sc.power ≠ .starting → reads (found (hands [(p, .dock (retainedOf (dockOf d s)))] x))))
      ∧ (∀ n i r, p = .report n → heldReportAt n s = some i → s.rq.held[i]? = some r →
        let seqAgrees := ∀ k, k = 0 ∨ k = 9 → wordOk p k →
          ∃ r', wordContent p k s = .report r' ∧ r'.seq = r.seq
        ∀ kind : Option ReportKind, (¬seqAgrees → kind = none) →
          (seqAgrees → ∀ k, k = 1 ∨ (k = 8 ∧ ¬wordOk p 1) → wordOk p k →
            ∃ r', wordContent p k s = .report r' ∧ kind = r'.kind) →
          (¬wordOk p 1 → ¬wordOk p 8 → kind = none) →
          let damaged := damagedReport r.seq kind
          reads (found (hands [(p, .report damaged)]
            { x with rq := { x.rq with held := x.rq.held.set i damaged } })))
      ∧ (∀ n i c o, p = .fault n → heldFaultAt n s = some i → s.flt.log.head? = some o →
        let log := s.flt.log.eraseIdx i
        let place := fun k => faultRing s.flt.oldestPlace k
        let seqOf := fun k => (log[k]?).map FaultRecord.seq
        let fits := faultWordsFit n o.seq
          (if i = 0 then none else ((s.flt.log)[i - 1]?).map FaultRecord.seq) s
        clean (.faultHead 0) →
        (∀ k, i ≤ k → k < log.length → clean (.fault (place (k + 1)))
          ∧ (inWriteList (.fault (place (k + 1))) s = true
            ∨ ∀ first, log.head? = some first →
                faultWordsFit (place (k + 1)) first.seq (if k = 0 then none else seqOf (k - 1)) s
                  = true)) →
        (∀ k, k = 0 ∨ (k = 4 ∧ ¬wordOk p 0) → fits = true → wordOk p k →
          ∃ r, wordContent p k s = .fault r ∧ c = some (faultClass r.kind)) →
        (fits = false ∨ (¬wordOk p 0 ∧ ¬wordOk p 4) → c = none) →
        let lost := match c with
          | some c => setLost c s.flt.lost
          | none => ⟨true, true, true⟩
        let head : FaultHead :=
          { nextSeq := s.flt.nextSeq, oldest := s.flt.oldestPlace, count := log.length, lost := lost }
        reads (hands
          (bothCopies .faultHead (.faultHead head)
            ++ (log.drop i).zipIdx.map fun e => (.fault (place (i + e.2)), .fault e.1))
          { x with flt := { x.flt with log := log, lost := lost } }))
      ∧ (∀ n a e b, p = .flag n → s.flt.registry = a ++ e :: b → n.val = a.length →
        s.flt.registry.length ≤ 64 → clean (.registryHead 0) →
        (∀ k < b.length, clean (.flag (flagPlace (n.val + 1 + k)))) →
        reads (found (hands
          (bothCopies .registryHead (.registryHead (a ++ b).length)
            ++ (List.range (b.length + 1)).map fun k =>
              (.flag (flagPlace (n.val + k)), .flag (a ++ b)[n.val + k]?))
          { x with flt := { x.flt with registry := a ++ b } })))
      ∧ (∀ head : Fin 2 → Place,
        (head = .faultHead ∧ (∃ n i, p = .fault n ∧ heldFaultAt n s = some i)
          ∧ readContent (head 1) s = .faultHead (faultHeadOf s))
        ∨ (head = .registryHead ∧ (∃ n, p = .flag n ∧ n.val < s.flt.registry.length)
          ∧ readContent (head 1) s = .registryHead s.flt.registry.length) →
        inWriteList (head 0) s = false → clean (head 1) →
        ∀ v ∈ placeAddresses (head 0), errorAt v s = some .double →
        (∀ u ∈ placeAddresses (head 0), u < v → errorAt u s = none) →
        reads (readWord raised (some p) w (hands [(head 0, readContent (head 1) s)]
          (captureError (some (placeCollection (head 0))) v s))))
      ∧ (∀ (head : Fin 2 → Place) v, inWriteList (head 0) s = false → clean (head 1) →
        v ∈ placeAddresses (head 0) → errorAt v s = some .double →
        (∀ u ∈ placeAddresses (head 0), u < v → errorAt u s = none) →
        let y := captureError (some (placeCollection (head 0))) v s
        (∀ n i h, p = .fault n → heldFaultAt n s = some i → head = .faultHead →
          readContent (head 1) s = .faultHead h → h ≠ faultHeadOf s →
          let z := takeFaultHead h y
          reads (readWord raised (some p) w (hands [(head 0, .faultHead (faultHeadOf z))] z)))
        ∧ ∀ n m, p = .flag n → n.val < s.flt.registry.length → head = .registryHead →
          readContent (head 1) s = .registryHead m → m ≠ s.flt.registry.length →
          let z := takeRegistryHead m y
          reads (readWord raised (some p) w
            (hands [(head 0, .registryHead z.flt.registry.length)] z)))
      ∧ (∀ (pair : Fin 2 → Place) c, p = pair c →
        (pair = .station ∨ pair = .queueHead ∨ pair = .faultHead ∨ pair = .registryHead) →
        let other := pair (1 - c)
        let content := readContent other s
        (clean other →
          (c = 1 ∨ pair = .station ∨ (pair = .queueHead ∧ content = .queueHead (queueHeadOf s))
              ∨ (pair = .faultHead ∧ content = .faultHead (faultHeadOf s))
              ∨ (pair = .registryHead ∧ content = .registryHead s.flt.registry.length) →
            reads (hands [(p, content)] x))
          ∧ (∀ h, c = 0 → content = .queueHead h → h ≠ queueHeadOf s → pair = .queueHead →
            let y := takeQueueHead h x
            reads (hands [(p, .queueHead (queueHeadOf y))] y))
          ∧ (∀ h, c = 0 → content = .faultHead h → h ≠ faultHeadOf s → pair = .faultHead →
            let y := takeFaultHead h x
            reads (hands [(p, .faultHead (faultHeadOf y))] y))
          ∧ ∀ n, c = 0 → content = .registryHead n → n ≠ s.flt.registry.length →
            pair = .registryHead →
            let y := takeRegistryHead n x
            reads (hands [(p, .registryHead y.flt.registry.length)] y))
        ∧ ∀ v, inWriteList other s = false → firstDouble other s = some v →
          let x := captureError (some (placeCollection p)) v x
          let ahead := (placeAddresses other).filter fun u => decide (u < v)
          let corrects := fun places y => ahead.foldl (soundWord raised) (rebuildReads raised places y)
          (pair = .station →
            let station := if s.sc.power = .starting then .cold else s.sc.station
            reads (found (corrects [] (hands (bothCopies .station (.station station))
              { x with sc := { x.sc with station := station } }))))
          ∧ (pair = .queueHead →
            let places := (finList 96).map Place.report
            let get := fun n => readableReport (reportPlace n) s
            let rebuilt := fun held oldest next =>
              let mark := ((held.head?).map Report.seq).getD next
              let head : QueueHead :=
                { nextSeq := next, readMark := mark, oldest := oldest, count := held.length }
              reads (found (corrects places
                (hands (bothCopies .queueHead (.queueHead head))
                  { x with rq := { x.rq with
                      held := held, oldestPlace := oldest, nextSeq := next, readMark := mark } })))
            ((∀ n < 96, get n = none) → rebuilt [] 0 1)
            ∧ ∀ n run, RebuiltRun 96 get (fun a b => b.seq = (a.seq + 1) % 4294967296) n run →
              ∀ newest ∈ run.getLast?,
                let count := min run.length (96 - s.rq.claimTotal)
                rebuilt (run.drop (run.length - count)) (reportPlace (n + 97 - count))
                  ((newest.seq + 1) % 4294967296))
          ∧ (pair = .faultHead →
            let places := (finList 32).map Place.fault
            let get := fun n => readableFault (faultPlace n) s
            let lost : LostFlags := ⟨true, true, true⟩
            let rebuilt := fun log oldest next =>
              let head : FaultHead :=
                { nextSeq := next, oldest := oldest, count := log.length, lost := lost }
              reads (found (corrects places
                (hands (bothCopies .faultHead (.faultHead head))
                  { x with flt := { x.flt with
                      log := log, oldestPlace := oldest, nextSeq := next, lost := lost } })))
            ((∀ n < 32, get n = none) → rebuilt [] 0 1)
            ∧ ∀ n run, RebuiltRun 32 get
                (fun a b => 1 ≤ (b.seq + 65536 - a.seq % 65536) % 65536
                  ∧ (b.seq + 65536 - a.seq % 65536) % 65536 ≤ 32) n run →
              ∀ newest ∈ run.getLast?,
                rebuilt run (faultPlace (n + 33 - run.length)) ((newest.seq + 1) % 65536))
          ∧ (pair = .registryHead → ∀ l : List FlagEntry, l.length ≤ 64 →
            (∀ k, ∀ e ∈ l[k]?, e.bike ≠ 0
              ∧ readable (.flag (flagPlace k)) s = some (.flag (some e))) →
            (l.length < 64 → ∀ e, readable (.flag (flagPlace l.length)) s = some (.flag (some e)) →
              e.bike = 0) →
            reads (found (corrects
              ((List.range (min 64 (l.length + 1))).map fun i => .flag (flagPlace i))
              (hands (bothCopies .registryHead (.registryHead l.length))
                { x with flt := { x.flt with registry := l } })))))
      ∧ (freePlace p s = true → ArrayRight s →
        let y := captureError none w s
        ∃ t, reads t ∧ t = { y with rs := { y.rs with errors := t.rs.errors, array := t.rs.array } }
          ∧ errorAt w t = none ∧ (∀ v, v ≠ w → errorAt v t = errorAt v s)
          ∧ ((cellOf p s).length = placeWords p →
            wordContent p (w - placeBase p) t = if ∃ n, p = .flag n then .flag none else .blank)))
    ∧ (∀ (y : State) u, inWriteList p y = false →
      (errorAt u y = some .double → freePlace p y = true →
        rebuildWord raised p y u = readWord raised (some p) u y)
      ∧ (errorAt u y ≠ some .double → rebuildWord raised p y u = soundWord raised y u))
    ∧ (∀ n r, p = .report n → firstDouble p s = none → wordContent p 0 s = .report r →
      ∃ r', readableReport n s = some r' ∧ r'.seq = r.seq)
    ∧ (∀ n r, p = .fault n → firstDouble p s = none → wordContent p 0 s = .fault r →
      ∃ r', readableFault n s = some r' ∧ r'.seq = r.seq ∧ faultClass r'.kind = faultClass r.kind)
    ∧ (∀ n i o, p = .fault n → heldFaultAt n s = some i → s.flt.log.head? = some o →
      errorAt w s = none → w = placeBase p + 4 →
      faultWordsFit n o.seq
        (if i = 0 then none else ((s.flt.log)[i - 1]?).map FaultRecord.seq) s = false →
      clean (.faultHead 0) → i + 1 = s.flt.log.length →
      let log := s.flt.log.take i
      let lost : LostFlags := ⟨true, true, true⟩
      let head : FaultHead :=
        { nextSeq := s.flt.nextSeq, oldest := s.flt.oldestPlace, count := i, lost := lost }
      reads (hands (bothCopies .faultHead (.faultHead head))
        { s with flt := { s.flt with log := log, lost := lost } }))
    ∧ ∀ n i r, p = .report n → heldReportAt n s = some i → s.rq.held[i]? = some r →
      errorAt w s = none → w = placeBase p + 9 →
      (∃ k, (k = 0 ∨ k = 9) ∧ wordOk p k
        ∧ ∀ r', wordContent p k s = .report r' → r'.seq ≠ r.seq) →
      let damaged := damagedReport r.seq none
      reads (found (hands [(p, .report damaged)]
        { s with rq := { s.rq with held := s.rq.held.set i damaged } }))

/-- In every step no set of the card cache holds more entries than its four ways (R43), and the retained
array keeps its canonical form: rising addresses, no entry for a record equal to its cold words, and the
words in error in rising order. The form is the model's (assumption 20). -/
def Obligations.CacheAndArrayEveryStep : Prop :=
  ∀ s t, step s = .next t → (WaysRight s → WaysRight t) ∧ (ArrayRight s → ArrayRight t)

/-! ### Starts and the survey (chapter 10) -/

/-- START_BEGIN on a stopped part whose write list is empty is a cold start where the signature does not
read, the supply-loss indication is set or the cause is STATION_RESTART(cold): the whole part takes its
cold start values, the signature is not yet written, and every record that a cold start clears is a cold
one, with no word in error (R183, R190, R191; that the rings of the report queue and the fault log stand at
place 0 is the model's choice, assumption 22, and so is what a cleared capture shows, assumption 49). -/
def Obligations.ColdStartsClearThePart : Prop :=
  ∀ s c upsets, s.sc.power = .stopped → s.sc.cause = some c → s.rs.writeList = [] →
    (readable .signature (flipWords upsets s) ≠ some (.signature true) ∨ s.rs.supplyLost = true
      ∨ c = .restartCold) →
    ∃ t, exec (.startBegin upsets) s = .next t
      ∧ t =
        { pending := s.pending,
          pi := { terminal := .start, uplink := .start, service := .start },
          dlc :=
            { docks := Vector.replicate 48 (DockRecord.start .empty),
              lines := Vector.replicate 48 (LineState.start s.sc.timebase (.record .cold)),
              exchange := none, survey := none },
          cc := .start, hu := [], fu := Vector.replicate 16 none, rq := .cold, woe := .cold,
          flt := .cold,
          rs :=
            { array := t.rs.array, errors := t.rs.errors, writeList := [],
              weakRows := Vector.replicate 64 false, capture := .clear, supplyLost := false,
              scrubRow := 0, stepNo := s.rs.stepNo },
          sc :=
            { station := .cold, clock := 0, mode := .starting, linkUp := false, config := .default,
              startKind := .cold,
              startReason :=
                match c with
                | .powerReturn => .coldPower
                | .resetLine => .lineReset
                | .restartWarm => .restartRequest
                | .restartCold => .coldRequest,
              power := .starting, cause := none, resetLine := false, timebase := s.sc.timebase } }
      ∧ (ArrayRight s → cellOf .signature t = [.signature false]
          ∧ ∀ p, p ≠ .signature → (∀ n, p ≠ .report n) → (∀ n, p ≠ .fault n) →
            cellOf p t = coldCell p)
      ∧ ∀ p, p ≠ .signature → (∀ n, p ≠ .report n) → (∀ n, p ≠ .fault n) →
          ∀ w ∈ placeAddresses p, errorAt w t = none

/-- A warm start of a clean store takes every owner's values as retained, the held reports in their places
with consecutive sequences and the logged fault records with sequences that pass their test among them, and
every block's start values, and keeps the clock, the weak marks, the capture and the array (R109, R116,
R123, R157, R175, R183, R190, R191, R3). -/
def Obligations.WarmStartsTakeTheRetained : Prop :=
  ∀ s c, s.sc.power = .stopped → s.sc.cause = some c → c ≠ .restartCold → s.rs.writeList = [] →
    Clean s → s.rs.supplyLost = false → cellOf .signature s = [.signature true] →
    ∀ q f n (held : List Report) (log : List FaultRecord),
    cellOf (.queueHead 0) s = List.replicate 3 (.queueHead q) → q.count = held.length →
    held.length ≤ 96 → q.nextSeq < 4294967296 → q.readMark < 4294967296 →
    let oldest := (q.nextSeq + 4294967296 - held.length) % 4294967296
    (∀ i r, held[i]? = some r → r.seq = (oldest + i) % 4294967296
      ∧ cellOf (.report (reportRing q.oldest i)) s = List.replicate 10 (.report r)) →
    (q.readMark + 4294967296 - oldest) % 4294967296 ≤ held.length →
    cellOf (.faultHead 0) s = List.replicate 2 (.faultHead f) → f.count = log.length →
    log.length ≤ 32 → f.nextSeq < 65536 →
    (∀ i x, log[i]? = some x →
      (∀ o, log.head? = some o → faultSeqFits o.seq
        (if i = 0 then none else (log[i - 1]?).map FaultRecord.seq) f.nextSeq x.seq = true)
      ∧ cellOf (.fault (faultRing f.oldest i)) s = List.replicate 5 (.fault x)) →
    cellOf (.registryHead 0) s = [.registryHead n] → n ≤ 64 →
    ∃ t, exec (.startBegin []) s = .next t
      ∧ t =
        { pending := s.pending,
          pi := { terminal := .start, uplink := .start, service := .start },
          dlc := { docks := t.dlc.docks, lines := t.dlc.lines, exchange := none, survey := none },
          cc := .start, hu := [], fu := t.fu,
          rq := { ReportQueue.cold with
            held := held, oldestPlace := q.oldest, nextSeq := q.nextSeq, readMark := q.readMark },
          woe := { WorkOrders.cold with crews := t.woe.crews, floors := t.woe.floors },
          flt := { FaultUnit.cold with
            log := log, oldestPlace := f.oldest, nextSeq := f.nextSeq, lost := f.lost,
            policies := t.flt.policies, registry := t.flt.registry },
          rs := { s.rs with scrubRow := 0 },
          sc := { s.sc with
            station := t.sc.station, config := t.sc.config, mode := .starting, linkUp := false,
            startKind := .warm,
            startReason :=
              match c with
              | .powerReturn => .warmPower
              | .resetLine => .lineReset
              | .restartWarm => .restartRequest
              | .restartCold => .coldRequest,
            power := .starting, cause := none, resetLine := false } }
      ∧ (∀ r, cellOf (.station 0) s = List.replicate 2 (.station r) → t.sc.station = r)
      ∧ (∀ k, (∀ i, cellOf (.config i) s = [.config (configValue k i)]) → t.sc.config = k)
      ∧ t.flt.registry.length = n
      ∧ (∀ i e, i < n → cellOf (.flag (flagPlace i)) s = List.replicate 3 (.flag (some e)) →
          t.flt.registry[i]? = some e)
      ∧ (∀ k p, cellOf (.policy k) s = [.policy p] → vget t.flt.policies (faultIndex k) = p)
      ∧ (∀ k p, cellOf (.floor k) s = [.floor p] → vget t.woe.floors (orderIndex k) = p)
      ∧ (∀ i p, cellOf (.plan i) s = List.replicate 7 (.plan p) → vget t.fu i = p)
      ∧ (∀ i p, cellOf (.crew i) s = List.replicate 3 (.crew p) → vget t.woe.crews i = p)
      ∧ ∀ d r, cellOf (.dock d) s = List.replicate 5 (.dock r) →
          lineOf d t = LineState.start s.sc.timebase (.record r)
            ∧ dockOf d t = DockRecord.start r.faults

/-- SURVEY_BEGIN ends the start: the part runs, after a cold clearing the signature is written last, and
the line is granted to dock 0 for its first survey poll. A survey answer that carries an event, among the
first 15 of a dock, has its event discarded and its number taken; the finding is the answer's, and the
dock is polled again where no other dock's sweep is due before it. The answer NOTHING and the 16th answer
end the polling with the dock's result from that finding. A missed survey poll raises the dock's miss
count; the first two are polled again and the third finds the dock silent. Answers to a survey probe's
exchanges are kept, and a new event is taken for the probe, whose second expiry is its failure; a missed
one raises the miss count alone (R7, R8, R183, R190, R192; what the results are, SurveyResultsSetTheDocks
says). The model's readings are the grant in SURVEY_BEGIN (assumption 7), when a service request and a sweep
that fell due end (assumption 8), that the dock being surveyed is polled before other docks' waiting commands
and service requests (assumption 9), and that a missed exchange of a probe is none of the polls that find a
dock silent (assumption 13); the times are its choice (assumption 4). -/
def Obligations.TheSurveyPollsEachDock : Prop :=
  (∀ s, s.sc.power = .starting → ClaimsRight s → s.dlc.exchange = none →
     (lineOf 0 s).waiting = [] → probing 0 s = false → ArrayRight s →
     ∃ t, exec .surveyBegin s = .next t ∧ PortsKept s t
       ∧ t = { s with
           pi := t.pi,
           rs := { s.rs with
             array := t.rs.array, errors := t.rs.errors, stepNo := t.rs.stepNo },
           sc := { s.sc with power := .running },
           dlc := { s.dlc with
             survey := some { dock := 0, answers := 0, misses := 0, finding := none },
             exchange :=
               some
                 { dock := 0, command := .poll, ack := (lineOf 0 s).lastEvent, survey := true,
                   sentAt := s.sc.timebase } } }
       ∧ (s.sc.startKind = .warm → t.rs.array = s.rs.array ∧ t.rs.errors = s.rs.errors)
       ∧ (s.sc.startKind = .cold → cellOf .signature t = [.signature true] ∧ errorAt 0 t = none
           ∧ (∀ p, p ≠ .signature → cellOf p t = cellOf p s)
           ∧ ∀ w, w ≠ 0 → errorAt w t = errorAt w s))
  ∧ (∀ s d v x n e condition extra, running s = true → ClaimsRight s →
      s.dlc.exchange = some x → x.dock = d → x.survey = true → s.dlc.survey = some v → v.dock = d →
      v.answers < 15 → (lineOf d s).waiting = [] → probing d s = false →
      (∀ e, e.val < d.val → ¬((lineOf e s).surveyed = true ∧ (lineOf e s).sweepDue = true)) →
      let line := { lineOf d s with
        missCount := 0, lastExchange := s.sc.timebase, lastEvent := some n,
        lastCondition := some condition, sweepDue := false }
      ∃ t, exec (.surveyPollAnswer d { event := some (n, e), condition := condition } extra) s = .next t
        ∧ PortsKept s t ∧ StoreKept s t
        ∧ t = { s with
            pi := t.pi, rs := t.rs,
            dlc := { s.dlc with
              lines := vset s.dlc.lines d line,
              survey := some { v with
                answers := v.answers + 1, misses := 0,
                finding := some
                  { lockOpen := condition.lockOpen,
                    bike := condition.bike.map fun _ => tagReading extra.tag,
                    memory := extra.memory } },
              exchange :=
                some
                  { dock := d, command := .poll, ack := some n, survey := true,
                    sentAt := s.sc.timebase } } })
  ∧ ∀ s d v, running s = true → s.dlc.survey = some v → v.dock = d →
      let l := lineOf d s
      let r := dockOf d s
      let heard := fun (a : DockAnswer) => { l with
        lastExchange := s.sc.timebase, sweepDue := false, missCount := 0,
        lastCondition := some a.condition, serviceRequest := l.serviceRequest && a.event.isSome }
      let puts := fun (line : LineState) (survey : Option Survey) => { s with dlc := { s.dlc with
        exchange := none, lines := vset s.dlc.lines d line, survey := survey } }
      let answers := fun c x => exec c s = .next (endStep (grantLine x))
      (∀ x a extra, s.dlc.exchange = some x → x.dock = d → x.survey = true →
        a.event = none ∨ 15 ≤ v.answers →
        let number := match a.event with
          | some (n, _) => some n
          | none => l.lastEvent
        let finding : Finding :=
          { lockOpen := a.condition.lockOpen, bike := a.condition.bike.map fun _ => tagReading extra.tag,
            memory := extra.memory }
        answers (.surveyPollAnswer d a extra)
          (surveyResult d finding
            (puts { heard a with lastEvent := number }
              (some { v with answers := v.answers + 1, misses := 0, finding := some finding }))))
      ∧ (∀ x, s.dlc.exchange = some x → x.dock = d → x.survey = true →
        let time := max s.sc.timebase (x.sentAt + 20)
        let line := { l with
          lastExchange := time, sweepDue := false, missCount := min 2 (l.missCount + 1) }
        let late := fun survey =>
          { puts line survey with sc := { s.sc with timebase := time } }
        (v.misses < 2 →
          answers (.dockExchangeMissed d) (late (some { v with misses := v.misses + 1 })))
        ∧ (2 ≤ v.misses → answers (.dockExchangeMissed d) (surveySilent d (late (some v)))))
      ∧ (∀ x, s.dlc.exchange = some x → x.dock = d → x.survey = false → l.surveyed = false →
        let time := max s.sc.timebase (x.sentAt + 20)
        let line := { l with
          lastExchange := time, sweepDue := false, missCount := min 2 (l.missCount + 1) }
        answers (.dockExchangeMissed d)
          { puts line (some v) with sc := { s.sc with timebase := time } })
      ∧ (∀ x a, s.dlc.exchange = some x → x.dock = d → x.survey = false → l.surveyed = false →
        (a.event = none ∨ (∃ n e, a.event = some (n, e) ∧ l.lastEvent = some n) →
          answers (.dockAnswer d a) (puts (heard a) (some v)))
        ∧ ∀ n e, a.event = some (n, e) → l.lastEvent ≠ some n →
          answers (.dockAnswer d a)
            (surveyEvent d e a.condition (puts { heard a with lastEvent := some n } (some v))))
      ∧ ∀ time c, r.state = .absent → r.deadline = some (.actuation (some time) true) →
        exec (.actuationDeadline d) s =
          .next (endStep (surveyEvent d .actuatorFault c
            { s with sc := { s.sc with timebase := max s.sc.timebase time } }))

/-- What the survey makes of a dock by what it found. On a cold start an open lock is probed, a closed one
without a bike is VACANT, one with an unstamped or unreadable bike DOCKED, and a stamped bike arrives. On a
warm start the dock's retained record is the reference and the rows of R194's table apply, behind the claim
gate where they queue a record or leave a claim: refused, and where no row matches or the reference is
damaged, the dock is PARKED with DOCK_RETURNED. A silent dock is ABSENT, with DOCK_SILENT unless its
reference was. A survey probe ends by the row that matches what it finds, and when it fails the dock is
JAMMED with LOCK_JAM. A dock's survey ends with its INHIBIT placed, and the next dock's begins; after dock
47 the mode becomes the target, the station record is handed and the start list is judged (R111, R115,
R177, R192 to R195, R131; what a probe's end finds is assumption 13, a memory without release and a marked
tag at a JAMMED dock assumption 14, the order of two faults of one step assumption 46, and that the tag mark
found replaces R27's assumption 51, each the model's choice or reading). -/
def Obligations.SurveyResultsSetTheDocks : Prop :=
  ∀ (d : DockNo) s v, Clean s → s.dlc.survey = some v → v.dock = d → (lineOf d s).surveyed = false →
    let ends := dockSurveyed d
    let record := fun state suspended bike =>
      { state := state, suspended := suspended, bike := bike, holder := none, deadline := none,
        faults := (dockOf d s).faults, lastArrival := none : DockRecord }
    let put := fun r claim x =>
      { dockPut d r (lineOf d x) claim x with rs := handAll [(.dock d, .dock (retainedOf r))] x.rs }
    let vacant := fun suspended x =>
      ends (put (record .vacant suspended none) (if suspended = true then 0 else 1) x)
    let entered := fun t x =>
      let y := bikeEntered d (readingBike t) (readingMark t) x
      if t = .unreadable then
        raise { kind := .tagReadFail, dock := some d, bike := none, detail := .none } y
      else y
    let docked := fun suspended t since x =>
      ends (entered t (put (record .docked suspended
        (some { id := readingBike t, mark := readingMark t, since := since })) 0 x))
    let arrives := fun (t : TagReading) y => ∀ tag, tagReading tag = t →
      y = ends (latchedEvent d tag (put (record .vacant false none) 1 s))
    let probes := fun clearing =>
      dockPut d { dockOf d s with state := .absent, deadline := some (.actuation none false) }
        { lineOf d s with waiting := placeIn (.relock clearing .probe) (lineOf d s).waiting } 0 s
    let parks := fun cause x =>
      raise { kind := .dockReturned, dock := some d, bike := none, detail := .dockReturned cause }
        (put (record .parked true none) 0 x)
    let gated := fun n x y =>
      if s.rq.held.length + s.rq.claimTotal + n ≤ 96 then y else ends (parks .survey x)
    let unaccounted := fun (r : RetainedDock) cause x =>
      raise
        { kind := .bikeUnaccounted, dock := some d, bike := some ((r.bike.map Bike.id).getD 0),
          detail := .bikeUnaccounted cause } x
    let taken := fun (r : RetainedDock) memory x =>
      let n := if r.suspended = true then 0 else 1
      let queued := fun kind hire => gated (n + 1) x (vacant r.suspended
        (queueReport { kind := kind, dock := d, bike := (r.bike.map Bike.id).getD 0,
                       fareFlags := FareFlags.none, clearFailed := false, hire := hire, fare := none,
                       move := none } x))
      match memory with
      | .release (some t) => queued .departure (some t)
      | .release none => queued .moveOut none
      | .nothing => if r.suspended = true then vacant true x else gated n x (vacant false x)
    let jams := fun t x =>
      let k := t.map fun t =>
        { id := readingBike t, mark := readingMark t, since := stationTime s : Bike }
      let y := put (record .jammed true k) (if t = none then 0 else 1) x
      let y := match t with
        | some t => entered t y
        | none => y
      ends (jamRaised d .probe (dockOf d y).holder (dockOf d y).bike y)
    (∀ x,
      let l := { lineOf d x with
        surveyed := true, reference := none, actuation := none,
        waiting := if (dockOf d x).state = .absent then (lineOf d x).waiting
          else placeIn (.inhibit (inhibited (dockOf d x))) (lineOf d x).waiting }
      (∀ h : d.val + 1 < 48, ends x = { x with dlc := { x.dlc with
        lines := vset x.dlc.lines d l,
        survey := some { dock := ⟨d.val + 1, h⟩, answers := 0, misses := 0, finding := none } } })
      ∧ (d.val = 47 →
        let y := { x with
          dlc := { x.dlc with lines := vset x.dlc.lines d l, survey := none },
          sc := { x.sc with mode := x.sc.station.target },
          rs := handAll (bothCopies .station (.station x.sc.station)) x.rs }
        (x.woe.startList = [] → ends x = y)
        ∧ ∀ i rest w, x.woe.startList = i :: rest → x.sc.station.target ≠ .starting →
          (∀ j w, vget x.woe.slots j = some w → w.state ≠ .running ∧ w.state ≠ .waiting) →
          vget x.woe.slots i = some w →
          ends x = { y with woe := { x.woe with
            startList := rest,
            slots := vset x.woe.slots i (some { w with
              state := .running, index := 0, startedAt := some (stationTime x) }) } }))
    ∧ (∀ f, s.sc.startKind = .cold →
      (f.lockOpen = true → surveyResult d f s = probes false)
      ∧ (f.lockOpen = false →
        (f.bike = none → surveyResult d f s = vacant false s)
        ∧ ∀ t, f.bike = some t →
          (readingStamp t = none → surveyResult d f s = docked false t 0 s)
          ∧ (readingStamp t ≠ none → arrives t (surveyResult d f s))))
    ∧ (∀ f, s.sc.startKind = .warm → (∀ r, (lineOf d s).reference ≠ some (.record r)) →
      surveyResult d f s = ends (parks .store s))
    ∧ (∀ f r, s.sc.startKind = .warm → (lineOf d s).reference = some (.record r) →
      let same := ∃ t b, f.bike = some t ∧ r.bike = some b ∧ b.id = readingBike t
      let moving := r.state = .unlocking ∨ r.state = .offered ∨ r.state = .relocking
      (r.state = .docked →
        (∀ t b, f.lockOpen = false → f.bike = some t → r.bike = some b → b.id = readingBike t →
          surveyResult d f s = ends (entered t (put
            { record .docked r.suspended
                (some { id := readingBike t, mark := readingMark t, since := b.since }) with
              lastArrival := r.lastArrival } 0 s)))
        ∧ (f.lockOpen = true ∨ ¬same →
          surveyResult d f s =
            ends (if f.bike = none then unaccounted r .survey (parks .survey s)
              else parks .survey s)))
      ∧ (r.state = .vacant →
        (f.lockOpen = true → surveyResult d f s = ends (parks .survey s))
        ∧ (f.lockOpen = false → f.bike = none → surveyResult d f s =
          if r.suspended = true then vacant true s else gated 1 s (vacant false s))
        ∧ ∀ t, f.lockOpen = false → f.bike = some t →
          (r.suspended = true → surveyResult d f s = docked true t (stationTime s) s)
          ∧ (r.suspended = false → s.rq.held.length + s.rq.claimTotal + 1 ≤ 96 →
            arrives t (surveyResult d f s))
          ∧ (r.suspended = false → 96 < s.rq.held.length + s.rq.claimTotal + 1 →
            surveyResult d f s = ends (parks .survey s)))
      ∧ (moving →
        (∀ t, f.bike = some t →
          (∀ x, f.memory = .release (some x) → surveyResult d f s = probes true)
          ∧ ((∀ x, f.memory ≠ .release (some x)) → surveyResult d f s = probes false))
        ∧ (f.bike = none → surveyResult d f s = taken r f.memory s))
      ∧ (r.state = .jammed →
        (∀ t b, f.bike = some t → r.bike = some b →
          surveyResult d f s = gated 1 s (ends
            (bikeEntered d b.id (match t with | .readable _ mark _ => mark | .unreadable => false)
              (put (record .jammed true (some b)) 1 s))))
        ∧ (∀ b, f.bike = none → r.bike = some b →
          surveyResult d f s = gated 1 s (ends (unaccounted r .takeFromJammed
            (put (record .jammed true none) 0
              (queueReport { kind := .removed, dock := d, bike := b.id, fareFlags := FareFlags.none,
                             clearFailed := false, hire := none, fare := none, move := none } s)))))
        ∧ (f.bike = none → r.bike = none →
          surveyResult d f s = ends (put (record .jammed true none) 0 s))
        ∧ (∀ t, f.bike = some t → r.bike = none → surveyResult d f s = ends (parks .survey s)))
      ∧ (r.state = .absent ∨ r.state = .parked → surveyResult d f s = ends (parks .survey s)))
    ∧ (let absent := put (record .absent true none) 0 s
      let silent := fun left =>
        raise { kind := .dockSilent, dock := some d, bike := none, detail := .dockSilent left } absent
      (∀ r, (lineOf d s).reference = some (.record r) →
        surveySilent d s = ends (if r.state = .absent then absent else silent (some r.state)))
      ∧ ((lineOf d s).reference = some .damaged → surveySilent d s = ends (silent none)))
    ∧ ((dockOf d s).state = .absent → (∃ t u, (dockOf d s).deadline = some (.actuation t u)) →
      let memory := (v.finding.map Finding.memory).getD .nothing
      let closed := s.setDlc { s.dlc with
        lines := vset s.dlc.lines d { lineOf d s with
          tagWrites := (lineOf d s).tagWrites.filter fun x => decide (x.command ≠ .relock) } }
      (∀ c, c.bike = none → s.sc.startKind = .cold →
        surveyEvent d .closed c s = vacant false closed)
      ∧ (∀ c r, c.bike = none → s.sc.startKind = .warm → (lineOf d s).reference = some (.record r) →
        surveyEvent d .closed c s = taken r memory closed)
      ∧ (∀ c b, c.bike = some b →
        let stamp := match v.finding.bind Finding.bike with
          | some (.readable id _ stamp) => if id = b.id then stamp else none
          | _ => none
        let t := if b.id = 0 then TagReading.unreadable else .readable b.id b.mark stamp
        (s.sc.startKind = .cold →
          (readingStamp t = none → surveyEvent d .closed c s = docked false t 0 s)
          ∧ (readingStamp t ≠ none → arrives t (surveyEvent d .closed c s)))
        ∧ ∀ r, s.sc.startKind = .warm → (lineOf d s).reference = some (.record r) →
          surveyEvent d .closed c s = docked r.suspended t (stationTime s) s)
      ∧ (∀ c,
        let found := v.finding.bind Finding.bike
        (found = none ∨ s.sc.startKind = .cold → surveyEvent d .actuatorFault c s = jams found s)
        ∧ (found ≠ none → s.sc.startKind = .warm →
          surveyEvent d .actuatorFault c s = gated 1 s (jams found s)))
      ∧ ∀ e c, e ≠ .closed → e ≠ .actuatorFault → surveyEvent d e c s = s)

/-! ### Properties of every step -/

/-- In every step each dock's counted claim is the one of R111's table, by its record's state, suspension,
bike and probe, and the claim total is the sum of the 48. -/
def Obligations.ClaimsEveryStep : Prop :=
  ∀ s t, ClaimsRight s → step s = .next t → ClaimsRight t

/-- Where the counted claims follow the dock records, no step lets the held report records and the claim
total come to more than 96 together: every raise of a claim passes the gate, every queueing moves a unit
of claim into its record, and a start begins with every claim 0 (R110 to R114). The results of a cold
survey are set without the gate (R115): a step of one is left out. -/
def Obligations.ClaimsFitEveryStep : Prop :=
  ∀ s t, ClaimsRight s → ClaimsFit s → ¬ColdSurvey s → step s = .next t → ClaimsFit t

/-- After reset the attention lines, the claims, the room of the queue, the cache's ways and the retained
array are as the properties of every step have them. Which state stands right after reset is the model's
choice (assumption 2). -/
def Obligations.ResetHasTheProperties : Prop :=
  AttentionRight State.reset ∧ ClaimsRight State.reset ∧ ClaimsFit State.reset ∧ WaysRight State.reset
    ∧ ArrayRight State.reset

/-! ### Fares (chapter 5) -/

/-- QUOTE answers with the fare of its minutes, and changes nothing. An undefined plan gives 0 with
PLAN_MISSING. Otherwise the minutes beyond the free ones walk the bands, each band but the last taking at
most its span and every started block of a band charged its rate; the day cap, where there is one, bounds
the total by the cap for each started day, and the fare saturates at 65,535. An arrival under an undefined
plan costs 0, PLAN_MISSING alone; otherwise its duration is 0 with SKEW where the end lies before the
start, and at most seven days, CLAMPED beyond; at its own origin within the grace the fare is 0 with
REDOCK; and any other arrival costs what a quote of its started minutes costs (R90, R99 to R105,
R107). -/
def Obligations.QuotesPriceTheMinutes : Prop :=
  (∀ tag (plan : Fin 16) minutes s, Accepts .terminal .quote tag s → minutes ≤ 10080 → Clean s →
      let quoted := fun fare flags =>
        ∃ t, exec (.quote tag plan.val minutes) s = .next t
          ∧ Replied .terminal .quote tag .done (.fare fare flags) s t
          ∧ StoreKept s t ∧ t = { s with pi := t.pi, rs := t.rs }
      (vget s.fu plan = none → quoted 0 { FareFlags.none with planMissing := true })
      ∧ ∀ p, vget s.fu plan = some p →
        (∀ i b, p.bands[i]? = some b → (b.span = none ↔ i + 1 = p.bands.length)) →
        let n := p.bands.length
        let span := fun i => ((p.bands[i]?).bind Band.span).getD 0
        let left := fun i => (minutes - p.free) - ((List.range i).map span).sum
        let portion := fun i => if i + 1 < n then min (left i) (span i) else left i
        let charge := fun i =>
          ((p.bands[i]?).map fun b => (portion i + b.block - 1) / b.block * b.rate).getD 0
        let walked := ((List.range n).map charge).sum
        let days := max 1 ((minutes + 1439) / 1440)
        let total := if p.cap = 0 then walked else min walked (p.cap * days)
        quoted (min total 65535) { FareFlags.none with saturated := decide (65535 < total) })
  ∧ ∀ plan start stop origin station grace,
    let fare := arrivalFare plan start stop origin station grace
    (plan = none → fare = (0, { FareFlags.none with planMissing := true }))
    ∧ ∀ p, plan = some p →
      let d := min (stop - start) 604800
      let flags : FareFlags :=
        { FareFlags.none with
          skew := decide (stop < start), clamped := decide (start + 604800 < stop) }
      (origin = station ∧ d ≤ grace → fare = (0, { flags with redock := true }))
      ∧ (¬(origin = station ∧ d ≤ grace) →
          let quote := quoteFare plan ((d + 59) / 60)
          fare = (quote.1, { flags with saturated := quote.2.saturated }))

/-- A total above 65,535 gives the fare 65,535 with SATURATED, and any other total is the fare. Every
fare lies between 0 and 65,535 cents, and with a day cap it does not exceed the cap times the number of
started days of the clamped duration; saturation can follow a cap (R105). -/
def Obligations.FaresAreSaturated : Prop :=
  (∀ p d flags,
    let m := startedMinutes d
    let total := capTotal p m (bandWalk p.bands (m - p.free))
    (65535 < total → priceDuration p d flags = (65535, { flags with saturated := true }))
    ∧ (total ≤ 65535 → priceDuration p d flags = (total, flags)))
  ∧ (∀ plan start stop origin station grace,
    let fare := (arrivalFare plan start stop origin station grace).1
    fare ≤ 65535 ∧ ∀ p, plan = some p → p.cap ≠ 0 →
      fare ≤ p.cap * startedDays (startedMinutes (min (stop - start) 604800)))
  ∧ (∀ plan minutes,
    let fare := (quoteFare plan minutes).1
    fare ≤ 65535 ∧ ∀ p, plan = some p → p.cap ≠ 0 →
      fare ≤ p.cap * startedDays (startedMinutes (min (60 * minutes) 604800)))
  ∧ ∃ p minutes, p.cap ≤ 65535
    ∧ p.cap * startedDays (startedMinutes (60 * minutes)) = 458745
    ∧ quoteFare (some p) minutes = (65535, { FareFlags.none with saturated := true })

/-- TARIFF_LOAD limits the band count to 1 to 4, keeps that many bands and limits every kept field to
its range; the last band has no span. The plan is defined by what was kept and handed to the store, and
the reply says LOADED with CLAMPED, exactly when a kept field was limited, REPLACED, when the plan was
already defined, and the kept terms (R94; that the band count is among the kept fields whose limiting sets
CLAMPED is the model's choice, assumption 42). -/
def Obligations.LoadedPlansAreLimited : Prop :=
  ∀ tag (plan : Fin 16) r s, Accepts .uplink .tariffLoad tag s → r.bands.length = 4 → Clean s →
    let within := fun (lo hi x : Int) => if x < lo then lo else if hi < x then hi else x
    let n := (within 1 4 r.bandCount).toNat
    ∃ t p clamped, exec (.tariffLoad tag plan.val r) s = .next t
      ∧ Replied .uplink .tariffLoad tag .loaded
          (.planLoaded clamped (vget s.fu plan).isSome p) s t
      ∧ t.rs = stepHands [(.plan plan, .plan (some p))] s.rs
      ∧ t = { s with pi := t.pi, rs := t.rs, fu := vset s.fu plan (some p) }
      ∧ (p.free : Int) = within 0 240 r.free ∧ (p.cap : Int) = within 0 65535 r.cap
      ∧ p.minBalance = within (-100000) 100000 r.minBalance ∧ p.offline = r.offline
      ∧ p.bands.length = n
      ∧ (∀ i e b, r.bands[i]? = some e → p.bands[i]? = some b →
          b.span.map Int.ofNat = (if i + 1 < n then some (within 1 1440 e.span) else none)
            ∧ (b.block : Int) = within 1 120 e.block ∧ (b.rate : Int) = within 0 5000 e.rate)
      ∧ (clamped = false ↔
          (n : Int) = r.bandCount ∧ (p.free : Int) = r.free ∧ (p.cap : Int) = r.cap
            ∧ p.minBalance = r.minBalance
            ∧ ∀ i e b, r.bands[i]? = some e → p.bands[i]? = some b →
              (i + 1 < n → b.span.map Int.ofNat = some e.span)
                ∧ (b.block : Int) = e.block ∧ (b.rate : Int) = e.rate)

/-- TARIFF_DROP makes its plan undefined and hands the undefined record to the store; the reply is
DROPPED when the plan was defined and NOT_DEFINED when it was not. A code above 15 is refused BAD_FORM
(R95; in a store that reads clean, R93). -/
def Obligations.DroppedPlansAreUndefined : Prop :=
  (∀ tag (plan : Fin 16) s, Accepts .uplink .tariffDrop tag s → Clean s →
    ∃ t, exec (.tariffDrop tag plan.val) s = .next t
      ∧ Replied .uplink .tariffDrop tag
          (if (vget s.fu plan).isSome then .dropped else .notDefined) .empty s t
      ∧ t.rs = stepHands [(.plan plan, .plan none)] s.rs
      ∧ t = { s with pi := t.pi, rs := t.rs, fu := vset s.fu plan none }
      ∧ vget t.fu plan = none)
  ∧ ∀ tag plan s, running s = true → 15 < plan →
    ∃ t, exec (.tariffDrop tag plan) s = .next t
      ∧ Answered .uplink (answerFor .badForm tag (kindCode .tariffDrop) .nothing) s t
      ∧ RestKept s t

/-! ### The card cache (chapter 3) -/

/-- FILL_FETCH answers with the oldest WAITING entries, at most four, and marks them FETCHED. CACHE_MODE
sets both switches, but for allocate on with serve off, which is answered BAD_MODE and changes nothing.
LINK_STATE puts the link state, and a change to UP sets the run counter and the offline grant count
to 0 (R54, R60, R53). -/
def Obligations.FillsModeAndLinkRequests : Prop :=
  ∀ tag s,
    (∀ taken rest, Accepts .uplink .fillFetch tag s →
      s.cc.fills.filter (fun f => !f.fetched) = taken ++ rest →
      taken.length = min 4 (taken ++ rest).length → (s.cc.fills.map Fill.card).Nodup →
      ∃ t, exec (.fillFetch tag) s = .next t
        ∧ Replied .uplink .fillFetch tag .done
            (.fills (taken.map fun f => (f.card, f.issuedAt))) s t
        ∧ StoreKept s t
        ∧ t = { s with
            pi := t.pi, rs := t.rs,
            cc := { s.cc with
              fills := s.cc.fills.map fun f => if f ∈ taken then { f with fetched := true } else f } })
    ∧ (∀ allocate serve, Accepts .uplink .cacheMode tag s →
      let bad := allocate = true ∧ serve = false
      ∃ t, exec (.cacheMode tag allocate serve) s = .next t
        ∧ Replied .uplink .cacheMode tag (if bad then .badMode else .done) .empty s t
        ∧ StoreKept s t
        ∧ t = { s with
            pi := t.pi, rs := t.rs,
            cc := if bad then s.cc else { s.cc with allocate := allocate, serve := serve } })
    ∧ (Accepts .uplink .linkState tag s →
      (∃ t, exec (.linkStateUp tag) s = .next t
        ∧ Replied .uplink .linkState tag .done .empty s t ∧ StoreKept s t
        ∧ t = { s with
            pi := t.pi, rs := t.rs, sc := { s.sc with linkUp := true },
            cc := if s.sc.linkUp then s.cc else { s.cc with runCounter := 0, offlineGrants := 0 } })
      ∧ ∃ t, exec (.linkStateDown tag) s = .next t
        ∧ Replied .uplink .linkState tag .done .empty s t ∧ StoreKept s t
        ∧ t = { s with pi := t.pi, rs := t.rs, sc := { s.sc with linkUp := false } })

/-- A member record that is placed is limited to its fields, CLAMPED where that changes one. An entry of
the card that is not REVOKED is refreshed, keeping its pending list; with no entry, a free way or that
of the least recently used entry not pinned takes it; a REVOKED entry, allocation off, and a set of
pinned entries keep the cache as it is. A placed entry stands first in its set, and its adjustments come
from the held records after the base mark. CARD_PUSH and FILL_ANSWER place alike; the answer also takes
the card's fill entry, here one without waiter, if there is one, and brings the link UP (R42, R43, R45,
R46, R53, R55, R57; waiters and poisoned entries are in ExpiriesAndWaitersAreDecided). -/
def Obligations.MemberRecordsArePlaced : Prop :=
  ∀ tag m s standing, Clean s → SequencesAgree s → 0 < m.card → m.card < 2 ^ 56 → m.plan ≤ 15 →
    standingOf m.standing = some standing →
    let within := fun (lo hi x : Int) => if x < lo then lo else if hi < x then hi else x
    let l := vget s.cc.sets (cardSet m.card)
    let held := s.rq.held
    let oldest := (held.head?.map Report.seq).getD s.rq.nextSeq
    let x := (m.baseMark + 4294967296 - oldest % 4294967296) % 4294967296
    let after : Nat → Bool := fun i =>
      if x < held.length then decide (x < i) else decide (2147483648 ≤ x)
    let records := (held.zipIdx.filter fun r => after r.2).map Prod.fst
    let ofCard := fun k => records.filter fun r =>
      decide (r.kind = some k) && !r.flags.damaged && r.hire.any fun h => decide (h.card = m.card)
    let entry := fun (pending : List Nat) =>
      { state := .valid, card := m.card, standing := some standing, plan := m.plan,
        balance := within (-1000000) 1000000 m.balance,
        hireLimit := (within 1 4 m.hireLimit).toNat, baseOpen := (within 0 15 m.baseOpen).toNat,
        filledAt := some (stationTime s),
        hireAdj := (pending.length : Int) + (ofCard .departure).length - (ofCard .arrival).length,
        fareAdj := ((ofCard .arrival).map fun r => r.fare.getD 0).sum,
        pendingTrips := pending : CardEntry }
    let clamped := decide (within (-1000000) 1000000 m.balance ≠ m.balance
      ∨ within 1 4 m.hireLimit ≠ m.hireLimit ∨ within 0 15 m.baseOpen ≠ m.baseOpen)
    let places := fun outcome set =>
      (Accepts .uplink .cardPush tag s → ∃ t, exec (.cardPush tag m) s = .next t
        ∧ Replied .uplink .cardPush tag outcome (.clamped clamped) s t ∧ StoreKept s t
        ∧ t = { s with
            pi := t.pi, rs := t.rs,
            cc := { s.cc with sets := vset s.cc.sets (cardSet m.card) set } })
      ∧ (Accepts .uplink .fillAnswer tag s →
        (∀ f ∈ s.cc.fills, f.card = m.card → f.waiter = none ∧ f.poisoned = false) →
        ∃ t, exec (.fillAnswer tag m) s = .next t
          ∧ Replied .uplink .fillAnswer tag outcome (.clamped clamped) s t ∧ StoreKept s t
          ∧ t = { s with
              pi := t.pi, rs := t.rs, sc := { s.sc with linkUp := true },
              cc := { s.cc with
                sets := vset s.cc.sets (cardSet m.card) set,
                fills := s.cc.fills.filter fun f => decide (f.card ≠ m.card),
                runCounter := 0,
                offlineGrants := if s.sc.linkUp then s.cc.offlineGrants else 0 } })
    (∀ e, l.filter (fun e => decide (e.card = m.card)) = [e] → e.state = .revoked →
      places .notKept l)
    ∧ (∀ e, l.filter (fun e => decide (e.card = m.card)) = [e] → e.state ≠ .revoked →
      places .refreshed (entry e.pendingTrips :: l.filter fun e => decide (e.card ≠ m.card)))
    ∧ ((∀ e ∈ l, e.card ≠ m.card) →
      (s.cc.allocate = false → places .notKept l)
      ∧ (s.cc.allocate = true → l.length < 4 → places .placed (entry [] :: l))
      ∧ (s.cc.allocate = true → 4 ≤ l.length → (∀ e ∈ l, e.pendingTrips ≠ []) → places .notKept l)
      ∧ ∀ a v b, s.cc.allocate = true → 4 ≤ l.length → l = a ++ v :: b → v.pendingTrips = [] →
        (∀ e ∈ b, e.pendingTrips ≠ []) → places .placed (entry [] :: (a ++ b)))

/-- CARD_INVALIDATE removes the card's entry where it is not pinned, and makes it REVOKED where it is,
and poisons the card's fill entry, which keeps its waiter; the reply says the cache effect and whether
a fill entry was poisoned. A NOT_FOUND answer treats the entry alike, takes the card's fill entry, here
one without waiter, if there is one, and brings the link UP (R58, R56, R53; that an entry already REVOKED
is reported REVOKED, and one already poisoned poisoned, is the model's choice, assumption 39; waiters are
in ExpiriesAndWaitersAreDecided). -/
def Obligations.InvalidatedCardsAreGone : Prop :=
  ∀ tag card s, 0 < card → card < 2 ^ 56 →
    let l := vget s.cc.sets (cardSet card)
    let goes := fun effect set =>
      (Accepts .uplink .cardInvalidate tag s → ∃ t, exec (.cardInvalidate tag card) s = .next t
        ∧ Replied .uplink .cardInvalidate tag .done
            (.invalidated effect (s.cc.fills.any fun f => decide (f.card = card))) s t
        ∧ StoreKept s t
        ∧ t = { s with
            pi := t.pi, rs := t.rs,
            cc := { s.cc with
              sets := vset s.cc.sets (cardSet card) set,
              fills := s.cc.fills.map fun f =>
                if f.card = card then { f with poisoned := true } else f } })
      ∧ (Accepts .uplink .fillAnswer tag s →
        (∀ f ∈ s.cc.fills, f.card = card → f.waiter = none ∧ f.poisoned = false) →
        ∃ t, exec (.fillAnswerNotFound tag card) s = .next t
          ∧ Replied .uplink .fillAnswer tag .notFoundTaken .empty s t ∧ StoreKept s t
          ∧ t = { s with
              pi := t.pi, rs := t.rs, sc := { s.sc with linkUp := true },
              cc := { s.cc with
                sets := vset s.cc.sets (cardSet card) set,
                fills := s.cc.fills.filter fun f => decide (f.card ≠ card),
                runCounter := 0,
                offlineGrants := if s.sc.linkUp then s.cc.offlineGrants else 0 } })
    ((∀ e ∈ l, e.card ≠ card) → goes .noEntry l)
    ∧ ∀ a e b, l = a ++ e :: b → (∀ x ∈ a ++ b, x.card ≠ card) → e.card = card →
      (e.state = .revoked → goes .revoked l)
      ∧ (e.state ≠ .revoked → e.pendingTrips = [] → goes .removed (a ++ b))
      ∧ (e.state ≠ .revoked → e.pendingTrips ≠ [] →
          goes .revoked (a ++ { e with state := .revoked, standing := none } :: b))

/-- CACHE_FLUSH removes every entry that is not pinned, in every set, and keeps the pinned ones in their
order; the reply carries the number removed, and nothing else changes (R59). -/
def Obligations.FlushKeepsThePinned : Prop :=
  ∀ tag s, Accepts .uplink .cacheFlush tag s →
    ∃ t n, exec (.cacheFlush tag) s = .next t
      ∧ Replied .uplink .cacheFlush tag .done (.count n) s t ∧ StoreKept s t
      ∧ t = { s with pi := t.pi, rs := t.rs, cc := { s.cc with sets := t.cc.sets } }
      ∧ (∀ i, vget t.cc.sets i = (vget s.cc.sets i).filter fun e => decide (e.pendingTrips ≠ []))
      ∧ n = (s.cc.sets.toList.map fun l => l.countP fun e => decide (e.pendingTrips = [])).sum

/-- An expired fill leaves the queue and the run counter rises by 1, to at most 3. Reaching 3 while the
link is UP takes the link DOWN and sets the LINK_DOWN notice on the Uplink port (said whole for a fill
without waiter, and with the fault LINK_DOWN under policy IGNORE). A fill's waiter is decided with its
answer or its expiry. An answer takes the fill entry and brings the link UP; the record is placed, and the
waiter's online decision is on the entry's values, or on notional ones where it was not kept; one not kept
for a REVOKED entry denies REVOKED. NOT_FOUND denies UNKNOWN_CARD, and the entry is invalidated. An answer
to a poisoned entry is DISCARDED and its waiter denied REVOKED. An expired fill's waiter gets the offline
decision, a poisoned one's REVOKED, before the run counter rises (R45, R46, R52, R53, R55, R56, R73; that
the part's timebase has reached the expiry is the model's, assumption 4). -/
def Obligations.ExpiriesAndWaitersAreDecided : Prop :=
  (∀ s card f, running s = true → s.cc.fills.find? (fun f => decide (f.card = card)) = some f →
    f.waiter = none →
    let n := min 3 (s.cc.runCounter + 1)
    let cc := { s.cc with
      fills := s.cc.fills.filter (fun f => decide (f.card ≠ card)), runCounter := n }
    let now := max s.sc.timebase f.expiry
    ((n < 3 ∨ s.sc.linkUp = false) →
      ∃ t, exec (.fillExpiry card) s = .next t ∧ PortsKept s t ∧ StoreKept s t
        ∧ t = { s with pi := t.pi, rs := t.rs, cc := cc, sc := { s.sc with timebase := now } })
    ∧ (n = 3 → s.sc.linkUp = true → Clean s → policyOf .linkDown s = .ignore →
      ∃ t, exec (.fillExpiry card) s = .next t ∧ OtherPorts .uplink s t ∧ StoreKept s t
        ∧ getPort .uplink t =
          { getPort .uplink s with
            events := { (getPort .uplink s).events with linkDown := true },
            reported := { (getPort .uplink s).reported with linkDown := false },
            attention := (getPort .uplink t).attention }
        ∧ t = { s with
            pi := t.pi, rs := t.rs, cc := cc,
            sc := { s.sc with timebase := now, linkUp := false } }))
  ∧ (∀ s, running s = true → ∀ card, exec (.fillExpiry card) s = .next (endStep (fillExpires card s)))
  ∧ (∀ tag s, Accepts .uplink .fillAnswer tag s →
    let x := takeSlot .uplink .fillAnswer tag
      (giveAnswer .uplink (answerFor .accepted tag (kindCode .fillAnswer) .nothing) s)
    (∀ m, memberInForm m = true →
      exec (.fillAnswer tag m) s = .next (endStep (takeFillAnswer tag m x)))
    ∧ ∀ card, 0 < card → card < 2 ^ 56 →
      exec (.fillAnswerNotFound tag card) s = .next (endStep (takeFillNotFound tag card x)))
  ∧ ∀ s f w h, Clean s → SequencesAgree s →
    s.cc.fills.find? (fun x => decide (x.card = f.card)) = some f → f.waiter = some w →
    s.hu.find? (fun x => decide (x.tag = w.tag)) = some h →
    let fills := s.cc.fills.filter fun x => decide (x.card ≠ f.card)
    let up := { s with
      sc := { s.sc with linkUp := true },
      cc := { s.cc with
        fills := fills, runCounter := 0,
        offlineGrants := if s.sc.linkUp = true then s.cc.offlineGrants else 0 } }
    let late := { s with
      sc := { s.sc with timebase := max s.sc.timebase f.expiry }, cc := { s.cc with fills := fills } }
    (∀ tag m, m.card = f.card →
      let answers := fun o b x => takeFillAnswer tag m s = reply .uplink .fillAnswer tag o b x
      (f.poisoned = true → answers .discarded .empty (denyHire h .revoked up))
      ∧ (f.poisoned = false → ∀ p x, placeMember m up = (p, x) →
        (∀ e, p = .placed ∨ p = .refreshed →
          (vget x.cc.sets (cardSet m.card)).find? (fun e => decide (e.card = m.card)) = some e →
          answers (if p = .placed then .placed else .refreshed) (.clamped (memberLimited m))
            (decideOnline h
              { standing := e.standing.getD .active, plan := e.plan, hireLimit := e.hireLimit,
                pendingCount := e.pendingTrips.length,
                openCount := (min 15 (max 0 (e.baseOpen + e.hireAdj))).toNat,
                balance := max (-1000000) (e.balance - e.fareAdj) } x))
        ∧ (p = .notKept true →
          answers .notKept (.clamped (memberLimited m)) (denyHire h .revoked x))
        ∧ (p = .notKept false →
          let within := fun (lo hi x : Int) => if x < lo then lo else if hi < x then hi else x
          let out := (allDocks.filter fun d =>
            decide ((dockOf d s).state = .unlocking ∨ (dockOf d s).state = .offered
              ∨ (dockOf d s).state = .relocking)
            && (match (dockOf d s).holder with
                | some (.hire _ (some t)) => decide (t.card = m.card)
                | _ => false)).length
          let adj := recompute m.card m.baseMark out s
          answers .notKept (.clamped (memberLimited m))
            (decideOnline h
              { standing := (standingOf m.standing).getD .active, plan := m.plan,
                hireLimit := (within 1 4 m.hireLimit).toNat, pendingCount := out,
                openCount := (min 15 (max 0 (within 0 15 m.baseOpen + adj.1))).toNat,
                balance := max (-1000000) (within (-1000000) 1000000 m.balance - adj.2) } x))))
    ∧ (∀ tag,
      let answers := fun o x => takeFillNotFound tag f.card s = reply .uplink .fillAnswer tag o .empty x
      (f.poisoned = true → answers .discarded (denyHire h .revoked up))
      ∧ (f.poisoned = false →
        answers .notFoundTaken (invalidateEntry f.card (denyHire h .unknownCard up)).2))
    ∧ (f.poisoned = true → fillExpires f.card s = advanceRun (denyHire h .revoked late))
    ∧ (f.poisoned = false →
      (∀ kind plan x, decideOffline f.card w.plan late = (.grant kind plan, x) →
        fillExpires f.card s = advanceRun (grantHire h kind plan x))
      ∧ ∀ reason x, decideOffline f.card w.plan late = (.deny reason, x) →
        fillExpires f.card s = advanceRun (denyHire h reason x))

/-- What a release and an arrival do to the card's entry. A release begun with fewer than four pending
is listed and raises the hire adjustment; its lapse or failure takes both back; its take unlists it, and
a take that is not listed raises the adjustment; an arrival lowers it and adds the fare. The limits are
−96, +100 and 6,291,360, and an entry REVOKED with its last release gone is removed. Without an entry
nothing changes (R42, R47, R48, R49; that R42's bound limits the raise of a release begun is the model's
reading, assumption 41). -/
def Obligations.WriteThroughsFollowTheReleases : Prop :=
  ∀ s card trip fare,
    let l := vget s.cc.sets (cardSet card)
    let putSet := fun set => s.setCc { s.cc with sets := vset s.cc.sets (cardSet card) set }
    ((∀ e ∈ l, e.card ≠ card) →
      releaseBegun card trip s = s ∧ releaseUndone card trip s = s ∧ releaseTaken card trip s = s
        ∧ arrivalWrite card fare s = s)
    ∧ ∀ a e b, l = a ++ e :: b → (∀ x ∈ a ++ b, x.card ≠ card) → e.card = card →
      let ends := fun (e' : CardEntry) =>
        if e'.state = .revoked ∧ e'.pendingTrips = [] then putSet (a ++ b) else putSet (a ++ e' :: b)
      releaseBegun card trip s =
        (if e.pendingTrips.length < 4 then
          putSet (a ++ { e with
            pendingTrips := e.pendingTrips ++ [trip], hireAdj := min 100 (e.hireAdj + 1) } :: b)
        else s)
      ∧ releaseUndone card trip s =
        ends (if trip ∈ e.pendingTrips then
          { e with pendingTrips := e.pendingTrips.erase trip, hireAdj := max (-96) (e.hireAdj - 1) }
        else e)
      ∧ releaseTaken card trip s =
        ends (if trip ∈ e.pendingTrips then { e with pendingTrips := e.pendingTrips.erase trip }
        else { e with hireAdj := min 100 (e.hireAdj + 1) })
      ∧ arrivalWrite card fare s =
        putSet (a ++ { e with
          hireAdj := max (-96) (e.hireAdj - 1), fareAdj := min 6291360 (e.fareAdj + fare) } :: b)

/-! ### Hires (chapter 4) -/

/-- A HIRE that passes its checks, its dock and the claim gate reserves its dock for its record and, with
the link UP and no entry of its card, waits on a fill issued for it; in general it is authorised with its
record in AUTH_WAIT and its holder on the dock. The dock is the one named, or for ANY the hireable dock
with the oldest docked since, the lowest-numbered among equals (R65, R68 to R71, R24, R50, R51; what the
authorisation comes to, AuthorisationsGrantOrDeny says; the fill's expiry is on the model's timebase,
assumption 4). -/
def Obligations.HiresReserveAndAskAFill : Prop :=
  ∀ tag card request plan d s, Accepts .terminal .hire tag s → hireInForm card request plan = true →
    Clean s → ClaimsRight s → s.sc.mode = .inService → commissioned s = true →
    (∀ h ∈ s.hu, h.tag ≠ tag ∧ (h.card = card → h.state ≠ .authWait ∧ h.state ≠ .unlocking)) →
    hireable d s = true →
    (request = .dock d.val ∨ (request = .any ∧ ∀ e, hireable e s = true →
      dockedSince d s < dockedSince e s ∨ (dockedSince d s = dockedSince e s ∧ d ≤ e))) →
    s.rq.held.length + s.rq.claimTotal + 2 ≤ 96 →
    let h : HireRecord :=
      { tag := tag, card := card, dockRequest := if request = .any then none else some d, plan := plan,
        state := .authWait, chosen := some d, cancelRequested := false }
    let x := takeSlot .terminal .hire tag
      (giveAnswer .terminal (answerFor .accepted tag (kindCode .hire) .nothing) s)
    let docks := vset s.dlc.docks d { dockOf d s with holder := some (.hire tag none) }
    exec (.hire tag card request plan) s =
      .next (endStep (authorise h
        { x with hu := s.hu ++ [h], dlc := { s.dlc with docks := docks } }))
    ∧ ((∀ e ∈ vget s.cc.sets (cardSet card), e.card ≠ card) → s.sc.linkUp = true →
    (∀ f ∈ s.cc.fills, f.card ≠ card) → s.cc.fills.length < 8 →
    ∃ t, exec (.hire tag card request plan) s = .next t ∧ Taken .terminal .hire tag s t
      ∧ StoreKept s t
      ∧ t = { s with
          pi := t.pi, rs := t.rs, hu := s.hu ++ [h], dlc := { s.dlc with docks := docks },
          cc := { s.cc with
            fills := s.cc.fills ++
              [{ card := card, fetched := false, issuedAt := stationTime s,
                 expiry := s.sc.timebase + 1000 * s.sc.config.fillTimeout,
                 waiter := some { tag := tag, plan := plan }, poisoned := false }] } })

/-- A HIRE that fails a check, finds no dock or is not admitted by the gate is answered by the first
that fails, its record is ENDED and nothing else changes: NOT_IN_SERVICE, NOT_COMMISSIONED, RETRY for a
card with a hire not ended, RETRY for a named dock whose only lack is its holder, NO_BIKE with the
failing conditions for any other, and with none for ANY, and BACKLOG (R67 to R70). A named dock that a
collect releases, and that lacks no more than that, is answered RETRY too (R137); that R137 goes before R69's
list there is the model's choice (assumption 38). -/
def Obligations.HiresAreTurnedAway : Prop :=
  ∀ tag card request plan s, Accepts .terminal .hire tag s → hireInForm card request plan = true →
    Clean s → (∀ h ∈ s.hu, h.tag ≠ tag) →
    let ended := fun o b dock =>
      ∃ t, exec (.hire tag card request plan) s = .next t ∧ Replied .terminal .hire tag o b s t
        ∧ StoreKept s t
        ∧ t = { s with
            pi := t.pi, rs := t.rs,
            hu := s.hu ++
              [{ tag := tag, card := card, dockRequest := dock, plan := plan, state := .ended,
                 chosen := none, cancelRequested := false }] }
    let retries := fun d => failing d s = [3] ∨ failing d s = [1, 3]
      ∧ ∃ slot index crew, (dockOf d s).holder = some (.order slot index crew)
    let sameCard := ∃ h ∈ s.hu, h.card = card ∧ (h.state = .authWait ∨ h.state = .unlocking)
    ∀ dock : Option DockNo, request = (match dock with | some d => .dock d.val | none => .any) →
      (s.sc.mode ≠ .inService → ended .notInService .empty dock)
      ∧ (s.sc.mode = .inService →
        (commissioned s = false → ended .notCommissioned .empty dock)
        ∧ (commissioned s = true →
          (sameCard → ended .retry (.retry .sameCard) dock)
          ∧ (¬sameCard →
            (∀ d, dock = some d → retries d → ended .retry (.retry .dockHeld) dock)
            ∧ (∀ d, dock = some d → hireable d s = false → ¬retries d →
                ended .noBike (.noBike (failing d s)) dock)
            ∧ (dock = none → (∀ d, hireable d s = false) → ended .noBike (.noBike []) dock)
            ∧ ((∀ d, dock = some d → hireable d s = true) →
                (dock = none → ∃ d, hireable d s = true) →
                96 < s.rq.held.length + s.rq.claimTotal + 2 → ended .backlog .empty dock))))

/-- What an authorisation comes to. A denial withdraws the hire's holder from its dock while that is
DOCKED, answers DENIED with the reason and ends the record. The online decision tests the plan of the
hire, the standing, the balance and the open count in order and denies by the first that fails, or grants
ONLINE. The offline decision of a VALID entry makes the same tests and then grants STALE where the plan
allows it; an entry REVOKED, and a PROVISIONAL one that is out, are denied; without an entry, in BYPASS
and for any other PROVISIONAL one the unknown-card test decides, whose grant is counted and, without an
entry, allocated as PROVISIONAL. A lookup moves the entry it finds to the head of its set and denies
REVOKED, decides on a fresh VALID entry while serving, and otherwise waits on a fill, the one the card has
or one issued for it, or, with the link DOWN or no fill room, decides offline (R43, R44, R50, R51, R61, R62,
R71 to R74; a fill's expiry is on the model's timebase, assumption 4). -/
def Obligations.AuthorisationsGrantOrDeny : Prop :=
  let tested := fun (terms : Option Plan) (v : HandedValues) (denies : DenyReason → Prop)
      (passes : Plan → Prop) =>
    (terms = none → denies .planUndefined)
    ∧ ∀ p, terms = some p →
      (v.standing = .barred → denies .barred)
      ∧ (v.standing = .expired → denies .expired)
      ∧ (v.standing = .active →
        (v.balance < p.minBalance → denies .lowBalance)
        ∧ (p.minBalance ≤ v.balance →
          (v.hireLimit ≤ v.openCount ∨ 4 ≤ v.pendingCount → denies .limit)
          ∧ (v.openCount < v.hireLimit → v.pendingCount < 4 → passes p)))
  let values := fun (e : CardEntry) =>
    { standing := e.standing.getD .active, plan := e.plan, hireLimit := e.hireLimit,
      pendingCount := e.pendingTrips.length,
      openCount := (min 15 (max 0 (e.baseOpen + e.hireAdj))).toNat,
      balance := max (-1000000) (e.balance - e.fareAdj) : HandedValues }
  let isOut := fun (e : CardEntry) => e.pendingTrips ≠ [] ∨ 1 ≤ (e.baseOpen : Int) + e.hireAdj
  ∀ s, Clean s →
    (∀ h d reason, h.chosen = some d →
      let kept := (dockOf d s).state = .docked ∧ ∃ stamp, (dockOf d s).holder = some (.hire h.tag stamp)
      let answered := hireAnswered h.tag .denied (.denied reason) .ended
      (kept → denyHire h reason s =
        answered (dockPut d { dockOf d s with holder := none } (lineOf d s) 0 s))
      ∧ (¬kept → denyHire h reason s = answered s))
    ∧ (∀ h v,
      let plan := h.plan.getD v.plan
      tested (planOf plan s) v (fun reason => decideOnline h v s = denyHire h reason s)
        (fun _ => decideOnline h v s = grantHire h .online plan s))
    ∧ (∀ card asked,
      let l := vget s.cc.sets (cardSet card)
      let denies := fun reason => decideOffline card asked s = (.deny reason, s)
      let config := s.sc.config
      let default := config.defaultOfflinePlan
      let counted := fun sets => { s with
        cc := { s.cc with offlineGrants := s.cc.offlineGrants + 1, sets := sets } }
      let grants := fun sets => decideOffline card asked s = (.grant .offlineUnknown default, counted sets)
      let unknown := fun (passes : Prop) =>
        (config.offlineUnknownAllowed = false → denies .offlineRefused)
        ∧ (config.offlineUnknownAllowed = true →
          (config.offlineQuota ≤ s.cc.offlineGrants → denies .offlineRefused)
          ∧ (s.cc.offlineGrants < config.offlineQuota →
            (planOf default s = none → denies .planUndefined) ∧ (planOf default s ≠ none → passes)))
      let fresh : CardEntry :=
        { state := .provisional, card := card, standing := none, plan := default, balance := 0,
          hireLimit := 1, baseOpen := 0, filledAt := none, hireAdj := 0, fareAdj := 0,
          pendingTrips := [] }
      let put := fun m => vset s.cc.sets (cardSet card) m
      ((∀ e ∈ l, e.card ≠ card) → unknown
        ((s.cc.allocate = false → grants s.cc.sets)
        ∧ (s.cc.allocate = true → l.length < 4 → grants (put (fresh :: l)))
        ∧ (s.cc.allocate = true → 4 ≤ l.length → (∀ e ∈ l, e.pendingTrips ≠ []) → grants s.cc.sets)
        ∧ ∀ a v b, s.cc.allocate = true → 4 ≤ l.length → l = a ++ v :: b → v.pendingTrips = [] →
          (∀ e ∈ b, e.pendingTrips ≠ []) → grants (put (fresh :: (a ++ b)))))
      ∧ ∀ e, l.find? (fun e => decide (e.card = card)) = some e →
        (e.state = .revoked → denies .revoked)
        ∧ (e.state ≠ .revoked → s.cc.serve = false → unknown (grants s.cc.sets))
        ∧ (e.state = .valid → s.cc.serve = true →
          let plan := asked.getD e.plan
          tested (planOf plan s) (values e) denies fun p =>
            (p.offline = true → decideOffline card asked s = (.grant .stale plan, s))
            ∧ (p.offline = false → denies .offlineRefused))
        ∧ (e.state = .provisional → s.cc.serve = true →
          (isOut e → denies .limit) ∧ (¬isOut e → unknown (grants s.cc.sets))))
    ∧ ∀ h,
      let l := vget s.cc.sets (cardSet h.card)
      let w : Waiter := { tag := h.tag, plan := h.plan }
      let fills := fun (x y : State) => s.sc.linkUp = true →
        (∀ f, s.cc.fills.find? (fun f => decide (f.card = h.card)) = some f →
          y = { x with cc := { x.cc with fills := s.cc.fills.map fun f =>
            if f.card = h.card then { f with waiter := some w } else f } })
        ∧ ((∀ f ∈ s.cc.fills, f.card ≠ h.card) → s.cc.fills.length < 8 →
          y = { x with cc := { x.cc with fills := s.cc.fills ++
            [{ card := h.card, fetched := false, issuedAt := stationTime s,
               expiry := s.sc.timebase + 1000 * s.sc.config.fillTimeout, waiter := some w,
               poisoned := false }] } })
      let decides := fun x y =>
        s.sc.linkUp = false ∨ (8 ≤ s.cc.fills.length ∧ ∀ f ∈ s.cc.fills, f.card ≠ h.card) →
        (∀ kind plan z, decideOffline h.card h.plan x = (.grant kind plan, z) →
          y = grantHire h kind plan z)
        ∧ ∀ reason z, decideOffline h.card h.plan x = (.deny reason, z) → y = denyHire h reason z
      ((∀ e ∈ l, e.card ≠ h.card) → fills s (authorise h s) ∧ decides s (authorise h s))
      ∧ ∀ a e b, l = a ++ e :: b → e.card = h.card → (∀ x ∈ a ++ b, x.card ≠ h.card) →
        let touched :=
          { s with cc := { s.cc with sets := vset s.cc.sets (cardSet h.card) (e :: (a ++ b)) } }
        let fresh := e.state = .valid ∧ s.cc.serve = true ∧ s.sc.station.clockValid = true
          ∧ ∃ t, e.filledAt = some t ∧ t ≤ s.sc.clock
            ∧ s.sc.clock ≤ t + s.sc.config.maximumAge * 60
        (e.state = .revoked → authorise h s = denyHire h .revoked touched)
        ∧ (fresh → authorise h s = decideOnline h (values e) touched)
        ∧ (e.state ≠ .revoked → ¬fresh →
          fills touched (authorise h s) ∧ decides touched (authorise h s))

/-- A grant makes the stamp with the next trip number and begins the release at the chosen dock: the dock
is UNLOCKING under the stamped holder with its ACTUATION deadline held open, a RELEASE waits, its claim
is counted as 2, the dock and the station records are handed, the watches are told of the RELEASE, the record
is UNLOCKING, and an entry of the card with fewer than four pending lists the trip and raises its hire
adjustment by 1. Where the gate
refuses, the hire is answered BACKLOG, and where the dock is not DOCKED under the hire's holder or fails a
condition besides it, NO_BIKE with the conditions that now fail, or none for ANY; either withdraws the
holder from a dock still DOCKED, ends the record, and leaves the trip counter and the card's entry as they
were (R75 to R77, R12, R8, R69, R113, R168, R47; what a dock event does to the watches,
WatchesAreSetAndHit says; R42's bound on the adjustment is assumption 41). -/
def Obligations.GrantsBeginTheRelease : Prop :=
  ∀ s h kind plan d r, Clean s → ClaimsRight s → h.chosen = some d → dockOf d s = r →
    let own := r.state = .docked ∧ r.holder = some (.hire h.tag none) ∧ r.deadline = none
      ∧ failing d s = [3]
    let fits := s.rq.held.length + s.rq.claimTotal + 2 ≤ 96
    let withdrawn := dockPut d { r with holder := none } (lineOf d s) 0 s
    (own → ¬fits →
      grantHire h kind plan s = hireAnswered h.tag .backlog .empty .ended withdrawn)
    ∧ (¬own →
      let noBike := fun y => grantHire h kind plan s =
        hireAnswered h.tag .noBike
          (.noBike (if h.dockRequest = none then [] else failing d y)) .ended y
      (∀ stamp, r.state = .docked → r.holder = some (.hire h.tag stamp) → noBike withdrawn)
      ∧ (r.state ≠ .docked ∨ (∀ stamp, r.holder ≠ some (.hire h.tag stamp)) → noBike s))
    ∧ (own → fits →
    let stamp : Stamp :=
      { origin := s.sc.station.id, trip := (s.sc.station.trip + 1) % 65536, card := h.card,
        start := stationTime s, plan := plan, auth := kind }
    let record := { r with
      state := .unlocking, holder := some (.hire h.tag (some stamp)),
      deadline := some (.actuation none false) }
    let station := { s.sc.station with trip := stamp.trip }
    grantHire h kind plan s =
      { dockEvent .release d s with
        dlc := { s.dlc with
          docks := vset s.dlc.docks d record,
          lines := vset s.dlc.lines d
            { lineOf d s with waiting := placeIn (.release (some stamp)) (lineOf d s).waiting } },
        rq := { s.rq with
          claims := vset s.rq.claims d 2, claimTotal := s.rq.claimTotal + 2 },
        rs := handAll
          ((.dock d, .dock (retainedOf record)) :: bothCopies .station (.station station)) s.rs,
        sc := { s.sc with station := station },
        cc := { s.cc with
          sets := vset s.cc.sets (cardSet h.card)
            ((vget s.cc.sets (cardSet h.card)).map fun e =>
              if e.card = h.card ∧ e.pendingTrips.length < 4 then
                { e with
                  pendingTrips := e.pendingTrips ++ [stamp.trip], hireAdj := min 100 (e.hireAdj + 1) }
              else e) },
        hu := s.hu.map fun x => if x.tag = h.tag then { x with state := .unlocking } else x })

/-- CANCEL of a tag without record is answered NO_SUCH_TAG, of a hire in UNLOCKING PENDING with the cancel
requested, of one OFFERED or ENDED TOO_LATE. A hire in AUTH_WAIT ends with CANCELLED: its holder and its
fill's waiter are withdrawn, and the reply names the dock whose holder was (R83 to R85, R63). That the
HIRE's reply is finished before the CANCEL's is the model's choice (assumption 15). -/
def Obligations.CancelsEndTheWaiting : Prop :=
  ∀ tag target s, Accepts .terminal .cancel tag s →
    let answered := fun o hu =>
      ∃ t, exec (.cancel tag target) s = .next t ∧ Replied .terminal .cancel tag o .empty s t
        ∧ StoreKept s t ∧ t = { s with pi := t.pi, rs := t.rs, hu := hu }
    let change := fun f => s.hu.map fun x => if x.tag = target then f x else x
    ((∀ h ∈ s.hu, h.tag ≠ target) → answered .noSuchTag s.hu)
    ∧ ∀ h, s.hu.find? (fun x => decide (x.tag = target)) = some h →
      (h.state = .unlocking →
        answered .pending (change fun x => { x with cancelRequested := true }))
      ∧ (h.state = .offered ∨ h.state = .ended → answered .tooLate s.hu)
      ∧ (h.state = .authWait → ∀ d stamp, h.chosen = some d → ClaimsRight s →
        (dockOf d s).state = .docked → (dockOf d s).holder = some (.hire target stamp) →
        ∃ t, exec (.cancel tag target) s = .next t
          ∧ getPort .terminal t =
            { getPort .terminal s with
              unfinished := (getPort .terminal s).unfinished.filter fun u => decide (u.1 ≠ target),
              finished := (getPort .terminal s).finished ++
                [{ tag := target, kind := .hire, outcome := .cancelled, body := .dock (some d) },
                 { tag := tag, kind := .cancel, outcome := .done, body := .empty }],
              answer := some (answerFor .accepted tag 5 .nothing), reported := .clear,
              attention := (getPort .terminal t).attention }
          ∧ OtherPorts .terminal s t ∧ StoreKept s t
          ∧ t = { s with
              pi := t.pi, rs := t.rs, hu := change fun x => { x with state := .ended },
              dlc := { s.dlc with
                docks := vset s.dlc.docks d { dockOf d s with holder := none } },
              cc := { s.cc with
                fills := s.cc.fills.map fun f =>
                  if f.waiter.any (fun w => decide (w.tag = target)) then { f with waiter := none }
                  else f } })

/-- STATION_VIEW answers with the mode, whether the station is commissioned, and each dock's state,
suspension and hireability, with the bike id of a hireable dock; it changes nothing. A dock is hireable
when it is DOCKED, not suspended, has no holder, has a bike with an id, not in the registry and not
marked, and no enabled HOLD watch covers it (R89, R23). -/
def Obligations.StationViewShowsTheDocks : Prop :=
  ∀ tag s, Accepts .terminal .stationView tag s → Clean s →
    ∃ t docks, exec (.stationView tag) s = .next t
      ∧ Replied .terminal .stationView tag .done
          (.stationView s.sc.mode
            (decide (s.sc.station.id ≠ 0 ∧ s.sc.station.clockValid = true)) docks) s t
      ∧ StoreKept s t ∧ t = { s with pi := t.pi, rs := t.rs }
      ∧ docks.length = 48
      ∧ ∀ d : DockNo, ∃ e, docks[d.val]? = some e
        ∧ e.state = (vget s.dlc.docks d).state ∧ e.suspended = (vget s.dlc.docks d).suspended
        ∧ (e.hireable = true ↔ ∃ b, (vget s.dlc.docks d).bike = some b
            ∧ (vget s.dlc.docks d).state = .docked ∧ (vget s.dlc.docks d).suspended = false
            ∧ (vget s.dlc.docks d).holder = none ∧ b.id ≠ 0
            ∧ (∀ f ∈ s.flt.registry, f.bike ≠ b.id) ∧ b.mark = false ∧ held d s = false)
        ∧ e.bike = if e.hireable then (vget s.dlc.docks d).bike.map Bike.id else none

/-! ### The report queue (chapter 6) -/

/-- REPORT_READ takes up to its number of held records from the read mark on, with restart from the
oldest record, and moves the mark past them; the reply has the number of records left unread and the
records' bytes, and nothing leaves the queue. REPORT_RELEASE removes the oldest held records up to the one
it names, which must have been read; naming no held record is answered NO_SUCH_RECORD and naming one not
read NOT_READ, and both change nothing. The head is handed for each change of the mark and of the oldest
record (R116 to R118, R207); that it holds the count of held records is read from R171 and R176 (assumption
19). -/
def Obligations.ReportsAreReadThenReleased : Prop :=
  (∀ tag n (restart : Bool) s read taken rest, Accepts .uplink .reportRead tag s → n ≤ 4 → Clean s →
    SequencesAgree s →
      let oldest := (s.rq.held.head?.map Report.seq).getD s.rq.nextSeq
      let mark := if restart then oldest else s.rq.readMark
      s.rq.held = read ++ taken ++ rest → s.rq.held.length ≤ 96 → mark < 4294967296 →
      (mark + 4294967296 - oldest % 4294967296) % 4294967296 = read.length →
      taken.length = min n (taken ++ rest).length →
      let next := (mark + taken.length) % 4294967296
      let head := fun m => bothCopies .queueHead (.queueHead { queueHeadOf s with readMark := m })
      let handed :=
        (if mark = s.rq.readMark then [] else head mark) ++ (if taken = [] then [] else head next)
      ∃ t, exec (if restart then .reportReadRestart tag n else .reportRead tag n) s = .next t
        ∧ Replied .uplink .reportRead tag .done
            (.bytes (leBytes 1 rest.length ++ (taken.map reportBytes).flatten)) s t
        ∧ (if handed = [] then StoreKept s t else t.rs = stepHands handed s.rs)
        ∧ t = { s with pi := t.pi, rs := t.rs, rq := { s.rq with readMark := next } })
  ∧ ∀ tag seq s, Accepts .uplink .reportRelease tag s → Clean s →
    let oldest := (s.rq.held.head?.map Report.seq).getD s.rq.nextSeq
    let distance := fun q => (q + 4294967296 - oldest % 4294967296) % 4294967296
    let k := distance seq + 1
    let refused := fun o =>
      ∃ t, exec (.reportRelease tag seq) s = .next t
        ∧ Replied .uplink .reportRelease tag o .empty s t
        ∧ StoreKept s t ∧ t = { s with pi := t.pi, rs := t.rs }
    (s.rq.held.length ≤ distance seq → refused .noSuchRecord)
    ∧ (distance seq < s.rq.held.length → distance s.rq.readMark ≤ distance seq → refused .notRead)
    ∧ (distance seq < s.rq.held.length → distance seq < distance s.rq.readMark →
      let place : Fin 96 := ⟨(s.rq.oldestPlace.val + k) % 96, Nat.mod_lt _ (by decide)⟩
      ∃ t, exec (.reportRelease tag seq) s = .next t
        ∧ Replied .uplink .reportRelease tag .released (.count k) s t
        ∧ t.rs = stepHands
            (bothCopies .queueHead (.queueHead
              { nextSeq := s.rq.nextSeq, readMark := s.rq.readMark, oldest := place,
                count := s.rq.held.length - k })) s.rs
        ∧ t = { s with
            pi := t.pi, rs := t.rs,
            rq := { s.rq with held := s.rq.held.drop k, oldestPlace := place } })

/-- A record queued takes the next sequence number, is appended after the newest and is handed with the
queue head to the next place of the ring; TIME_INVALID is set exactly when the clock is not valid, and
the time is then 0 (R108 to R110, R172). That the head handed holds the count of held records is read from
R171 and R176 (assumption 19). -/
def Obligations.QueuedRecordsTakeTheNextSequence : Prop :=
  ∀ n s, Clean s →
    let report : Report :=
      { seq := s.rq.nextSeq, kind := some n.kind,
        place := some
          { time := if s.sc.station.clockValid then s.sc.clock else 0, dock := n.dock,
            bike := n.bike },
        flags := { timeInvalid := !s.sc.station.clockValid, fare := n.fareFlags,
                   clearFailed := n.clearFailed, damaged := false },
        hire := n.hire, fare := n.fare, move := n.move }
    let next := (s.rq.nextSeq + 1) % 4294967296
    let place : Fin 96 :=
      ⟨(s.rq.oldestPlace.val + s.rq.held.length) % 96, Nat.mod_lt _ (by decide)⟩
    queueReport n s =
      { s with
        rq := { s.rq with held := s.rq.held ++ [report], nextSeq := next },
        rs := handAll
          (bothCopies .queueHead (.queueHead
            { nextSeq := next, readMark := s.rq.readMark, oldest := s.rq.oldestPlace,
              count := s.rq.held.length + 1 })
            ++ [(.report place, .report report)]) s.rs }

/-! ### Work orders and tables (chapters 7 and 8) -/

/-- CREW_LOAD puts the crew's entry, its map length limited to 48 and its map cut to it, in place of the
crew's entry or in a free place, and CREW_DROP removes the crew's entry; each hands the place. FLOOR_SET
and POLICY_SET put a kind's floor and policy, hand it, and answer with the one before; a fixed policy is
answered FIXED and stays (R125, R126, R128, R156). That an added entry takes the lowest free place, and
how the replies' bodies stand, is the model's choice (assumptions 17, 33). -/
def Obligations.TablesTakeTheirRows : Prop :=
  ∀ tag s, Clean s →
    (∀ crew level mapLength permits, Accepts .uplink .crewLoad tag s → 0 < crew → crew ≤ 65535 →
      level ≤ 2 → permits.length = 48 →
      let entry : Crew :=
        { id := crew, level := level, mapLength := min mapLength 48,
          map := permits.take (min mapLength 48) }
      let loads := fun o crews (handed : List (Place × Content)) =>
        ∃ t, exec (.crewLoad tag crew level mapLength permits) s = .next t
          ∧ Replied .uplink .crewLoad tag o (.clamped (decide (48 < mapLength))) s t
          ∧ (if handed = [] then StoreKept s t else t.rs = stepHands handed s.rs)
          ∧ t = { s with pi := t.pi, rs := t.rs, woe := { s.woe with crews := crews } }
      let put := fun o i => loads o (vset s.woe.crews i (some entry)) [(.crew i, .crew (some entry))]
      (∀ i c, vget s.woe.crews i = some c → c.id = crew →
        (∀ j < i, ∀ c, vget s.woe.crews j = some c → c.id ≠ crew) → put .replaced i)
      ∧ ((∀ i c, vget s.woe.crews i = some c → c.id ≠ crew) →
        (∀ i, vget s.woe.crews i = none → (∀ j < i, vget s.woe.crews j ≠ none) → put .added i)
        ∧ ((∀ i, vget s.woe.crews i ≠ none) → loads .tableFull s.woe.crews [])))
    ∧ (∀ crew, Accepts .uplink .crewDrop tag s →
      let drops := fun o crews (handed : List (Place × Content)) =>
        ∃ t, exec (.crewDrop tag crew) s = .next t ∧ Replied .uplink .crewDrop tag o .empty s t
          ∧ (if handed = [] then StoreKept s t else t.rs = stepHands handed s.rs)
          ∧ t = { s with pi := t.pi, rs := t.rs, woe := { s.woe with crews := crews } }
      (∀ i c, vget s.woe.crews i = some c → c.id = crew →
        (∀ j < i, ∀ c, vget s.woe.crews j = some c → c.id ≠ crew) →
        drops .dropped (vset s.woe.crews i none) [(.crew i, .crew none)])
      ∧ ((∀ i c, vget s.woe.crews i = some c → c.id ≠ crew) → drops .noSuchCrew s.woe.crews []))
    ∧ (∀ kind floor, Accepts .uplink .floorSet tag s → floor ≤ 2 →
      ∃ t, exec (.floorSet tag kind floor) s = .next t
        ∧ Replied .uplink .floorSet tag .done
            (.count (vget s.woe.floors (orderIndex kind))) s t
        ∧ t.rs = stepHands [(.floor kind, .floor floor)] s.rs
        ∧ t = { s with
            pi := t.pi, rs := t.rs,
            woe := { s.woe with floors := vset s.woe.floors (orderIndex kind) floor } })
    ∧ ∀ kind policy, Accepts .uplink .policySet tag s →
      let fixed := kind = .lockJam ∨ kind = .storeDamaged
      (fixed → ∃ t, exec (.policySet tag kind policy) s = .next t
        ∧ Replied .uplink .policySet tag .fixed .empty s t ∧ StoreKept s t
        ∧ t = { s with pi := t.pi, rs := t.rs })
      ∧ (¬fixed → ∃ t, exec (.policySet tag kind policy) s = .next t
        ∧ Replied .uplink .policySet tag .done
            (.policyWas (vget s.flt.policies (faultIndex kind))) s t
        ∧ t.rs = stepHands [(.policy kind, .policy policy)] s.rs
        ∧ t = { s with
            pi := t.pi, rs := t.rs,
            flt := { s.flt with policies := vset s.flt.policies (faultIndex kind) policy } })

/-- ORDER_SUBMIT checks the crew, the list and the slots in turn, answering UNKNOWN_CREW, BAD_ORDER with
the first order at fault, or SLOTS_FULL; a list that passes takes the lower-numbered open slot whole, and
runs at once where nothing runs or waits before it and the survey is over, and is QUEUED otherwise: behind
the survey while the mode is STARTING, and behind the other slot after it (R131 to R133; which of the two
the reply tells while both hold it back is the model's choice, assumption 17). -/
def Obligations.SubmittedListsTakeASlot : Prop :=
  ∀ tag crew orders s, Accepts .service .orderSubmit tag s → Clean s →
    let known := ∃ i c, vget s.woe.crews i = some c ∧ c.id = crew
    let isOpen := fun i =>
      vget s.woe.slots i = none ∨ ∃ w, vget s.woe.slots i = some w ∧ (w.state = .ended ∨ w.state = .aborted)
    let active := ∃ i w, vget s.woe.slots i = some w ∧ (w.state = .running ∨ w.state = .waiting)
    let answered := fun o b woe =>
      ∃ t, exec (.orderSubmit tag crew orders) s = .next t
        ∧ Replied .service .orderSubmit tag o b s t ∧ StoreKept s t
        ∧ t = { s with pi := t.pi, rs := t.rs, woe := woe }
    (¬known → answered .unknownCrew .empty s.woe)
    ∧ (known →
      (∀ (i : Fin 24) o, orders[i.val]? = some o → orderInForm orders.length o = false →
        (∀ (j : Fin 24) o, j < i → orders[j.val]? = some o → orderInForm orders.length o = true) →
        answered .badOrder (.index i.val) s.woe)
      ∧ (0 < orders.length → orders.length ≤ 24 → (∀ o ∈ orders, orderInForm orders.length o = true) →
        ((∀ i, ¬isOpen i) → answered .slotsFull .empty s.woe)
        ∧ ∀ i, isOpen i → (∀ j < i, ¬isOpen j) →
          let slot : WorkSlot :=
            { state := .queued, crew := crew, orders := orders, index := 0, executed := 0,
              results := [], submittedAt := stationTime s, startedAt := none, endedAt := none,
              abort := none, progress := none }
          (s.woe.startList = [] → ¬active → s.sc.mode ≠ .starting →
            answered .submitted (.submitted i .started)
              { s.woe with
                slots := vset s.woe.slots i
                  (some { slot with state := .running, startedAt := some (stationTime s) }) })
          ∧ (active ∨ s.sc.mode = .starting →
            answered .submitted
              (.submitted i (if s.sc.mode = .starting then .behindSurvey else .behindSlot))
              { s.woe with
                slots := vset s.woe.slots i (some slot), startList := s.woe.startList ++ [i] })))

/-- ORDER_STATUS shows a slot as it stands, and for a QUEUED one its place in the start list. ORDER_ABORT
by the slot's crew or a supervisor cuts an active slot short, its order in WAITING ending PARTIAL with
what it had done, raises ORDER_ABORTED and starts the first QUEUED slot; of a QUEUED slot it takes the list
out of the start list, with index 0, and raises ORDER_ABORTED. Any other crew is answered NOT_PERMITTED, and
a slot that is not active or queued NOT_ACTIVE (R147, R148, R131, R136; what a raising does,
RaisingsFollowThePolicy says). -/
def Obligations.SlotsAreShownAndAborted : Prop :=
  ∀ tag (slot : Fin 2) s,
    (Accepts .service .orderStatus tag s →
      ∃ t v, exec (.orderStatus tag slot.val) s = .next t
        ∧ Replied .service .orderStatus tag .done (.slotStatus v) s t ∧ StoreKept s t
        ∧ t = { s with pi := t.pi, rs := t.rs }
        ∧ (vget s.woe.slots slot = none → v = none)
        ∧ ∀ w, vget s.woe.slots slot = some w →
          v = some
            { state := w.state, crew := w.crew, index := w.index, executed := w.executed,
              results := w.results, submittedAt := w.submittedAt, startedAt := w.startedAt,
              endedAt := w.endedAt, abort := w.abort, progress := w.progress,
              startPlace :=
                if w.state = .queued then
                  (s.woe.startList.findIdx? fun j => decide (j = slot)).map fun k => k + 1
                else none })
    ∧ ∀ crew, Accepts .service .orderAbort tag s → Clean s →
      let own := ∃ w, vget s.woe.slots slot = some w ∧ w.crew = crew
      let chief := ∃ c, crewOf crew s = some c ∧ c.level = 0
      let answered := fun o woe =>
        ∃ t, exec (.orderAbort tag slot.val crew) s = .next t
          ∧ Replied .service .orderAbort tag o .empty s t ∧ StoreKept s t
          ∧ t = { s with pi := t.pi, rs := t.rs, woe := woe }
      (¬own → ¬chief → answered .notPermitted s.woe)
      ∧ (own ∨ chief →
        ((∀ w, vget s.woe.slots slot = some w → w.state = .ended ∨ w.state = .aborted) →
          answered .notActive s.woe)
        ∧ ∀ w, vget s.woe.slots slot = some w →
          let leaves := fun (y : State) =>
            ∃ t, exec (.orderAbort tag slot.val crew) s = .next t
              ∧ Replied .service .orderAbort tag .aborted .empty y t ∧ StoreKept y t
              ∧ t = { y with pi := t.pi, rs := t.rs }
          let cuts := fun cut left =>
            leaves (startListJudged (abortRaised slot w .requested left (slotPut slot
              { w with
                state := .aborted, results := w.results ++ cut,
                abort := some (.requested, w.index), endedAt := some (stationTime s),
                progress := none } s)))
          (w.state = .running → w.progress = none → cuts [] 0)
          ∧ (∀ l taken ended stopped, w.state = .waiting →
            w.progress = some (.collect l taken ended stopped) →
            cuts [.partialDone taken .aborted] l.length)
          ∧ (∀ placed deadline, w.state = .waiting → w.progress = some (.place placed deadline) →
            cuts [.partialDone placed .aborted] 0)
          ∧ (w.state = .queued → w.progress = none →
            let first := { w with index := 0 }
            leaves (abortRaised slot first .requested 0 (slotPut slot
              { first with
                state := .aborted, abort := some (.requested, 0),
                endedAt := some (stationTime s) }
              { s with woe := { s.woe with
                  startList := s.woe.startList.filter fun j => decide (j ≠ slot) } }))))

/-- ORDER_EXECUTE checks the running slot's next order: executed count, crew, named docks, level. A failed
check aborts the slot with its reason; RESUME, CLEAR_BIKE and CLEAR_FAULT above their floor complete
NOT_APPLIED. An order that passes raises the executed count and acts, as OrdersActOnTheDocks says of each
kind: an END ends the slot, a JUMP_IF ALWAYS goes on at its target, a PLACE waits with its deadline. A
PLACE whose deadline comes completes PARTIAL with what it has placed. Where the slot is aborted, which
raises ORDER_ABORTED, or ends, the first QUEUED slot starts (R128, R131, R134, R135, R136, R140, R141, R146;
the deadline is on the model's timebase, assumption 4, and that END advances the index by 1 is the model's
reading, assumption 16). -/
def Obligations.OrdersAreCheckedAndRun : Prop :=
  ∀ s (i : Fin 2) w, running s = true → vget s.woe.slots i = some w →
    (∀ j v, j ≠ i → vget s.woe.slots j = some v → v.state ≠ .running ∧ v.state ≠ .waiting) →
    let executes := fun w' =>
      ∃ t, exec .orderExecute s = .next t ∧ PortsKept s t ∧ StoreKept s t
        ∧ t = { slotPut i w' s with pi := t.pi, rs := t.rs }
    let goes := fun c y => exec c s = .next (endStep y)
    (w.state = .running → Clean s → ∀ o, w.orders[w.index]? = some o →
      let aborts := fun reason => w.progress = none →
        goes .orderExecute (startListJudged (abortRaised i w reason 0 (slotPut i
          { w with
            state := .aborted, abort := some (reason, w.index), endedAt := some (stationTime s) }
          s)))
      (96 ≤ w.executed → aborts .orderLimit)
      ∧ (w.executed < 96 →
        (crewOf w.crew s = none → aborts .unknownCrew)
        ∧ ∀ c, crewOf w.crew s = some c →
          let allowed := ∀ d ∈ namedDocks o, d < c.mapLength ∧ c.map[d]? = some true
          (¬allowed → aborts .permission)
          ∧ (allowed →
            let floor := vget s.woe.floors (orderIndex (orderKindOf o))
            let mild := orderKindOf o = .resume ∨ orderKindOf o = .clearBike
              ∨ orderKindOf o = .clearFault
            (floor < c.level → ¬mild → aborts .level)
            ∧ (floor < c.level → mild →
              goes .orderExecute
                (orderCompleted i { w with executed := w.executed + 1 } .notApplied (w.index + 1) s))
            ∧ (c.level ≤ floor →
              goes .orderExecute (runOrder i { w with executed := w.executed + 1 } o s)
              ∧ (o = .endList false →
                goes .orderExecute (startListJudged (slotPut i
                  { w with
                    state := .ended, executed := w.executed + 1, results := w.results ++ [.done 0],
                    index := w.index + 1, endedAt := some (stationTime s) } s)))
              ∧ (∀ target, o = .jumpIf .always target → target < w.orders.length →
                executes { w with
                  executed := w.executed + 1, results := w.results ++ [.done 1],
                  index := target, progress := none })
              ∧ ∀ count timeout, o = .place count timeout →
                executes { w with
                  state := .waiting, executed := w.executed + 1,
                  progress := some (.place 0 (s.sc.timebase + 1000 * timeout)) }))))
    ∧ ∀ placed deadline count timeout, w.state = .waiting →
      w.progress = some (.place placed deadline) → w.orders[w.index]? = some (.place count timeout) →
      placed < count →
      goes .placeDeadline
        (orderCompleted i w (.partialDone placed .timeout) (w.index + 1)
          { s with sc := { s.sc with timebase := max s.sc.timebase deadline } })

/-- What the orders do. COLLECT takes the docks of its range in ascending order, each eligible one placed
under its holder and its release begun, while fewer than its count were admitted, and stops where the gate
refuses one, which it leaves as it was; it waits for the docks it released, and its outcomes count them
off until the last completes it. SUSPEND suspends every dock of its range and counts those that were not;
RESUME asks each dock in turn and stops at a BACKLOG. FLAG_BIKE and CLEAR_BIKE enter and remove the bike's
entry, the latter with a MARK clear at the dock that names the bike. CLEAR_FAULT acts on the kinds of its
choice in the dock's fault set: LOCK_JAM at a JAMMED dock starts a probe, DOCK_RETURNED at a PARKED one a
re-admission, which the gate may refuse, and any other leaves the set. JUMP_IF goes on at its target where
its condition holds, and END ends the slot, with ORDER_ENDED on the Service port where asked. Each of them
completes with its result and its count, at the end of its list by ending the slot, which starts the first
QUEUED slot (R12, R21, R22, R131, R134, R137 to R139, R142 to R146; that CLEAR_FAULT takes the kinds in
R152's order is the model's choice, as is the place of END's index, assumptions 16, 17). -/
def Obligations.OrdersActOnTheDocks : Prop :=
  ∀ s (i : Fin 2) w, Clean s → ClaimsRight s →
    let runs := fun o => runOrder i w o s
    let completes := orderCompleted i w
    let done := fun result x => completes result (w.index + 1) x
    let waits := fun progress x => { x with woe := { x.woe with
      slots := vset x.woe.slots i (some { w with state := .waiting, progress := some progress }) } }
    let range := fun first last => allDocks.filter fun d => decide (first ≤ d.val ∧ d.val ≤ last)
    let admits := fun n (x : State) => x.rq.held.length + x.rq.claimTotal + n ≤ 96
    let h := Holder.order i w.index w.crew
    (∀ first last count flagged,
      let select := selectDocks h count flagged
      let y := (select (range first last) [] s).2.2
      let stopped := (select (range first last) [] s).2.1
      ((select (range first last) [] s).1 = [] →
        runs (.collect first last count flagged) =
          done (if stopped then .partialDone 0 .backlog else .done 0) y)
      ∧ ((select (range first last) [] s).1 ≠ [] →
        runs (.collect first last count flagged) =
          waits (.collect (select (range first last) [] s).1 0 0 stopped) y)
      ∧ ∀ d rest taken x, Clean x → ClaimsRight x →
        let r := dockOf d x
        let eligible := r.state = .docked ∧ r.holder = none ∧ held d x = false
          ∧ (flagged = true ∨ ∀ b, r.bike = some b → b.id ≠ 0 →
            b.mark = false ∧ ∀ e ∈ x.flt.registry, e.bike ≠ b.id)
        let n := if r.suspended = true then 1 else 2
        select [] taken x = (taken, false, x)
        ∧ (count ≤ taken.length → select (d :: rest) taken x = (taken, false, x))
        ∧ (taken.length < count →
          (¬eligible → select (d :: rest) taken x = select rest taken x)
          ∧ (eligible → r.deadline = none →
            (¬admits n x → select (d :: rest) taken x = (taken, true, x))
            ∧ (admits n x → select (d :: rest) taken x =
              select rest (taken ++ [d])
                (dockEvent .release d
                  (dockPut d
                    { r with
                      state := .unlocking, holder := some h, deadline := some (.actuation none false) }
                    { lineOf d x with waiting := placeIn (.release none) (lineOf d x).waiting } n
                    x))))))
    ∧ (∀ d got, vget s.woe.slots i = some w →
      (∀ out taken ended stopped, w.state = .waiting →
        w.progress = some (.collect out taken ended stopped) →
        let taken' := if got = true then taken + 1 else taken
        (d ∈ out → out.erase d = [] → collectOutcome d i got s =
          done (if stopped then .partialDone taken' .backlog else .done taken') s)
        ∧ (d ∈ out → out.erase d ≠ [] → collectOutcome d i got s =
          waits (.collect (out.erase d) taken' (if got = true then ended else ended + 1) stopped) s)
        ∧ (d ∉ out → collectOutcome d i got s = s))
      ∧ (w.state ≠ .waiting → collectOutcome d i got s = s))
    ∧ (∀ first last,
      let docks := range first last
      runs (.suspend first last) =
        done (.done (docks.countP fun d => decide ((dockOf d s).suspended = false)))
          (docks.foldl (fun x d => suspendDock d x) s))
    ∧ (∀ first last,
      let r := resumeDocks (range first last) 0 s
      runs (.resume first last) =
        done (if r.2.1 then .partialDone r.1 .backlog else .done r.1) r.2.2
      ∧ ∀ d rest n x,
        let answer := (resumeDock d x).1
        resumeDocks [] n x = (n, false, x)
        ∧ (answer = .resumed →
          resumeDocks (d :: rest) n x = resumeDocks rest (n + 1) (resumeDock d x).2)
        ∧ (answer = .backlog → resumeDocks (d :: rest) n x = (n, true, (resumeDock d x).2))
        ∧ (answer ≠ .resumed → answer ≠ .backlog →
          resumeDocks (d :: rest) n x = resumeDocks rest n (resumeDock d x).2))
    ∧ (∀ bike,
      let registry := s.flt.registry
      let present := ∃ e ∈ registry, e.bike = bike
      (present → runs (.flagBike bike) = done (.done 0) s)
      ∧ (¬present → registry.length < 64 →
        runs (.flagBike bike) = done (.done 1) (enterFlag bike .crew s))
      ∧ (¬present → 64 ≤ registry.length →
        runs (.flagBike bike) = done (.partialDone 0 .registryFull) s)
      ∧ ∀ named : Option DockNo, 0 < bike →
        (∀ d, named = some d → (dockOf d s).bike.map Bike.id = some bike
          ∧ ∀ e < d, (dockOf e s).bike.map Bike.id ≠ some bike) →
        (named = none → ∀ d, (dockOf d s).bike.map Bike.id ≠ some bike) →
        let marks := fun x => match named with
          | some d =>
            let l := lineOf d x
            let l' := { l with waiting := placeIn (.mark false) l.waiting }
            { x with dlc := { x.dlc with lines := vset x.dlc.lines d l' } }
          | none => x
        (¬present → runs (.clearBike bike) = done (.done 0) (marks s))
        ∧ ∀ a e b, registry = a ++ e :: b → e.bike = bike → (∀ x ∈ a, x.bike ≠ bike) →
          runs (.clearBike bike) =
            done (.done 1) (marks { s with
              flt := { s.flt with registry := a ++ b },
              rs := handAll
                (bothCopies .registryHead (.registryHead (a ++ b).length)
                  ++ (List.range (b.length + 1)).map fun k =>
                    (.flag (flagPlace (a.length + k)), .flag (a ++ b)[a.length + k]?)) s.rs }))
    ∧ (∀ (d : DockNo) choice,
      let kinds := faultKinds.filter fun k =>
        decide (choice = .all ∨ choice = .kind k) && (dockOf d s).faults.has k
      let r := clearKinds d kinds 0 false s
      runs (.clearFault d.val choice) =
        done (if r.2.1 then .partialDone r.1 .backlog else .done r.1) r.2.2
      ∧ ∀ n stayed x, Clean x → ClaimsRight x →
        clearKinds d [] n stayed x = (n, stayed, x)
        ∧ ∀ k rest,
          let r := dockOf d x
          let gone := fun r' l claim => clearKinds d (k :: rest) n stayed x =
            clearKinds d rest (n + 1) stayed (dockPut d r' l claim x)
          let probed := fun clearing claim =>
            gone { r with
                deadline := some (.actuation none false), faults := r.faults.put k false }
              { lineOf d x with waiting := placeIn (.relock clearing .probe) (lineOf d x).waiting }
              claim
          let readmits := k = .dockReturned ∧ r.state = .parked
          let probes := k = .lockJam ∧ r.state = .jammed ∧ r.deadline = none
          (probes → probed (r.holder.any fun h => decide (holderKind h = .hire)) (vget x.rq.claims d))
          ∧ (readmits → admits 1 x → probed false 1)
          ∧ (readmits → ¬admits 1 x →
            clearKinds d (k :: rest) n stayed x = clearKinds d rest n true x)
          ∧ (¬readmits → ¬probes →
            gone { r with faults := r.faults.put k false } (lineOf d x) (vget x.rq.claims d)))
    ∧ (∀ cond target,
      let vacant := allDocks.countP fun d =>
        decide ((dockOf d s).state = .vacant) && !(dockOf d s).suspended
      let hireables := allDocks.countP fun d => hireable d s
      let last := match w.results.getLast? with
        | some (.done n) => n
        | some (.partialDone n _) => n
        | _ => 0
      let holds := cond = .always ∨ (∃ n, cond = .vacantAtLeast n ∧ n ≤ vacant)
        ∨ (∃ n, cond = .hireableAtLeast n ∧ n ≤ hireables) ∨ ∃ n, cond = .lastBelow n ∧ last < n
      (holds → runs (.jumpIf cond target) = completes (.done 1) target s)
      ∧ (¬holds → runs (.jumpIf cond target) = done (.done 0) s))
    ∧ ∀ notify,
      let ended := startListJudged (slotPut i
        { w with
          state := .ended, results := w.results ++ [.done 0], index := w.index + 1,
          endedAt := some (stationTime s) } s)
      runs (.endList notify) =
        if notify = true then
          { ended with pi := { ended.pi with service := { ended.pi.service with
            events := { ended.pi.service.events with orderEnded := true },
            reported := { ended.pi.service.reported with orderEnded := false } } } }
        else ended

/-! ### Faults, bike flags and watches (chapter 8) -/

/-- FAULT_READ answers with up to its number of the oldest logged records, the lost flags, the number
held and the next fault sequence, and changes nothing. FAULT_DISCARD removes up to its number of the
oldest records and, where asked, clears the lost flags, handing the log's head. DOCK_FAULT_READ answers
with every dock's fault set; on the Terminal port it is refused NOT_ON_PORT (R159, R160, R162). -/
def Obligations.FaultLogIsReadAndDiscarded : Prop :=
  ∀ p tag s,
    (∀ n, Accepts p .faultRead tag s → n ≤ 4 → Clean s → SequencesAgree s →
      ∃ t, exec (.faultRead p tag n) s = .next t
        ∧ Replied p .faultRead tag .done
            (.faults (s.flt.log.take n) s.flt.lost s.flt.log.length s.flt.nextSeq) s t
        ∧ StoreKept s t ∧ t = { s with pi := t.pi, rs := t.rs })
    ∧ (∀ n clearLost, Accepts p .faultDiscard tag s → n ≤ 32 → Clean s → SequencesAgree s →
      let k := min n s.flt.log.length
      let lost := if clearLost then LostFlags.clear else s.flt.lost
      let place : Fin 32 := ⟨(s.flt.oldestPlace.val + k) % 32, Nat.mod_lt _ (by decide)⟩
      ∃ t, exec (.faultDiscard p tag n clearLost) s = .next t
        ∧ Replied p .faultDiscard tag .done
            (.faultsDiscarded k ((s.flt.log.drop k).head?.map FaultRecord.seq) lost) s t
        ∧ t.rs = stepHands
            (bothCopies .faultHead (.faultHead
              { nextSeq := s.flt.nextSeq, oldest := place, count := s.flt.log.length - k,
                lost := lost })) s.rs
        ∧ t = { s with
            pi := t.pi, rs := t.rs,
            flt := { s.flt with log := s.flt.log.drop k, oldestPlace := place, lost := lost } })
    ∧ (Accepts p .dockFaultRead tag s →
      ∃ t sets, exec (.dockFaultRead p tag) s = .next t
        ∧ Replied p .dockFaultRead tag .done (.faultSets sets) s t
        ∧ StoreKept s t ∧ t = { s with pi := t.pi, rs := t.rs }
        ∧ sets.length = 48 ∧ ∀ d : DockNo, sets[d.val]? = some (vget s.dlc.docks d).faults)
    ∧ (running s = true → p = .terminal →
      ∃ t, exec (.dockFaultRead p tag) s = .next t
        ∧ Answered p (answerFor .notOnPort tag 28 .nothing) s t ∧ RestKept s t)

/-- BIKE_FLAG enters a bike that is not in the registry, answers PRESENT with the entry that is, and
REGISTRY_FULL at 64 entries. BIKE_CLEAR removes the bike's entry, the later ones closing up, and places a
MARK clear at the dock that names the bike, which the reply carries. The entries that moved and the head
are handed. BIKE_FLAG_READ answers with the entries from its start, and changes nothing. An entry that a
block of the part asks for is appended with its origin and the station time, kept where the bike has one,
and with a full registry not made, the BIKE lost flag set for an automatic origin (R163 to R166, R158,
R172). -/
def Obligations.BikeFlagsAreKept : Prop :=
  ∀ tag s, Clean s →
    (∀ bike, Accepts .uplink .bikeFlag tag s → 0 < bike → bike ≤ 4294967295 →
      let registry := s.flt.registry
      let flags := fun o b entries (handed : List (Place × Content)) =>
        ∃ t, exec (.bikeFlag tag bike) s = .next t ∧ Replied .uplink .bikeFlag tag o b s t
          ∧ (if handed = [] then StoreKept s t else t.rs = stepHands handed s.rs)
          ∧ t = { s with pi := t.pi, rs := t.rs, flt := { s.flt with registry := entries } }
      (∀ e, registry.find? (fun e => decide (e.bike = bike)) = some e →
        flags .present (.flagKept e.origin e.time) registry [])
      ∧ ((∀ e ∈ registry, e.bike ≠ bike) →
        (64 ≤ registry.length → flags .registryFull .empty registry [])
        ∧ (registry.length < 64 →
          let e : FlagEntry := { bike := bike, origin := .uplink, time := stationTime s }
          flags .entered .empty (registry ++ [e])
            (bothCopies .registryHead (.registryHead (registry.length + 1))
              ++ [(.flag (flagPlace registry.length), .flag (some e))]))))
    ∧ (∀ bike named, Accepts .uplink .bikeClear tag s → 0 < bike → bike ≤ 4294967295 →
      (∀ d, named = some d → (dockOf d s).bike.map Bike.id = some bike
        ∧ ∀ e < d, (dockOf e s).bike.map Bike.id ≠ some bike) →
      (named = none → ∀ d, (dockOf d s).bike.map Bike.id ≠ some bike) →
      let lines := match named with
        | some d => vset s.dlc.lines d
            { lineOf d s with waiting := placeIn (.mark false) (lineOf d s).waiting }
        | none => s.dlc.lines
      let clears := fun o entries (handed : List (Place × Content)) =>
        ∃ t, exec (.bikeClear tag bike) s = .next t
          ∧ Replied .uplink .bikeClear tag o (.dock named) s t
          ∧ (if handed = [] then StoreKept s t else t.rs = stepHands handed s.rs)
          ∧ t = { s with
              pi := t.pi, rs := t.rs, flt := { s.flt with registry := entries },
              dlc := { s.dlc with lines := lines } }
      ((∀ e ∈ s.flt.registry, e.bike ≠ bike) → clears .notPresent s.flt.registry [])
      ∧ ∀ a e b, s.flt.registry = a ++ e :: b → e.bike = bike → (∀ x ∈ a, x.bike ≠ bike) →
        clears .removed (a ++ b)
          (bothCopies .registryHead (.registryHead (a ++ b).length)
            ++ (List.range (b.length + 1)).map fun k =>
              (.flag (flagPlace (a.length + k)), .flag (a ++ b)[a.length + k]?)))
    ∧ (∀ p start n, Accepts p .bikeFlagRead tag s → start ≤ 63 → n ≤ 8 →
      ∃ t, exec (.bikeFlagRead p tag start n) s = .next t
        ∧ Replied p .bikeFlagRead tag .done
            (.flags ((s.flt.registry.drop start).take n) s.flt.registry.length) s t
        ∧ StoreKept s t ∧ t = { s with pi := t.pi, rs := t.rs })
    ∧ ∀ bike origin,
      let registry := s.flt.registry
      let e : FlagEntry := { bike := bike, origin := origin, time := stationTime s }
      let lost := { s.flt.lost with bike := true }
      ((∃ e ∈ registry, e.bike = bike) → enterFlag bike origin s = s)
      ∧ ((∀ e ∈ registry, e.bike ≠ bike) →
        (registry.length < 64 → enterFlag bike origin s =
          { s with
            flt := { s.flt with registry := registry ++ [e] },
            rs := handAll
              (bothCopies .registryHead (.registryHead (registry.length + 1))
                ++ [(.flag (flagPlace registry.length), .flag (some e))]) s.rs })
        ∧ (64 ≤ registry.length →
          (origin = .crew ∨ origin = .uplink → enterFlag bike origin s = s)
          ∧ (origin = .rider ∨ origin = .tag ∨ origin = .station → enterFlag bike origin s =
            { s with
              flt := { s.flt with lost := lost },
              rs := handAll
                (bothCopies .faultHead (.faultHead
                  { nextSeq := s.flt.nextSeq, oldest := s.flt.oldestPlace,
                    count := s.flt.log.length, lost := lost })) s.rs })))

/-- WATCH_SET and WATCH_DROP on a slot of another port are answered OWNED, and on the Service port without a
supervisor NOT_PERMITTED; otherwise the one defines the slot, with no hit, and the other undefines it.
WATCH_CLEAR_HITS sets the hits of the port's own slots to no, and WATCH_READ shows the slots. A dock event
sets the hit of every watch it matches, whether enabled or not, and the WATCH_HIT notice on the owner's port
of every enabled one; nothing else changes. A watch covers the aligned block of its span that holds its
base, and a dock is held exactly while an enabled watch with action HOLD covers it (R167 to R170; that
NOT_PERMITTED comes before NOT_DEFINED is the model's choice, assumption 17). -/
def Obligations.WatchesAreSetAndHit : Prop :=
  (∀ p tag s, Clean s →
      let barred := fun (i : Fin 4) crew (o : ReplyOutcome) =>
        let other := ∃ w, vget s.flt.watches i = some w ∧ w.owner ≠ p
        (o = .owned ∧ other) ∨ (o = .notPermitted ∧ ¬other ∧ p = .service
          ∧ ¬∃ c, crewOf crew s = some c ∧ c.level = 0)
      let answered := fun c k o b watches =>
        ∃ t, exec c s = .next t ∧ Replied p k tag o b s t ∧ StoreKept s t
          ∧ t = { s with pi := t.pi, rs := t.rs, flt := { s.flt with watches := watches } }
      (∀ (i : Fin 4) crew base span cond action enabled, Accepts p .watchSet tag s → base ≤ 47 →
        span = 1 ∨ span = 2 ∨ span = 4 ∨ span = 8 →
        let c := Instr.watchSet p tag i.val crew base span cond action enabled
        (∀ o, barred i crew o → answered c .watchSet o .empty s.flt.watches)
        ∧ ((∀ o, ¬barred i crew o) →
          answered c .watchSet .set (.watchReplaced (vget s.flt.watches i).isSome)
            (vset s.flt.watches i
              (some { owner := p, base := base, span := span, cond := cond, action := action,
                      enabled := enabled, hit := false }))))
      ∧ (∀ (i : Fin 4) crew, Accepts p .watchDrop tag s →
        let c := Instr.watchDrop p tag i.val crew
        (∀ o, barred i crew o → answered c .watchDrop o .empty s.flt.watches)
        ∧ ((∀ o, ¬barred i crew o) →
          (vget s.flt.watches i = none → answered c .watchDrop .notDefined .empty s.flt.watches)
          ∧ ∀ w, vget s.flt.watches i = some w →
            answered c .watchDrop .dropped (.watchHit w.hit) (vset s.flt.watches i none)))
      ∧ (Accepts p .watchClearHits tag s →
        (∀ i : Fin 4,
          let c := Instr.watchClearHits p tag (some i.val)
          (vget s.flt.watches i = none → answered c .watchClearHits .notDefined .empty s.flt.watches)
          ∧ ∀ w, vget s.flt.watches i = some w →
            (w.owner ≠ p → answered c .watchClearHits .owned .empty s.flt.watches)
            ∧ (w.owner = p → answered c .watchClearHits .cleared .empty
                (vset s.flt.watches i (some { w with hit := false }))))
        ∧ ∃ watches, answered (.watchClearHits p tag none) .watchClearHits .cleared
              (.count (s.flt.watches.toList.countP fun o => o.any fun w => decide (w.owner = p)))
              watches
            ∧ ∀ i, vget watches i = (vget s.flt.watches i).map fun w =>
                if w.owner = p then { w with hit := false } else w)
      ∧ (Accepts p .watchRead tag s →
        answered (.watchRead p tag) .watchRead .done (.watches s.flt.watches.toList) s.flt.watches))
  ∧ ∀ c (d : DockNo) s,
    let hits := fun (w : Watch) =>
      decide (w.base - w.base % w.span ≤ d.val ∧ d.val < w.base - w.base % w.span + w.span)
        && (decide (w.cond = c) || decide (w.cond = .any))
    let rings := fun p => s.flt.watches.toList.any fun o => o.any fun w =>
      hits w && w.enabled && decide (w.owner = p)
    let t := dockEvent c d s
    t = { s with pi := t.pi, flt := { s.flt with watches := t.flt.watches } }
      ∧ (∀ i, vget t.flt.watches i =
          (vget s.flt.watches i).map fun w => { w with hit := w.hit || hits w })
      ∧ ∀ p, getPort p t =
          { getPort p s with
            events := { (getPort p s).events with
              watchHit := (getPort p s).events.watchHit || rings p },
            reported := { (getPort p s).reported with
              watchHit := (getPort p s).reported.watchHit && !rings p } }
      ∧ (held d s = true ↔ ∃ i w, vget s.flt.watches i = some w ∧ w.enabled = true ∧ w.action = .hold
          ∧ ∃ k < w.span, d.val = w.span * (w.base / w.span) + k)

/-- A raising follows the policy of its kind. All but IGNORE log it, at the end of the log with the next
fault sequence, or on a full log set its class's lost flag; LOG_NOTIFY and SUSPEND set FAULT_ALERT on
the Uplink and Service ports; all but IGNORE enter a kind of class DOCK in its dock's fault set, as
LOCK_JAM always is, and DOCK_RETURNED at a PARKED dock; and SUSPEND suspends the dock of a kind of class
DOCK, whose claim is counted anew and whose inhibit follows. The fault log head and a logged record are
handed, and the record of a dock whose fault set or suspension changes; nothing else changes (R153 to R158,
R4, R6, R111, R172; here with no watch defined). -/
def Obligations.RaisingsFollowThePolicy : Prop :=
  ∀ (r : Raising) s, Clean s → (∀ i, vget s.flt.watches i = none) →
    let policy := vget s.flt.policies (faultIndex r.kind)
    let t := raise r s
    let fault : FaultRecord :=
      { seq := s.flt.nextSeq, kind := r.kind, time := stationTime s, dock := r.dock,
        bike := if r.bike = some 0 then none else r.bike, detail := r.detail }
    let record := fun (d : DockNo) =>
      { dockOf d s with
        faults :=
          if policy ≠ .ignore ∨ r.kind = .lockJam
            ∨ (r.kind = .dockReturned ∧ (dockOf d s).state = .parked) then
            (dockOf d s).faults.put r.kind true
          else (dockOf d s).faults,
        suspended := (dockOf d s).suspended || decide (policy = .suspend) }
    let head := bothCopies .faultHead (.faultHead (faultHeadOf t))
    let handed :=
      if policy = .ignore then []
      else if s.flt.log.length < 32 then
        head ++ [(.fault (faultRing s.flt.oldestPlace s.flt.log.length), .fault fault)]
      else head
    let logged := { s with rs := handAll handed s.rs }
    let entered : State :=
      match r.dock with
      | some d =>
        if faultClass r.kind = FaultClass.dock then
          dockPut d (record d) (lineOf d s) (claimOf (record d)) logged
        else logged
      | none => logged
    (ClaimsRight s → t = { entered with pi := t.pi, flt := t.flt })
    ∧ (policy = .ignore → t.flt = s.flt)
    ∧ (policy ≠ .ignore → s.flt.log.length < 32 →
      t.flt = { s.flt with
        log := s.flt.log ++ [fault], nextSeq := (s.flt.nextSeq + 1) % 65536 })
    ∧ (policy ≠ .ignore → 32 ≤ s.flt.log.length →
      t.flt = { s.flt with
        lost :=
          match faultClass r.kind with
          | .dock => { s.flt.lost with dock := true }
          | .bike => { s.flt.lost with bike := true }
          | .station => { s.flt.lost with station := true } })
    ∧ (∀ p, getPort p t =
        if p ≠ .terminal ∧ (policy = .logNotify ∨ policy = .suspend) then
          { getPort p s with
            events := { (getPort p s).events with faultAlert := true },
            reported := { (getPort p s).reported with faultAlert := false } }
        else getPort p s)
    ∧ ∀ d, dockOf d t =
        if r.dock = some d ∧ faultClass r.kind = .dock then record d else dockOf d s

/-- A suspend request suspends a dock in any state. A resume request lifts the suspension of a DOCKED
dock, and of a VACANT one where the gate admits 1; an UNLOCKING, OFFERED or RELOCKING dock is BUSY, a
JAMMED, ABSENT or PARKED one NOT_RESUMABLE, a dock not suspended UNCHANGED, and none of these changes
anything. Each change counts the claim anew and is handed, and the inhibit of a surveyed dock follows
(R4 to R6, R111, R113). -/
def Obligations.SuspensionsAreLaidAndLifted : Prop :=
  ∀ s d, Clean s →
    let r := dockOf d s
    let becomes := fun x (suspended : Bool) =>
      let r' := { r with suspended := suspended }
      x = { s with
        dlc := { s.dlc with
          docks := vset s.dlc.docks d r',
          lines :=
            if (lineOf d s).surveyed = true ∧ r.state = .vacant then
              vset s.dlc.lines d { lineOf d s with
                waiting := placeIn (.inhibit suspended) (lineOf d s).waiting }
            else s.dlc.lines },
        rq := { s.rq with
          claims := vset s.rq.claims d (claimOf r'),
          claimTotal := (vset s.rq.claims d (claimOf r')).toList.sum },
        rs := handAll [(.dock d, .dock (retainedOf r'))] s.rs }
    (r.suspended = true → suspendDock d s = s)
    ∧ (r.suspended = false → becomes (suspendDock d s) true)
    ∧ (r.suspended = true →
      (r.state = .docked ∨ (r.state = .vacant ∧ s.rq.held.length + s.rq.claimTotal + 1 ≤ 96) →
        (resumeDock d s).1 = .resumed ∧ becomes (resumeDock d s).2 false)
      ∧ (r.state = .vacant → 96 < s.rq.held.length + s.rq.claimTotal + 1 →
        resumeDock d s = (.backlog, s)))
    ∧ (r.state = .docked ∨ r.state = .vacant → r.suspended = false →
      resumeDock d s = (.unchanged, s))
    ∧ (r.state = .unlocking ∨ r.state = .offered ∨ r.state = .relocking →
      resumeDock d s = (.busy, s))
    ∧ (r.state = .jammed ∨ r.state = .absent ∨ r.state = .parked →
      resumeDock d s = (.notResumable, s))

/-! ### The dock line, deadlines, takes and arrivals (chapters 1 and 2) -/

/-- An answer with no event or with a repeated one ends the exchange: the miss count goes to 0, the last
condition and the last exchange are put, NOTHING ends the service request, and the line is granted. A
missed exchange puts back an ACCEPT, MARK or INHIBIT unless one of the kind waits (that proviso is the
model's choice, assumption 10), raises the miss count, and grants the line; so do a service request and
a sweep that falls due. A new event is taken with its number as the last taken, as the statements of the
dock events below say of each. A third miss makes the dock ABSENT and suspended, its holder handed FAILED
or LAPSED, its record, waiting commands and last event emptied, with DOCK_SILENT raised; an ABSENT dock
that answers becomes PARKED with DOCK_RETURNED raised, its event discarded and its number taken, and its
INHIBIT follows (R6 to R11; here with no dock being surveyed; the service request's end and the times are
the model's choice, assumptions 4, 8, and so is where an entry that replaces one of the tag write list
stands, assumption 40; which send an ACTUATION deadline belongs to, with the command kept for it, is the
model's reading, assumption 11). -/
def Obligations.ExchangesEndAndTheLineIsGranted : Prop :=
  ∀ d s, running s = true → ClaimsRight s → s.dlc.survey = none →
    let l := lineOf d s
    let now := s.sc.timebase
    let grants := fun c (exchange : Option Exchange) (l : LineState) (time : Nat) =>
      let u := { s with
        dlc := { s.dlc with exchange := exchange, lines := vset s.dlc.lines d l },
        sc := { s.sc with timebase := time } }
      ∃ t x, exec c s = .next t ∧ Granted u x ∧ PortsKept s t ∧ StoreKept s t
        ∧ t = { x with pi := t.pi, rs := t.rs }
    (∀ x a, s.dlc.exchange = some x → x.dock = d → x.survey = false → l.surveyed = true →
      (dockOf d s).state ≠ .absent →
      let heard := { l with
        lastExchange := now, sweepDue := false, missCount := 0, lastCondition := some a.condition,
        serviceRequest := l.serviceRequest && a.event.isSome }
      (a.event = none ∨ (∃ n e, a.event = some (n, e) ∧ l.lastEvent = some n) →
        grants (.dockAnswer d a) none heard now)
      ∧ ∀ n e, a.event = some (n, e) → l.lastEvent ≠ some n →
        exec (.dockAnswer d a) s = .next (endStep (grantLine (takeEvent d e a.condition
          { s with dlc := { s.dlc with
              exchange := none,
              lines := vset s.dlc.lines d { heard with lastEvent := some n } } }))))
    ∧ (∀ x, s.dlc.exchange = some x → x.dock = d → x.survey = false → l.surveyed = true →
      l.missCount < 2 ∨ (dockOf d s).state = .absent →
      let goesBack :=
        match x.command with
        | .accept _ => ∀ c ∈ l.waiting, ∀ b, c ≠ .accept b
        | .mark _ => ∀ c ∈ l.waiting, ∀ b, c ≠ .mark b
        | .inhibit _ => ∀ c ∈ l.waiting, ∀ b, c ≠ .inhibit b
        | _ => False
      let time := max now (x.sentAt + 20)
      ∀ waiting, (goesBack → waiting = x.command :: l.waiting) → (¬goesBack → waiting = l.waiting) →
        grants (.dockExchangeMissed d) none
          { l with lastExchange := time, sweepDue := false, missCount := min 2 (l.missCount + 1),
                   waiting := waiting } time)
    ∧ (∀ x a, s.dlc.exchange = some x → x.dock = d → x.survey = false → l.surveyed = true →
      (dockOf d s).state = .absent →
      let number := match a.event with
        | some (n, _) => some n
        | none => l.lastEvent
      exec (.dockAnswer d a) s = .next (endStep (grantLine (raise
        { kind := .dockReturned, dock := some d, bike := none, detail := .dockReturned .returned }
        (dockPut d { dockOf d s with state := .parked, deadline := none }
          { l with
            lastExchange := now, sweepDue := false, missCount := 0, lastCondition := some a.condition,
            serviceRequest := l.serviceRequest && a.event.isSome, lastEvent := number } 0
          { s with dlc := { s.dlc with exchange := none } })))))
    ∧ (∀ x, s.dlc.exchange = some x → x.dock = d → x.survey = false → l.surveyed = true →
      l.missCount = 2 → (dockOf d s).state ≠ .absent →
      let r := dockOf d s
      let time := max now (x.sentAt + 20)
      let u := { s with
        dlc := { s.dlc with exchange := none }, sc := { s.sc with timebase := time } }
      let handed := match r.state with
        | .unlocking => failedFor d r.holder u
        | .offered | .relocking => lapsedFor d r.holder u
        | _ => u
      exec (.dockExchangeMissed d) s = .next (endStep (grantLine (raise
        { kind := .dockSilent, dock := some d, bike := none, detail := .dockSilent (some r.state) }
        (dockPut d
          { r with state := .absent, suspended := true, bike := none, holder := none,
                   deadline := none, lastArrival := none }
          { l with
            lastExchange := time, sweepDue := false, missCount := 2, waiting := [],
            lastEvent := none, tagWrites := [], actuation := none } 0 handed)))))
    ∧ (s.dlc.exchange = none →
      grants (.dockServiceRequest d) none { l with serviceRequest := true } now)
    ∧ (l.surveyed = true →
      grants (.sweepDue d) s.dlc.exchange { l with sweepDue := true }
        (max now (l.lastExchange + 2000)))

/-- At its first expiry an ACTUATION deadline places the same command again and is held open; at its
second, a dock in UNLOCKING or RELOCKING with a hire's holder is JAMMED and suspended with LOCK_JAM in its
fault set, keeping its bike and holder; with any holder or none, and for a probe of a JAMMED or PARKED
dock, the second expiry acts as ACTUATOR_FAULT does. A deadline that is not running does not expire. A TAKE
deadline's expiry passes an OFFERED dock to RELOCKING, with a RELOCK that clears the stamp for a hire
(R13, R14, R17, R21, R22; that a deadline not running changes nothing and that the timebase is put to the
deadline are the model's choices, assumptions 3, 4; that the kept command is a field, assumption 11). -/
def Obligations.DeadlinesResendJamAndRelock : Prop :=
  ∀ d s, running s = true → Clean s → ClaimsRight s →
    let r := dockOf d s
    let l := lineOf d s
    let becomes := fun c (r' : DockRecord) (l' : LineState) time =>
      ∃ t, exec c s = .next t ∧ PortsKept s t
        ∧ (if retainedOf r' = retainedOf r then StoreKept s t
          else t.rs = stepHands [(.dock d, .dock (retainedOf r'))] s.rs)
        ∧ t = { s with
            pi := t.pi, rs := t.rs,
            dlc := { s.dlc with docks := vset s.dlc.docks d r', lines := vset s.dlc.lines d l' },
            sc := { s.sc with timebase := max s.sc.timebase time } }
    (∀ time c, r.deadline = some (.actuation (some time) false) → l.actuation = some c →
      becomes (.actuationDeadline d) { r with deadline := some (.actuation none true) }
        { l with waiting := placeIn c l.waiting } time)
    ∧ (∀ time tag stamp, r.deadline = some (.actuation (some time) true) →
      r.state = .unlocking ∨ r.state = .relocking → r.holder = some (.hire tag stamp) →
      (∀ i, vget s.flt.watches i = none) →
      ∃ t, exec (.actuationDeadline d) s = .next t
        ∧ dockOf d t = { r with
            state := .jammed, suspended := true, deadline := none,
            faults := { r.faults with lockJam := true } }
        ∧ ∀ e, e ≠ d → dockOf e t = dockOf e s)
    ∧ (∀ time c, r.deadline = some (.actuation (some time) true) →
      r.state = .unlocking ∨ r.state = .relocking
        ∨ ((r.state = .jammed ∨ r.state = .parked) ∧ ∀ v, s.dlc.survey = some v → v.dock ≠ d) →
      exec (.actuationDeadline d) s = .next (endStep (takeEvent d .actuatorFault c
        { s with sc := { s.sc with timebase := max s.sc.timebase time } })))
    ∧ ((∀ time used, r.deadline ≠ some (.actuation (some time) used)) →
      ∃ t, exec (.actuationDeadline d) s = .next t ∧ PortsKept s t ∧ RestKept s t)
    ∧ (∀ time, r.state = .offered → r.deadline = some (.take time) →
      becomes (.takeDeadline d)
        { r with state := .relocking, deadline := some (.actuation none false) }
        { l with
          waiting := placeIn (.relock (holderIsHire r.holder) .lapse) l.waiting,
          actuation := none } time)
    ∧ ((r.state ≠ .offered ∨ ∀ time, r.deadline ≠ some (.take time)) →
      ∃ t, exec (.takeDeadline d) s = .next t ∧ PortsKept s t ∧ RestKept s t)

/-- OPENED in UNLOCKING makes the dock OFFERED with its take window and hands OPENED to its holder, whose
hire is answered RELEASED; where that hire has cancel requested, the dock passes to RELOCKING with a
RELOCK that clears the stamp. STAMP_FAIL in UNLOCKING docks the bike again: for a hire its bike is
flagged, or with a full registry its record is marked, TAG_WRITE_FAIL is raised and FAILED is handed.
CLOSED in RELOCKING hands LAPSED and docks a bike still sensed, and with none sensed is a take. OPENED and
STAMP_FAIL elsewhere, and CLOSED elsewhere with no probe in flight, change no dock; a CLOSED that senses
no bike closes the RELOCK's tag write (R16, R19, R27, R29, R79, R80, R82, R138). -/
def Obligations.ReleaseEventsMoveTheDock : Prop :=
  ∀ d c s, Clean s → (s.hu.map HireRecord.tag).Nodup →
    let r := dockOf d s
    let l := { lineOf d s with actuation := none }
    let claim := if r.suspended = true then 1 else 2
    let asked := ∃ tag stamp, r.holder = some (.hire tag stamp) ∧ ∃ h ∈ s.hu, h.tag = tag
      ∧ h.state = .unlocking ∧ h.chosen = some d ∧ h.cancelRequested = true
    let docked := { r with state := .docked, deadline := none, holder := none }
    let closed := s.setDlc { s.dlc with
      lines := vset s.dlc.lines d { lineOf d s with
        tagWrites := (lineOf d s).tagWrites.filter fun x => decide (x.command ≠ .relock) } }
    (r.state = .unlocking →
      (asked → takeEvent d .opened c s =
        dockPut d { r with state := .relocking, deadline := some (.actuation none false) }
          { l with waiting := placeIn (.relock true .cancel) l.waiting } claim s)
      ∧ (¬asked →
        let offered := dockPut d
          { r with
            state := .offered,
            deadline := some (.take (s.sc.timebase + 1000 * s.sc.config.takeWindow)) } l claim s
        (∀ tag t, r.holder = some (.hire tag (some t)) →
          takeEvent d .opened c s =
            hireEnds d tag .released
              (.hireReleased d ((r.bike.map Bike.id).getD 0) t.trip t.start t.plan t.auth) .offered
              offered)
        ∧ ((∀ tag t, r.holder ≠ some (.hire tag (some t))) → takeEvent d .opened c s = offered))
      ∧ (∀ tag t b, r.holder = some (.hire tag (some t)) → r.bike = some b → 0 < b.id →
        let flags := enterFlag b.id .station (dockPut d docked l 0 s)
        let fails := fun x => failedFor d r.holder
          (raise
            { kind := .tagWriteFail, dock := some d, bike := some b.id,
              detail := .tagWriteFail (.stamp t.trip) } x)
        ((∃ e ∈ s.flt.registry, e.bike = b.id) ∨ s.flt.registry.length < 64 →
          takeEvent d .stampFail c s = fails flags)
        ∧ ((∀ e ∈ s.flt.registry, e.bike ≠ b.id) → 64 ≤ s.flt.registry.length →
          takeEvent d .stampFail c s =
            fails (dockPut d { docked with bike := some { b with mark := true } } l 0 flags)))
      ∧ ((∀ tag stamp, r.holder ≠ some (.hire tag stamp)) →
        takeEvent d .stampFail c s = failedFor d r.holder (dockPut d docked l 0 s)))
    ∧ (r.state = .relocking →
      (c.bike ≠ none → takeEvent d .closed c s = lapsedFor d r.holder (dockPut d docked l 0 s))
      ∧ (c.bike = none → takeEvent d .closed c s = takeEvent d .taken c closed))
    ∧ (r.state ≠ .unlocking → takeEvent d .opened c s = s ∧ takeEvent d .stampFail c s = s)
    ∧ (r.state ≠ .relocking →
      r.state = .docked ∨ r.state = .vacant ∨ r.state = .unlocking ∨ r.state = .offered
        ∨ (∀ time used, r.deadline ≠ some (.actuation time used)) →
      takeEvent d .closed c s = if c.bike = none then closed else s)

/-- ACTUATOR_FAULT in UNLOCKING or RELOCKING jams the dock: JAMMED, suspended, its bike and holder kept,
with FAILED or LAPSED handed and LOCK_JAM raised; with no actuation and no probe in flight the dock is
suspended and LOCK_JAM raised. A probe of a JAMMED or PARKED dock ends in success with CLOSED: the dock is
DOCKED with the bike sensed or VACANT without, suspended, and without holder. It fails with
ACTUATOR_FAULT: a JAMMED dock stays, and a PARKED one is JAMMED with the bike of the dock's last condition
or without one; LOCK_JAM is raised for the probe (R14, R15, R21, R22, R111; that a TAG_DUPLICATE of that bike
comes before it is the model's choice, assumption 46, and so is that the tag mark sensed replaces R27's,
assumption 51). -/
def Obligations.JamsAndProbesEndTheActuation : Prop :=
  ∀ d c s, Clean s →
    let r := dockOf d s
    let l := { lineOf d s with actuation := none }
    let moving := r.state = .unlocking ∨ r.state = .relocking
    let actuates := ∃ time used, r.deadline = some (.actuation time used)
    let probed := (r.state = .jammed ∨ r.state = .parked) ∧ actuates
    let jammed := { r with state := .jammed, suspended := true, deadline := none }
    (∀ b, r.bike = some b →
      (r.state = .unlocking → takeEvent d .actuatorFault c s =
        jamRaised d .release r.holder r.bike (failedFor d r.holder (dockPut d jammed l 1 s)))
      ∧ (r.state = .relocking → takeEvent d .actuatorFault c s =
        jamRaised d .relock r.holder r.bike (lapsedFor d r.holder (dockPut d jammed l 1 s))))
    ∧ (¬moving → ¬actuates → takeEvent d .actuatorFault c s =
      jamRaised d .reported r.holder r.bike (suspendDock d s))
    ∧ (probed →
      let free := { r with suspended := true, deadline := none, holder := none }
      let l' := if c.bike = none then
        { l with tagWrites := l.tagWrites.filter fun x => decide (x.command ≠ .relock) } else l
      (c.bike = none → takeEvent d .closed c s =
        dockPut d { free with state := .vacant, bike := none } l' 0 s)
      ∧ (∀ b, c.bike = some b →
        let k := sensedBike b s
        takeEvent d .closed c s =
          bikeEntered d k.id k.mark
            (dockPut d { free with state := .docked, bike := some k } l' 0 s))
      ∧ (r.state = .jammed → takeEvent d .actuatorFault c s =
        jamRaised d .probe r.holder r.bike
          (dockPut d { r with deadline := none } l (if r.bike = none then 0 else 1) s))
      ∧ (r.state = .parked →
        let sensed := (lineOf d s).lastCondition.bind DockCondition.bike
        (sensed = none → takeEvent d .actuatorFault c s =
          jamRaised d .probe r.holder none (dockPut d { jammed with bike := none } l 0 s))
        ∧ ∀ b, sensed = some b →
          let k := sensedBike b s
          let x := bikeEntered d k.id k.mark (dockPut d { jammed with bike := some k } l 1 s)
          takeEvent d .actuatorFault c s =
            jamRaised d .probe (dockOf d x).holder (dockOf d x).bike x))

/-- CLEARED closes its command's tag write and puts the mark that it wrote into the record, if the record
still names the bike; WRITE_FAIL closes it and raises TAG_WRITE_FAIL, for a clearing with the bike flagged
first, or with a full registry its record marked. A PARKED dock discards both, and so does one without
the entry. BUTTON is a rider's bike report within the window of the bike's arrival: its first flags the
bike, places a MARK and raises RIDER_BIKE_REPORT, and a further one does nothing; outside the window it is
a rider's dock report, raised while none stands in the fault set. A bike put into a record takes its id
out of the record of another dock that names it, with TAG_DUPLICATE there, and a marked one is flagged
(R28 to R31, R38 to R41; that a failed clearing with a full registry marks the record only where it still
names the bike is the model's reading of R31, assumption 23). -/
def Obligations.TagEventsAreAnswered : Prop :=
  ∀ d c s, Clean s → ClaimsRight s →
    let r := dockOf d s
    let claim := vget s.rq.claims d
    (∀ w,
      let l := { lineOf d s with
        tagWrites := (lineOf d s).tagWrites.filter fun x => decide (x.command ≠ w) }
      let closed := s.setDlc { s.dlc with lines := vset s.dlc.lines d l }
      (r.state = .parked ∨ (∀ x ∈ (lineOf d s).tagWrites, x.command ≠ w) →
        takeEvent d (.cleared w) c s = s ∧ takeEvent d (.writeFail w) c s = s)
      ∧ ∀ x, r.state ≠ .parked →
        (lineOf d s).tagWrites.find? (fun x => decide (x.command = w)) = some x →
        let marks := fun mark => ∃ b, r.bike = some b ∧ b.id = x.bike
          ∧ takeEvent d (.cleared w) c s =
            dockPut d { r with bike := some { b with mark := mark } } l claim s
        let fails := fun write y => takeEvent d (.writeFail w) c s =
          raise
            { kind := .tagWriteFail, dock := some d, bike := some x.bike,
              detail := .tagWriteFail write } y
        (x.write = .stampClear → takeEvent d (.cleared w) c s = closed)
        ∧ (r.bike.map Bike.id ≠ some x.bike → takeEvent d (.cleared w) c s = closed)
        ∧ (r.bike.map Bike.id = some x.bike →
          (x.write = .markSet → marks true) ∧ (x.write = .markClear → marks false))
        ∧ (x.write ≠ .stampClear → fails .mark closed)
        ∧ (x.write = .stampClear → x.bike = 0 → fails .clear closed)
        ∧ (x.write = .stampClear → 0 < x.bike →
          (∃ e ∈ s.flt.registry, e.bike = x.bike) ∨ s.flt.registry.length < 64 →
          fails .clear (enterFlag x.bike .station closed))
        ∧ (x.write = .stampClear → 0 < x.bike → (∀ e ∈ s.flt.registry, e.bike ≠ x.bike) →
          64 ≤ s.flt.registry.length →
          (r.bike.map Bike.id ≠ some x.bike →
            fails .clear (enterFlag x.bike .station closed))
          ∧ ∀ b, r.bike = some b → b.id = x.bike →
            fails .clear
              (dockPut d { r with bike := some { b with mark := true } } l claim
                (enterFlag x.bike .station closed))))
    ∧ (let reports := fun (b : Bike) (a : LastArrival) => r.bike = some b ∧ r.lastArrival = some a
        ∧ s.sc.station.clockValid = true ∧ 0 < b.id ∧ a.bike = b.id ∧ a.time ≤ s.sc.clock
        ∧ s.sc.clock ≤ a.time + s.sc.config.buttonWindow
      (∀ b a, reports b a →
        (a.reported = true → takeEvent d .button c s = s)
        ∧ (a.reported = false → takeEvent d .button c s =
          raise { kind := .riderBikeReport, dock := some d, bike := some b.id, detail := .none }
            (dockPut d { r with lastArrival := some { a with reported := true } }
              { lineOf d s with waiting := placeIn (.mark true) (lineOf d s).waiting } claim
              (enterFlag b.id .rider s))))
      ∧ ((∀ b a, ¬reports b a) →
        (r.faults.riderDockReport = true → takeEvent d .button c s = s)
        ∧ (r.faults.riderDockReport = false → takeEvent d .button c s =
          raise { kind := .riderDockReport, dock := some d, bike := none, detail := .none } s)))
    ∧ ∀ bike mark,
      let flags := fun x => if mark = true then enterFlag bike .tag x else x
      bikeEntered d 0 mark s = s
      ∧ (0 < bike → (∀ e, e ≠ d → (dockOf e s).bike.map Bike.id ≠ some bike) →
        bikeEntered d bike mark s = flags s)
      ∧ ∀ e b, 0 < bike → e ≠ d → (dockOf e s).bike = some b → b.id = bike →
        (∀ f < e, f ≠ d → (dockOf f s).bike.map Bike.id ≠ some bike) →
        bikeEntered d bike mark s =
          flags
            (raise
              { kind := .tagDuplicate, dock := some e, bike := none, detail := .tagDuplicate bike }
              (dockPut e { dockOf e s with bike := some { b with id := 0 } } (lineOf e s)
                (vget s.rq.claims e) s))

/-- A take from an OFFERED or RELOCKING dock, or a JAMMED one with a bike, queues one record: a DEPARTURE with
the hire part for a hire's holder, a MOVE_OUT with the move part for an order's, and for a JAMMED dock
without holder a REMOVED. The first leave the dock VACANT with its suspension, close a RELOCK's clearing
write and hand TAKEN to the holder: the hire in UNLOCKING is answered RELEASED, its card's entry takes the
end of the release, and a COLLECT counts the dock off. The last leaves the dock JAMMED without its bike and
holder, a hire's card takes a late take, and without holder BIKE_UNACCOUNTED is raised. A take from an
UNLOCKING dock is its OPENED and then its TAKEN. From a DOCKED dock it queues nothing, leaves the dock
VACANT and suspended, and raises BIKE_UNACCOUNTED. Each is told to the watches. At a VACANT, PARKED or
ABSENT dock, or a JAMMED one without a bike, it is discarded (R18, R29, R48, R81, R138, R168; an answer of
an ABSENT dock parks it and discards its event, R11, section 1.6; what the queueing, the raising, the
watches, the write-through and the outcome do, the statements of each say). -/
def Obligations.TakesAreRecorded : Prop :=
  ∀ d s, Clean s →
    let r := dockOf d s
    let l := lineOf d s
    let t := takenEvent d s
    let unaccounted := fun bike cause => raise
      { kind := .bikeUnaccounted, dock := some d, bike := some bike,
        detail := .bikeUnaccounted cause }
    let told := dockEvent .take d
    (∀ c, takeEvent d .taken c s = t)
    ∧ (ClaimsRight s → ClaimsRight t)
    ∧ (∀ bike, r.bike = some bike →
      let new : NewReport :=
        { kind := match r.holder with
            | some (.hire _ _) => .departure
            | some (.order _ _ _) => .moveOut
            | none => .removed,
          dock := d, bike := bike.id, fareFlags := .none, clearFailed := false,
          hire := match r.holder with
            | some (.hire _ stamp) => stamp
            | _ => none,
          fare := none,
          move := match r.holder with
            | some (.order i index crew) => some { crew := crew, slot := i, index := index }
            | _ => none }
      let queued := queueReport new s
      (r.state = .offered ∨ r.state = .relocking → r.holder ≠ none →
        let tagWrites := if r.state = .relocking
          then l.tagWrites.filter fun x => decide (x.command ≠ .relock) else l.tagWrites
        t = takenFor d r.holder bike.id (told (dockPut d
          { r with state := .vacant, bike := none, deadline := none, holder := none }
          { l with actuation := none, tagWrites := tagWrites }
          (if r.suspended = true then 0 else 1) queued)))
      ∧ (r.state = .jammed →
        let left := dockPut d { r with bike := none, holder := none } l 0 queued
        (∀ tag stamp, r.holder = some (.hire tag (some stamp)) →
          t = told (releaseTaken stamp.card stamp.trip left))
        ∧ (∀ i index crew, r.holder = some (.order i index crew) → t = told left)
        ∧ (r.holder = none → t = told (unaccounted bike.id .takeFromJammed left))))
    ∧ (r.state = .unlocking → ∀ c, t = takeEvent d .taken c (takeEvent d .opened c s))
    ∧ (r.state = .docked →
      t = told (unaccounted ((r.bike.map Bike.id).getD 0) .takeFromDocked
        (dockPut d
          { r with state := .vacant, suspended := true, bike := none, holder := none,
                   deadline := none } l 0 s)))
    ∧ (r.state = .vacant ∨ r.state = .parked ∨ r.state = .absent
      ∨ r.state = .jammed ∧ r.bike = none → t = s)

/-- A bike latched at a VACANT dock that is not suspended makes the dock DOCKED with the bike id and mark
of its tag and the station time, keeps it as the last arrival, queues one record, and places an ACCEPT that
clears a stamp. A stamped bike is an ARRIVAL with the stamp and, with the clock valid, its fare, and
CLEAR_FAILED where the bike stands in the registry with origin STATION; the card's entry takes the arrival
write-through, and a fare with SKEW raises CLOCK_SKEW. An unstamped bike is a MOVE_IN with the move part
while a PLACE executes, which counts it and completes at its count, and a STRAY_IN otherwise. An unreadable
tag is an ARRIVAL of bike 0 and raises TAG_READ_FAIL. A bike named at another dock is taken out of that
record, a marked one is flagged with origin TAG, and the watches are told. At a suspended VACANT dock the
bike is taken in, nothing is queued and no ACCEPT is sent; elsewhere it is discarded (R20, R32 to R39, R49,
R106, R140, R168; what the queueing, the duplicate check, the raising and the watches do, the statements of
each say; that the duplicate check's TAG_DUPLICATE comes before CLOCK_SKEW is the model's choice, assumption
46). -/
def Obligations.LatchedBikesAreRecorded : Prop :=
  ∀ d tag s, Clean s →
    let r := dockOf d s
    let reading := tagReading tag
    let bike := readingBike reading
    let mark := readingMark reading
    let time := stationTime s
    let t := latchedEvent d tag s
    let k : Bike := { id := bike, mark := mark, since := time }
    let docked := { r with state := .docked, bike := some k }
    let new : NewReport :=
      { kind := .arrival, dock := d, bike := bike, fareFlags := .none, clearFailed := false,
        hire := none, fare := none, move := none }
    let recorded := fun new (y : State) =>
      bikeEntered d bike false
        (dockPut d { docked with lastArrival := some { bike := bike, time := time, reported := false } }
          (lineOf d s) 0 (queueReport new y))
    let arrived := fun (y : State) =>
      let x := if bike ≠ 0 ∧ mark = true then enterFlag bike .tag y else y
      let l := lineOf d x
      let l' := { l with waiting := placeIn (.accept (readingStamp reading).isSome) l.waiting }
      dockEvent .arrival d { x with dlc := { x.dlc with lines := vset x.dlc.lines d l' } }
    let raised := fun kind bike detail => raise
      { kind := kind, dock := some d, bike := bike, detail := detail }
    (∀ c, takeEvent d (.latched tag) c s = t)
    ∧ (r.state = .vacant → r.suspended = false →
      (reading = .unreadable →
        t = arrived (raised .tagReadFail none .none (recorded new s)))
      ∧ (∀ id mark, reading = .readable id mark none →
        let executes := fun i (w : WorkSlot) placed deadline count timeout =>
          vget s.woe.slots i = some w ∧ w.state = .waiting
            ∧ w.progress = some (.place placed deadline)
            ∧ w.orders[w.index]? = some (.place count timeout) ∧ placed < count
        ((∀ i w placed deadline count timeout, ¬executes i w placed deadline count timeout) →
          t = arrived (recorded { new with kind := .strayIn } s))
        ∧ ∀ i w placed deadline count timeout, executes i w placed deadline count timeout →
          (∀ j v, j ≠ i → vget s.woe.slots j = some v → v.state ≠ .waiting) →
          let part : MovePart := { crew := w.crew, slot := i, index := w.index }
          t = arrived (recorded { new with kind := .moveIn, move := some part }
            (if placed + 1 < count then
              slotPut i { w with progress := some (.place (placed + 1) deadline) } s
            else orderCompleted i w (.done count) (w.index + 1) s)))
      ∧ ∀ id mark stamp, reading = .readable id mark (some stamp) →
        let failed := (s.flt.registry.find? fun e => decide (e.bike = bike)).any fun e =>
          decide (e.origin = .station)
        let hired := { new with clearFailed := failed, hire := some stamp }
        (s.sc.station.clockValid = false →
          t = arrived (arrivalWrite stamp.card 0 (recorded hired s)))
        ∧ (s.sc.station.clockValid = true →
          let f := arrivalFare (planOf stamp.plan s) stamp.start s.sc.clock stamp.origin
            s.sc.station.id s.sc.config.grace
          let written := arrivalWrite stamp.card f.1
            (recorded { hired with fareFlags := f.2, fare := some f.1 } s)
          t = arrived (if f.2.skew = true then
            raised .clockSkew (some bike) (.clockSkew stamp.origin stamp.start s.sc.clock) written
            else written)))
    ∧ (r.state = .vacant → r.suspended = true →
      t = bikeEntered d bike mark (dockPut d docked (lineOf d s) 0 s))
    ∧ (r.state ≠ .vacant → t = s)

/-! ### The byte layouts (section 11.8) -/

/-- The bytes of a tag record with a bike id from 1 up, and of its stamp with an origin and a card from 1
up, are read as that record; those of bike 0 or of a stamp without an origin or a card are read as
unreadable. The bytes of a member record are read as that record. A tag has 23 bytes, a member record 19
and a report 40 (R25, R205 to R207). -/
def Obligations.RecordBytesReadBack : Prop :=
  (∀ bike mark, 0 < bike → bike ≤ 4294967295 →
    tagReading (some (tagBytes bike mark none)) = .readable bike mark none
    ∧ ∀ stamp : Stamp, stamp.origin ≤ 65535 → stamp.trip ≤ 65535 → stamp.card < 72057594037927936 →
      stamp.start ≤ 4294967295 → stamp.plan ≤ 15 →
      (0 < stamp.origin → 0 < stamp.card →
        tagReading (some (tagBytes bike mark (some stamp))) = .readable bike mark (some stamp))
      ∧ (stamp.origin = 0 ∨ stamp.card = 0 →
        tagReading (some (tagBytes bike mark (some stamp))) = .unreadable))
  ∧ (∀ mark stamp, tagReading (some (tagBytes 0 mark stamp)) = .unreadable)
  ∧ tagReading none = .unreadable
  ∧ (∀ bike mark stamp, (tagBytes bike mark stamp).length = 23)
  ∧ (∀ m : MemberRecord, m.card < 72057594037927936 → m.standing ≤ 255 → m.plan ≤ 255 →
    -2147483648 ≤ m.balance → m.balance ≤ 2147483647 → m.hireLimit ≤ 255 → m.baseOpen ≤ 255 →
    m.baseMark ≤ 4294967295 →
    memberOf (memberBytes m) = some m ∧ (memberBytes m).length = 19)
  ∧ ∀ r, (reportBytes r).length = 40
end

