-- ==== Sys2Proof/Laws/State.lean ====
section
/-! SUPPORT. What each block update leaves of each block: one lemma a field an update, so that no proof
unfolds a record update. -/

namespace Sys2Proof.Machine

@[simp] theorem State.setPending_pending (x : List Instr) (s : State) : (s.setPending x).pending = x := rfl
@[simp] theorem State.setPending_pi (x : List Instr) (s : State) : (s.setPending x).pi = s.pi := rfl
@[simp] theorem State.setPending_dlc (x : List Instr) (s : State) : (s.setPending x).dlc = s.dlc := rfl
@[simp] theorem State.setPending_cc (x : List Instr) (s : State) : (s.setPending x).cc = s.cc := rfl
@[simp] theorem State.setPending_hu (x : List Instr) (s : State) : (s.setPending x).hu = s.hu := rfl
@[simp] theorem State.setPending_fu (x : List Instr) (s : State) : (s.setPending x).fu = s.fu := rfl
@[simp] theorem State.setPending_rq (x : List Instr) (s : State) : (s.setPending x).rq = s.rq := rfl
@[simp] theorem State.setPending_woe (x : List Instr) (s : State) : (s.setPending x).woe = s.woe := rfl
@[simp] theorem State.setPending_flt (x : List Instr) (s : State) : (s.setPending x).flt = s.flt := rfl
@[simp] theorem State.setPending_rs (x : List Instr) (s : State) : (s.setPending x).rs = s.rs := rfl
@[simp] theorem State.setPending_sc (x : List Instr) (s : State) : (s.setPending x).sc = s.sc := rfl
@[simp] theorem State.setPending_twice (x y : List Instr) (s : State) : (s.setPending x).setPending y = s.setPending y := rfl
@[simp] theorem State.setPending_self (s : State) : s.setPending s.pending = s := rfl

@[simp] theorem State.setPi_pending (x : PortInterface) (s : State) : (s.setPi x).pending = s.pending := rfl
@[simp] theorem State.setPi_pi (x : PortInterface) (s : State) : (s.setPi x).pi = x := rfl
@[simp] theorem State.setPi_dlc (x : PortInterface) (s : State) : (s.setPi x).dlc = s.dlc := rfl
@[simp] theorem State.setPi_cc (x : PortInterface) (s : State) : (s.setPi x).cc = s.cc := rfl
@[simp] theorem State.setPi_hu (x : PortInterface) (s : State) : (s.setPi x).hu = s.hu := rfl
@[simp] theorem State.setPi_fu (x : PortInterface) (s : State) : (s.setPi x).fu = s.fu := rfl
@[simp] theorem State.setPi_rq (x : PortInterface) (s : State) : (s.setPi x).rq = s.rq := rfl
@[simp] theorem State.setPi_woe (x : PortInterface) (s : State) : (s.setPi x).woe = s.woe := rfl
@[simp] theorem State.setPi_flt (x : PortInterface) (s : State) : (s.setPi x).flt = s.flt := rfl
@[simp] theorem State.setPi_rs (x : PortInterface) (s : State) : (s.setPi x).rs = s.rs := rfl
@[simp] theorem State.setPi_sc (x : PortInterface) (s : State) : (s.setPi x).sc = s.sc := rfl
@[simp] theorem State.setPi_twice (x y : PortInterface) (s : State) : (s.setPi x).setPi y = s.setPi y := rfl
@[simp] theorem State.setPi_self (s : State) : s.setPi s.pi = s := rfl

@[simp] theorem State.setDlc_pending (x : DockLine) (s : State) : (s.setDlc x).pending = s.pending := rfl
@[simp] theorem State.setDlc_pi (x : DockLine) (s : State) : (s.setDlc x).pi = s.pi := rfl
@[simp] theorem State.setDlc_dlc (x : DockLine) (s : State) : (s.setDlc x).dlc = x := rfl
@[simp] theorem State.setDlc_cc (x : DockLine) (s : State) : (s.setDlc x).cc = s.cc := rfl
@[simp] theorem State.setDlc_hu (x : DockLine) (s : State) : (s.setDlc x).hu = s.hu := rfl
@[simp] theorem State.setDlc_fu (x : DockLine) (s : State) : (s.setDlc x).fu = s.fu := rfl
@[simp] theorem State.setDlc_rq (x : DockLine) (s : State) : (s.setDlc x).rq = s.rq := rfl
@[simp] theorem State.setDlc_woe (x : DockLine) (s : State) : (s.setDlc x).woe = s.woe := rfl
@[simp] theorem State.setDlc_flt (x : DockLine) (s : State) : (s.setDlc x).flt = s.flt := rfl
@[simp] theorem State.setDlc_rs (x : DockLine) (s : State) : (s.setDlc x).rs = s.rs := rfl
@[simp] theorem State.setDlc_sc (x : DockLine) (s : State) : (s.setDlc x).sc = s.sc := rfl
@[simp] theorem State.setDlc_twice (x y : DockLine) (s : State) : (s.setDlc x).setDlc y = s.setDlc y := rfl
@[simp] theorem State.setDlc_self (s : State) : s.setDlc s.dlc = s := rfl

@[simp] theorem State.setCc_pending (x : CardCache) (s : State) : (s.setCc x).pending = s.pending := rfl
@[simp] theorem State.setCc_pi (x : CardCache) (s : State) : (s.setCc x).pi = s.pi := rfl
@[simp] theorem State.setCc_dlc (x : CardCache) (s : State) : (s.setCc x).dlc = s.dlc := rfl
@[simp] theorem State.setCc_cc (x : CardCache) (s : State) : (s.setCc x).cc = x := rfl
@[simp] theorem State.setCc_hu (x : CardCache) (s : State) : (s.setCc x).hu = s.hu := rfl
@[simp] theorem State.setCc_fu (x : CardCache) (s : State) : (s.setCc x).fu = s.fu := rfl
@[simp] theorem State.setCc_rq (x : CardCache) (s : State) : (s.setCc x).rq = s.rq := rfl
@[simp] theorem State.setCc_woe (x : CardCache) (s : State) : (s.setCc x).woe = s.woe := rfl
@[simp] theorem State.setCc_flt (x : CardCache) (s : State) : (s.setCc x).flt = s.flt := rfl
@[simp] theorem State.setCc_rs (x : CardCache) (s : State) : (s.setCc x).rs = s.rs := rfl
@[simp] theorem State.setCc_sc (x : CardCache) (s : State) : (s.setCc x).sc = s.sc := rfl
@[simp] theorem State.setCc_twice (x y : CardCache) (s : State) : (s.setCc x).setCc y = s.setCc y := rfl
@[simp] theorem State.setCc_self (s : State) : s.setCc s.cc = s := rfl

@[simp] theorem State.setHu_pending (x : List HireRecord) (s : State) : (s.setHu x).pending = s.pending := rfl
@[simp] theorem State.setHu_pi (x : List HireRecord) (s : State) : (s.setHu x).pi = s.pi := rfl
@[simp] theorem State.setHu_dlc (x : List HireRecord) (s : State) : (s.setHu x).dlc = s.dlc := rfl
@[simp] theorem State.setHu_cc (x : List HireRecord) (s : State) : (s.setHu x).cc = s.cc := rfl
@[simp] theorem State.setHu_hu (x : List HireRecord) (s : State) : (s.setHu x).hu = x := rfl
@[simp] theorem State.setHu_fu (x : List HireRecord) (s : State) : (s.setHu x).fu = s.fu := rfl
@[simp] theorem State.setHu_rq (x : List HireRecord) (s : State) : (s.setHu x).rq = s.rq := rfl
@[simp] theorem State.setHu_woe (x : List HireRecord) (s : State) : (s.setHu x).woe = s.woe := rfl
@[simp] theorem State.setHu_flt (x : List HireRecord) (s : State) : (s.setHu x).flt = s.flt := rfl
@[simp] theorem State.setHu_rs (x : List HireRecord) (s : State) : (s.setHu x).rs = s.rs := rfl
@[simp] theorem State.setHu_sc (x : List HireRecord) (s : State) : (s.setHu x).sc = s.sc := rfl
@[simp] theorem State.setHu_twice (x y : List HireRecord) (s : State) : (s.setHu x).setHu y = s.setHu y := rfl
@[simp] theorem State.setHu_self (s : State) : s.setHu s.hu = s := rfl

@[simp] theorem State.setFu_pending (x : Vector (Option Plan) 16) (s : State) : (s.setFu x).pending = s.pending := rfl
@[simp] theorem State.setFu_pi (x : Vector (Option Plan) 16) (s : State) : (s.setFu x).pi = s.pi := rfl
@[simp] theorem State.setFu_dlc (x : Vector (Option Plan) 16) (s : State) : (s.setFu x).dlc = s.dlc := rfl
@[simp] theorem State.setFu_cc (x : Vector (Option Plan) 16) (s : State) : (s.setFu x).cc = s.cc := rfl
@[simp] theorem State.setFu_hu (x : Vector (Option Plan) 16) (s : State) : (s.setFu x).hu = s.hu := rfl
@[simp] theorem State.setFu_fu (x : Vector (Option Plan) 16) (s : State) : (s.setFu x).fu = x := rfl
@[simp] theorem State.setFu_rq (x : Vector (Option Plan) 16) (s : State) : (s.setFu x).rq = s.rq := rfl
@[simp] theorem State.setFu_woe (x : Vector (Option Plan) 16) (s : State) : (s.setFu x).woe = s.woe := rfl
@[simp] theorem State.setFu_flt (x : Vector (Option Plan) 16) (s : State) : (s.setFu x).flt = s.flt := rfl
@[simp] theorem State.setFu_rs (x : Vector (Option Plan) 16) (s : State) : (s.setFu x).rs = s.rs := rfl
@[simp] theorem State.setFu_sc (x : Vector (Option Plan) 16) (s : State) : (s.setFu x).sc = s.sc := rfl
@[simp] theorem State.setFu_twice (x y : Vector (Option Plan) 16) (s : State) : (s.setFu x).setFu y = s.setFu y := rfl
@[simp] theorem State.setFu_self (s : State) : s.setFu s.fu = s := rfl

@[simp] theorem State.setRq_pending (x : ReportQueue) (s : State) : (s.setRq x).pending = s.pending := rfl
@[simp] theorem State.setRq_pi (x : ReportQueue) (s : State) : (s.setRq x).pi = s.pi := rfl
@[simp] theorem State.setRq_dlc (x : ReportQueue) (s : State) : (s.setRq x).dlc = s.dlc := rfl
@[simp] theorem State.setRq_cc (x : ReportQueue) (s : State) : (s.setRq x).cc = s.cc := rfl
@[simp] theorem State.setRq_hu (x : ReportQueue) (s : State) : (s.setRq x).hu = s.hu := rfl
@[simp] theorem State.setRq_fu (x : ReportQueue) (s : State) : (s.setRq x).fu = s.fu := rfl
@[simp] theorem State.setRq_rq (x : ReportQueue) (s : State) : (s.setRq x).rq = x := rfl
@[simp] theorem State.setRq_woe (x : ReportQueue) (s : State) : (s.setRq x).woe = s.woe := rfl
@[simp] theorem State.setRq_flt (x : ReportQueue) (s : State) : (s.setRq x).flt = s.flt := rfl
@[simp] theorem State.setRq_rs (x : ReportQueue) (s : State) : (s.setRq x).rs = s.rs := rfl
@[simp] theorem State.setRq_sc (x : ReportQueue) (s : State) : (s.setRq x).sc = s.sc := rfl
@[simp] theorem State.setRq_twice (x y : ReportQueue) (s : State) : (s.setRq x).setRq y = s.setRq y := rfl
@[simp] theorem State.setRq_self (s : State) : s.setRq s.rq = s := rfl

@[simp] theorem State.setWoe_pending (x : WorkOrders) (s : State) : (s.setWoe x).pending = s.pending := rfl
@[simp] theorem State.setWoe_pi (x : WorkOrders) (s : State) : (s.setWoe x).pi = s.pi := rfl
@[simp] theorem State.setWoe_dlc (x : WorkOrders) (s : State) : (s.setWoe x).dlc = s.dlc := rfl
@[simp] theorem State.setWoe_cc (x : WorkOrders) (s : State) : (s.setWoe x).cc = s.cc := rfl
@[simp] theorem State.setWoe_hu (x : WorkOrders) (s : State) : (s.setWoe x).hu = s.hu := rfl
@[simp] theorem State.setWoe_fu (x : WorkOrders) (s : State) : (s.setWoe x).fu = s.fu := rfl
@[simp] theorem State.setWoe_rq (x : WorkOrders) (s : State) : (s.setWoe x).rq = s.rq := rfl
@[simp] theorem State.setWoe_woe (x : WorkOrders) (s : State) : (s.setWoe x).woe = x := rfl
@[simp] theorem State.setWoe_flt (x : WorkOrders) (s : State) : (s.setWoe x).flt = s.flt := rfl
@[simp] theorem State.setWoe_rs (x : WorkOrders) (s : State) : (s.setWoe x).rs = s.rs := rfl
@[simp] theorem State.setWoe_sc (x : WorkOrders) (s : State) : (s.setWoe x).sc = s.sc := rfl
@[simp] theorem State.setWoe_twice (x y : WorkOrders) (s : State) : (s.setWoe x).setWoe y = s.setWoe y := rfl
@[simp] theorem State.setWoe_self (s : State) : s.setWoe s.woe = s := rfl

@[simp] theorem State.setFlt_pending (x : FaultUnit) (s : State) : (s.setFlt x).pending = s.pending := rfl
@[simp] theorem State.setFlt_pi (x : FaultUnit) (s : State) : (s.setFlt x).pi = s.pi := rfl
@[simp] theorem State.setFlt_dlc (x : FaultUnit) (s : State) : (s.setFlt x).dlc = s.dlc := rfl
@[simp] theorem State.setFlt_cc (x : FaultUnit) (s : State) : (s.setFlt x).cc = s.cc := rfl
@[simp] theorem State.setFlt_hu (x : FaultUnit) (s : State) : (s.setFlt x).hu = s.hu := rfl
@[simp] theorem State.setFlt_fu (x : FaultUnit) (s : State) : (s.setFlt x).fu = s.fu := rfl
@[simp] theorem State.setFlt_rq (x : FaultUnit) (s : State) : (s.setFlt x).rq = s.rq := rfl
@[simp] theorem State.setFlt_woe (x : FaultUnit) (s : State) : (s.setFlt x).woe = s.woe := rfl
@[simp] theorem State.setFlt_flt (x : FaultUnit) (s : State) : (s.setFlt x).flt = x := rfl
@[simp] theorem State.setFlt_rs (x : FaultUnit) (s : State) : (s.setFlt x).rs = s.rs := rfl
@[simp] theorem State.setFlt_sc (x : FaultUnit) (s : State) : (s.setFlt x).sc = s.sc := rfl
@[simp] theorem State.setFlt_twice (x y : FaultUnit) (s : State) : (s.setFlt x).setFlt y = s.setFlt y := rfl
@[simp] theorem State.setFlt_self (s : State) : s.setFlt s.flt = s := rfl

@[simp] theorem State.setRs_pending (x : RetainedStore) (s : State) : (s.setRs x).pending = s.pending := rfl
@[simp] theorem State.setRs_pi (x : RetainedStore) (s : State) : (s.setRs x).pi = s.pi := rfl
@[simp] theorem State.setRs_dlc (x : RetainedStore) (s : State) : (s.setRs x).dlc = s.dlc := rfl
@[simp] theorem State.setRs_cc (x : RetainedStore) (s : State) : (s.setRs x).cc = s.cc := rfl
@[simp] theorem State.setRs_hu (x : RetainedStore) (s : State) : (s.setRs x).hu = s.hu := rfl
@[simp] theorem State.setRs_fu (x : RetainedStore) (s : State) : (s.setRs x).fu = s.fu := rfl
@[simp] theorem State.setRs_rq (x : RetainedStore) (s : State) : (s.setRs x).rq = s.rq := rfl
@[simp] theorem State.setRs_woe (x : RetainedStore) (s : State) : (s.setRs x).woe = s.woe := rfl
@[simp] theorem State.setRs_flt (x : RetainedStore) (s : State) : (s.setRs x).flt = s.flt := rfl
@[simp] theorem State.setRs_rs (x : RetainedStore) (s : State) : (s.setRs x).rs = x := rfl
@[simp] theorem State.setRs_sc (x : RetainedStore) (s : State) : (s.setRs x).sc = s.sc := rfl
@[simp] theorem State.setRs_twice (x y : RetainedStore) (s : State) : (s.setRs x).setRs y = s.setRs y := rfl
@[simp] theorem State.setRs_self (s : State) : s.setRs s.rs = s := rfl

@[simp] theorem State.setSc_pending (x : StationControl) (s : State) : (s.setSc x).pending = s.pending := rfl
@[simp] theorem State.setSc_pi (x : StationControl) (s : State) : (s.setSc x).pi = s.pi := rfl
@[simp] theorem State.setSc_dlc (x : StationControl) (s : State) : (s.setSc x).dlc = s.dlc := rfl
@[simp] theorem State.setSc_cc (x : StationControl) (s : State) : (s.setSc x).cc = s.cc := rfl
@[simp] theorem State.setSc_hu (x : StationControl) (s : State) : (s.setSc x).hu = s.hu := rfl
@[simp] theorem State.setSc_fu (x : StationControl) (s : State) : (s.setSc x).fu = s.fu := rfl
@[simp] theorem State.setSc_rq (x : StationControl) (s : State) : (s.setSc x).rq = s.rq := rfl
@[simp] theorem State.setSc_woe (x : StationControl) (s : State) : (s.setSc x).woe = s.woe := rfl
@[simp] theorem State.setSc_flt (x : StationControl) (s : State) : (s.setSc x).flt = s.flt := rfl
@[simp] theorem State.setSc_rs (x : StationControl) (s : State) : (s.setSc x).rs = s.rs := rfl
@[simp] theorem State.setSc_sc (x : StationControl) (s : State) : (s.setSc x).sc = x := rfl
@[simp] theorem State.setSc_twice (x y : StationControl) (s : State) : (s.setSc x).setSc y = s.setSc y := rfl
@[simp] theorem State.setSc_self (s : State) : s.setSc s.sc = s := rfl

end Sys2Proof.Machine
end

