-- ==== Sys2Proof/Laws/Ports.lean ====
section
/-! SUPPORT. What the port operations do: the ports read back as they are put, a step's end, and one
lemma for a request that is taken and one for a request that is refused. -/

namespace Sys2Proof.Machine

@[simp] theorem getPort_setPort_self (p : Port) (x : PortState) (s : State) :
    getPort p (setPort p x s) = x := by
  cases p <;> rfl

theorem getPort_setPort_ne {p q : Port} (x : PortState) (s : State) (h : q ≠ p) :
    getPort q (setPort p x s) = getPort q s := by
  cases p <;> cases q <;> first | rfl | exact absurd rfl h

/-- Putting a port changes the Port Interface alone. -/
theorem setPort_frame (p : Port) (x : PortState) (s : State) :
    setPort p x s = s.setPi (setPort p x s).pi := by
  cases p <;> rfl

@[simp] theorem setPort_pending (p : Port) (x : PortState) (s : State) :
    (setPort p x s).pending = s.pending := by cases p <;> rfl
@[simp] theorem setPort_dlc (p : Port) (x : PortState) (s : State) :
    (setPort p x s).dlc = s.dlc := by cases p <;> rfl
@[simp] theorem setPort_cc (p : Port) (x : PortState) (s : State) :
    (setPort p x s).cc = s.cc := by cases p <;> rfl
@[simp] theorem setPort_hu (p : Port) (x : PortState) (s : State) :
    (setPort p x s).hu = s.hu := by cases p <;> rfl
@[simp] theorem setPort_fu (p : Port) (x : PortState) (s : State) :
    (setPort p x s).fu = s.fu := by cases p <;> rfl
@[simp] theorem setPort_rq (p : Port) (x : PortState) (s : State) :
    (setPort p x s).rq = s.rq := by cases p <;> rfl
@[simp] theorem setPort_woe (p : Port) (x : PortState) (s : State) :
    (setPort p x s).woe = s.woe := by cases p <;> rfl
@[simp] theorem setPort_flt (p : Port) (x : PortState) (s : State) :
    (setPort p x s).flt = s.flt := by cases p <;> rfl
@[simp] theorem setPort_rs (p : Port) (x : PortState) (s : State) :
    (setPort p x s).rs = s.rs := by cases p <;> rfl
@[simp] theorem setPort_sc (p : Port) (x : PortState) (s : State) :
    (setPort p x s).sc = s.sc := by cases p <;> rfl

/-- A port depends on the Port Interface alone. -/
theorem getPort_congr {s t : State} (h : s.pi = t.pi) (p : Port) : getPort p s = getPort p t := by
  cases p <;> simp [getPort, h]

@[simp] theorem running_setPort (p : Port) (x : PortState) (s : State) :
    running (setPort p x s) = running s := by simp [running]

/-- The level of an attention line depends on its port's replies and notices and on the conditions that
the notices report. -/
theorem attentionLevel_congr {s t : State} (p : Port)
    (hf : (getPort p s).finished = (getPort p t).finished)
    (he : (getPort p s).events = (getPort p t).events)
    (hc : s.cc = t.cc) (hq : s.rq = t.rq) (hl : s.flt = t.flt)
    (hk : s.rs.capture = t.rs.capture) (hs : s.sc = t.sc) :
    attentionLevel p s = attentionLevel p t := by
  simp only [attentionLevel, anyNotice, noticeRow, running, fillWanted, reportsWaiting, unreadCount,
    readCount, reportDistance, faultsWaiting, storeError, hf, he, hc, hq, hl, hk, hs]
  cases p <;> rfl

/-! ### The end of a step -/

/-- The attention lines levelled, as the end of every step does first. -/
def levelled (s : State) : State := levelPort .service (levelPort .uplink (levelPort .terminal s))

theorem getPort_levelled (p : Port) (s : State) :
    getPort p (levelled s) = { getPort p s with attention := attentionLevel p s } := by
  cases p <;> rfl

theorem levelled_frame (s : State) : levelled s = s.setPi (levelled s).pi := rfl

theorem endStep_eq (s : State) :
    endStep s = (levelled s).setRs
      (if s.rs.writeList.any (fun e => e.handed = s.rs.stepNo)
        then { s.rs with stepNo := s.rs.stepNo + 1 } else s.rs) := by
  show (if s.rs.writeList.any (fun e => e.handed = s.rs.stepNo)
    then (levelled s).setRs { s.rs with stepNo := s.rs.stepNo + 1 } else levelled s) = _
  split <;> rfl

@[simp] theorem endStep_pending (s : State) : (endStep s).pending = s.pending := by
  rw [endStep_eq]; rfl
@[simp] theorem endStep_dlc (s : State) : (endStep s).dlc = s.dlc := by rw [endStep_eq]; rfl
@[simp] theorem endStep_cc (s : State) : (endStep s).cc = s.cc := by rw [endStep_eq]; rfl
@[simp] theorem endStep_hu (s : State) : (endStep s).hu = s.hu := by rw [endStep_eq]; rfl
@[simp] theorem endStep_fu (s : State) : (endStep s).fu = s.fu := by rw [endStep_eq]; rfl
@[simp] theorem endStep_rq (s : State) : (endStep s).rq = s.rq := by rw [endStep_eq]; rfl
@[simp] theorem endStep_woe (s : State) : (endStep s).woe = s.woe := by rw [endStep_eq]; rfl
@[simp] theorem endStep_flt (s : State) : (endStep s).flt = s.flt := by rw [endStep_eq]; rfl
@[simp] theorem endStep_sc (s : State) : (endStep s).sc = s.sc := by rw [endStep_eq]; rfl

theorem endStep_rs (s : State) :
    (endStep s).rs = if s.rs.writeList.any (fun e => e.handed = s.rs.stepNo)
      then { s.rs with stepNo := s.rs.stepNo + 1 } else s.rs := by
  rw [endStep_eq]; rfl

theorem endStep_store (s : State) : StoreKept s (endStep s) := by
  unfold StoreKept
  rw [endStep_rs]
  split <;> rfl

theorem getPort_endStep (p : Port) (s : State) :
    getPort p (endStep s) = { getPort p s with attention := attentionLevel p s } := by
  rw [endStep_eq]
  have : getPort p ((levelled s).setRs
      (if s.rs.writeList.any (fun e => e.handed = s.rs.stepNo)
        then { s.rs with stepNo := s.rs.stepNo + 1 } else s.rs)) = getPort p (levelled s) :=
    getPort_congr rfl p
  rw [this, getPort_levelled]

/-- The end of a step changes the attention lines and the step counter alone. -/
theorem endStep_frame (s : State) :
    endStep s = (s.setPi (endStep s).pi).setRs { s.rs with stepNo := (endStep s).rs.stepNo } := by
  have h := endStep_store s
  unfold StoreKept at h
  rw [← h]
  rw [endStep_eq]
  rfl

theorem stepOf_eq (f : State → State) (s : State) : stepOf f s = .next (endStep (f s)) := rfl

/-! ### Requests -/

/-- The state in which an accepted request is handed to its owner. -/
def accepted (p : Port) (k : RequestKind) (tag : Nat) (s : State) : State :=
  setPort p
    { getPort p s with
      unfinished := (getPort p s).unfinished ++ [(tag, k)],
      answer := some (answerFor .accepted tag (kindCode k) .nothing), reported := .clear } s

theorem accepted_frame (p : Port) (k : RequestKind) (tag : Nat) (s : State) :
    accepted p k tag s = s.setPi (accepted p k tag s).pi := setPort_frame _ _ _

theorem judgeKind_accepted {p : Port} {k : RequestKind} {tag : Nat} {s : State} (h : Accepts p k tag s) :
    judgeKind p k tag true s = .accepted := by
  obtain ⟨h1, h2, h3, h4, h5⟩ := h
  unfold judgeKind
  simp [h1, h2, h4, Nat.not_lt.2 h3, Nat.not_le.2 h5]

theorem powered_of_running {s : State} (h : running s = true) : powered s = true := by
  simp only [running, decide_eq_true_eq] at h
  simp [powered, h]

/-- A request that is accepted is handed to its owner in the state `accepted`. -/
theorem slotRequest_taken {p : Port} {k : RequestKind} {tag : Nat} {s : State} (take : State → State)
    (h : Accepts p k tag s) : slotRequest p k tag true take s = take (accepted p k tag s) := by
  unfold slotRequest
  simp only [powered_of_running h.1, judgeKind_accepted h, Bool.not_true, Bool.false_eq_true, if_false,
    if_true]
  congr 1
  cases p <;> rfl

/-- A request that is not accepted is answered with its code and changes nothing else. -/
theorem slotRequest_refused {p : Port} {k : RequestKind} {tag : Nat} {b : Bool} {s : State}
    (take : State → State) (hp : powered s = true) (h : judgeKind p k tag b s ≠ .accepted) :
    slotRequest p k tag b take s
      = giveAnswer p (answerFor (judgeKind p k tag b s) tag (kindCode k) .nothing) s := by
  unfold slotRequest
  simp [hp, h]

theorem filter_held {p : Port} {k : RequestKind} {tag : Nat} {s : State} (h : Accepts p k tag s) :
    ((getPort p s).unfinished ++ [(tag, k)]).filter (fun u => u.1 ≠ tag) = (getPort p s).unfinished := by
  have h4 := h.2.2.2.1
  simp only [heldTags, List.mem_append, List.mem_map, not_or, not_exists, not_and] at h4
  simp only [List.filter_append, List.filter_cons, ne_eq, not_true_eq_false, decide_false,
    Bool.false_eq_true, if_false, List.filter_nil, List.append_nil]
  apply List.filter_eq_self.2
  intro u hu
  simpa using h4.1 u hu

/-- An owner that touches no port and finishes its reply: what the ports are after the step. -/
theorem replied {p : Port} {k : RequestKind} {tag : Nat} {s x : State} {o : ReplyOutcome} {b : Body}
    (h : Accepts p k tag s) (hx : x.pi = (accepted p k tag s).pi) :
    Replied p k tag o b s (endStep (reply p k tag o b x)) := by
  refine ⟨?_, ?_⟩
  · rw [getPort_endStep]
    simp only [reply, finishReply, getPort_setPort_self, getPort_congr hx p, accepted, filter_held h]
  · intro q hq
    rw [getPort_endStep]
    simp only [reply, finishReply, getPort_setPort_ne _ _ hq, getPort_congr hx q, accepted]

/-- A finished reply changes the Port Interface alone. -/
theorem reply_frame (p : Port) (k : RequestKind) (tag : Nat) (o : ReplyOutcome) (b : Body) (s : State) :
    reply p k tag o b s = s.setPi (reply p k tag o b s).pi := setPort_frame _ _ _

/-- A step that ends with a finished reply: every block but the ports is as the owner left it, the store
but for the step counter. -/
theorem endStep_reply_frame (p : Port) (k : RequestKind) (tag : Nat) (o : ReplyOutcome) (b : Body)
    (s : State) :
    endStep (reply p k tag o b s)
      = (s.setPi (endStep (reply p k tag o b s)).pi).setRs
          { s.rs with stepNo := (endStep (reply p k tag o b s)).rs.stepNo } := by
  have h : (reply p k tag o b s).rs = s.rs := by rw [reply_frame]; rfl
  have h2 : ∀ x : RetainedStore, ∀ y : PortInterface,
      ((reply p k tag o b s).setPi y).setRs x = (s.setPi y).setRs x := by
    intro x y; rw [reply_frame]; rfl
  rw [endStep_frame, h2, h]
  rfl

end Sys2Proof.Machine
end

