-- ==== Sys2Proof/Laws/Store.lean ====
section
/-! SUPPORT. What the store's operations do: records handed, reads of a clean array, and the canonical
form of the array, which every operation on it keeps. -/

namespace Sys2Proof.Machine

/-! ### Records handed -/

@[simp] theorem hand_pending (p : Place) (c : Content) (s : State) : (hand p c s).pending = s.pending := rfl
@[simp] theorem hand_pi (p : Place) (c : Content) (s : State) : (hand p c s).pi = s.pi := rfl
@[simp] theorem hand_dlc (p : Place) (c : Content) (s : State) : (hand p c s).dlc = s.dlc := rfl
@[simp] theorem hand_cc (p : Place) (c : Content) (s : State) : (hand p c s).cc = s.cc := rfl
@[simp] theorem hand_hu (p : Place) (c : Content) (s : State) : (hand p c s).hu = s.hu := rfl
@[simp] theorem hand_fu (p : Place) (c : Content) (s : State) : (hand p c s).fu = s.fu := rfl
@[simp] theorem hand_rq (p : Place) (c : Content) (s : State) : (hand p c s).rq = s.rq := rfl
@[simp] theorem hand_woe (p : Place) (c : Content) (s : State) : (hand p c s).woe = s.woe := rfl
@[simp] theorem hand_flt (p : Place) (c : Content) (s : State) : (hand p c s).flt = s.flt := rfl
@[simp] theorem hand_sc (p : Place) (c : Content) (s : State) : (hand p c s).sc = s.sc := rfl

/-- A record handed changes the write list alone. -/
theorem hand_rs (p : Place) (c : Content) (s : State) : (hand p c s).rs = handAll [(p, c)] s.rs := rfl

/-- A two-copy record handed changes the write list alone. -/
theorem handBoth_rs (p : Fin 2 → Place) (c : Content) (s : State) :
    (handBoth p c s).rs = handAll (bothCopies p c) s.rs := rfl

theorem handAll_append (l m : List (Place × Content)) (rs : RetainedStore) :
    handAll (l ++ m) rs = handAll m (handAll l rs) := by
  simp [handAll]

theorem insertEntry_mem (e : WriteEntry) (l : List WriteEntry) : e ∈ insertEntry e l := by
  induction l with
  | nil => simp [insertEntry]
  | cons x t ih => unfold insertEntry; split <;> simp [ih]

theorem putEntry_handed (n : Nat) (p : Place) (c : Content) (l : List WriteEntry) :
    (putEntry n p c l).any (fun e => e.handed = n) = true := by
  unfold putEntry
  split
  · rename_i h
    simp only [List.any_eq_true, decide_eq_true_eq, List.mem_map] at h ⊢
    obtain ⟨x, hx, hp⟩ := h
    exact ⟨_, ⟨x, hx, rfl⟩, by simp [hp]⟩
  · simp only [List.any_eq_true, decide_eq_true_eq]
    exact ⟨_, insertEntry_mem _ l, rfl⟩

theorem handAll_handed (l : List (Place × Content)) (hl : l ≠ []) (rs : RetainedStore) :
    (handAll l rs).writeList.any (fun e => e.handed = rs.stepNo) = true := by
  obtain ⟨m, y, rfl⟩ := List.eq_nil_or_concat l |>.resolve_left hl
  simp only [handAll, List.concat_eq_append, List.foldl_append, List.foldl_cons, List.foldl_nil]
  exact putEntry_handed _ _ _ _

/-- A step whose owners handed records closes their group (R172). -/
theorem endStep_hands {x : State} {l : List (Place × Content)} {rs : RetainedStore} (hl : l ≠ [])
    (h : x.rs = handAll l rs) : (endStep x).rs = stepHands l rs := by
  rw [endStep_rs, h]
  have : (handAll l rs).stepNo = rs.stepNo := rfl
  rw [this, handAll_handed l hl rs]
  rfl

/-! ### Reads of a clean array -/

/-- A place whose words carry no sequence: any but a report's and a fault record's (R175). -/
def unsequenced : Place → Bool
  | .report _ => false
  | .fault _ => false
  | _ => true

theorem errorAt_clean {s : State} (h : Clean s) (w : Nat) : errorAt w s = none := by
  simp [errorAt, show s.rs.errors = [] from h, assocGet]

/-- A read of a word of a clean array finds nothing, where its record's sequence agrees. -/
theorem readWord_clean {s : State} (h : Clean s) (raise : Raising → State → State) (p : Option Place)
    (w : Nat) (hp : SequencesAgree s ∨ ∀ q ∈ p, unsequenced q = true) :
    readWord raise p w s = s := by
  have he := errorAt_clean h w
  cases p with
  | none => simp [readWord, he, soundWord, testWord]
  | some p =>
    by_cases hw : inWriteList p s = true
    · simp [readWord, hw]
    · have hw : inWriteList p s = false := by simpa using hw
      have : testCommit raise p w s = s := by
        rcases hp with hp | hp
        · unfold testCommit
          split
          · split
            · rename_i i hi
              simp [hp.1 _ i hi hw]
            · rfl
          · split
            · rename_i i hi
              simp [hp.2 _ i hi hw]
            · rfl
          · rfl
        · have := hp p rfl
          cases p <;> first | rfl | simp [unsequenced] at this
      simp [readWord, hw, he, soundWord, testWord, this]

theorem readPlacesWith_agree {s : State} (h : Clean s) (raise : Raising → State → State)
    (ps : List Place) (hp : SequencesAgree s ∨ ∀ q ∈ ps, unsequenced q = true) :
    readPlacesWith raise ps s = s := by
  unfold readPlacesWith
  induction ps with
  | nil => rfl
  | cons p t ih =>
    have hr : readPlace raise s p = s := by
      unfold readPlace
      generalize placeAddresses p = l
      induction l with
      | nil => rfl
      | cons w l ihl =>
        rw [List.foldl_cons, readWord_clean h raise (some p) w (by
          rcases hp with hp | hp
          · exact .inl hp
          · exact .inr fun q hq => by
              cases hq
              exact hp p (List.mem_cons_self)), ihl]
    rw [List.foldl_cons, hr]
    exact ih (by
      rcases hp with hp | hp
      · exact .inl hp
      · exact .inr fun q hq => hp q (List.mem_cons_of_mem _ hq))

/-- Reads of a clean array whose records agree with their places change nothing. -/
theorem readPlaces_agree {s : State} (h : Clean s) (ha : SequencesAgree s) (ps : List Place) :
    readPlaces ps s = s := readPlacesWith_agree h _ ps (.inl ha)

/-- Reads of a clean array's records without sequences change nothing. -/
theorem readPlaces_clean {s : State} (h : Clean s) {ps : List Place} (hp : ps.all unsequenced = true) :
    readPlaces ps s = s := readPlacesWith_agree h _ ps (.inr (List.all_eq_true.1 hp))

theorem readPlacesWith_clean {s : State} (h : Clean s) (raise : Raising → State → State)
    {ps : List Place} (hp : ps.all unsequenced = true) : readPlacesWith raise ps s = s :=
  readPlacesWith_agree h _ ps (.inr (List.all_eq_true.1 hp))

@[simp] theorem readRegistry_clean {s : State} (h : Clean s) : readRegistry s = s := by
  rw [readRegistry, readPlaces_clean h (by rfl)]
  exact readPlaces_clean h (by simp [unsequenced])
@[simp] theorem readCrews_clean {s : State} (h : Clean s) : readCrews s = s :=
  readPlaces_clean h (by simp [unsequenced])
@[simp] theorem readQueueHead_clean {s : State} (h : Clean s) : readQueueHead s = s :=
  readPlaces_clean h (by rfl)
@[simp] theorem readFaultHead_clean {s : State} (h : Clean s) : readFaultHead s = s :=
  readPlaces_clean h (by rfl)
@[simp] theorem readPlan_clean {s : State} (h : Clean s) (p : Nat) : readPlan p s = s :=
  readPlaces_clean h (by rfl)
@[simp] theorem readConfig_clean {s : State} (h : Clean s) (i : ConfigItem) : readConfig i s = s :=
  readPlaces_clean h (by rfl)
@[simp] theorem readCrewsFor_clean {s : State} (h : Clean s) (p : Port) : readCrewsFor p s = s := by
  simp [readCrewsFor, readCrews_clean h]
@[simp] theorem readForMode_clean {s : State} (h : Clean s) (p : Port) : readForMode p s = s := by
  simp [readForMode, readConfig_clean h, readCrews_clean h]
@[simp] theorem readHeldReports_agree {s : State} (h : Clean s) (ha : SequencesAgree s) :
    readHeldReports s = s := by
  simp [readHeldReports, readQueueHead_clean h, readPlaces_agree h ha]

/-- What a raising changes of the watches' state leaves the array as it was. -/
theorem dockEvent_rs (c : WatchCond) (d : DockNo) (s : State) : (dockEvent c d s).rs = s.rs := by
  have step : ∀ (s : State) (i : Fin 4), (matchWatch c d s i).rs = s.rs := by
    intro s i
    unfold matchWatch
    split
    · rfl
    · split
      · simp only []
        split <;> simp [setEvent]
      · rfl
  unfold dockEvent
  generalize finList 4 = l
  induction l generalizing s with
  | nil => rfl
  | cons i t ih => rw [List.foldl_cons, ih, step]

theorem watchRaising_rs (r : Raising) (s : State) : (watchRaising r s).rs = s.rs := by
  unfold watchRaising
  split
  · exact dockEvent_rs _ _ _
  · rfl

/-- A raising while the array is clean: the watches, the policy, the fixed entries (R153). -/
theorem raise_clean {s : State} (h : Clean s) (r : Raising) : raise r s = raiseRead r (watchRaising r s) := by
  have hw : Clean (watchRaising r s) := by
    unfold Clean; rw [watchRaising_rs]; exact h
  have hr := fun n => readPlacesWith_clean hw (raiseWith n) (ps := [.policy r.kind]) rfl
  have hh := fun n => readPlacesWith_clean hw (raiseWith n) (ps := [.faultHead 0]) rfl
  unfold raise
  rw [raiseWith]
  simp only [hr, hh, ite_self]

/-! ### The canonical form of the array -/

theorem assocGet_put {α : Type} (k j : Nat) (v : α) (l : List (Nat × α)) :
    assocGet j (assocPut k v l) = if j = k then some v else assocGet j l := by
  induction l with
  | nil => simp [assocPut, assocGet]
  | cons x t ih =>
    obtain ⟨k', v'⟩ := x
    simp only [assocPut]
    split
    · simp [assocGet]
    · split
      · rename_i h1 h2
        subst h2
        by_cases hj : j = k <;> simp [assocGet, hj]
      · rename_i h1 h2
        simp only [assocGet, ih]
        by_cases hj : j = k'
        · have : j ≠ k := by omega
          simp [hj]
          intro; omega
        · simp [hj]

theorem assocSorted_cons {α : Type} (k : Nat) (v : α) (l : List (Nat × α)) :
    assocSorted ((k, v) :: l) = true ↔ (∀ x ∈ l, k < x.1) ∧ assocSorted l = true := by
  induction l generalizing k v with
  | nil => simp [assocSorted]
  | cons x t ih =>
    obtain ⟨k', v'⟩ := x
    simp only [assocSorted, Bool.and_eq_true, decide_eq_true_eq, ih]
    constructor
    · rintro ⟨h1, h2, h3⟩
      refine ⟨?_, h2, h3⟩
      intro y hy
      rcases List.mem_cons.1 hy with rfl | hy
      · exact h1
      · exact Nat.lt_trans h1 (h2 y hy)
    · rintro ⟨h1, h2, h3⟩
      exact ⟨h1 (k', v') (by simp), h2, h3⟩

theorem assocPut_mem {α : Type} (k : Nat) (v : α) (l : List (Nat × α)) :
    ∀ x ∈ assocPut k v l, x = (k, v) ∨ x ∈ l := by
  induction l with
  | nil => simp [assocPut]
  | cons y t ih =>
    obtain ⟨k', v'⟩ := y
    simp only [assocPut]
    split
    · simp
    · split
      · intro x hx
        rcases List.mem_cons.1 hx with h | h
        · exact .inl h
        · exact .inr (List.mem_cons_of_mem _ h)
      · intro x hx
        rcases List.mem_cons.1 hx with h | h
        · exact .inr (h ▸ List.mem_cons_self)
        · rcases ih x h with h | h
          · exact .inl h
          · exact .inr (List.mem_cons_of_mem _ h)

theorem assocPut_sorted {α : Type} (k : Nat) (v : α) (l : List (Nat × α)) (h : assocSorted l = true) :
    assocSorted (assocPut k v l) = true := by
  induction l with
  | nil => simp [assocPut, assocSorted]
  | cons x t ih =>
    obtain ⟨k', v'⟩ := x
    rw [assocSorted_cons] at h
    simp only [assocPut]
    split
    · rename_i hk
      rw [assocSorted_cons, assocSorted_cons]
      refine ⟨?_, h.1, h.2⟩
      intro y hy
      rcases List.mem_cons.1 hy with rfl | hy
      · exact hk
      · exact Nat.lt_trans hk (h.1 y hy)
    · split
      · rename_i h1 h2
        subst h2
        rw [assocSorted_cons]
        exact h
      · rename_i h1 h2
        rw [assocSorted_cons]
        refine ⟨?_, ih h.2⟩
        intro y hy
        rcases assocPut_mem _ _ _ y hy with rfl | hy
        · simp; omega
        · exact h.1 y hy

theorem assocDel_mem {α : Type} (k : Nat) (l : List (Nat × α)) : ∀ x ∈ assocDel k l, x ∈ l := by
  induction l with
  | nil => simp [assocDel]
  | cons y t ih =>
    obtain ⟨k', v'⟩ := y
    simp only [assocDel]
    split
    · intro x hx; exact List.mem_cons_of_mem _ hx
    · intro x hx
      rcases List.mem_cons.1 hx with h | h
      · exact h ▸ List.mem_cons_self
      · exact List.mem_cons_of_mem _ (ih x h)

theorem assocDel_sorted {α : Type} (k : Nat) (l : List (Nat × α)) (h : assocSorted l = true) :
    assocSorted (assocDel k l) = true := by
  induction l with
  | nil => simp [assocDel, assocSorted]
  | cons x t ih =>
    obtain ⟨k', v'⟩ := x
    rw [assocSorted_cons] at h
    simp only [assocDel]
    split
    · exact h.2
    · rw [assocSorted_cons]
      exact ⟨fun y hy => h.1 y (assocDel_mem _ _ y hy), ih h.2⟩

theorem clearErrors_sorted (l : List Nat) (e : List (Nat × WordError)) (h : assocSorted e = true) :
    assocSorted (clearErrors l e) = true := by
  induction l generalizing e with
  | nil => exact h
  | cons w t ih => exact ih _ (assocDel_sorted w e h)

/-- The list of words in error is as sorted after write-backs are abandoned (R173). -/
theorem abandoned_sorted (n : Nat) (l : List (Nat × WordError)) (h : assocSorted l = true) :
    assocSorted (l.filterMap fun e =>
      if e.2 ≠ .corrected then some e
      else if Config.writeBackMade n e.1 then none else some (e.1, .single)) = true := by
  have key : ∀ l : List (Nat × WordError), ∀ x ∈ l.filterMap (fun e : Nat × WordError =>
      if e.2 ≠ .corrected then some e
      else if Config.writeBackMade n e.1 then none else some (e.1, .single)),
      ∃ y ∈ l, y.1 = x.1 := by
    intro l x hx
    simp only [List.mem_filterMap] at hx
    obtain ⟨y, hy, hx⟩ := hx
    refine ⟨y, hy, ?_⟩
    split at hx
    · cases hx; rfl
    · split at hx
      · cases hx
      · cases hx; rfl
  induction l with
  | nil => rfl
  | cons x t ih =>
    obtain ⟨k, v⟩ := x
    rw [assocSorted_cons] at h
    have ht := ih h.2
    have hk : ∀ v' : WordError, assocSorted ((k, v') :: t.filterMap fun e =>
        if e.2 ≠ .corrected then some e
        else if Config.writeBackMade n e.1 then none else some (e.1, .single)) = true := by
      intro v'
      rw [assocSorted_cons]
      refine ⟨fun x hx => ?_, ht⟩
      obtain ⟨y, hy, hyx⟩ := key t x hx
      exact hyx ▸ h.1 y hy
    rw [List.filterMap_cons]
    split
    · exact ht
    · rename_i b hb
      split at hb
      · cases hb; exact hk v
      · split at hb
        · cases hb
        · cases hb; exact hk .single

theorem assocGet_none {α : Type} (k : Nat) (l : List (Nat × α)) (h : ∀ x ∈ l, k < x.1) :
    assocGet k l = none := by
  induction l with
  | nil => rfl
  | cons x t ih =>
    obtain ⟨k', v'⟩ := x
    have h1 := h (k', v') (by simp)
    simp only [assocGet]
    rw [if_neg (by simp at h1; omega)]
    exact ih fun y hy => h y (List.mem_cons_of_mem _ hy)

theorem assocGet_del {α : Type} (k j : Nat) (l : List (Nat × α)) (h : assocSorted l = true) :
    assocGet j (assocDel k l) = if j = k then none else assocGet j l := by
  induction l with
  | nil => simp [assocDel, assocGet]
  | cons x t ih =>
    obtain ⟨k', v'⟩ := x
    rw [assocSorted_cons] at h
    simp only [assocDel]
    split
    · rename_i hk
      subst hk
      by_cases hj : j = k
      · subst hj; simp [assocGet_none j t h.1]
      · simp [assocGet, hj]
    · rename_i hk
      simp only [assocGet, ih h.2]
      by_cases hj : j = k
      · subst hj; simp [hk]
      · simp [hj]

/-- A row of 64 words that holds records of `k` words, `m` to the row: the address gives the number. -/
theorem row_number {m k x y : Nat} (hk : 0 < k) (hm : m * k ≤ 64) (h0 : 0 < m)
    (h : x / m * 64 + k * (x % m) = y / m * 64 + k * (y % m)) : x = y := by
  have bx : k * (x % m) < 64 := by
    have := Nat.mul_lt_mul_of_pos_left (Nat.mod_lt x h0) hk
    rw [Nat.mul_comm k m] at this; omega
  have by' : k * (y % m) < 64 := by
    have := Nat.mul_lt_mul_of_pos_left (Nat.mod_lt y h0) hk
    rw [Nat.mul_comm k m] at this; omega
  have hd : x / m = y / m := by omega
  have hr : x % m = y % m := Nat.eq_of_mul_eq_mul_left hk (by omega)
  rw [← Nat.div_add_mod x m, ← Nat.div_add_mod y m, hd, hr]

/-- The number of a kind of record, in the order of the addresses. -/
def placeRegion : Place → Nat
  | .signature => 0
  | .station _ => 1
  | .config _ => 2
  | .policy _ => 3
  | .floor _ => 4
  | .queueHead _ => 5
  | .faultHead _ => 6
  | .registryHead _ => 7
  | .dock _ => 8
  | .report _ => 9
  | .fault _ => 10
  | .plan _ => 11
  | .flag _ => 12
  | .crew _ => 13

/-- Where the records of each kind begin. -/
def regionBase (r : Nat) : Nat :=
  [0, 1, 5, 14, 28, 37, 43, 47, 64, 320, 1344, 1536, 2560, 3328, 3376].getD r 3376

theorem regionBase_mono {a b : Nat} (ha : a < 14) (hb : b < 14) (h : a < b) :
    regionBase (a + 1) ≤ regionBase b := by
  have : ∀ b : Fin 14, ∀ a : Fin 14, a < b → regionBase (a.val + 1) ≤ regionBase b.val := by decide
  exact this ⟨b, hb⟩ ⟨a, ha⟩ h

theorem placeRegion_lt (p : Place) : placeRegion p < 14 := by cases p <;> simp [placeRegion]

theorem placeBase_region (p : Place) :
    regionBase (placeRegion p) ≤ placeBase p ∧ placeBase p < regionBase (placeRegion p + 1) := by
  cases p <;> simp only [placeRegion, placeBase, regionBase, List.getD_cons_zero, List.getD_cons_succ]
    <;> omega

theorem placeRegion_eq {p q : Place} (h : placeBase p = placeBase q) : placeRegion p = placeRegion q := by
  have hp := placeBase_region p
  have hq := placeBase_region q
  rcases Nat.lt_trichotomy (placeRegion p) (placeRegion q) with hl | hl | hl
  · have := regionBase_mono (placeRegion_lt p) (placeRegion_lt q) hl; omega
  · exact hl
  · have := regionBase_mono (placeRegion_lt q) (placeRegion_lt p) hl; omega

/-- No two record places share an address (R171). -/
theorem placeBase_injective {p q : Place} (h : placeBase p = placeBase q) : p = q := by
  have hr := placeRegion_eq h
  cases p <;> cases q <;> (try (simp [placeRegion] at hr; done)) <;>
    simp only [placeBase] at h
  · rfl
  · rename_i x y
    simp only [Place.station.injEq]
    omega
  · rename_i x y
    simp only [Place.config.injEq]
    have : configIndex x = configIndex y := by omega
    revert this
    cases x <;> cases y <;> simp [configIndex]
  · rename_i x y
    simp only [Place.policy.injEq]
    have : faultIndex x = faultIndex y := by omega
    revert this
    cases x <;> cases y <;> simp [faultIndex]
  · rename_i x y
    simp only [Place.floor.injEq]
    have : orderIndex x = orderIndex y := by omega
    revert this
    cases x <;> cases y <;> simp [orderIndex]
  · rename_i x y
    simp only [Place.dock.injEq]
    apply Fin.ext
    exact row_number (m := 12) (k := 5) (by decide) (by decide) (by decide) (by omega)
  · rename_i x y
    simp only [Place.queueHead.injEq]
    omega
  · rename_i x y
    simp only [Place.report.injEq]
    apply Fin.ext
    exact row_number (m := 6) (k := 10) (by decide) (by decide) (by decide) (by omega)
  · rename_i x y
    simp only [Place.faultHead.injEq]
    omega
  · rename_i x y
    simp only [Place.fault.injEq]
    apply Fin.ext
    exact row_number (m := 12) (k := 5) (by decide) (by decide) (by decide) (by omega)
  · rename_i x y
    simp only [Place.registryHead.injEq]
    omega
  · rename_i x y
    simp only [Place.flag.injEq]
    apply Fin.ext
    have := row_number (m := 21) (k := 3) (x := x.val + 15) (y := y.val + 15) (by decide) (by decide)
      (by decide) (by omega)
    omega
  · rename_i x y
    simp only [Place.plan.injEq]
    apply Fin.ext
    exact row_number (m := 9) (k := 7) (by decide) (by decide) (by decide) (by omega)
  · rename_i x y
    simp only [Place.crew.injEq]
    omega

/-- The array with one place's words put: what each place reads as. -/
theorem cell_put (p q : Place) (c : List Content) (a : List (Nat × List Content))
    (ha : assocSorted a = true) :
    (assocGet (placeBase q) (putCell p c a)).getD (coldCell q)
      = if q = p then c else (assocGet (placeBase q) a).getD (coldCell q) := by
  unfold putCell
  by_cases hq : q = p
  · subst hq
    split
    · rename_i hc
      simp [assocGet_del _ _ _ ha, hc]
    · simp [assocGet_put]
  · have hb : placeBase q ≠ placeBase p := fun h => hq (placeBase_injective h)
    split <;> simp [assocGet_del _ _ _ ha, assocGet_put, hb]

/-- The canonical form, place by place. -/
theorem arrayWf_iff (a : List (Nat × List Content)) :
    arrayWf a = true ↔
      assocSorted a = true ∧ ∀ p ∈ allPlaces, assocGet (placeBase p) a ≠ some (coldCell p) := by
  simp [arrayWf]

/-- Putting a place's words keeps the canonical form. -/
theorem putCell_wf (p : Place) (c : List Content) {a : List (Nat × List Content)}
    (h : arrayWf a = true) : arrayWf (putCell p c a) = true := by
  rw [arrayWf_iff] at h ⊢
  unfold putCell
  split
  · refine ⟨assocDel_sorted _ _ h.1, fun q hq => ?_⟩
    rw [assocGet_del _ _ _ h.1]
    split
    · simp
    · exact h.2 q hq
  · rename_i hc
    refine ⟨assocPut_sorted _ _ _ h.1, fun q hq => ?_⟩
    rw [assocGet_put]
    split
    · rename_i hb
      rw [placeBase_injective hb]
      simpa using hc
    · exact h.2 q hq

theorem assocSorted_filter {α : Type} (k : Nat → Bool) (l : List (Nat × α)) (h : assocSorted l = true) :
    assocSorted (l.filter fun x => k x.1) = true := by
  induction l with
  | nil => rfl
  | cons x t ih =>
    rw [assocSorted_cons] at h
    rw [List.filter_cons]
    split
    · rw [assocSorted_cons]
      exact ⟨fun y hy => h.1 y (List.mem_filter.1 hy).1, ih h.2⟩
    · exact ih h.2

theorem assocGet_filter {α : Type} (k : Nat → Bool) (j : Nat) (l : List (Nat × α)) :
    assocGet j (l.filter fun x => k x.1) = if k j then assocGet j l else none := by
  induction l with
  | nil => simp [assocGet]
  | cons x t ih =>
    obtain ⟨k', v⟩ := x
    rw [List.filter_cons]
    by_cases hj : j = k'
    · subst hj
      by_cases hk : k j <;> simp [assocGet, hk, ih]
    · by_cases hk : k k' <;> simp [assocGet, hk, ih, hj]

/-- Forgetting words keeps the canonical form. -/
theorem filter_wf (k : Nat → Bool) {a : List (Nat × List Content)} (h : arrayWf a = true) :
    arrayWf (a.filter fun x => k x.1) = true := by
  rw [arrayWf_iff] at h ⊢
  refine ⟨assocSorted_filter k a h.1, fun q hq => ?_⟩
  rw [assocGet_filter]
  split
  · exact h.2 q hq
  · simp

/-- The blank array, whose signature alone differs from a cold store, is in canonical form. -/
theorem blank_wf : arrayWf [(0, [Content.signature false])] = true := by
  have h : arrayWf ([] : List (Nat × List Content)) = true := by
    rw [arrayWf_iff]
    exact ⟨rfl, fun _ _ => by simp [assocGet]⟩
  have e : putCell .signature [Content.signature false] []
      = [(0, [Content.signature false])] := by
    unfold putCell
    rw [if_neg (by simp [coldCell, coldContent, placeWords])]
    rfl
  rw [← e]
  exact putCell_wf _ _ h

/-! ### What reads and writes of the array keep -/

/-- A record's words written whole keep the canonical form (R172). -/
theorem writeRecord_wf (p : Place) (c : Content) {s : State} (h : arrayWf s.rs.array = true) :
    arrayWf (writeRecord p c s).rs.array = true := putCell_wf p _ h

/-- A record cut short keeps the canonical form (R181). -/
theorem writeWords_wf (p : Place) (c : Content) (k : Nat) {s : State}
    (h : arrayWf s.rs.array = true) : arrayWf (writeWords p c k s).rs.array = true := putCell_wf p _ h

/-- Clearing a free word keeps the canonical form (R175). -/
theorem clearFreeWord_wf (p : Option Place) (w : Nat) {s : State} (h : arrayWf s.rs.array = true) :
    arrayWf (clearFreeWord p w s).rs.array = true := by
  cases p with
  | none => exact h
  | some p => exact putCell_wf p _ h

/-- A cold clearing keeps the canonical form (R183). -/
theorem clearArray_wf {s : State} (h : arrayWf s.rs.array = true) :
    arrayWf (clearArray s).rs.array = true :=
  putCell_wf .signature [Content.signature false] (filter_wf keptAtCold h)

/-- A place whose record has been written whole reads as that record (R172). -/
theorem cellOf_writeRecord (p q : Place) (c : Content) {s : State} (h : arrayWf s.rs.array = true) :
    cellOf q (writeRecord p c s) = if q = p then List.replicate (placeWords p) c else cellOf q s :=
  cell_put p q _ _ ((arrayWf_iff _).1 h).1

end Sys2Proof.Machine
end

