-- ==== Sys2Proof/Laws/Docks.lean ====
section
/-! SUPPORT. What a change of a dock record does: the record, its claim, its inhibit and the record handed;
and a POLL sent to a dock with nothing waiting. -/

namespace Sys2Proof.Machine

theorem vset_self {α : Type} {n : Nat} (v : Vector α n) (i : Fin n) : vset v i (vget v i) = v := by
  simp [vset, vget]

theorem vset_vset {α : Type} {n : Nat} (v : Vector α n) (i : Fin n) (a b : α) :
    vset (vset v i a) i b = vset v i b := by
  simp [vset]

theorem vget_ext {α : Type} {n : Nat} {v w : Vector α n} (h : ∀ i, vget v i = vget w i) : v = w := by
  apply Vector.ext
  intro i hi
  exact h ⟨i, hi⟩

/-! ### Lines -/

@[simp] theorem lineOf_setLine_self (d : DockNo) (l : LineState) (s : State) :
    lineOf d (setLine d l s) = l := by
  simp [lineOf, setLine, State.setDlc]

theorem lineOf_setLine (d e : DockNo) (l : LineState) (s : State) :
    lineOf e (setLine d l s) = if d = e then l else lineOf e s := by
  simp [lineOf, setLine, State.setDlc, vget_vset]

theorem setLine_same (d : DockNo) (s : State) : setLine d (lineOf d s) s = s := by
  unfold setLine lineOf
  rw [vset_self]
  exact State.setDlc_self s

@[simp] theorem dockOf_setLine (d e : DockNo) (l : LineState) (s : State) :
    dockOf e (setLine d l s) = dockOf e s := rfl

/-! ### Claims (R111) -/

/-- Claims are right exactly when each is the one counted for its dock's record, and the total their
sum. -/
theorem claimsRight_iff (s : State) :
    ClaimsRight s ↔ (∀ d, vget s.rq.claims d = claimOf (dockOf d s))
      ∧ s.rq.claimTotal = s.rq.claims.toList.sum := by
  refine and_congr (forall_congr' fun d => ?_) Iff.rfl
  cases hs : (dockOf d s).state <;> cases hp : (dockOf d s).suspended <;>
    cases hb : (dockOf d s).bike <;> rcases hd : (dockOf d s).deadline with _ | ⟨_ | ⟨_, _⟩⟩ <;>
    simp [claimOf, actuating, hs, hp, hb, hd]

theorem ClaimsRight.claim {s : State} (h : ClaimsRight s) (d : DockNo) :
    vget s.rq.claims d = claimOf (dockOf d s) := ((claimsRight_iff s).1 h).1 d

theorem ClaimsRight.total {s : State} (h : ClaimsRight s) :
    s.rq.claimTotal = s.rq.claims.toList.sum := h.2

/-! ### Dock records -/

/-- The lines after a change of a dock record: its inhibit follows (R6). -/
def inhibitLine (d : DockNo) (old new : DockRecord) (s : State) : LineState :=
  if (lineOf d s).surveyed = true ∧ toInhibit new = true ∧ toInhibit old = false then
    { lineOf d s with waiting := placeIn (.inhibit true) (lineOf d s).waiting }
  else if (lineOf d s).surveyed = true ∧ toInhibit new = false ∧ toInhibit old = true
      ∧ new.state ≠ .absent then
    { lineOf d s with waiting := placeIn (.inhibit false) (lineOf d s).waiting }
  else lineOf d s

theorem followInhibit_eq (d : DockNo) (old new : DockRecord) (s : State) :
    followInhibit d old new s = setLine d (inhibitLine d old new s) s := by
  unfold followInhibit inhibitLine placeCommand
  cases h1 : (lineOf d s).surveyed <;> cases h2 : toInhibit new <;> cases h3 : toInhibit old <;>
    simp [setLine_same]
  split <;> simp_all [setLine_same]

/-- What a change of a dock record leaves of the store. -/
def dockHanded (d : DockNo) (r : DockRecord) (s : State) : RetainedStore :=
  if retainedOf r = retainedOf (dockOf d s) then s.rs
  else handAll [(.dock d, .dock (retainedOf r))] s.rs

/-- Everything a change of a dock record does (R6, R111, R172). -/
theorem putDock_eq (d : DockNo) (r : DockRecord) (s : State) :
    putDock d r s =
      { s with
        dlc := { s.dlc with
          docks := vset s.dlc.docks d r,
          lines := vset s.dlc.lines d (inhibitLine d (dockOf d s) r s) },
        rq := { s.rq with
          claims := vset s.rq.claims d (claimOf r),
          claimTotal := (vset s.rq.claims d (claimOf r)).toList.sum },
        rs := dockHanded d r s } := by
  unfold putDock dockHanded
  dsimp only
  rw [followInhibit_eq]
  split
  · rfl
  · simp only [handDock, hand, handAll, setLine, State.setDlc, State.setRs, countClaim, State.setRq,
      dockOf, vget_vset_self, List.foldl_cons, List.foldl_nil]
    rfl

@[simp] theorem putDock_pending (d : DockNo) (r : DockRecord) (s : State) :
    (putDock d r s).pending = s.pending := by rw [putDock_eq]
@[simp] theorem putDock_pi (d : DockNo) (r : DockRecord) (s : State) : (putDock d r s).pi = s.pi := by
  rw [putDock_eq]
@[simp] theorem putDock_cc (d : DockNo) (r : DockRecord) (s : State) : (putDock d r s).cc = s.cc := by
  rw [putDock_eq]
@[simp] theorem putDock_hu (d : DockNo) (r : DockRecord) (s : State) : (putDock d r s).hu = s.hu := by
  rw [putDock_eq]
@[simp] theorem putDock_fu (d : DockNo) (r : DockRecord) (s : State) : (putDock d r s).fu = s.fu := by
  rw [putDock_eq]
@[simp] theorem putDock_woe (d : DockNo) (r : DockRecord) (s : State) : (putDock d r s).woe = s.woe := by
  rw [putDock_eq]
@[simp] theorem putDock_flt (d : DockNo) (r : DockRecord) (s : State) : (putDock d r s).flt = s.flt := by
  rw [putDock_eq]
@[simp] theorem putDock_sc (d : DockNo) (r : DockRecord) (s : State) : (putDock d r s).sc = s.sc := by
  rw [putDock_eq]
theorem putDock_rs (d : DockNo) (r : DockRecord) (s : State) :
    (putDock d r s).rs = dockHanded d r s := by rw [putDock_eq]

/-- A change of a dock record is read back, and leaves the other docks (R1). -/
theorem dockOf_putDock (d e : DockNo) (r : DockRecord) (s : State) :
    dockOf e (putDock d r s) = if d = e then r else dockOf e s := by
  rw [putDock_eq]
  simp [dockOf, vget_vset]

@[simp] theorem dockOf_putDock_self (d : DockNo) (r : DockRecord) (s : State) :
    dockOf d (putDock d r s) = r := by simp [dockOf_putDock]

theorem dockHanded_errors (d : DockNo) (r : DockRecord) (s : State) :
    (dockHanded d r s).errors = s.rs.errors := by
  unfold dockHanded
  split <;> rfl

theorem dockHanded_array (d : DockNo) (r : DockRecord) (s : State) :
    (dockHanded d r s).array = s.rs.array := by
  unfold dockHanded
  split <;> rfl

theorem putDock_clean {d : DockNo} {r : DockRecord} {s : State} (h : Clean s) :
    Clean (putDock d r s) := by
  unfold Clean
  rw [putDock_rs, dockHanded_errors]
  exact h

/-- A dock record put as it stands changes nothing, where its claim is right. -/
theorem putDock_same {s : State} (h : ClaimsRight s) (d : DockNo) : putDock d (dockOf d s) s = s := by
  rw [putDock_eq]
  have h1 : inhibitLine d (dockOf d s) (dockOf d s) s = lineOf d s := by
    unfold inhibitLine
    cases toInhibit (dockOf d s) <;> simp
  have h2 : vset s.rq.claims d (claimOf (dockOf d s)) = s.rq.claims := by
    rw [← h.claim d, vset_self]
  rw [h1, h2, ← h.total]
  simp only [dockOf, lineOf, vset_self, dockHanded, if_true]

/-- A change of a dock record that leaves its claim, its inhibit and what the store keeps of it changes
the record alone. -/
theorem putDock_quiet {s : State} {d : DockNo} {r : DockRecord} (h : ClaimsRight s)
    (hc : claimOf r = claimOf (dockOf d s)) (hi : toInhibit r = toInhibit (dockOf d s))
    (hr : retainedOf r = retainedOf (dockOf d s)) :
    putDock d r s = s.setDlc { s.dlc with docks := vset s.dlc.docks d r } := by
  rw [putDock_eq]
  have h1 : inhibitLine d (dockOf d s) r s = lineOf d s := by
    unfold inhibitLine
    rw [hi]
    cases toInhibit (dockOf d s) <;> simp
  have h2 : vset s.rq.claims d (claimOf r) = s.rq.claims := by
    rw [hc, ← h.claim d, vset_self]
  rw [h1, h2, ← h.total]
  simp only [lineOf, vset_self, dockHanded, hr, if_true]
  rfl

theorem list_sum_set (l : List Nat) (i n : Nat) (h : i < l.length) :
    (l.set i n).sum + l[i] = l.sum + n := by
  induction l generalizing i with
  | nil => cases h
  | cons a t ih =>
    cases i with
    | zero => simp [List.sum_cons]; omega
    | succ i =>
      have := ih i (by simpa using h)
      simp only [List.set_cons_succ, List.sum_cons, List.getElem_cons_succ]
      omega

/-- The claim total after one dock's claim is counted anew (R111). -/
theorem claims_sum {s : State} (h : ClaimsRight s) (d : DockNo) (n : Nat) :
    (vset s.rq.claims d n).toList.sum + claimOf (dockOf d s) = s.rq.claimTotal + n := by
  have := list_sum_set s.rq.claims.toList d.val n (by simp)
  have hs : (vset s.rq.claims d n).toList = s.rq.claims.toList.set d.val n := rfl
  rw [h.total, ← h.claim d, ← this, hs]
  rfl

/-- A change of a dock record keeps the counted claims right. -/
theorem claims_putDock {d : DockNo} {r : DockRecord} {s : State} (h : ClaimsRight s) :
    ClaimsRight (putDock d r s) := by
  rw [putDock_eq, claimsRight_iff]
  refine ⟨fun e => ?_, rfl⟩
  simp only [dockOf, vget_vset]
  split
  · rfl
  · exact h.claim e

/-- The claim total after a change of a dock record (R111). -/
theorem putDock_total {d : DockNo} {r : DockRecord} {s : State} (h : ClaimsRight s) :
    (putDock d r s).rq.claimTotal + claimOf (dockOf d s) = s.rq.claimTotal + claimOf r := by
  rw [putDock_eq]
  exact claims_sum h d _

theorem putDock_held (d : DockNo) (r : DockRecord) (s : State) :
    (putDock d r s).rq.held = s.rq.held := by rw [putDock_eq]

/-! ### A record appended (R110) -/

theorem appendReport_rq (r : Report) (s : State) :
    (appendReport r s).rq =
      { s.rq with held := s.rq.held ++ [r], nextSeq := nextSequence s.rq.nextSeq } := by
  unfold appendReport handReport
  dsimp only
  split <;> rfl

theorem appendReport_dlc (r : Report) (s : State) : (appendReport r s).dlc = s.dlc := by
  unfold appendReport handReport
  dsimp only
  split <;> rfl

theorem appendReport_cc (r : Report) (s : State) : (appendReport r s).cc = s.cc := by
  unfold appendReport handReport
  dsimp only
  split <;> rfl

theorem appendReport_array (r : Report) (s : State) :
    (appendReport r s).rs.array = s.rs.array ∧ (appendReport r s).rs.errors = s.rs.errors := by
  unfold appendReport handReport
  dsimp only
  split <;> exact ⟨rfl, rfl⟩

/-- A record appended keeps the counted claims right. -/
theorem claims_appendReport {r : Report} {s : State} (h : ClaimsRight s) :
    ClaimsRight (appendReport r s) := by
  rw [claimsRight_iff] at h ⊢
  simp only [dockOf, appendReport_dlc, appendReport_rq] at h ⊢
  exact h

/-! ### A turn with nothing waiting (R9) -/

theorem sendPoll {s : State} (h : ClaimsRight s) (d : DockNo) (b : Bool)
    (hw : (lineOf d s).waiting = []) :
    sendCommand d .poll [] b s = s.setDlc { s.dlc with
      exchange := some
        { dock := d, command := .poll, ack := (lineOf d s).lastEvent, survey := b,
          sentAt := s.sc.timebase } } := by
  have h1 : ∀ l : LineState, l.waiting = [] →
      { l with waiting := [], tagWrites := l.tagWrites, actuation := l.actuation } = l := by
    intro l hl
    rw [← hl]
  unfold sendCommand
  simp only [sentWrites, commandWrite, ownActuation, Bool.false_eq_true, if_false]
  rw [h1 _ hw, setLine_same]
  have h2 := putDock_same h d
  simp only [h2]

/-- A dock with nothing waiting is polled at its turn, by a survey poll on the survey's behalf. -/
theorem giveTurn_poll {s : State} (h : ClaimsRight s) (d : DockNo) (hw : (lineOf d s).waiting = []) :
    giveTurn d s = s.setDlc { s.dlc with
      exchange := some
        { dock := d, command := .poll, ack := (lineOf d s).lastEvent,
          survey := decide (surveyDock s = some d) && !probing d s, sentAt := s.sc.timebase } } := by
  unfold giveTurn
  rw [hw]
  exact sendPoll h d _ hw

theorem mem_finList {n : Nat} (i : Fin n) : i ∈ finList n := by
  simp only [finList, List.mem_filterMap, List.mem_range]
  exact ⟨i.val, i.isLt, by simp⟩

theorem finList_sorted (n : Nat) : (finList n).Pairwise (fun a b => a < b) := by
  unfold finList
  refine List.Pairwise.filterMap (R := fun a b : Nat => a < b) _ ?_ List.pairwise_lt_range
  intro a b hab x hx y hy
  simp only [Option.dite_none_right_eq_some, Option.some.injEq] at hx hy
  obtain ⟨_, rfl⟩ := hx
  obtain ⟨_, rfl⟩ := hy
  exact hab

/-- The first dock of a kind: one of the kind, with none of the kind below it. -/
theorem firstDock {f : DockNo → Bool} {d : DockNo} (hd : f d = true)
    (hb : ∀ e, e < d → f e = false) : allDocks.find? f = some d := by
  have key : ∀ l : List DockNo, l.Pairwise (fun a b => a < b) → d ∈ l → l.find? f = some d := by
    intro l hl hm
    induction l with
    | nil => cases hm
    | cons a t ih =>
      rw [List.pairwise_cons] at hl
      rw [List.find?_cons]
      rcases List.mem_cons.1 hm with rfl | hm
      · rw [hd]
      · rw [hb a (hl.1 d hm)]
        exact ih hl.2 hm
  exact key _ (finList_sorted 48) (mem_finList d)

end Sys2Proof.Machine
end

