-- ==== Sys2Proof/Laws/Faults.lean ====
section
/-! SUPPORT. What the steps of a fault raising do, once each: notices, dock events, fault set
entries, suspensions and the fault log (R153 to R158, R161, R168). -/

namespace Sys2Proof.Machine

/-- Everything a notice set does to the ports. -/
theorem getPort_setEvent (p q : Port) (k : EventKind) (s : State) :
    getPort q (setEvent p k s) =
      if p = q then
        { getPort q s with
          events := putEvent k true (getPort q s).events,
          reported := putEvent k false (getPort q s).reported }
      else getPort q s := by
  unfold setEvent
  by_cases h : p = q
  · subst h; rw [getPort_setPort_self, if_pos rfl]
  · rw [getPort_setPort_ne _ _ (fun x => h x.symm), if_neg h]

/-- A dock event changes nothing where no watch is defined. -/
theorem dockEvent_none (c : WatchCond) (d : DockNo) (y : State)
    (h : ∀ i, vget y.flt.watches i = none) : dockEvent c d y = y := by
  unfold dockEvent
  generalize finList 4 = l
  induction l with
  | nil => rfl
  | cons a t ih =>
    rw [List.foldl_cons, show matchWatch c d y a = y by simp [matchWatch, h a]]
    exact ih

/-- A dock event reads and changes the watches and the ports alone (R168). -/
theorem watchesMatched_only (c : WatchCond) (d : DockNo) (l : List (Fin 4)) (s y : State)
    (hf : y.flt = s.flt) (hp : y.pi = s.pi) :
    l.foldl (matchWatch c d) y = { y with
      pi := (l.foldl (matchWatch c d) s).pi, flt := (l.foldl (matchWatch c d) s).flt } := by
  induction l generalizing y s with
  | nil => simp only [List.foldl_nil]; rw [← hf, ← hp]
  | cons a t ih =>
    rw [List.foldl_cons, List.foldl_cons]
    have hset : ∀ p (f : FaultUnit), setEvent p .watchHit (y.setFlt f) =
        { y with pi := (setEvent p .watchHit (s.setFlt f)).pi,
                 flt := (setEvent p .watchHit (s.setFlt f)).flt } := by
      intro p f
      cases p <;> simp [setEvent, setPort, State.setFlt, State.setPi, getPort, hp]
    have hone : (matchWatch c d y a).flt = (matchWatch c d s a).flt
        ∧ (matchWatch c d y a).pi = (matchWatch c d s a).pi
        ∧ ∃ p f, matchWatch c d y a = { y with pi := p, flt := f } := by
      unfold matchWatch
      rw [hf]
      split
      · exact ⟨hf, hp, y.pi, y.flt, rfl⟩
      · split
        · dsimp only
          split
          · rw [hset]; exact ⟨rfl, rfl, _, _, rfl⟩
          · exact ⟨rfl, hp, y.pi, _, rfl⟩
        · exact ⟨hf, hp, y.pi, y.flt, rfl⟩
    obtain ⟨h1, h2, p, f, h3⟩ := hone
    rw [ih _ _ h1 h2, h3]

/-- A dock event and a change of the dock table, the claims and the store go side by side. -/
theorem dockEvent_with (c : WatchCond) (d : DockNo) (s : State) (dlc : DockLine) (rq : ReportQueue)
    (rs : RetainedStore) :
    dockEvent c d { s with dlc := dlc, rq := rq, rs := rs } =
      { dockEvent c d s with dlc := dlc, rq := rq, rs := rs } := by
  have h := watchesMatched_only c d (finList 4) s s rfl rfl
  unfold dockEvent
  rw [watchesMatched_only c d (finList 4) s { s with dlc := dlc, rq := rq, rs := rs } rfl rfl]
  generalize (finList 4).foldl (matchWatch c d) s = x at h ⊢
  rw [h]

/-- Everything an entry in a fault set does to records, faults and ports. -/
theorem enterFault_effect (d : DockNo) (k : FaultKind) (s : State) :
    (enterFault d k s).flt = s.flt ∧ (enterFault d k s).pi = s.pi
      ∧ ∀ e, dockOf e (enterFault d k s) =
        if d = e then { dockOf d s with faults := (dockOf d s).faults.put k true }
        else dockOf e s := by
  unfold enterFault
  refine ⟨by simp, by simp, ?_⟩
  intro e; rw [dockOf_putDock]

/-- Everything a suspend request does to records, faults and ports. -/
theorem suspendDock_effect (d : DockNo) (s : State) :
    (suspendDock d s).flt = s.flt ∧ (suspendDock d s).pi = s.pi
      ∧ ∀ e, dockOf e (suspendDock d s) =
        if d = e then { dockOf d s with suspended := true } else dockOf e s := by
  unfold suspendDock
  by_cases h : (dockOf d s).suspended = true
  · simp only [h, if_true]
    refine ⟨trivial, trivial, ?_⟩
    intro e; by_cases he : d = e
    · subst he; rw [if_pos rfl, ← h]
    · rw [if_neg he]
  · simp only [h]
    refine ⟨by simp, by simp, ?_⟩
    intro e; simp only [Bool.false_eq_true, if_false]; rw [dockOf_putDock]

/-- Everything the log does with a raising. -/
theorem logFault_effect (r : Raising) (s : State) :
    (logFault r s).pi = s.pi ∧ (logFault r s).dlc = s.dlc ∧
    (s.flt.log.length < 32 → (logFault r s).flt = { s.flt with
        log := s.flt.log ++
          [{ seq := s.flt.nextSeq, kind := r.kind, time := stationTime s, dock := r.dock,
             bike := if r.bike = some 0 then none else r.bike, detail := r.detail }],
        nextSeq := (s.flt.nextSeq + 1) % 65536 }) ∧
    (32 ≤ s.flt.log.length → (logFault r s).flt = { s.flt with
        lost :=
          match faultClass r.kind with
          | .dock => { s.flt.lost with dock := true }
          | .bike => { s.flt.lost with bike := true }
          | .station => { s.flt.lost with station := true } }) := by
  have hb : (r.bike.filter fun b => decide (b ≠ 0)) = if r.bike = some 0 then none else r.bike := by
    cases r.bike with
    | none => simp
    | some b => by_cases h : b = 0 <;> simp [h]
  unfold logFault
  by_cases h : 32 ≤ s.flt.log.length
  · simp only [if_pos h]
    refine ⟨?_, ?_, by omega, ?_⟩
    · unfold loseRecord; rfl
    · unfold loseRecord; rfl
    · intro _; unfold loseRecord; cases faultClass r.kind <;> rfl
  · simp only [if_neg h]
    have hh : ∀ n (y : State), (handFault n y).pi = y.pi ∧ (handFault n y).dlc = y.dlc
        ∧ (handFault n y).flt = y.flt := by
      intro n y; unfold handFault; split <;> exact ⟨rfl, rfl, rfl⟩
    rw [(hh _ _).1, (hh _ _).2.1, (hh _ _).2.2]
    refine ⟨rfl, rfl, ?_, by omega⟩
    intro _
    rw [← hb]; rfl

end Sys2Proof.Machine
end

