-- ==== Sys2Proof/Laws/Hires.lean ====
section
/-! SUPPORT. The choice of a dock (R24), and what the ends of a release leave as it was. -/

namespace Sys2Proof.Machine

/-- The fold of R24 over rising dock numbers gives the lowest dock with the least key. -/
theorem choose_fold (key : DockNo → Nat) (L : List DockNo) (b d : DockNo)
    (hp : (b :: L).Pairwise (· < ·)) (hd : d ∈ b :: L)
    (hm : ∀ e ∈ b :: L, key d < key e ∨ (key d = key e ∧ d ≤ e)) :
    L.foldl
      (fun best d =>
        match best with
        | none => some d
        | some b => if key d < key b then some d else some b)
      (some b) = some d := by
  induction L generalizing b with
  | nil => simp at hd; simp [hd]
  | cons a t ih =>
    simp only [List.foldl_cons]
    have hp1 := List.pairwise_cons.1 hp
    have hp2 := List.pairwise_cons.1 hp1.2
    split
    · rename_i hlt
      apply ih a hp1.2
      · rcases List.mem_cons.1 hd with rfl | h
        · have := hm a (by simp); omega
        · exact h
      · intro e he; exact hm e (List.mem_cons_of_mem _ he)
    · rename_i hlt
      apply ih b
      · rw [List.pairwise_cons]; exact ⟨fun x hx => hp1.1 x (by simp [hx]), hp2.2⟩
      · simp only [List.mem_cons] at hd ⊢
        rcases hd with rfl | rfl | h
        · simp
        · have h1 := hm b (by simp)
          have h2 := hp1.1 d (by simp)
          rcases h1 with h1 | ⟨h1, h3⟩
          · omega
          · exact absurd h2 (Fin.not_lt.2 h3)
        · simp [h]
      · intro e he; apply hm; simp only [List.mem_cons] at he ⊢; tauto

/-- The dock chosen is hireable, its docked since the oldest, the lowest-numbered among equals. -/
theorem choose_some {s : State} {d : DockNo} (hd : hireable d s = true)
    (hm : ∀ e, hireable e s = true →
      dockedSince d s < dockedSince e s ∨ (dockedSince d s = dockedSince e s ∧ d ≤ e)) :
    chooseDock s = some d := by
  unfold chooseDock
  have hmem : d ∈ allDocks.filter fun d => hireable d s := by
    rw [List.mem_filter]; exact ⟨mem_finList d, hd⟩
  have hp : (allDocks.filter fun d => hireable d s).Pairwise (· < ·) :=
    List.Pairwise.filter _ (finList_sorted 48)
  have hall : ∀ e ∈ allDocks.filter fun d => hireable d s,
      dockedSince d s < dockedSince e s ∨ (dockedSince d s = dockedSince e s ∧ d ≤ e) := by
    intro e he; exact hm e (List.mem_filter.1 he).2
  revert hmem hp hall
  cases allDocks.filter fun d => hireable d s with
  | nil => intro h; cases h
  | cons b L =>
    intro h1 h2 h3
    rw [List.foldl_cons]
    exact choose_fold (fun d => dockedSince d s) L b d h2 h1 h3

/-- With no hireable dock none is chosen. -/
theorem choose_none {s : State} (h : ∀ d, hireable d s = false) : chooseDock s = none := by
  unfold chooseDock
  have : (allDocks.filter fun d => hireable d s) = [] := by
    rw [List.filter_eq_nil_iff]; intro a _; simp [h a]
  rw [this]; rfl

/-- With a hireable dock one is chosen. -/
theorem choose_ex {s : State} {d : DockNo} (hd : hireable d s = true) :
    ∃ e, chooseDock s = some e := by
  unfold chooseDock
  have hmem : d ∈ allDocks.filter fun d => hireable d s := by
    rw [List.mem_filter]; exact ⟨mem_finList d, hd⟩
  revert hmem
  cases allDocks.filter fun d => hireable d s with
  | nil => intro h; cases h
  | cons b L =>
    intro h
    rw [List.foldl_cons]
    simp only
    clear h
    generalize b = c
    induction L generalizing c with
    | nil => exact ⟨c, rfl⟩
    | cons a t ih =>
      rw [List.foldl_cons]
      by_cases hlt : dockedSince a s < dockedSince c s
      · simp only [hlt, if_true]; exact ih a
      · simp only [hlt, if_false]; exact ih c

/-- A hireable dock is DOCKED, without holder and not suspended (R23). -/
theorem hireable_docked {d : DockNo} {s : State} (h : hireable d s = true) :
    (dockOf d s).state = .docked ∧ (dockOf d s).holder = none
      ∧ (dockOf d s).suspended = false := by
  simp only [hireable, conditionsFail, List.any_cons, id, Bool.not_eq_true',
      Bool.or_eq_false_iff, decide_eq_false_iff_not, ne_eq, Decidable.not_not] at h
  exact ⟨h.1, by simpa using h.2.2.1, h.2.1⟩

/-- A take's write-through changes the card cache alone. -/
theorem releaseTaken_kept (c t) (y : State) :
    (releaseTaken c t y).rq = y.rq ∧ (releaseTaken c t y).dlc = y.dlc ∧ (releaseTaken c t y).flt = y.flt := by
  unfold releaseTaken mapEntry dropRevoked setSet
  refine ⟨?_, ?_, ?_⟩ <;> (repeat' split) <;> rfl

/-- A reply finished for a hire leaves queue, docks and faults. -/
theorem finishMatching_kept (d tag o b) (y : State) :
    (finishMatching d tag o b y).rq = y.rq ∧ (finishMatching d tag o b y).dlc = y.dlc ∧ (finishMatching d tag o b y).flt = y.flt := by
  unfold finishMatching
  split
  · unfold finishHire reply finishReply mapHire; refine ⟨?_, ?_, ?_⟩ <;> simp [State.setHu]
  · exact ⟨rfl, rfl, rfl⟩

end Sys2Proof.Machine
end

