-- ==== Sys2Proof/Laws/Line.lean ====
section
/-! SUPPORT. The grant of the dock line (R9) as the terms of Safety.lean say it. -/

namespace Sys2Proof.Machine

/-- A change of a dock record that moves neither its claim nor its inhibit. -/
theorem putDock_states {s : State} {d : DockNo} {r : DockRecord} (h : ClaimsRight s)
    (hc : claimOf r = claimOf (dockOf d s)) (hi : toInhibit r = toInhibit (dockOf d s)) :
    putDock d r s =
      { s with
        dlc := { s.dlc with docks := vset s.dlc.docks d r }, rs := dockHanded d r s } := by
  rw [putDock_eq]
  have h1 : inhibitLine d (dockOf d s) r s = lineOf d s := by
    unfold inhibitLine
    rw [hi]
    cases toInhibit (dockOf d s) <;> simp
  have h2 : vset s.rq.claims d (claimOf r) = s.rq.claims := by
    rw [hc, ← h.claim d, vset_self]
  rw [h1, h2, ← h.total]
  simp only [lineOf, vset_self]

/-- A dock's turn outside the survey. -/
theorem giveTurn_turn {u : State} (h : ClaimsRight u) (hs : u.dlc.survey = none)
    (g : DockNo) : Turn g u (giveTurn g u) := by
  have hsd : surveyDock u = none := by unfold surveyDock; rw [hs]; rfl
  refine ⟨?_, ?_⟩
  · intro hw
    rw [giveTurn_poll h g hw, hsd]
    rfl
  · intro c rest hw belongs
    unfold giveTurn
    rw [hw]
    dsimp only
    unfold sendCommand
    dsimp only
    have hclaim : ∀ (l : LineState), ClaimsRight (setLine g l u) := by
      intro l; refine ⟨fun d => ?_, h.2⟩
      have := h.1 d
      rw [dockOf_setLine]; exact this
    have hown : ownActuation c (dockOf g u) = (belongs && actuating (dockOf g u)) := by
      simp only [belongs]
      cases c <;> simp [ownActuation, Bool.and_comm]
    obtain ⟨l', hl⟩ : ∃ l' : LineState, l' = { lineOf g u with
        waiting := rest, tagWrites := sentWrites g c u,
        actuation := if ownActuation c (dockOf g u) = true then some c
          else (lineOf g u).actuation } := ⟨_, rfl⟩
    obtain ⟨r', hr⟩ : ∃ r' : DockRecord, r' = { dockOf g u with
        deadline := if ownActuation c (dockOf g u) = true then
            sentDeadline u.sc.timebase (dockOf g u).deadline
          else (dockOf g u).deadline } := ⟨_, rfl⟩
    have hact : actuating r' = actuating (dockOf g u) := by
      rw [hr]
      unfold actuating sentDeadline
      cases ownActuation c (dockOf g u) <;>
        rcases (dockOf g u).deadline with _ | (⟨x, y⟩ | x) <;> simp
    have hq := putDock_quiet (s := setLine g l' u) (d := g) (r := r') (hclaim _)
      (by rw [dockOf_setLine]; unfold claimOf; rw [hact]; rw [hr])
      (by rw [dockOf_setLine, hr]; rfl) (by rw [dockOf_setLine, hr]; rfl)
    have h5 : (setLine g l' u).sc = u.sc := rfl
    rw [← hl, h5, ← hr, hq, hl, hr, hown]
    clear_value belongs
    cases belongs <;> rcases hdl : (dockOf g u).deadline with _ | (⟨x, y⟩ | x) <;>
      simp only [Bool.false_and, Bool.true_and, actuating, hdl, Bool.false_eq_true, if_false,
        if_true, sentDeadline] <;> rfl

/-- The grant outside the survey. -/
theorem grantLine_granted {u : State} (hr : running u = true) (h : ClaimsRight u)
    (hs : u.dlc.survey = none) : Granted u (grantLine u) := by
  have hsd : surveyDock u = none := by unfold surveyDock; rw [hs]; rfl
  have hdue : ∀ e, dueDock u e = true ↔
      (lineOf e u).surveyed = true ∧ (lineOf e u).sweepDue = true := by
    intro e; unfold dueDock; rw [hsd]; simp
  have hwant : ∀ e, wantsTurn u e = true ↔
      ((lineOf e u).surveyed = true ∧ (lineOf e u).sweepDue = true)
        ∨ (lineOf e u).surveyed = true ∧ ((lineOf e u).serviceRequest = true ∨ (lineOf e u).waiting ≠ []) := by
    intro e; unfold wantsTurn; simp [hdue]
  refine ⟨?_, ?_⟩
  · rintro (h1 | h1)
    · unfold grantLine; rw [if_neg (fun x => h1 x.2)]
    · have : grantedDock u = none := by
        unfold grantedDock
        have e1 : allDocks.find? (dueDock u) = none := by
          rw [List.find?_eq_none]; intro e _ h2; exact h1 e (Or.inl ((hdue e).1 h2))
        have e2 : allDocks.find? (wantsTurn u) = none := by
          rw [List.find?_eq_none]; intro e _ h2; exact h1 e ((hwant e).1 h2)
        rw [e1, e2]
      unfold grantLine; rw [this]; simp
  · intro g hx hg
    have : grantedDock u = some g := by
      unfold grantedDock
      rcases hg with ⟨h1, h2⟩ | ⟨h1, h2, h3⟩
      · have : allDocks.find? (dueDock u) = some g := firstDock ((hdue g).2 h1) (fun e he => by
          cases hb : dueDock u e; rfl; exact absurd ((hdue e).1 hb) (h2 e he))
        rw [this]
      · have e1 : allDocks.find? (dueDock u) = none := by
          rw [List.find?_eq_none]; intro e _ h2; exact h1 e ((hdue e).1 h2)
        have : allDocks.find? (wantsTurn u) = some g := firstDock ((hwant g).2 h2) (fun e he => by
          cases hb : wantsTurn u e; rfl; exact absurd ((hwant e).1 hb) (h3 e he))
        rw [e1, this]
    unfold grantLine; rw [if_pos ⟨hr, hx⟩, this]
    exact giveTurn_turn h hs g

/-- A grant changes the dock line controller alone. -/
theorem grantLine_frame {u : State} (h : ClaimsRight u) (hs : u.dlc.survey = none) :
    grantLine u = { u with dlc := (grantLine u).dlc } := by
  unfold grantLine
  split
  · split
    · rename_i g _
      rcases hw : (lineOf g u).waiting with _ | ⟨c, rest⟩
      · have := (giveTurn_turn h hs g).1 hw
        rw [this]
      · have := (giveTurn_turn h hs g).2 c rest hw
        rw [this]
    · rfl
  · rfl

end Sys2Proof.Machine
end

