-- ==== Sys2Proof/Laws/Events.lean ====
section
/-! SUPPORT. Changes of dock records, replies to hires and outcomes handed to holders, as the terms of
Safety.lean say them. -/

namespace Sys2Proof.Machine

/-- The term of Safety.lean is the model's test of R6. -/
theorem inhibited_eq (r : DockRecord) : inhibited r = toInhibit r := by
  unfold inhibited toInhibit
  cases hs : r.state <;> cases hb : r.bike <;> simp

/-- A line follows its dock's record (R6) as the term of Safety.lean says. -/
theorem inhibitLine_eq (d : DockNo) (r : DockRecord) (s : State) :
    inhibitLine d (dockOf d s) r s = inhibitFollows (dockOf d s) r (lineOf d s) := by
  unfold inhibitLine inhibitFollows
  rw [inhibited_eq, inhibited_eq]
  have ha : r.state = .absent → toInhibit r = false := fun h => by simp [toInhibit, h]
  cases h1 : toInhibit r <;> cases h2 : toInhibit (dockOf d s) <;> simp
  have hn : r.state ≠ .absent := fun h => by rw [ha h] at h1; exact absurd h1 (by simp)
  simp [hn]

/-- A change of a dock record. -/
theorem putDock_put (d : DockNo) (r : DockRecord) (s : State) :
    putDock d r s = dockPut d r (lineOf d s) (claimOf r) s := by
  rw [putDock_eq, inhibitLine_eq]
  rfl

/-- The dock records after a change of one. -/
theorem dockOf_dockPut (d e : DockNo) (r : DockRecord) (l : LineState) (n : Nat) (s : State) :
    dockOf e (dockPut d r l n s) = if d = e then r else dockOf e s := by
  simp [dockPut, dockOf, vget_vset]

/-- The line states after a change of a dock's record. -/
theorem lineOf_dockPut (d e : DockNo) (r : DockRecord) (l : LineState) (n : Nat) (s : State) :
    lineOf e (dockPut d r l n s) = if d = e then inhibitFollows (dockOf d s) r l else lineOf e s := by
  simp [dockPut, lineOf, vget_vset]

/-- A change of a dock record touches no word of the array. -/
theorem dockPut_clean {d : DockNo} {r : DockRecord} {l : LineState} {n : Nat} {s : State}
    (h : Clean s) : Clean (dockPut d r l n s) := by
  unfold Clean dockPut
  dsimp only
  split
  · exact h
  · exact h

/-- A line put after a change of its dock's record. -/
theorem setLine_dockPut {d : DockNo} {r : DockRecord} {l l' m : LineState} {n : Nat} {s : State}
    (h : l' = inhibitFollows (dockOf d s) r m) :
    setLine d l' (dockPut d r l n s) = dockPut d r m n s := by
  unfold setLine dockPut State.setDlc
  simp only [vset_vset]
  rw [← h]

/-- The kept actuation is dropped from a line just put. -/
theorem endActuation_dockPut (d : DockNo) (r : DockRecord) (l : LineState) (n : Nat) (s : State) :
    endActuation d (dockPut d r l n s) = dockPut d r { l with actuation := none } n s := by
  refine setLine_dockPut ?_
  rw [lineOf_dockPut, if_pos rfl]
  unfold inhibitFollows
  dsimp only
  split <;> rfl

/-- A line put before a change of its dock's record. -/
theorem dockPut_setLine (d : DockNo) (r : DockRecord) (l l' : LineState) (n : Nat) (s : State) :
    dockPut d r l n (setLine d l' s) = dockPut d r l n s := by
  unfold setLine dockPut State.setDlc
  simp only [vset_vset, dockOf]
  rfl

/-- A change that leaves a dock as inhibited as it was leaves its line. -/
theorem inhibitFollows_same {old new : DockRecord} (l : LineState)
    (h : inhibited new = inhibited old) : inhibitFollows old new l = l := by
  unfold inhibitFollows
  simp [h]

/-! ### Replies to hires, and outcomes handed to holders -/

/-- A finished reply to a HIRE. -/
theorem finishHire_answered (tag : Nat) (o : ReplyOutcome) (b : Body) (s : State) :
    finishHire tag o b s
      = hireAnswered tag o b (if o = .released then .offered else .ended) s := rfl

/-- The reply to a HIRE whose record matches (R78). -/
theorem finishMatching_ends (d : DockNo) (tag : Nat) (o : ReplyOutcome) (b : Body) (s : State) :
    finishMatching d tag o b s
      = hireEnds d tag o b (if o = .released then .offered else .ended) s := by
  unfold finishMatching hireEnds matchingHire
  split
  · rename_i h hf
    have h1 := List.find?_some hf
    have h2 := List.mem_of_find?_eq_some hf
    simp only [Bool.and_eq_true, decide_eq_true_eq] at h1
    rw [if_pos ⟨h, h2, h1.1.1, h1.1.2, h1.2⟩]
    rfl
  · rename_i hf
    rw [if_neg]
    rintro ⟨h, h2, h3, h4, h5⟩
    have := List.find?_eq_none.1 hf h h2
    simp [h3, h4, h5] at this

/-- The notice STATION_CHANGED. -/
theorem setEvent_changed (s : State) : setEvent .terminal .stationChanged s = stationChanged s := rfl

/-- FAILED handed to a holder. -/
theorem handFailed_for (d : DockNo) (h : Option Holder) (s : State) :
    handFailed d h s = failedFor d h s := by
  rcases h with _ | ⟨tag, stamp⟩ | _ <;> try rfl
  cases stamp <;> simp only [handFailed, hireFailed, failedFor, finishMatching_ends] <;> rfl

/-- LAPSED handed to a holder. -/
theorem handLapsed_for (d : DockNo) (h : Option Holder) (s : State) :
    handLapsed d h s = lapsedFor d h s := by
  rcases h with _ | ⟨tag, stamp⟩ | _ <;> try rfl
  cases stamp <;> simp only [handLapsed, hireLapsed, lapsedFor, finishMatching_ends, setEvent_changed]
    <;> rfl

/-- TAKEN handed to a holder. -/
theorem handTaken_for (d : DockNo) (h : Option Holder) (bike : Nat) (s : State) :
    handTaken d h bike s = takenFor d h bike s := by
  rcases h with _ | ⟨tag, stamp⟩ | _ <;> try rfl
  cases stamp <;> simp only [handTaken, hireTaken, takenFor, finishMatching_ends] <;> rfl

/-- LOCK_JAM raised at a dock. -/
theorem raiseJam_raised (d : DockNo) (phase : JamPhase) (s : State) :
    raiseJam d phase s = jamRaised d phase (dockOf d s).holder (dockOf d s).bike s := rfl

/-- FAILED leaves the Dock Line Controller as it is. -/
theorem failedFor_dlc (d : DockNo) (h : Option Holder) (s : State) : (failedFor d h s).dlc = s.dlc := by
  have hru : ∀ c t (x : State), (releaseUndone c t x).dlc = x.dlc := by
    intro c t x; unfold releaseUndone dropRevoked; split <;> (try split) <;> rfl
  have hj : ∀ x : State, (judgeStart x).dlc = x.dlc := by
    intro x; unfold judgeStart; split <;> (try split) <;> (try dsimp only) <;> (try split) <;> rfl
  unfold failedFor
  split
  · unfold hireEnds stampUndone
    split <;> split <;> first | rfl | exact hru _ _ _
  · unfold collectOutcome
    split
    · rfl
    · split
      · split
        · unfold collectGoesOn completeOrder waitOrder
          split
          · dsimp only
            split
            · unfold endSlot; rw [hj]; rfl
            · rfl
          · rfl
        · rfl
      · rfl
  · rfl

/-- LAPSED leaves the Dock Line Controller as it is. -/
theorem lapsedFor_dlc (d : DockNo) (h : Option Holder) (s : State) : (lapsedFor d h s).dlc = s.dlc := by
  have hru : ∀ c t (x : State), (releaseUndone c t x).dlc = x.dlc := by
    intro c t x; unfold releaseUndone dropRevoked; split <;> (try split) <;> rfl
  rcases h with _ | ⟨tag, stamp⟩ | ⟨i, j, k⟩
  · rfl
  · simp only [lapsedFor]
    unfold hireEnds stampUndone
    split <;> split <;> first | rfl | exact hru _ _ _
  · exact failedFor_dlc d (some (.order i j k)) s

/-! ### Bike flags and marks -/

/-- With no word in error an entry of the registry leaves docks, report queue and station control, and the
array sound. -/
theorem enterFlag_frame (b : Nat) (o : FlagOrigin) {s : State} (hc : Clean s) :
    (enterFlag b o s).dlc = s.dlc ∧ (enterFlag b o s).rq = s.rq ∧ (enterFlag b o s).sc = s.sc
      ∧ Clean (enterFlag b o s) := by
  unfold enterFlag
  split
  · exact ⟨rfl, rfl, rfl, hc⟩
  · exact ⟨rfl, rfl, rfl, hc⟩
  · rw [readFaultHead_clean hc]
    split
    · exact ⟨rfl, rfl, rfl, hc⟩
    · exact ⟨rfl, rfl, rfl, hc⟩

/-- The registry is full for a bike without entry when it holds 64. -/
theorem flagOutcome_full {b : Nat} {s : State} :
    flagOutcome b s = .full ↔ (∀ e ∈ s.flt.registry, e.bike ≠ b) ∧ 64 ≤ s.flt.registry.length := by
  unfold flagOutcome flagOf
  cases hf : s.flt.registry.find? fun e => decide (e.bike = b) with
  | some e =>
    have h1 := List.find?_some hf
    have h2 := List.mem_of_find?_eq_some hf
    simp only [decide_eq_true_eq] at h1
    simp only [reduceCtorEq, false_iff]
    intro h; exact h.1 e h2 h1
  | none =>
    have h1 := List.find?_eq_none.1 hf
    simp only [decide_eq_true_eq] at h1
    dsimp only
    split
    · simp only [reduceCtorEq, false_iff]; omega
    · simp only [true_iff]; exact ⟨h1, by omega⟩

/-- A claim does not depend on which bike a record has. -/
theorem claimOf_otherBike {r : DockRecord} {k k' : Bike} (h : r.bike = some k) :
    claimOf { r with bike := some k' } = claimOf r := by
  unfold claimOf actuating
  cases hs : r.state <;> simp [h]

/-- The tag mark is put into a record that names the bike. -/
theorem putMark_put {d : DockNo} {b : Nat} {m : Bool} {s x : State} {k : Bike} (hcl :
    ClaimsRight s) (l : LineState)
    (hx : x.dlc = (setLine d l s).dlc) (hrq : x.rq = s.rq) (hk : (dockOf d s).bike = some k) (hb :
        k.id = b) :
    putMark d b m x = dockPut d { dockOf d s with bike := some { k with mark :=
        m } } l (vget s.rq.claims d) x := by
  have h1 : dockOf d x = dockOf d s := by rw [dockOf, hx]; rfl
  have h2 : lineOf d x = l := by rw [lineOf, hx]; exact lineOf_setLine_self d l s
  unfold putMark
  simp only [h1, hk, if_pos hb]
  rw [putDock_put, h2]
  have : claimOf { dockOf d s with bike := some { k with mark := m } } = vget s.rq.claims d := by
    rw [hcl.claim d]; exact claimOf_otherBike hk
  rw [this]

/-- A record that does not name the bike keeps its mark. -/
theorem putMark_other {d : DockNo} {b : Nat} {m : Bool} {x : State} (h :
    (dockOf d x).bike.map Bike.id ≠ some b) :
    putMark d b m x = x := by
  unfold putMark
  dsimp only
  split
  · rename_i k hk
    rw [hk] at h
    rw [if_neg (by simpa using h)]
  · rfl

/-! ### Raisings, probes and survey results -/

/-- A raising leaves a sound array sound. -/
theorem raise_keepsClean {s : State} (hc : Clean s) (r : Raising) : Clean (raise r s) := by
  rw [raise_clean hc]
  have hw : Clean (watchRaising r s) := by unfold Clean; rw [watchRaising_rs]; exact hc
  generalize watchRaising r s = x at hw
  have hlose : ∀ c (y : State), Clean y → Clean (loseRecord c y) := fun _ _ h => h
  have hlog : ∀ y : State, Clean y → Clean (logFault r y) := by
    intro y hy; unfold logFault; split
    · exact hlose _ _ hy
    · dsimp only; unfold handFault; split <;> exact hy
  have hent : ∀ d k (y : State), Clean y → Clean (enterFault d k y) := fun d k y hy => putDock_clean hy
  have hraise : ∀ y : State, Clean y → Clean (enterRaising r y) := by
    intro y hy; unfold enterRaising; split
    · split
      · exact hent _ _ _ hy
      · exact hy
    · exact hy
  have hal : ∀ y : State, Clean y → Clean (faultAlert y) := by
    intro y hy; unfold Clean faultAlert setEvent; simpa using hy
  have hsus : ∀ y : State, Clean y → Clean (suspendRaising r y) := by
    intro y hy; unfold suspendRaising; split
    · split
      · unfold suspendDock; dsimp only; split
        · exact hy
        · exact putDock_clean hy
      · exact hy
    · exact hy
  have hpol : ∀ p (y : State), Clean y → Clean (policyAction p r y) := by
    intro p y hy; unfold policyAction; split
    · exact hy
    · exact hraise _ (hlog _ hy)
    · exact hal _ (hraise _ (hlog _ hy))
    · exact hsus _ (hal _ (hraise _ (hlog _ hy)))
  unfold raiseRead fixedEntries
  split
  · exact hpol _ _ hw
  · split
    · exact hent _ _ _ (hpol _ _ hw)
    · split
      · exact hent _ _ _ (hpol _ _ hw)
      · exact hpol _ _ hw

/-- A command placed after a change of the dock's record that leaves its inhibit. -/
theorem placed_release {x : State} (d : DockNo) (r : DockRecord) (c : Command)
    (hi : inhibited r = inhibited (dockOf d x)) :
    placeCommand d c (putDock d r x) =
      dockPut d r { lineOf d x with waiting := placeIn c (lineOf d x).waiting } (claimOf r) x := by
  rw [putDock_put, placeCommand, lineOf_dockPut, if_pos rfl, inhibitFollows_same _ hi]
  exact setLine_dockPut (by rw [inhibitFollows_same _ hi])

/-- The beginning of a probe (R21). -/
theorem probe_put {x : State} (d : DockNo) (clearing : Bool) (f : FaultSet) :
    startProbe d clearing f x =
      dockPut d { dockOf d x with deadline := some (.actuation none false), faults := f }
        { lineOf d x with waiting := placeIn (.relock clearing .probe) (lineOf d x).waiting }
        (claimOf { dockOf d x with deadline := some (.actuation none false), faults := f }) x := by
  unfold startProbe
  dsimp only
  rw [placed_release]
  simp [inhibited]

/-- The write list with a record handed again. -/
theorem putEntry_present (n : Nat) (p : Place) (c : Content) (l : List WriteEntry)
    (h : l.any (fun x => x.place = p) = true) :
    putEntry n p c l =
      l.map fun x => if x.place = p then { x with content := c, handed := n } else x := if_pos h

/-- The content of an entry that enters the write list is put. -/
theorem insertEntry_put (n : Nat) (p : Place) (c c' : Content) (l : List WriteEntry)
    (h : ∀ x ∈ l, x.place ≠ p) :
    ((insertEntry { place := p, content := c, entered := n, handed := n } l).map fun x =>
        if x.place = p then { x with content := c', handed := n } else x)
      = insertEntry { place := p, content := c', entered := n, handed := n } l := by
  induction l with
  | nil => simp [insertEntry]
  | cons y t ih =>
    have hy : y.place ≠ p := h y (by simp)
    have ht : ∀ x ∈ t, x.place ≠ p := fun x hx => h x (by simp [hx])
    unfold insertEntry
    dsimp only
    split
    · simp only [List.map_cons, hy, if_false, if_true]
      congr 2
      exact (List.map_congr_left fun x hx => if_neg (ht x hx)).trans (List.map_id _)
    · simp only [List.map_cons, hy, if_false]
      rw [ih ht]

/-- Of a record handed twice in a step the second content stands, where the first would. -/
theorem putEntry_again (n : Nat) (p : Place) (c c' : Content) (l : List WriteEntry) :
    putEntry n p c' (putEntry n p c l) = putEntry n p c' l := by
  by_cases h : l.any (fun x => x.place = p) = true
  · have h2 : (putEntry n p c l).any (fun x => x.place = p) = true := by
      rw [putEntry_present n p c l h, List.any_map, ← h]
      congr 1
      funext x
      simp only [Function.comp]
      split <;> simp [*]
    rw [putEntry_present _ _ _ _ h2, putEntry_present n p c l h, putEntry_present _ _ _ _ h,
      List.map_map]
    apply List.map_congr_left
    intro x _
    simp only [Function.comp]
    by_cases hp : x.place = p <;> simp [hp]
  · have h1 : ∀ c, putEntry n p c l =
        insertEntry { place := p, content := c, entered := n, handed := n } l := fun _ => if_neg h
    have h2 : (putEntry n p c l).any (fun x => x.place = p) = true := by
      rw [h1, List.any_eq_true]
      exact ⟨_, insertEntry_mem _ _, by simp⟩
    rw [putEntry_present _ _ _ _ h2, h1, h1, insertEntry_put]
    intro x hx hp
    exact h (List.any_eq_true.2 ⟨x, hx, by simpa using hp⟩)

/-- Of two changes of a dock record in one step, of which the first leaves the inhibit and the second does
not take back what the store keeps, the second stands (R6, R111, R172). -/
theorem putDock_putDock (d : DockNo) (r r' : DockRecord) (s : State)
    (hi : toInhibit r = toInhibit (dockOf d s))
    (hr : retainedOf r' = retainedOf (dockOf d s) → retainedOf r = retainedOf (dockOf d s)) :
    putDock d r' (putDock d r s) = putDock d r' s := by
  have hl : lineOf d (putDock d r s) = lineOf d s := by
    rw [putDock_eq]
    simp only [lineOf, vget_vset_self]
    unfold inhibitLine
    rw [hi]
    cases toInhibit (dockOf d s) <;> simp [lineOf]
  have hin : inhibitLine d r r' (putDock d r s) = inhibitLine d (dockOf d s) r' s := by
    unfold inhibitLine
    rw [hl, hi]
  have hh : dockHanded d r' (putDock d r s) = dockHanded d r' s := by
    unfold dockHanded
    rw [dockOf_putDock_self, putDock_rs]
    unfold dockHanded
    by_cases h1 : retainedOf r = retainedOf (dockOf d s)
    · rw [h1]; simp only [if_true]
    · by_cases h2 : retainedOf r' = retainedOf r
      · rw [if_pos h2, h2]
      · rw [if_neg h2, if_neg h1, if_neg fun h => h1 (hr h)]
        simp only [handAll, List.foldl_cons, List.foldl_nil, putEntry_again]
  rw [putDock_eq d r' (putDock d r s), putDock_eq d r' s, dockOf_putDock_self, hin, hh, putDock_eq d r s]
  simp [vset_vset]

/-- A survey result puts its record and hands it. -/
theorem surveySet_put (d : DockNo) (r : DockRecord) (x : State) :
    surveySet d r x =
      { dockPut d r (lineOf d x) (claimOf r) x with
        rs := handAll [(.dock d, .dock (retainedOf r))] x.rs } := by
  unfold surveySet
  rw [putDock_put]
  unfold handDock
  rw [dockOf_dockPut, if_pos rfl]
  unfold hand State.setRs dockPut
  dsimp only
  split
  · rfl
  · simp only [handAll, List.foldl_cons, List.foldl_nil, putEntry_again]

end Sys2Proof.Machine
end

