-- ==== Sys2Proof/Laws/Cards.lean ====
section
/-! SUPPORT. What the Card Cache's operations do: the way a placement takes, an entry's values, and what a
placement and an offline decision leave. -/

namespace Sys2Proof.Machine

/-- A value limited to a range. -/
theorem limit_eq (lo hi x : Int) (h : lo ≤ hi) : limit lo hi x = min hi (max lo x) := by
  unfold limit; omega

/-- A set of pinned entries gives up none (R46). -/
theorem evict_none {l : List CardEntry} (h : ∀ e ∈ l, e.pendingTrips ≠ []) : evict l = none := by
  unfold evict
  have : l.reverse.findIdx? (fun e => !pinned e) = none := by
    rw [List.findIdx?_eq_none_iff]
    intro x hx
    simpa [pinned] using h x (List.mem_reverse.1 hx)
  rw [this]

/-- A set gives up its least recently used entry that is not pinned (R46). -/
theorem evict_some {a b : List CardEntry} {v : CardEntry} (hv : v.pendingTrips = []) (h : ∀ e ∈ b,
    e.pendingTrips ≠ []) :
    evict (a ++ v :: b) = some (a ++ b) := by
  unfold evict
  have h1 : (a ++ v :: b).reverse = b.reverse ++ v :: a.reverse := by simp
  rw [h1]
  have : (b.reverse ++ v :: a.reverse).findIdx? (fun e => !pinned e) = some b.reverse.length := by
    rw [List.findIdx?_append]
    have : b.reverse.findIdx? (fun e => !pinned e) = none := by
      rw [List.findIdx?_eq_none_iff]
      intro x hx
      simpa [pinned] using h x (List.mem_reverse.1 hx)
    rw [this]
    simp [List.findIdx?_cons, pinned, hv]
  rw [this]
  dsimp only
  rw [List.eraseIdx_append_of_length_le (by simp)]
  simp

/-- The values of an entry (R44). -/
theorem values_eq (e : CardEntry) : entryValues e =
    { standing := e.standing.getD .active, plan := e.plan, hireLimit := e.hireLimit,
      pendingCount := e.pendingTrips.length,
      openCount := (min 15 (max 0 (e.baseOpen + e.hireAdj))).toNat,
      balance := max (-1000000) (e.balance - e.fareAdj) } := by
  unfold entryValues effectiveOpen effectiveBalance
  rw [limit_eq _ _ _ (by omega)]

/-- A placement changes the Card Cache alone. -/
theorem placeMember_frame {m : MemberRecord} {s : State} (hc : Clean s) (ha : SequencesAgree s) :
    (placeMember m s).2 = { s with cc := (placeMember m s).2.cc } := by
  unfold placeMember
  split
  · split
    · rfl
    · simp only [readHeldReports_agree hc ha]
      rfl
  · split
    · simp only [readHeldReports_agree hc ha]
      unfold allocate
      dsimp only
      split
      · rename_i h
        split at h
        · obtain rfl := Option.some.inj h; rfl
        · cases hev : evict (vget s.cc.sets (cardSet (memberEntry m [] (recompute m.card m.baseMark 0 s) s).card)) with
          | none => rw [hev] at h; cases h
          | some l => rw [hev] at h; obtain rfl := Option.some.inj h; rfl
      · rfl
    · rfl

/-- An offline decision changes the Card Cache alone. -/
theorem decideOffline_frame {k : Nat} {p : Option Nat} {s : State} (hc : Clean s) :
    (decideOffline k p s).2 = { s with cc := (decideOffline k p s).2.cc } := by
  have hru : readUnknownTest s = s := by
    unfold readUnknownTest
    rw [readConfig_clean hc, readConfig_clean hc, readConfig_clean hc]
    dsimp only
    rw [readPlan_clean hc]
  have hun : ∀ b, (decideUnknown k b s).2 = { s with cc := (decideUnknown k b s).2.cc } := by
    intro b
    unfold decideUnknown
    rw [hru]
    dsimp only
    split
    · rfl
    · dsimp only
      split
      · unfold allocate
        dsimp only
        split
        · rfl
        · cases evict (vget (countGrant s).cc.sets (cardSet (provisionalEntry k s.sc.config.defaultOfflinePlan).card)) <;> rfl
      · rfl
  unfold decideOffline
  split
  · exact hun _
  · split
    · rfl
    · split
      · exact hun _
      · split
        · unfold decideValid
          dsimp only
          rw [readPlan_clean hc]
          split
          · rfl
          · split <;> rfl
        · split
          · rfl
          · exact hun _

end Sys2Proof.Machine
end

