-- ==== Sys2Proof/Laws/Damage.lean ====
section
/-! SUPPORT. What damage found in a record does: places that read clean have nothing to correct,
    records that
move and read sound stay, and the records handed as a collection closes up (R158, R163, R172, R175). -/

namespace Sys2Proof.Machine

/-- A place whose words need no correction: with an entry in the write list, or without a word in error. -/
def CleanAt (q : Place) (s : State) : Prop :=
  inWriteList q s = true ∨ ∀ v ∈ placeAddresses q, errorAt v s = none

/-- The words of a place. -/
theorem addr_mem {p : Place} {k : Nat} (h : k < placeWords p) : placeBase p + k ∈ placeAddresses p := by
  simp only [placeAddresses, List.mem_map, List.mem_range]
  exact ⟨k, h, rfl⟩

/-- A place without a word in error has no double-bit error. -/
theorem firstDouble_clean {q : Place} {s : State} (h : ∀ v ∈ placeAddresses q, errorAt v s = none) :
    firstDouble q s = none := by
  unfold firstDouble
  rw [List.find?_eq_none]
  intro v hv
  simp [h v hv]

/-- Clean places have nothing to correct. -/
theorem soundPlaces_clean (raised : Raising → State → State) (ps : List Place) (s : State)
    (h : ∀ q ∈ ps, CleanAt q s) : soundPlaces raised ps s = s := by
  unfold soundPlaces
  have : ∀ l : List Place, (∀ q ∈ l, ∀ v ∈ placeAddresses q, errorAt v s = none) →
      l.foldl (fun s p => (placeAddresses p).foldl (soundWord raised) s) s = s := by
    intro l hl
    induction l with
    | nil => rfl
    | cons q t ih =>
      rw [List.foldl_cons]
      have : (placeAddresses q).foldl (soundWord raised) s = s := by
        have hq := hl q (by simp)
        revert hq
        generalize placeAddresses q = ws
        intro hq
        induction ws with
        | nil => rfl
        | cons v vs ihv =>
          rw [List.foldl_cons]
          have : soundWord raised s v = s := by
            unfold soundWord; rw [hq v (by simp)]
          rw [this]
          exact ihv fun u hu => hq u (by simp [hu])
      rw [this]
      exact ih fun q hq => hl q (by simp [hq])
  apply this
  intro q hq v hv
  rw [List.mem_filter] at hq
  rcases h q hq.1 with h1 | h1
  · rw [h1] at hq; simp at hq
  · exact h1 v hv

/-- Clean places have no double-bit error to capture. -/
theorem movedDoubles_clean (ps : List Place) (s : State) (h : ∀ q ∈ ps, CleanAt q s) :
    movedDoubles ps s = [] := by
  unfold movedDoubles
  rw [List.filterMap_eq_nil_iff]
  intro q hq
  rw [List.mem_filter] at hq
  rcases h q hq.1 with h1 | h1
  · rw [h1] at hq; simp at hq
  · exact firstDouble_clean h1

/-- Whether a word reads clean or corrected. -/
theorem wordReads_iff (p : Place) (k : Nat) (s : State) :
    wordReads p k s = true ↔ errorAt (placeBase p + k) s ≠ some .double := by
  simp [wordReads]

/-- The places of the records after one of the log. -/
theorem laterFaults_places (i : Nat) (s : State) (q : Place)
    (h : q ∈ (laterFaults i s).map fun x => Place.fault x.1) :
    ∃ k, i ≤ k ∧ k < (s.flt.log.eraseIdx i).length ∧ i < s.flt.log.length ∧
      q = .fault (faultRing s.flt.oldestPlace (k + 1)) := by
  simp only [laterFaults, List.map_map, List.mem_map, List.mem_filter, decide_eq_true_eq] at h
  obtain ⟨⟨r, j⟩, ⟨hm, hlt⟩, rfl⟩ := h
  have hj := List.mem_zipIdx' hm
  dsimp only at hj hlt
  refine ⟨j - 1, by omega, ?_, by omega, ?_⟩
  · rw [List.length_eraseIdx]; split <;> omega
  · simp only [Function.comp]
    rw [show j - 1 + 1 = j by omega]

/-- Records that move and all read sound stay. -/
theorem judgeMoved_sound (s : State) (lost : LostFlags) (place : Nat → Fin 32) (log :
    List FaultRecord) (m i : Nat)
    (hm : log.length - i = m)
    (h : ∀ k, i ≤ k → k < log.length → ∀ o, log.head? = some o →
      faultSound (place k) o.seq
        (if k = 0 then none else (log[k - 1]?).map FaultRecord.seq) s = true) :
    judgeMoved s ((log.drop i).zipIdx i |>.map fun x => (place x.2, x.1))
      (if i = 0 then none else (log[0]?).map FaultRecord.seq)
      (if i = 0 then none else (log[i - 1]?).map FaultRecord.seq) lost = (log.drop i, lost) := by
  induction m generalizing i with
  | zero =>
    have : log.drop i = [] := by rw [List.drop_eq_nil_iff]; omega
    rw [this]; rfl
  | succ m ih =>
    have hi : i < log.length := by omega
    rw [List.drop_eq_getElem_cons hi]
    simp only [List.zipIdx_cons, List.map_cons, judgeMoved]
    have hne : 0 < log.length := by omega
    have h0 : log.head? = some log[0] := List.head?_eq_getElem? ▸ List.getElem?_eq_getElem hne
    have e1 : (if i = 0 then none else (log[0]?).map FaultRecord.seq).getD log[i].seq = log[0].seq := by
      by_cases hz : i = 0
      · subst hz; rfl
      · rw [if_neg hz, List.getElem?_eq_getElem hne]; rfl
    have := ih (i + 1) (by omega) (fun k hk => h k (by omega))
    rw [if_neg (by omega), if_neg (by omega), List.getElem?_eq_getElem hne, Nat.add_sub_cancel,
      List.getElem?_eq_getElem hi] at this
    rw [e1, if_pos (h i (Nat.le_refl _) hi _ h0)]
    exact congrArg (fun x => (log[i] :: x.1, x.2)) this

/-- The numbered elements after one of a list. -/
theorem zipIdx_later {α : Type} (l : List α) (i : Nat) (hi : i < l.length) :
    (l.zipIdx.filter fun x => decide (i < x.2)) = (l.drop (i + 1)).zipIdx (i + 1) := by
  have hsplit : l.zipIdx = (l.take (i+1)).zipIdx ++ (l.drop (i+1)).zipIdx (i+1) := by
    conv_lhs => rw [← List.take_append_drop (i+1) l]
    rw [List.zipIdx_append]
    congr 2
    rw [List.length_take]; omega
  rw [hsplit, List.filter_append]
  have h1 : ((l.take (i+1)).zipIdx.filter fun x => decide (i < x.2)) = [] := by
    rw [List.filter_eq_nil_iff]
    rintro ⟨a, j⟩ ha
    have := List.mem_zipIdx' ha
    have h2 := this.1
    rw [List.length_take] at h2
    simp; omega
  have h2 : (((l.drop (i+1)).zipIdx (i+1)).filter fun x => decide (i < x.2)) =
      (l.drop (i+1)).zipIdx (i+1) := by
    rw [List.filter_eq_self]
    rintro ⟨a, j⟩ ha
    have := List.le_snd_of_mem_zipIdx ha
    simp at this ⊢; omega
  rw [h1, h2]; rfl

/-- A numbering from one further on. -/
theorem zipIdx_shift {α β : Type} (l : List α) (f : α → Nat → β) (i : Nat) :
    (l.zipIdx (i + 1)).map (fun y => f y.1 y.2) = (l.zipIdx i).map fun y => f y.1 (y.2 + 1) := by
  induction l generalizing i with
  | nil => rfl
  | cons a t ih => simp only [List.zipIdx_cons, List.map_cons, ih]

/-- A double-bit error found changes the capture alone (R178). -/
theorem capture_eq (c : Option Collection) (w : Nat) (s : State) :
    ∃ k, captureError c w s = s.setRs { s.rs with capture := k } := ⟨_, rfl⟩

/-- Registry places handed one by one. -/
theorem flags_handed (l : List FlagEntry) (i : Nat) (ks : List Nat) (s : State) (h : s.flt.registry = l) :
    ks.foldl (fun s k => handFlag k s) s = 
      s.setRs (handAll (ks.map fun k => (.flag (flagPlace k), .flag l[k]?)) s.rs) := by
  induction ks generalizing s with
  | nil => rfl
  | cons a t ih =>
    rw [List.foldl_cons, ih _ (by rw [handFlag, hand_flt]; exact h)]
    unfold handFlag hand State.setRs handAll
    simp only [List.map_cons, List.foldl_cons, h]

/-- The numbers from one up to another. -/
theorem range_ge (i n : Nat) :
    ((List.range (i + n)).filter fun k => decide (i ≤ k)) = (List.range n).map fun k => i + k := by
  induction n with
  | zero => simp
  | succ n ih =>
    rw [Nat.add_succ, List.range_succ, List.filter_append, ih, List.range_succ, List.map_append]
    simp

/-- The fault records from a position on, handed to their places. -/
theorem handFaultsFrom_eq (i : Nat) (s : State) (hi : i ≤ s.flt.log.length) :
    handFaultsFrom i s = s.setRs (handAll
      ((s.flt.log.drop i).zipIdx.map fun e => (.fault (faultRing s.flt.oldestPlace (i + e.2)),
          .fault e.1)) s.rs) := by
  unfold handFaultsFrom
  have hl : s.flt.log.length = i + (s.flt.log.length - i) := by omega
  rw [hl, range_ge]
  generalize hn : s.flt.log.length - i = n
  have key : ∀ n, n ≤ s.flt.log.length - i → ∀ y : State, y.flt = s.flt →
      ((List.range n).map fun k => i + k).foldl (fun s k => handFault k s) y = y.setRs (handAll
      (((s.flt.log.drop i).take n).zipIdx.map fun e => (.fault (faultRing s.flt.oldestPlace (i + e.2)),
          .fault e.1)) y.rs) := by
    intro n
    induction n with
    | zero => intro _ y hy; simp [handAll]; rfl
    | succ n ih =>
      intro hn y hy
      rw [List.range_succ, List.map_append, List.foldl_append, ih (by omega) y hy]
      have hlt : n < (s.flt.log.drop i).length := by rw [List.length_drop]; omega
      rw [List.take_succ_eq_append_getElem hlt, List.zipIdx_append, List.map_append, handAll_append]
      simp only [List.map_cons, List.map_nil, List.foldl_cons, List.foldl_nil, List.zipIdx_cons,
          List.zipIdx_nil, List.length_take]
      rw [Nat.min_eq_left (by omega), Nat.zero_add]
      unfold handFault
      have : y.flt.log[i + n]? = some (s.flt.log.drop i)[n] := by
        rw [hy, List.getElem_drop, List.getElem?_eq_getElem]
      rw [show (y.setRs (handAll
      (((s.flt.log.drop i).take n).zipIdx.map fun e => (Place.fault (faultRing s.flt.oldestPlace (i + e.2)), Content.fault e.1)) y.rs)).flt = y.flt from rfl]
      rw [this, hy]
      rfl
  rw [key n (by omega) s rfl]
  rw [List.take_of_length_le (by rw [List.length_drop]; omega)]

/-- A registry entry is removed, and the later ones close up (R163, R172). -/
theorem removed_flag (s : State) (a b : List FlagEntry) (e : FlagEntry) (h : s.flt.registry = a ++ e :: b) :
    removeFlag a.length s = { s with
              flt := { s.flt with registry := a ++ b },
              rs := handAll
                (bothCopies .registryHead (.registryHead (a ++ b).length)
                  ++ (List.range (b.length + 1)).map fun k =>
                    (.flag (flagPlace (a.length + k)), .flag (a ++ b)[a.length + k]?)) s.rs } := by
  unfold removeFlag putRegistry handFlagsFrom
  have he : s.flt.registry.eraseIdx a.length = a ++ b := by
    rw [h, List.eraseIdx_append_of_length_le (by simp)]; simp
  have hl : s.flt.registry.length = a.length + (b.length + 1) := by rw [h]; simp
  dsimp only
  rw [he, hl, range_ge, flags_handed (a ++ b) 0 _ _ rfl, handAll_append, List.map_map]
  unfold handRegistryHead
  rw [handBoth_rs]
  rfl

end Sys2Proof.Machine
end

