-- ==== Sys2Proof/Laws/Formats.lean ====
section
/-! SUPPORT. The byte layouts of section 11.8: numbers in bytes, and the
fields of concatenated layouts. -/

namespace Sys2Proof.Machine

/-- A number in `k` bytes reads back modulo 256 to the `k`. -/
theorem leNat_leBytes (k n : Nat) : leNat (leBytes k n) = n % 256 ^ k := by
  induction k generalizing n with
  | zero => simp [leBytes, leNat, Nat.mod_one]
  | succ k ih =>
    simp only [leBytes, leNat, ih, BitVec.toNat_ofNat]
    have : n % 256^(k+1) = n%256 + 256*(n/256 % 256^k) := by rw [Nat.pow_succ', Nat.mod_mul]
    rw [this]

@[simp] theorem leBytes_length (k n : Nat) : (leBytes k n).length = k := by
  induction k generalizing n with
  | zero => rfl
  | succ k ih => simp [leBytes, ih]

/-- A field that stands at its place between what comes before and after. -/
theorem field_at (a b c : List Byte) (i k : Nat) (hi : a.length = i)
    (hk : b.length = k) : field (a ++ (b ++ c)) i k = leNat b := by
  subst hi hk; simp [field]

@[simp] theorem stampBytes_length (t : Option Stamp) : (stampBytes t).length = 16 := by
  cases t <;> simp [stampBytes, leBytes_length]

end Sys2Proof.Machine
end

