-- ==== Sys2Proof/Laws/Reads.lean ====
section
/-! SUPPORT. A property of the state that the block updates of the store's reads keep is kept by every read
of the store, whatever damage it finds: one lemma for each operation, stated once for all such
properties. -/

namespace Sys2Proof.Machine

/-- A property that the block updates keep which a read of the store can make: it leaves the dock records,
the claims and their total, and it lengthens the report queue at most to the 96 places less the total
(R122). -/
structure Reads (P : State → Prop) : Prop where
  setPi : ∀ {x s}, P s → P (s.setPi x)
  setFu : ∀ {x s}, P s → P (s.setFu x)
  setWoe : ∀ {x s}, P s → P (s.setWoe x)
  setFlt : ∀ {x s}, P s → P (s.setFlt x)
  setSc : ∀ {x : StationControl} {s}, x.startKind = s.sc.startKind → P s → P (s.setSc x)
  setDlc : ∀ {x : DockLine} {s}, x.docks = s.dlc.docks → P s → P (s.setDlc x)
  setRq : ∀ {x : ReportQueue} {s}, x.claims = s.rq.claims → x.claimTotal = s.rq.claimTotal →
    x.held.length ≤ max s.rq.held.length (96 - s.rq.claimTotal) → P s → P (s.setRq x)
  setRs : ∀ {x : RetainedStore} {s}, x.array = s.rs.array → x.errors = s.rs.errors → P s →
    P (s.setRs x)
  setErrors : ∀ {x : RetainedStore} {s}, x.array = s.rs.array →
    (assocSorted s.rs.errors = true → assocSorted x.errors = true) → P s → P (s.setRs x)
  putWords : ∀ {x : RetainedStore} {s} (p c), x.array = putCell p c s.rs.array →
    (assocSorted s.rs.errors = true → assocSorted x.errors = true) → P s → P (s.setRs x)

/-- A fold of operations that each keep a property. -/
theorem keep_foldl {P : State → Prop} {α : Type} {f : State → α → State} {l : List α} {s : State}
    (hf : ∀ s x, P s → P (f s x)) (hs : P s) :
    P (l.foldl f s) := by
  induction l generalizing s with
  | nil => exact hs
  | cons x t ih => exact ih (hf s x hs)

variable {P : State → Prop}

/-! ### What reads hand and raise -/

theorem keep_setPort (h : Reads P) (p : Port) (x : PortState) {s : State} (hs : P s) :
    P (setPort p x s) := by
  unfold setPort
  with_reducible repeat' first | assumption | apply h.setPi | dsimp only | split

theorem keep_setEvent (h : Reads P) (p : Port) (k : EventKind) {s : State} (hs : P s) :
    P (setEvent p k s) := by
  unfold setEvent
  with_reducible repeat' first | assumption | apply keep_setPort h

theorem keep_hand (h : Reads P) (p : Place) (c : Content) {s : State} (hs : P s) :
    P (hand p c s) := by
  unfold hand
  with_reducible repeat' first | assumption | apply h.setRs | rfl

theorem keep_handBoth (h : Reads P) (p : Fin 2 → Place) (c : Content) {s : State} (hs : P s) :
    P (handBoth p c s) := by
  unfold handBoth
  with_reducible repeat' first | assumption | apply keep_hand h

theorem keep_handStation (h : Reads P) {s : State} (hs : P s) : P (handStation s) := by
  unfold handStation
  with_reducible repeat' first | assumption | apply keep_handBoth h

theorem keep_handConfig (h : Reads P) (i : ConfigItem) {s : State} (hs : P s) :
    P (handConfig i s) := by
  unfold handConfig
  with_reducible repeat' first | assumption | apply keep_hand h

theorem keep_handPolicy (h : Reads P) (k : FaultKind) {s : State} (hs : P s) :
    P (handPolicy k s) := by
  unfold handPolicy
  with_reducible repeat' first | assumption | apply keep_hand h

theorem keep_handFloor (h : Reads P) (k : OrderKind) {s : State} (hs : P s) :
    P (handFloor k s) := by
  unfold handFloor
  with_reducible repeat' first | assumption | apply keep_hand h

theorem keep_handCrew (h : Reads P) (i : Fin 16) {s : State} (hs : P s) : P (handCrew i s) := by
  unfold handCrew
  with_reducible repeat' first | assumption | apply keep_hand h

theorem keep_handPlan (h : Reads P) (p : Fin 16) {s : State} (hs : P s) : P (handPlan p s) := by
  unfold handPlan
  with_reducible repeat' first | assumption | apply keep_hand h

theorem keep_handQueueHead (h : Reads P) {s : State} (hs : P s) : P (handQueueHead s) := by
  unfold handQueueHead
  with_reducible repeat' first | assumption | apply keep_handBoth h

theorem keep_handReport (h : Reads P) (i : Nat) {s : State} (hs : P s) : P (handReport i s) := by
  unfold handReport
  with_reducible repeat' first | assumption | apply keep_hand h | split

theorem keep_handFaultHead (h : Reads P) {s : State} (hs : P s) : P (handFaultHead s) := by
  unfold handFaultHead
  with_reducible repeat' first | assumption | apply keep_handBoth h

theorem keep_handFault (h : Reads P) (i : Nat) {s : State} (hs : P s) : P (handFault i s) := by
  unfold handFault
  with_reducible repeat' first | assumption | apply keep_hand h | split

theorem keep_handRegistryHead (h : Reads P) {s : State} (hs : P s) : P (handRegistryHead s) := by
  unfold handRegistryHead
  with_reducible repeat' first | assumption | apply keep_handBoth h

theorem keep_handFlag (h : Reads P) (i : Nat) {s : State} (hs : P s) : P (handFlag i s) := by
  unfold handFlag
  with_reducible repeat' first | assumption | apply keep_hand h

theorem keep_setLine (h : Reads P) (d : DockNo) (l : LineState) {s : State} (hs : P s) :
    P (setLine d l s) := by
  unfold setLine
  with_reducible repeat' first | assumption | apply h.setDlc | rfl

theorem keep_handDock (h : Reads P) (d : DockNo) {s : State} (hs : P s) : P (handDock d s) := by
  unfold handDock
  with_reducible repeat' first | assumption | apply keep_hand h

theorem keep_loseRecord (h : Reads P) (c : FaultClass) {s : State} (hs : P s) :
    P (loseRecord c s) := by
  unfold loseRecord
  with_reducible repeat' first | assumption | apply keep_handFaultHead h | apply h.setFlt

theorem keep_logFault (h : Reads P) (r : Raising) {s : State} (hs : P s) : P (logFault r s) := by
  unfold logFault
  with_reducible
    repeat' first
      | assumption | apply keep_handFaultHead h | apply keep_handFault h | apply keep_loseRecord h
      | apply h.setFlt | dsimp only | split

theorem keep_faultAlert (h : Reads P) {s : State} (hs : P s) : P (faultAlert s) := by
  unfold faultAlert
  with_reducible repeat' first | assumption | apply keep_setEvent h

theorem keep_captureError (h : Reads P) (c : Option Collection) (w : Nat) {s : State} (hs : P s) :
    P (captureError c w s) := by
  unfold captureError
  with_reducible repeat' first | assumption | apply h.setRs | rfl

/-- A raising that names no dock, once the store has been read for it. -/
theorem keep_raiseStation (h : Reads P) (r : Raising) (hd : r.dock = none) {s : State} (hs : P s) :
    P (raiseRead r s) := by
  have hf : ∀ x, fixedEntries r x = x := fun x => by simp [fixedEntries, hd]
  have he : ∀ x, enterRaising r x = x := fun x => by simp [enterRaising, hd]
  have hsu : ∀ x, suspendRaising r x = x := fun x => by simp [suspendRaising, hd]
  unfold raiseRead policyAction
  rw [hf]
  split
  · exact hs
  · rw [he]; exact keep_logFault h r hs
  · rw [he]; exact keep_faultAlert h (keep_logFault h r hs)
  · rw [he, hsu]; exact keep_faultAlert h (keep_logFault h r hs)

/-! ### Words corrected -/

/-- What a raising handed to a read of the store keeps: those it makes name no dock. -/
abbrev RaisesKeep (P : State → Prop) (raise : Raising → State → State) : Prop :=
  ∀ r s, r.dock = none → P s → P (raise r s)

theorem keep_settleWord (h : Reads P) (w : Nat) {s : State} (hs : P s) : P (settleWord w s) :=
  h.setErrors rfl (assocDel_sorted _ _) hs

theorem keep_correctWord (h : Reads P) {raise : Raising → State → State} (hr : RaisesKeep P raise)
    (w : Nat) {s : State} (hs : P s) : P (correctWord raise w s) := by
  have h1 : P (s.setRs { s.rs with errors := assocPut w .corrected s.rs.errors }) :=
    h.setErrors rfl (assocPut_sorted _ _ _) hs
  unfold correctWord
  dsimp only
  split
  · exact hr _ _ rfl h1
  · exact h.setRs rfl rfl h1

theorem keep_soundWord (h : Reads P) {raise : Raising → State → State} (hr : RaisesKeep P raise)
    (w : Nat) {s : State} (hs : P s) : P (soundWord raise s w) := by
  unfold soundWord
  with_reducible
    repeat' first
      | assumption | apply keep_correctWord h | apply keep_settleWord h | split

theorem keep_soundPlaces (h : Reads P) {raise : Raising → State → State} (hr : RaisesKeep P raise)
    (ps : List Place) {s : State} (hs : P s) : P (soundPlaces raise ps s) := by
  unfold soundPlaces
  with_reducible
    repeat' first
      | assumption | apply keep_soundWord h | apply keep_foldl | intro _

theorem keep_captureAll (h : Reads P) (c : Collection) (ws : List Nat) {s : State} (hs : P s) :
    P (captureAll c ws s) := by
  unfold captureAll
  with_reducible repeat' first | assumption | apply keep_captureError h | apply keep_foldl | intro _

/-! ### Damage of single-copy records -/

theorem keep_damageReport (h : Reads P) (n : Fin 96) (i : Nat) {s : State} (hs : P s) :
    P (damageReport n i s) := by
  unfold damageReport
  split
  · exact hs
  · exact keep_handReport h _ (h.setRq rfl rfl (by simp) hs)

theorem keep_handFaultsFrom (h : Reads P) (i : Nat) {s : State} (hs : P s) :
    P (handFaultsFrom i s) := by
  unfold handFaultsFrom
  with_reducible repeat' first | assumption | apply keep_handFault h | apply keep_foldl | intro _

theorem keep_removeFault (h : Reads P) (n : Fin 32) (i : Nat) {s : State} (hs : P s) :
    P (removeFault n i s) := by
  unfold removeFault
  with_reducible
    repeat' first
      | assumption | apply keep_handFaultsFrom h | apply keep_handFaultHead h | apply h.setFlt
      | apply keep_captureAll h | dsimp only

theorem keep_damageFault (h : Reads P) {raise : Raising → State → State} (hr : RaisesKeep P raise)
    (n : Fin 32) {s : State} (hs : P s) : P (damageFault raise n s) := by
  unfold damageFault
  with_reducible
    repeat' first
      | assumption | apply keep_removeFault h | apply keep_soundPlaces h | dsimp only | split

theorem keep_handFlagsFrom (h : Reads P) (i m : Nat) {s : State} (hs : P s) :
    P (handFlagsFrom i m s) := by
  unfold handFlagsFrom
  with_reducible repeat' first | assumption | apply keep_handFlag h | apply keep_foldl | intro _

theorem keep_putRegistry (h : Reads P) (i : Nat) (l : List FlagEntry) {s : State} (hs : P s) :
    P (putRegistry i l s) := by
  unfold putRegistry
  with_reducible
    repeat' first
      | assumption | apply keep_handFlagsFrom h | apply keep_handRegistryHead h | apply h.setFlt
      | dsimp only

theorem keep_removeFlag (h : Reads P) (i : Nat) {s : State} (hs : P s) : P (removeFlag i s) :=
  keep_putRegistry h _ _ hs

theorem keep_damageFlag (h : Reads P) {raise : Raising → State → State} (hr : RaisesKeep P raise)
    (i : Nat) {s : State} (hs : P s) : P (damageFlag raise i s) := by
  unfold damageFlag
  exact keep_foldl (fun s w hs => hr _ _ rfl hs)
    (keep_putRegistry h _ _ (keep_captureAll h _ _ (keep_soundPlaces h hr _ hs)))

theorem keep_damageDock (h : Reads P) (d : DockNo) {s : State} (hs : P s) : P (damageDock d s) := by
  unfold damageDock
  with_reducible
    repeat' first
      | assumption | apply keep_setLine h | apply keep_handDock h | split

theorem keep_damageSingle (h : Reads P) {raise : Raising → State → State} (hr : RaisesKeep P raise)
    (p : Place) {s : State} (hs : P s) : P (damageSingle raise p s) := by
  unfold damageSingle
  with_reducible
    repeat' first
      | assumption | apply keep_hand h | apply keep_handConfig h | apply keep_handPolicy h
      | apply keep_handFloor h | apply keep_handCrew h | apply keep_handPlan h
      | apply keep_damageReport h | apply keep_damageFault h | apply keep_damageFlag h
      | apply keep_damageDock h | apply h.setFu | apply h.setWoe | apply h.setFlt | apply h.setSc
      | rfl | split

/-! ### Heads taken and rebuilt -/

theorem keep_takeQueueHead (h : Reads P) (q : QueueHead) {s : State} (hs : P s) :
    P (takeQueueHead q s) :=
  h.setRq rfl rfl (by simp only [List.length_map, List.length_range]; omega) hs

theorem keep_takeFaultHead (h : Reads P) (f : FaultHead) {s : State} (hs : P s) :
    P (takeFaultHead f s) := h.setFlt hs

theorem keep_takeRegistryHead (h : Reads P) (n : Nat) {s : State} (hs : P s) :
    P (takeRegistryHead n s) := h.setFlt hs

theorem keep_takeHead (h : Reads P) (p : Place) (c : Content) {s : State} (hs : P s) :
    P (takeHead p c s) := by
  unfold takeHead
  with_reducible
    repeat' first
      | assumption | apply keep_takeQueueHead h | apply keep_takeFaultHead h
      | apply keep_takeRegistryHead h | split

theorem keep_refresh (h : Reads P) (p : Place) {s : State} (hs : P s) : P (refresh p s) := by
  unfold refresh
  split
  case h_4 =>
    split
    · exact h.setRq rfl rfl (by simp) hs
    · exact hs
  all_goals
    with_reducible
      repeat' first
        | assumption | apply keep_takeHead h | apply h.setFu | apply h.setWoe | apply h.setFlt
        | apply h.setSc | rfl | split

theorem keep_rebuildQueue (h : Reads P) {s : State} (hs : P s) : P (rebuildQueue s) := by
  unfold rebuildQueue
  dsimp only
  split
  · exact h.setRq rfl rfl (by simp) hs
  · exact h.setRq rfl rfl (by simp only [List.length_drop]; omega) hs

theorem keep_rebuildLog (h : Reads P) {s : State} (hs : P s) : P (rebuildLog s) := by
  unfold rebuildLog
  with_reducible repeat' first | assumption | apply h.setFlt | dsimp only | split

theorem keep_rebuildRegistry (h : Reads P) {s : State} (hs : P s) : P (rebuildRegistry s) :=
  h.setFlt hs

theorem keep_rebuildRecord (h : Reads P) (p : Place) {s : State} (hs : P s) :
    P (rebuildRecord p s) := by
  unfold rebuildRecord
  with_reducible
    repeat' first
      | assumption | apply keep_handStation h | apply keep_handQueueHead h
      | apply keep_handFaultHead h | apply keep_handRegistryHead h | apply keep_rebuildQueue h
      | apply keep_rebuildLog h | apply keep_rebuildRegistry h | apply h.setSc | rfl | split

theorem keep_clearFreeWord (h : Reads P) (p : Option Place) (w : Nat) {s : State} (hs : P s) :
    P (clearFreeWord p w s) := by
  have h1 := keep_captureError h none w hs
  cases p with
  | none => exact h.setErrors rfl (assocDel_sorted _ _) h1
  | some p => exact h.putWords p _ rfl (assocDel_sorted _ _) h1

theorem keep_rebuildReads (h : Reads P) {raise : Raising → State → State} (hr : RaisesKeep P raise)
    (ps : List Place) {s : State} (hs : P s) : P (rebuildReads raise ps s) := by
  unfold rebuildReads rebuildWord
  with_reducible
    repeat' first
      | assumption | apply keep_clearFreeWord h | apply keep_soundWord h | apply keep_foldl | intro _
      | split

theorem keep_rebuild (h : Reads P) {raise : Raising → State → State} (hr : RaisesKeep P raise)
    (p : Place) {s : State} (hs : P s) : P (rebuild raise p s) :=
  keep_rebuildReads h hr _ (keep_rebuildRecord h p hs)

theorem keep_rewriteCopy (h : Reads P) (p other : Place) {s : State} (hs : P s) :
    P (rewriteCopy p other s) := by
  unfold rewriteCopy
  with_reducible
    repeat' first
      | assumption | apply keep_hand h | apply keep_takeHead h | dsimp only | split

theorem keep_damageCopy (h : Reads P) {raise : Raising → State → State} (hr : RaisesKeep P raise)
    (p other : Place) (w : Nat) {s : State} (hs : P s) : P (damageCopy raise p other w s) := by
  unfold damageCopy
  split
  · exact keep_rewriteCopy h _ _ hs
  · split
    · exact keep_soundPlaces h hr _ (keep_rewriteCopy h _ _ hs)
    · refine hr _ _ rfl (keep_foldl (fun _ _ hx => keep_soundWord h hr _ hx) ?_)
      exact keep_rebuild h hr _ (keep_captureError h _ _ hs)

theorem keep_readCopyWord (h : Reads P) {raise : Raising → State → State} (hr : RaisesKeep P raise)
    (p other : Place) (w : Nat) {s : State} (hs : P s) : P (readCopyWord raise p other s w) := by
  unfold readCopyWord
  split
  · exact hs
  · split
    · exact keep_damageCopy h hr _ _ _ (keep_captureError h _ _ hs)
    · exact keep_soundWord h hr _ hs

theorem keep_readHeadOf (h : Reads P) {raise : Raising → State → State} (hr : RaisesKeep P raise)
    (p : Place) {s : State} (hs : P s) : P (readHeadOf raise p s) := by
  unfold readHeadOf
  with_reducible
    repeat' first
      | assumption | apply keep_readCopyWord h | apply keep_foldl | intro _ | split

/-! ### Words read -/

theorem keep_damageWord (h : Reads P) {raise : Raising → State → State} (hr : RaisesKeep P raise)
    (p : Place) (w : Nat) {s : State} (hs : P s) : P (damageWord raise p w s) := by
  have h1 := keep_captureError h (some (placeCollection p)) w hs
  unfold damageWord
  dsimp only
  split
  · exact keep_damageCopy h hr _ _ _ h1
  · split
    · exact keep_damageSingle h hr _ h1
    · exact hr _ _ rfl (keep_damageSingle h hr _ h1)

theorem keep_misplacedFault (h : Reads P) {raise : Raising → State → State} (hr : RaisesKeep P raise)
    (n : Fin 32) {s : State} (hs : P s) : P (misplacedFault raise n s) := by
  unfold misplacedFault
  with_reducible repeat' first | assumption | apply keep_damageFault h | split

theorem keep_testCommit (h : Reads P) {raise : Raising → State → State} (hr : RaisesKeep P raise)
    (p : Place) (w : Nat) {s : State} (hs : P s) : P (testCommit raise p w s) := by
  unfold testCommit
  split
  · split
    · split
      · exact hr _ _ rfl (keep_damageReport h _ _ hs)
      · exact hs
    · exact hs
  · with_reducible
      repeat' first | assumption | apply keep_misplacedFault h | apply keep_readHeadOf h | split
  · exact hs

theorem keep_testWord (h : Reads P) {raise : Raising → State → State} (hr : RaisesKeep P raise)
    (p : Option Place) (w : Nat) {s : State} (hs : P s) : P (testWord raise p w s) := by
  unfold testWord
  with_reducible repeat' first | assumption | apply keep_testCommit h | split

theorem keep_doubleRead (h : Reads P) {raise : Raising → State → State} (hr : RaisesKeep P raise)
    (p : Place) (w : Nat) {s : State} (hs : P s) : P (doubleRead raise p w s) := by
  unfold doubleRead
  with_reducible
    repeat' first
      | assumption | apply keep_clearFreeWord h | apply keep_damageWord h | split

theorem keep_doubleWord (h : Reads P) {raise : Raising → State → State} (hr : RaisesKeep P raise)
    (p : Option Place) (w : Nat) {s : State} (hs : P s) : P (doubleWord raise p w s) := by
  unfold doubleWord
  with_reducible
    repeat' first
      | assumption | apply keep_clearFreeWord h | apply keep_doubleRead h | apply keep_readHeadOf h
      | split

theorem keep_readWord (h : Reads P) {raise : Raising → State → State} (hr : RaisesKeep P raise)
    (p : Option Place) (w : Nat) {s : State} (hs : P s) : P (readWord raise p w s) := by
  unfold readWord
  with_reducible
    repeat' first
      | assumption | apply keep_doubleWord h | apply keep_testWord h | apply keep_soundWord h | split

theorem keep_readPlace (h : Reads P) {raise : Raising → State → State} (hr : RaisesKeep P raise)
    (p : Place) {s : State} (hs : P s) : P (readPlace raise s p) := by
  unfold readPlace
  with_reducible repeat' first | assumption | apply keep_readWord h | apply keep_foldl | intro _

theorem keep_readPlacesWith (h : Reads P) {raise : Raising → State → State} (hr : RaisesKeep P raise)
    (ps : List Place) {s : State} (hs : P s) : P (readPlacesWith raise ps s) := by
  unfold readPlacesWith
  with_reducible repeat' first | assumption | apply keep_readPlace h | apply keep_foldl | intro _

/-- A raising that names no dock, with what it reads from the store. -/
theorem keep_stationRaise (h : Reads P) (n : Nat) : RaisesKeep P (raiseWith n) := by
  induction n with
  | zero =>
    intro r s hd hs
    have hw : watchRaising r s = s := by simp [watchRaising, hd]
    rw [raiseWith, hw]
    exact keep_raiseStation h r hd hs
  | succ n ih =>
    intro r s hd hs
    have hw : watchRaising r s = s := by simp [watchRaising, hd]
    have h1 := keep_readPlacesWith h ih [.policy r.kind] hs
    rw [raiseWith, hw]
    refine keep_raiseStation h r hd ?_
    split
    · exact h1
    · exact keep_readPlacesWith h ih [.faultHead 0] h1

theorem keep_raiseNoDock (h : Reads P) : RaisesKeep P raise := keep_stationRaise h 8

/-! ### What owners read -/

theorem keep_readPlaces (h : Reads P) (ps : List Place) {s : State} (hs : P s) :
    P (readPlaces ps s) := keep_readPlacesWith h (keep_raiseNoDock h) ps hs

theorem keep_readQueueHead (h : Reads P) {s : State} (hs : P s) : P (readQueueHead s) :=
  keep_readPlaces h _ hs

theorem keep_readRegistry (h : Reads P) {s : State} (hs : P s) : P (readRegistry s) :=
  keep_readPlaces h _ (keep_readPlaces h _ hs)

theorem keep_readCrews (h : Reads P) {s : State} (hs : P s) : P (readCrews s) :=
  keep_readPlaces h _ hs

theorem keep_readFaultHead (h : Reads P) {s : State} (hs : P s) : P (readFaultHead s) :=
  keep_readPlaces h _ hs

theorem keep_readPlan (h : Reads P) (p : Nat) {s : State} (hs : P s) : P (readPlan p s) :=
  keep_readPlaces h _ hs

theorem keep_readConfig (h : Reads P) (i : ConfigItem) {s : State} (hs : P s) :
    P (readConfig i s) := keep_readPlaces h _ hs

theorem keep_readRow (h : Reads P) (r : Fin 64) {s : State} (hs : P s) : P (readRow r s) := by
  unfold readRow
  exact keep_foldl (fun s i hs => keep_readWord h (keep_raiseNoDock h) _ _ hs) hs

theorem keep_garbleWord (h : Reads P) (p : Option Place) (w v : Nat) {s : State} (hs : P s) :
    P (garbleWord p w v s) := by
  cases p with
  | none => exact hs
  | some p =>
    have h1 : P (s.setRs { s.rs with
        array := putCell p ((cellOf p s).set (w - placeBase p) (.garbled v)) s.rs.array }) :=
      h.putWords p _ rfl id hs
    unfold garbleWord
    dsimp only
    split
    · exact h1
    · exact keep_refresh h p h1

theorem keep_flipWord (h : Reads P) (u : Upset) {s : State} (hs : P s) : P (flipWord s u) := by
  unfold flipWord
  dsimp only
  split
  · split
    · exact h.setErrors rfl (assocPut_sorted _ _ _) hs
    · exact h.setErrors rfl (assocPut_sorted _ _ _) hs
    · exact keep_garbleWord h _ _ _ (keep_settleWord h _ hs)
    · exact keep_garbleWord h _ _ _ (h.setErrors rfl (assocPut_sorted _ _ _) hs)
  · exact hs

theorem keep_flipWords (h : Reads P) (upsets : List Upset) {s : State} (hs : P s) :
    P (flipWords upsets s) := by
  unfold flipWords
  with_reducible repeat' first | assumption | apply keep_flipWord h | apply keep_foldl | intro _

/-! ### Writes -/

theorem keep_writeRecord (h : Reads P) (p : Place) (c : Content) {s : State} (hs : P s) :
    P (writeRecord p c s) := h.putWords p _ rfl (clearErrors_sorted _ _) hs

theorem keep_writeWords (h : Reads P) (p : Place) (c : Content) (k : Nat) {s : State} (hs : P s) :
    P (writeWords p c k s) := h.putWords p _ rfl (clearErrors_sorted _ _) hs

theorem keep_forceCommit (h : Reads P) (p : Place) {s : State} (hs : P s) :
    P (forceCommit p s) := h.setErrors rfl (assocPut_sorted _ _ _) hs

theorem keep_cutWrite (h : Reads P) (p : Place) (c : Content) (k : Nat) {s : State} (hs : P s) :
    P (cutWrite p c k s) := keep_forceCommit h _ (keep_writeWords h _ _ _ hs)

theorem keep_failWrites (h : Reads P) (written : Nat) {s : State} (hs : P s) :
    P (failWrites written s) := by
  unfold failWrites
  with_reducible
    repeat' first
      | assumption | apply keep_forceCommit h | apply keep_cutWrite h | apply keep_foldl
      | apply h.setRs | rfl | intro _ | dsimp only | split

theorem keep_abandonWriteBacks (h : Reads P) {s : State} (hs : P s) : P (abandonWriteBacks s) :=
  h.setErrors rfl (abandoned_sorted _ _) hs

/-! ### What reads leave -/

/-- The dock records, the claims and their total, and the start's kind, as a state has them. -/
theorem docks_reads (docks : Vector DockRecord 48) (claims : Vector Nat 48) (total : Nat)
    (k : StartKind) :
    Reads fun s => s.dlc.docks = docks ∧ s.rq.claims = claims ∧ s.rq.claimTotal = total
      ∧ s.sc.startKind = k where
  setPi h := h
  setFu h := h
  setWoe h := h
  setFlt h := h
  setSc hx h := ⟨h.1, h.2.1, h.2.2.1, hx.trans h.2.2.2⟩
  setDlc hx h := ⟨hx.trans h.1, h.2⟩
  setRq hc ht _ h := ⟨h.1, hc.trans h.2.1, ht.trans h.2.2.1, h.2.2.2⟩
  setRs _ _ h := h
  setErrors _ _ h := h
  putWords _ _ _ _ h := h

/-- A read of the store leaves the dock records. -/
theorem readPlaces_dock (ps : List Place) (d : DockNo) (s : State) :
    dockOf d (readPlaces ps s) = dockOf d s :=
  congrArg (fun v => vget v d)
    (keep_readPlaces (docks_reads s.dlc.docks s.rq.claims s.rq.claimTotal s.sc.startKind) ps
      ⟨rfl, rfl, rfl, rfl⟩).1

theorem readQueueHead_dock (d : DockNo) (s : State) : dockOf d (readQueueHead s) = dockOf d s :=
  readPlaces_dock _ d s

theorem readConfig_dock (i : ConfigItem) (d : DockNo) (s : State) :
    dockOf d (readConfig i s) = dockOf d s := readPlaces_dock _ d s

theorem readPlan_dock (p : Nat) (d : DockNo) (s : State) : dockOf d (readPlan p s) = dockOf d s :=
  readPlaces_dock _ d s

theorem readRegistry_dock (d : DockNo) (s : State) : dockOf d (readRegistry s) = dockOf d s := by
  simp [readRegistry, readPlaces_dock]

end Sys2Proof.Machine
end

