-- ==== Sys2Proof/Laws/Keeps.lean ====
section
/-! SUPPORT. A property of the state that the block updates keep, and the changes of dock records with
their claims, of cache ways and of array words, is kept by every operation of the part: one lemma for
each operation, stated once for all such properties. -/

namespace Sys2Proof.Machine

/-- With `k` records queued beside it, a dock's record fits: held records and claim total come to at most
96, or to at most what they came to before (R112). -/
def Room (d : DockNo) (r : DockRecord) (k : Nat) (s : State) : Prop :=
  s.rq.held.length + k + s.rq.claimTotal + claimOf r
    ≤ max 96 (s.rq.held.length + s.rq.claimTotal) + claimOf (dockOf d s)

/-- A property that the block updates keep. The dock table changes only together with its claims
(R111) and within the claim gate's room (R112, R114), a record is queued only with such a change (R110), a
cache set changes only within its four ways (R43), and the array only by whole places (R172). -/
structure Closed (P : State → Prop) : Prop extends Reads P where
  setPending : ∀ {x s}, P s → P (s.setPending x)
  setCc : ∀ {x : CardCache} {s}, x.sets = s.cc.sets → P s → P (s.setCc x)
  setWays : ∀ {k l s}, l.length ≤ max 4 (vget s.cc.sets (cardSet k)).length → P s →
    P (s.setCc { s.cc with sets := vset s.cc.sets (cardSet k) l })
  dropWays : ∀ {f : CardEntry → Bool} {s}, P s →
    P (s.setCc { s.cc with sets := s.cc.sets.map fun l => l.filter f })
  setHu : ∀ {x s}, P s → P (s.setHu x)
  putRecord : ∀ {d r s}, Room d r 0 s → P s →
    P (countClaim d (claimOf r) (s.setDlc { s.dlc with docks := vset s.dlc.docks d r }))
  moveUnit : ∀ {d r x s}, Room d r 1 s → P s → P (putDock d r (appendReport x s))

/-- The results of a cold survey are set without the gate (R115). -/
def ColdRoom (P : State → Prop) : Prop := ∀ {d r s}, claimOf r ≤ 1 → P s → P (putDock d r s)

variable {P : State → Prop}

/-! ### Room -/

theorem room_le {d : DockNo} {r : DockRecord} {s : State} (h : claimOf r ≤ claimOf (dockOf d s)) :
    Room d r 0 s := by
  unfold Room
  omega

theorem room_zero {d : DockNo} {r : DockRecord} {s : State} (h : claimOf r = 0) : Room d r 0 s :=
  room_le (by omega)

theorem room_gate {d : DockNo} {r : DockRecord} {n k : Nat} {s : State} (hg : gateAdmits n s = true)
    (h : k + claimOf r ≤ n) : Room d r k s := by
  simp only [gateAdmits, decide_eq_true_eq] at hg
  unfold Room
  omega

/-- A dock's claim follows from its state, its suspension, whether it has a bike, and its probe
(R111). -/
theorem claimOf_actuating {r r' : DockRecord} (h1 : r'.state = r.state)
    (h2 : r'.suspended = r.suspended) (h3 : r'.bike = r.bike) (h4 : actuating r' = actuating r) :
    claimOf r' ≤ claimOf r := by
  unfold claimOf
  rw [h1, h2, h3, h4]

theorem claimOf_bike {r : DockRecord} {b : Option Bike} (h : b.isSome = r.bike.isSome) :
    claimOf { r with bike := b } ≤ claimOf r := by
  unfold claimOf
  dsimp only
  rw [h]
  exact Nat.le_refl _

theorem claimOf_suspended (r : DockRecord) : claimOf { r with suspended := true } ≤ claimOf r := by
  cases hs : r.state <;> cases hu : r.suspended <;> simp [claimOf, hs, hu] <;> exact Nat.le_refl _

theorem claimOf_idle (r : DockRecord) : claimOf { r with deadline := none } ≤ claimOf r := by
  cases hs : r.state <;> simp [claimOf, hs, actuating]

/-! ### Ops -/

theorem keep_reachTime (h : Closed P) (t : Nat) {s : State} (hs : P s) : P (reachTime t s) := by
  unfold reachTime
  with_reducible repeat' first | assumption | rfl | apply h.setSc

theorem keep_finishReply (h : Closed P) (p : Port) (r : Reply) {s : State} (hs : P s) :
    P (finishReply p r s) := by
  unfold finishReply
  with_reducible repeat' first | assumption | rfl | apply keep_setPort h.toReads

theorem keep_placeCommand (h : Closed P) (d : DockNo) (c : Command) {s : State} (hs : P s) :
    P (placeCommand d c s) := by
  unfold placeCommand
  with_reducible repeat' first | assumption | rfl | apply keep_setLine h.toReads

theorem keep_followInhibit (h : Closed P) (d : DockNo) (old new : DockRecord) {s : State} (hs : P s)
    :
    P (followInhibit d old new s) := by
  unfold followInhibit
  with_reducible repeat' first | assumption | rfl | apply keep_placeCommand h | split

theorem keep_putDock (h : Closed P) (d : DockNo) (r : DockRecord) {s : State} (hr : Room d r 0 s)
    (hs : P s) : P (putDock d r s) := by
  have h1 := keep_followInhibit h d (dockOf d s) r (h.putRecord (d := d) (r := r) hr hs)
  unfold putDock
  dsimp only
  split
  · exact h1
  · exact keep_handDock h.toReads d h1

theorem keep_enterFault (h : Closed P) (d : DockNo) (k : FaultKind) {s : State} (hs : P s) :
    P (enterFault d k s) := keep_putDock h d _ (room_le (Nat.le_refl _)) hs

theorem keep_suspendDock (h : Closed P) (d : DockNo) {s : State} (hs : P s) :
    P (suspendDock d s) := by
  unfold suspendDock
  dsimp only
  split
  · exact hs
  · exact keep_putDock h d _ (room_le (claimOf_suspended _)) hs

/-! ### Flags -/

theorem keep_levelPort (h : Closed P) (p : Port) {s : State} (hs : P s) : P (levelPort p s) := by
  unfold levelPort
  with_reducible repeat' first | assumption | rfl | apply keep_setPort h.toReads

theorem keep_endStep (h : Closed P) {s : State} (hs : P s) : P (endStep s) := by
  unfold endStep
  with_reducible
    repeat' first
      | assumption | rfl | apply keep_levelPort h | apply h.setRs | rfl | dsimp only | split

theorem keep_whileRunning (f : State → State) {s : State} (hf : P s → P (f s)) (hs : P s) :
    P (whileRunning f s) := by
  unfold whileRunning
  split
  · exact hf hs
  · exact hs

/-! ### Faults -/

theorem keep_matchWatch (h : Closed P) (c : WatchCond) (d : DockNo) (i : Fin 4) {s : State}
    (hs : P s) :
    P (matchWatch c d s i) := by
  unfold matchWatch
  with_reducible
    repeat' first
      | assumption | rfl | apply keep_setEvent h.toReads | apply h.setFlt | dsimp only | split

theorem keep_dockEvent (h : Closed P) (c : WatchCond) (d : DockNo) {s : State} (hs : P s) :
    P (dockEvent c d s) := by
  unfold dockEvent
  with_reducible repeat' first | assumption | rfl | apply keep_matchWatch h | apply keep_foldl | intro _

theorem keep_enterRaising (h : Closed P) (r : Raising) {s : State} (hs : P s) :
    P (enterRaising r s) := by
  unfold enterRaising
  with_reducible repeat' first | assumption | rfl | apply keep_enterFault h | split

theorem keep_suspendRaising (h : Closed P) (r : Raising) {s : State} (hs : P s) :
    P (suspendRaising r s) := by
  unfold suspendRaising
  with_reducible repeat' first | assumption | rfl | apply keep_suspendDock h | split

theorem keep_policyAction (h : Closed P) (p : Policy) (r : Raising) {s : State} (hs : P s) :
    P (policyAction p r s) := by
  unfold policyAction
  with_reducible
    repeat' first
      | assumption | rfl | apply keep_logFault h.toReads | apply keep_enterRaising h | apply keep_faultAlert h.toReads
      | apply keep_suspendRaising h | split

theorem keep_fixedEntries (h : Closed P) (r : Raising) {s : State} (hs : P s) :
    P (fixedEntries r s) := by
  unfold fixedEntries
  with_reducible repeat' first | assumption | rfl | apply keep_enterFault h | split

theorem keep_watchRaising (h : Closed P) (r : Raising) {s : State} (hs : P s) :
    P (watchRaising r s) := by
  unfold watchRaising
  with_reducible repeat' first | assumption | rfl | apply keep_dockEvent h | split

theorem keep_raiseRead (h : Closed P) (r : Raising) {s : State} (hs : P s) : P (raiseRead r s) := by
  unfold raiseRead
  with_reducible repeat' first | assumption | rfl | apply keep_policyAction h | apply keep_fixedEntries h

/-! ### Raisings -/

theorem keep_raise (h : Closed P) (r : Raising) {s : State} (hs : P s) : P (raise r s) := by
  have h1 := keep_readPlacesWith h.toReads (keep_stationRaise h.toReads 7) [.policy r.kind]
    (keep_watchRaising h r hs)
  unfold raise
  rw [raiseWith]
  refine keep_raiseRead h r ?_
  split
  · exact h1
  · exact keep_readPlacesWith h.toReads (keep_stationRaise h.toReads 7) [.faultHead 0] h1

/-! ### Frames -/

theorem keep_giveAnswer (h : Closed P) (p : Port) (a : Answer) {s : State} (hs : P s) :
    P (giveAnswer p a s) := by
  unfold giveAnswer
  with_reducible repeat' first | assumption | rfl | apply keep_setPort h.toReads

theorem keep_takeSlot (h : Closed P) (p : Port) (k : RequestKind) (tag : Nat) {s : State} (hs : P s)
    :
    P (takeSlot p k tag s) := by
  unfold takeSlot
  with_reducible repeat' first | assumption | rfl | apply keep_setPort h.toReads

theorem keep_slotRequest (h : Closed P) (p : Port) (k : RequestKind) (tag : Nat) (inForm : Bool)
    (take : State → State) (hf : ∀ s, P s → P (take s)) {s : State} (hs : P s) :
    P (slotRequest p k tag inForm take s) := by
  unfold slotRequest
  with_reducible
    repeat' first
      | assumption | rfl | apply hf | apply keep_giveAnswer h | apply keep_takeSlot h | dsimp only | split

theorem keep_plainRequest (h : Closed P) (p : Port) (k : RequestKind) (tag : Nat)
    (take : State → AnswerContent × State) (hf : ∀ s, P s → P (take s).2) {s : State} (hs : P s) :
    P (plainRequest p k tag take s) := by
  unfold plainRequest
  with_reducible
    repeat' first
      | assumption | rfl | apply hf | apply keep_giveAnswer h | dsimp only | split

theorem keep_reply (h : Closed P) (p : Port) (k : RequestKind) (tag : Nat) (o : ReplyOutcome)
    (b : Body) {s : State} (hs : P s) :
    P (reply p k tag o b s) := by
  unfold reply
  with_reducible repeat' first | assumption | rfl | apply keep_finishReply h

theorem keep_refuseFrame (h : Closed P) (p : Port) (frame : List Byte) {s : State} (hs : P s) :
    P (refuseFrame p frame s) := by
  unfold refuseFrame
  with_reducible repeat' first | assumption | rfl | apply keep_giveAnswer h | split

/-! ### Registry -/

theorem keep_enterFlag (h : Closed P) (bike : Nat) (origin : FlagOrigin) {s : State} (hs : P s) :
    P (enterFlag bike origin s) := by
  unfold enterFlag
  with_reducible
    repeat' first
      | assumption | rfl | apply keep_handRegistryHead h.toReads | apply keep_handFlag h.toReads | apply keep_loseRecord h.toReads
      | apply keep_readFaultHead h.toReads
      | apply h.setFlt | dsimp only | split

theorem keep_askFlag (h : Closed P) (bike : Nat) (origin : FlagOrigin) {s : State} (hs : P s) :
    P (askFlag bike origin s) := by
  unfold askFlag
  with_reducible repeat' first | assumption | rfl | apply keep_readRegistry h.toReads | apply keep_enterFlag h

theorem keep_clearFlag (h : Closed P) (bike : Nat) {s : State} (hs : P s) :
    P (clearFlag bike s) := by
  unfold clearFlag
  with_reducible repeat' first | assumption | rfl | apply keep_removeFlag h.toReads | split

theorem keep_takeBikeFlag (h : Closed P) (tag bike : Nat) {s : State} (hs : P s) :
    P (takeBikeFlag tag bike s) := by
  unfold takeBikeFlag
  with_reducible
    repeat' first
      | assumption | rfl | apply keep_readRegistry h.toReads | apply keep_reply h | apply keep_enterFlag h
      | dsimp only | split

theorem keep_takeBikeClear (h : Closed P) (tag bike : Nat) {s : State} (hs : P s) :
    P (takeBikeClear tag bike s) := by
  unfold takeBikeClear
  with_reducible
    repeat' first
      | assumption | rfl | apply keep_placeCommand h | apply keep_readRegistry h.toReads | apply keep_reply h
      | apply keep_clearFlag h | split

theorem keep_takeBikeFlagRead (h : Closed P) (p : Port) (tag start n : Nat) {s : State} (hs : P s) :
    P (takeBikeFlagRead p tag start n s) := by
  unfold takeBikeFlagRead
  with_reducible repeat' first | assumption | rfl | apply keep_readPlaces h.toReads | apply keep_reply h

theorem keep_takePolicySet (h : Closed P) (tag : Nat) (k : FaultKind) (p : Policy) {s : State}
    (hs : P s) :
    P (takePolicySet tag k p s) := by
  unfold takePolicySet
  with_reducible
    repeat' first
      | assumption | rfl | apply keep_handPolicy h.toReads | apply keep_readPlaces h.toReads | apply keep_reply h
      | apply h.setFlt | dsimp only | split

theorem keep_takeFaultRead (h : Closed P) (p : Port) (tag n : Nat) {s : State} (hs : P s) :
    P (takeFaultRead p tag n s) := by
  unfold takeFaultRead
  with_reducible
    repeat' first
      | assumption | rfl | apply keep_readPlaces h.toReads | apply keep_readFaultHead h.toReads | apply keep_reply h

theorem keep_discardFaults (h : Closed P) (n : Nat) (clearLost : Bool) {s : State} (hs : P s) :
    P (discardFaults n clearLost s) := by
  unfold discardFaults
  with_reducible repeat' first | assumption | rfl | apply keep_handFaultHead h.toReads | apply h.setFlt

theorem keep_takeFaultDiscard (h : Closed P) (p : Port) (tag n : Nat) (clearLost : Bool) {s : State}
    (hs : P s) :
    P (takeFaultDiscard p tag n clearLost s) := by
  unfold takeFaultDiscard
  with_reducible
    repeat' first
      | assumption | rfl | apply keep_readFaultHead h.toReads | apply keep_readPlaces h.toReads
      | apply keep_reply h | apply keep_discardFaults h | unfold readOldestFault

theorem keep_takeDockFaultRead (h : Closed P) (p : Port) (tag : Nat) {s : State} (hs : P s) :
    P (takeDockFaultRead p tag s) := by
  unfold takeDockFaultRead
  with_reducible repeat' first | assumption | rfl | apply keep_reply h

theorem keep_putWatch (h : Closed P) (slot : Fin 4) (w : Option Watch) {s : State} (hs : P s) :
    P (putWatch slot w s) := by
  unfold putWatch
  with_reducible repeat' first | assumption | rfl | apply h.setFlt

theorem keep_readCrewsFor (h : Closed P) (p : Port) {s : State} (hs : P s) :
    P (readCrewsFor p s) := by
  unfold readCrewsFor
  with_reducible repeat' first | assumption | rfl | apply keep_readCrews h.toReads | split

theorem keep_takeWatchSet (h : Closed P) (p : Port) (tag slot crew base span : Nat)
    (cond : WatchCond) (action : WatchAction) (enabled : Bool) {s : State} (hs : P s) :
    P (takeWatchSet p tag slot crew base span cond action enabled s) := by
  unfold takeWatchSet
  with_reducible
    repeat' first
      | assumption | rfl | apply keep_reply h | apply keep_putWatch h | apply keep_readCrewsFor h
      | dsimp only | split

theorem keep_takeWatchDrop (h : Closed P) (p : Port) (tag slot crew : Nat) {s : State} (hs : P s) :
    P (takeWatchDrop p tag slot crew s) := by
  unfold takeWatchDrop
  with_reducible
    repeat' first
      | assumption | rfl | apply keep_reply h | apply keep_putWatch h | apply keep_readCrewsFor h
      | dsimp only | split

theorem keep_clearHit (h : Closed P) (p : Port) (i : Fin 4) {s : State} (hs : P s) :
    P (clearHit p s i) := by
  unfold clearHit
  with_reducible repeat' first | assumption | rfl | apply keep_putWatch h | split

theorem keep_takeWatchClearHits (h : Closed P) (p : Port) (tag : Nat) (slot : Option Nat)
    {s : State} (hs : P s) :
    P (takeWatchClearHits p tag slot s) := by
  unfold takeWatchClearHits
  with_reducible
    repeat' first
      | assumption | rfl | apply keep_reply h | apply keep_clearHit h | apply keep_foldl | intro _
      | dsimp only | split

theorem keep_takeWatchRead (h : Closed P) (p : Port) (tag : Nat) {s : State} (hs : P s) :
    P (takeWatchRead p tag s) := by
  unfold takeWatchRead
  with_reducible repeat' first | assumption | rfl | apply keep_reply h

/-! ### Fares -/

theorem keep_takeTariffLoad (h : Closed P) (tag plan : Nat) (r : TariffEntry) {s : State} (hs : P s)
    :
    P (takeTariffLoad tag plan r s) := by
  unfold takeTariffLoad
  with_reducible
    repeat' first
      | assumption | rfl | apply keep_handPlan h.toReads | apply keep_readPlan h.toReads | apply keep_reply h
      | apply h.setFu

theorem keep_takeTariffDrop (h : Closed P) (tag plan : Nat) {s : State} (hs : P s) :
    P (takeTariffDrop tag plan s) := by
  unfold takeTariffDrop
  with_reducible
    repeat' first
      | assumption | rfl | apply keep_handPlan h.toReads | apply keep_readPlan h.toReads | apply keep_reply h
      | apply h.setFu

theorem keep_takeQuote (h : Closed P) (tag plan minutes : Nat) {s : State} (hs : P s) :
    P (takeQuote tag plan minutes s) := by
  unfold takeQuote
  with_reducible repeat' first | assumption | rfl | apply keep_readPlan h.toReads | apply keep_reply h

/-! ### Reports -/

/-- A record queued, and the change of its dock's record that its unit of claim comes from (R110). -/
theorem keep_queueMove (h : Closed P) (n : NewReport) (d : DockNo) (r : DockRecord) {s : State}
    (hr : claimOf r + 1 ≤ claimOf (dockOf d s)) (hs : P s) :
    P (putDock d r (queueReport n s)) := by
  have h1 := keep_readQueueHead h.toReads hs
  refine h.moveUnit ?_ h1
  have hd := readQueueHead_dock d s
  unfold Room
  rw [hd]
  omega

theorem keep_setReadMark (h : Closed P) (q : Nat) {s : State} (hs : P s) : P (setReadMark q s) := by
  unfold setReadMark
  split
  · exact hs
  · exact keep_handQueueHead h.toReads (h.setRq rfl rfl (Nat.le_max_left _ _) hs)

theorem keep_restartRead (h : Closed P) {s : State} (hs : P s) : P (restartRead s) := by
  unfold restartRead
  with_reducible repeat' first | assumption | rfl | apply keep_setReadMark h

theorem keep_readReports (h : Closed P) (n : Nat) {s : State} (hs : P s) :
    P (readReports n s).2 := by
  unfold readReports
  with_reducible repeat' first | assumption | rfl | apply keep_readPlaces h.toReads | apply keep_setReadMark h

theorem keep_takeReportRead (h : Closed P) (tag n : Nat) {s : State} (hs : P s) :
    P (takeReportRead tag n s) := by
  unfold takeReportRead
  with_reducible
    repeat' first
      | assumption | rfl | apply keep_readQueueHead h.toReads | apply keep_reply h | apply keep_readReports h

theorem keep_takeReportReadRestart (h : Closed P) (tag n : Nat) {s : State} (hs : P s) :
    P (takeReportReadRestart tag n s) := by
  unfold takeReportReadRestart
  with_reducible
    repeat' first
      | assumption | rfl | apply keep_readQueueHead h.toReads | apply keep_reply h | apply keep_restartRead h
      | apply keep_readReports h

theorem keep_dropReports (h : Closed P) (k : Nat) {s : State} (hs : P s) : P (dropReports k s) :=
  keep_handQueueHead h.toReads (h.setRq rfl rfl (by simp only [List.length_drop]; omega) hs)

theorem keep_takeReportRelease (h : Closed P) (tag seq : Nat) {s : State} (hs : P s) :
    P (takeReportRelease tag seq s) := by
  unfold takeReportRelease
  with_reducible
    repeat' first
      | assumption | rfl | apply keep_readQueueHead h.toReads | apply keep_reply h | apply keep_dropReports h
      | dsimp only | split

/-! ### Cards -/

theorem keep_setSet (h : Closed P) (k : Nat) (l : List CardEntry) {s : State}
    (hl : l.length ≤ max 4 (vget s.cc.sets (cardSet k)).length) (hs : P s) :
    P (setSet k l s) := h.setWays hl hs

theorem keep_mapEntry (h : Closed P) (k : Nat) (f : CardEntry → CardEntry) {s : State} (hs : P s) :
    P (mapEntry k f s) := keep_setSet h k _ (by simp) hs

theorem keep_dropEntry (h : Closed P) (k : Nat) {s : State} (hs : P s) :
    P (dropEntry k s) := keep_setSet h k _ (Nat.le_trans (List.length_filter_le _ _) (Nat.le_max_right _ _)) hs

theorem filter_both_length {α : Type} (p : α → Prop) [DecidablePred p] (l : List α) :
    (l.filter (fun x => decide (p x)) ++ l.filter (fun x => decide (¬p x))).length = l.length := by
  induction l with
  | nil => rfl
  | cons x t ih => by_cases hx : p x <;> simp [hx] at ih ⊢ <;> omega

theorem keep_touchEntry (h : Closed P) (k : Nat) {s : State} (hs : P s) : P (touchEntry k s) := by
  refine keep_setSet h k _ (Nat.le_trans (Nat.le_of_eq ?_) (Nat.le_max_right _ _)) hs
  exact filter_both_length (fun e : CardEntry => e.card = k) _

theorem evict_length {l t : List CardEntry} (ht : evict l = some t) : t.length + 1 = l.length := by
  unfold evict at ht
  split at ht
  · rename_i i hi
    cases ht
    have hlt : i < l.reverse.length := (List.findIdx?_eq_some_iff_getElem.1 hi).1
    have := List.length_eraseIdx_of_lt hlt
    simp only [List.length_reverse] at this hlt ⊢
    omega
  · cases ht

theorem keep_allocate (h : Closed P) (e : CardEntry) {s t : State} (ht : allocate e s = some t)
    (hs : P s) : P t := by
  unfold allocate at ht
  dsimp only at ht
  split at ht
  · cases ht
    exact keep_setSet h _ _ (by simp only [List.length_cons]; omega) hs
  · simp only [Option.map_eq_some_iff] at ht
    obtain ⟨l, hl, rfl⟩ := ht
    have := evict_length hl
    exact keep_setSet h _ _ (by simp only [List.length_cons]; omega) hs

theorem keep_readHeldReports (h : Closed P) {s : State} (hs : P s) : P (readHeldReports s) := by
  unfold readHeldReports
  with_reducible repeat' first | assumption | rfl | apply keep_readPlaces h.toReads | apply keep_readQueueHead h.toReads

theorem keep_placeMember (h : Closed P) (m : MemberRecord) {s : State} (hs : P s) :
    P (placeMember m s).2 := by
  have h1 := keep_readHeldReports h hs
  unfold placeMember
  split
  · split
    · exact hs
    · exact keep_touchEntry h _ (keep_mapEntry h _ _ h1)
  · split
    · dsimp only
      split
      · rename_i t ht
        exact keep_allocate h _ ht h1
      · exact h1
    · exact hs

theorem keep_notionalValues (h : Closed P) (m : MemberRecord) {s : State} (hs : P s) :
    P (notionalValues m s).2 := by
  unfold notionalValues
  with_reducible repeat' first | assumption | rfl | apply keep_readHeldReports h

theorem keep_releaseBegun (h : Closed P) (card trip : Nat) {s : State} (hs : P s) :
    P (releaseBegun card trip s) := by
  unfold releaseBegun
  with_reducible repeat' first | assumption | rfl | apply keep_mapEntry h

theorem keep_dropRevoked (h : Closed P) (card : Nat) {s : State} (hs : P s) :
    P (dropRevoked card s) := by
  unfold dropRevoked
  with_reducible repeat' first | assumption | rfl | apply keep_dropEntry h | split

theorem keep_releaseUndone (h : Closed P) (card trip : Nat) {s : State} (hs : P s) :
    P (releaseUndone card trip s) := by
  unfold releaseUndone
  with_reducible repeat' first | assumption | rfl | apply keep_mapEntry h | apply keep_dropRevoked h

theorem keep_releaseTaken (h : Closed P) (card trip : Nat) {s : State} (hs : P s) :
    P (releaseTaken card trip s) := by
  unfold releaseTaken
  with_reducible repeat' first | assumption | rfl | apply keep_mapEntry h | apply keep_dropRevoked h

theorem keep_arrivalWrite (h : Closed P) (card fare : Nat) {s : State} (hs : P s) :
    P (arrivalWrite card fare s) := by
  unfold arrivalWrite
  with_reducible repeat' first | assumption | rfl | apply keep_mapEntry h

theorem keep_linkUp (h : Closed P) {s : State} (hs : P s) : P (linkUp s) := by
  unfold linkUp
  with_reducible
    repeat' first
      | assumption | rfl | apply h.setCc | apply h.setSc | rfl | dsimp only | split

theorem keep_linkDown (h : Closed P) {s : State} (hs : P s) : P (linkDown s) := by
  unfold linkDown
  with_reducible repeat' first | assumption | rfl | apply h.setSc

theorem keep_answerLink (h : Closed P) {s : State} (hs : P s) : P (answerLink s) := by
  unfold answerLink
  with_reducible repeat' first | assumption | rfl | apply keep_linkUp h | apply h.setCc | rfl

theorem keep_dropFill (h : Closed P) (k : Nat) {s : State} (hs : P s) : P (dropFill k s) := by
  unfold dropFill
  with_reducible repeat' first | assumption | rfl | apply h.setCc | rfl

theorem keep_withdrawWaiter (h : Closed P) (tag : Nat) {s : State} (hs : P s) :
    P (withdrawWaiter tag s) := by
  unfold withdrawWaiter
  with_reducible repeat' first | assumption | rfl | apply h.setCc | rfl

theorem keep_issueFill (h : Closed P) (k : Nat) (w : Waiter) {s : State} (hs : P s) :
    P (issueFill k w s) := by
  unfold issueFill
  with_reducible
    repeat' first
      | assumption | rfl | apply keep_readConfig h.toReads | apply h.setCc | rfl | dsimp only | split

theorem keep_rewaitFills (h : Closed P) {s : State} (hs : P s) : P (rewaitFills s) := by
  unfold rewaitFills
  with_reducible repeat' first | assumption | rfl | apply h.setCc | rfl

theorem keep_decideValid (h : Closed P) (e : CardEntry) (planAsked : Option Nat) {s : State}
    (hs : P s) :
    P (decideValid e planAsked s).2 := by
  unfold decideValid
  with_reducible repeat' first | assumption | rfl | apply keep_readPlan h.toReads | dsimp only | split

theorem keep_readUnknownTest (h : Closed P) {s : State} (hs : P s) : P (readUnknownTest s) := by
  unfold readUnknownTest
  with_reducible repeat' first | assumption | rfl | apply keep_readPlan h.toReads | apply keep_readConfig h.toReads

theorem keep_countGrant (h : Closed P) {s : State} (hs : P s) : P (countGrant s) := by
  unfold countGrant
  with_reducible repeat' first | assumption | rfl | apply h.setCc | rfl

theorem keep_decideUnknown (h : Closed P) (k : Nat) (allocating : Bool) {s : State} (hs : P s) :
    P (decideUnknown k allocating s).2 := by
  have h1 := keep_readUnknownTest h hs
  unfold decideUnknown
  generalize readUnknownTest s = x at h1 ⊢
  dsimp only
  split
  · exact h1
  · have h2 := keep_countGrant h h1
    split
    · cases ha : allocate (provisionalEntry k x.sc.config.defaultOfflinePlan) (countGrant x) with
      | none => exact h2
      | some t => exact keep_allocate h _ ha h2
    · exact h2

theorem keep_decideOffline (h : Closed P) (k : Nat) (planAsked : Option Nat) {s : State} (hs : P s)
    :
    P (decideOffline k planAsked s).2 := by
  unfold decideOffline
  with_reducible
    repeat' first
      | assumption | rfl | apply keep_decideValid h | apply keep_decideUnknown h | split

theorem keep_lookupFill (h : Closed P) (k : Nat) (w : Waiter) {s : State} (hs : P s) :
    P (lookupFill k w s).2 := by
  unfold lookupFill
  with_reducible
    repeat' first
      | assumption | rfl | apply keep_issueFill h | apply keep_decideOffline h | dsimp only | split

theorem keep_lookup (h : Closed P) (k : Nat) (w : Waiter) {s : State} (hs : P s) :
    P (lookup k w s).2 := by
  unfold lookup
  with_reducible
    repeat' first
      | assumption | rfl | apply keep_readConfig h.toReads | apply keep_touchEntry h | apply keep_lookupFill h
      | dsimp only | split

theorem keep_takeFillFetch (h : Closed P) (tag : Nat) {s : State} (hs : P s) :
    P (takeFillFetch tag s) := by
  unfold takeFillFetch
  with_reducible repeat' first | assumption | rfl | apply keep_reply h | apply h.setCc | rfl

theorem keep_takeCardPush (h : Closed P) (tag : Nat) (m : MemberRecord) {s : State} (hs : P s) :
    P (takeCardPush tag m s) := by
  unfold takeCardPush
  with_reducible repeat' first | assumption | rfl | apply keep_reply h | apply keep_placeMember h

theorem keep_invalidateEntry (h : Closed P) (k : Nat) {s : State} (hs : P s) :
    P (invalidateEntry k s).2 := by
  unfold invalidateEntry
  with_reducible repeat' first | assumption | rfl | apply keep_mapEntry h | apply keep_dropEntry h | split

theorem keep_poisonFill (h : Closed P) (k : Nat) {s : State} (hs : P s) : P (poisonFill k s) := by
  unfold poisonFill
  with_reducible repeat' first | assumption | rfl | apply h.setCc | rfl

theorem keep_takeCardInvalidate (h : Closed P) (tag k : Nat) {s : State} (hs : P s) :
    P (takeCardInvalidate tag k s) := by
  unfold takeCardInvalidate
  with_reducible
    repeat' first
      | assumption | rfl | apply keep_reply h | apply keep_invalidateEntry h | apply keep_poisonFill h

theorem keep_takeCacheFlush (h : Closed P) (tag : Nat) {s : State} (hs : P s) :
    P (takeCacheFlush tag s) := keep_reply h _ _ _ _ _ (h.dropWays (f := pinned) hs)

theorem keep_takeCacheMode (h : Closed P) (tag : Nat) (allocate serve : Bool) {s : State} (hs : P s)
    :
    P (takeCacheMode tag allocate serve s) := by
  unfold takeCacheMode
  with_reducible
    repeat' first
      | assumption | rfl | apply keep_reply h | apply h.setCc | rfl | dsimp only | split

/-! ### Docks -/

theorem keep_placeHolder (h0 : Closed P) (d : DockNo) (h : Holder) {s : State} (hs : P s) :
    P (placeHolder d h s) := keep_putDock h0 d _ (room_le (Nat.le_refl _)) hs

theorem keep_withdrawHire (h : Closed P) (d : DockNo) (tag : Nat) {s : State} (hs : P s) :
    P (withdrawHire d tag s) := by
  unfold withdrawHire
  split
  · exact keep_putDock h d _ (room_le (Nat.le_refl _)) hs
  · exact hs

theorem keep_startRelease (h0 : Closed P) (d : DockNo) (h : Holder) (stamp : Option Stamp)
    {s : State} (hg : gateAdmits (releaseIncrease d s) s = true) (hs : P s) :
    P (startRelease d h stamp s) := by
  have h1 := keep_putDock h0 d
    { dockOf d s with
      state := .unlocking, holder := some h, deadline := some (.actuation none false) }
    (room_gate hg (by
      unfold releaseIncrease claimOf
      dsimp only
      split <;> omega)) hs
  exact keep_dockEvent h0 _ _ (keep_placeCommand h0 _ _ h1)

theorem keep_beginHireRelease (h : Closed P) (d : DockNo) (tag : Nat) (stamp : Stamp) {s : State}
    (hs : P s) :
    P (beginHireRelease d tag stamp s).2 := by
  have h1 := keep_readRegistry h.toReads hs
  unfold beginHireRelease
  dsimp only
  generalize readRegistry s = x at h1 ⊢
  have h2 := keep_readQueueHead h.toReads h1
  generalize readQueueHead x = y at h2 ⊢
  split
  · by_cases hg : gateAdmits (releaseIncrease d y) y = true
    · rw [if_pos hg]
      dsimp only
      exact keep_startRelease h d _ _ hg h2
    · rw [if_neg hg]
      exact h2
  · exact h1

theorem keep_beginOrderRelease (h0 : Closed P) (d : DockNo) (h : Holder) {s : State} (hs : P s) :
    P (beginOrderRelease d h s).2 := by
  have h2 := keep_readQueueHead h0.toReads hs
  unfold beginOrderRelease
  dsimp only
  generalize readQueueHead s = y at h2 ⊢
  split
  · by_cases hg : gateAdmits (releaseIncrease d y) y = true
    · rw [if_pos hg]
      dsimp only
      exact keep_startRelease h0 d _ _ hg h2
    · rw [if_neg hg]
      exact h2
  · exact hs

theorem keep_resumeDock (h : Closed P) (d : DockNo) {s : State} (hs : P s) :
    P (resumeDock d s).2 := by
  have h2 := keep_readQueueHead h.toReads hs
  have hd := readQueueHead_dock d s
  unfold resumeDock
  dsimp only
  generalize readQueueHead s = y at h2 hd ⊢
  split <;> (try exact hs)
  · rename_i hst
    split
    · exact keep_putDock h d _ (room_le (by simp [claimOf, hst])) hs
    · exact hs
  · rename_i hst
    split
    · split
      · rename_i hg
        refine keep_putDock h d _ (room_gate hg ?_) h2
        rw [hd]
        simp [claimOf, hst]
      · exact h2
    · exact hs

theorem keep_clearDockFault (h : Closed P) (d : DockNo) (k : FaultKind) {s : State} (hs : P s) :
    P (clearDockFault d k s) := keep_putDock h d _ (room_le (Nat.le_refl _)) hs

theorem keep_readmit (h : Closed P) (d : DockNo) {s : State} (hp : (dockOf d s).state = .parked)
    (hs : P s) : P (readmit d s).2 := by
  have h2 := keep_readQueueHead h.toReads hs
  have hd := readQueueHead_dock d s
  unfold readmit
  dsimp only
  generalize readQueueHead s = y at h2 hd ⊢
  split
  · rename_i hg
    refine keep_placeCommand h _ _ (keep_putDock h d _ (room_gate hg ?_) h2)
    rw [hd]
    simp only [claimOf, hp]
    split <;> omega
  · exact h2

/-! ### Hires -/

theorem keep_mapHire (h : Closed P) (tag : Nat) (f : HireRecord → HireRecord) {s : State} (hs : P s)
    :
    P (mapHire tag f s) := by
  unfold mapHire
  with_reducible repeat' first | assumption | rfl | apply h.setHu

theorem keep_dropHire (h : Closed P) (tag : Nat) {s : State} (hs : P s) : P (dropHire tag s) := by
  unfold dropHire
  with_reducible repeat' first | assumption | rfl | apply h.setHu

theorem keep_finishHire (h : Closed P) (tag : Nat) (o : ReplyOutcome) (b : Body) {s : State}
    (hs : P s) :
    P (finishHire tag o b s) := by
  unfold finishHire
  with_reducible repeat' first | assumption | rfl | apply keep_reply h | apply keep_mapHire h

theorem keep_withdrawChosen (h0 : Closed P) (h : HireRecord) {s : State} (hs : P s) :
    P (withdrawChosen h s) := by
  unfold withdrawChosen
  with_reducible repeat' first | assumption | rfl | apply keep_withdrawHire h0 | split

theorem keep_denyHire (h0 : Closed P) (h : HireRecord) (reason : DenyReason) {s : State} (hs : P s)
    :
    P (denyHire h reason s) := by
  unfold denyHire
  with_reducible
    repeat' first
      | assumption | rfl | apply keep_finishHire h0 | apply keep_withdrawChosen h0

theorem keep_setTrip (h : Closed P) (t : Nat) {s : State} (hs : P s) : P (setTrip t s) := by
  unfold setTrip
  with_reducible repeat' first | assumption | rfl | apply keep_handStation h.toReads | apply h.setSc

theorem keep_hireStarted (h0 : Closed P) (h : HireRecord) (stamp : Stamp) {s : State} (hs : P s) :
    P (hireStarted h stamp s) := by
  unfold hireStarted
  with_reducible
    repeat' first
      | assumption | rfl | apply keep_releaseBegun h0 | apply keep_mapHire h0 | apply keep_setTrip h0

theorem keep_grantHire (h0 : Closed P) (h : HireRecord) (kind : AuthKind) (plan : Nat) {s : State}
    (hs : P s) :
    P (grantHire h kind plan s) := by
  unfold grantHire
  with_reducible
    repeat' first
      | assumption | rfl | apply keep_withdrawHire h0 | apply keep_beginHireRelease h0
      | apply keep_finishHire h0 | apply keep_hireStarted h0 | dsimp only | split

theorem keep_actOn (h0 : Closed P) (h : HireRecord) (x : Decision) {s : State} (hs : P s) :
    P (actOn h x s) := by
  unfold actOn
  with_reducible
    repeat' first
      | assumption | rfl | apply keep_denyHire h0 | apply keep_grantHire h0 | split

theorem keep_decideOnline (h0 : Closed P) (h : HireRecord) (v : HandedValues) {s : State} (hs : P s)
    :
    P (decideOnline h v s) := by
  unfold decideOnline
  with_reducible
    repeat' first
      | assumption | rfl | apply keep_readPlan h0.toReads | apply keep_denyHire h0 | apply keep_grantHire h0
      | dsimp only | split

theorem keep_authorise (h0 : Closed P) (h : HireRecord) {s : State} (hs : P s) :
    P (authorise h s) := by
  unfold authorise
  with_reducible
    repeat' first
      | assumption | rfl | apply keep_lookup h0 | apply keep_denyHire h0 | apply keep_actOn h0
      | apply keep_decideOnline h0 | dsimp only | split

theorem keep_reserveDock (h0 : Closed P) (h : HireRecord) (d : DockNo) {s : State} (hs : P s) :
    P (reserveDock h d s) := by
  unfold reserveDock
  with_reducible
    repeat' first
      | assumption | rfl | apply keep_placeHolder h0 | apply keep_mapHire h0 | apply keep_authorise h0

theorem keep_takeHire (h : Closed P) (tag card : Nat) (dock : DockRequest) (plan : Option Nat)
    {s : State} (hs : P s) :
    P (takeHire tag card dock plan s) := by
  unfold takeHire
  with_reducible
    repeat' first
      | assumption | rfl | apply keep_readQueueHead h.toReads | apply keep_readRegistry h.toReads
      | apply keep_finishHire h | apply keep_reserveDock h | apply h.setHu | dsimp only | split

theorem keep_cancelWaiting (h0 : Closed P) (h : HireRecord) {s : State} (hs : P s) :
    P (cancelWaiting h s) := by
  unfold cancelWaiting
  with_reducible
    repeat' first
      | assumption | rfl | apply keep_withdrawWaiter h0 | apply keep_finishHire h0
      | apply keep_withdrawChosen h0

theorem keep_takeCancel (h : Closed P) (tag target : Nat) {s : State} (hs : P s) :
    P (takeCancel tag target s) := by
  unfold takeCancel
  with_reducible
    repeat' first
      | assumption | rfl | apply keep_reply h | apply keep_mapHire h | apply keep_cancelWaiting h | split

theorem keep_takeStationView (h : Closed P) (tag : Nat) {s : State} (hs : P s) :
    P (takeStationView tag s) := by
  unfold takeStationView
  with_reducible repeat' first | assumption | rfl | apply keep_readRegistry h.toReads | apply keep_reply h

theorem keep_finishMatching (h : Closed P) (d : DockNo) (tag : Nat) (o : ReplyOutcome) (b : Body)
    {s : State} (hs : P s) :
    P (finishMatching d tag o b s) := by
  unfold finishMatching
  with_reducible repeat' first | assumption | rfl | apply keep_finishHire h | split

theorem keep_hireOpened (h : Closed P) (d : DockNo) (tag : Nat) (bike : Nat) (stamp : Option Stamp)
    {s : State} (hs : P s) :
    P (hireOpened d tag bike stamp s) := by
  unfold hireOpened
  with_reducible repeat' first | assumption | rfl | apply keep_finishMatching h | split

theorem keep_hireFailed (h : Closed P) (d : DockNo) (tag : Nat) (stamp : Option Stamp) {s : State}
    (hs : P s) :
    P (hireFailed d tag stamp s) := by
  unfold hireFailed
  with_reducible
    repeat' first
      | assumption | rfl | apply keep_releaseUndone h | apply keep_finishMatching h | split

theorem keep_hireTaken (h : Closed P) (d : DockNo) (tag : Nat) (bike : Nat) (stamp : Option Stamp)
    {s : State} (hs : P s) :
    P (hireTaken d tag bike stamp s) := by
  unfold hireTaken
  with_reducible
    repeat' first
      | assumption | rfl | apply keep_releaseTaken h | apply keep_finishMatching h | split

theorem keep_hireLapsed (h : Closed P) (d : DockNo) (tag : Nat) (stamp : Option Stamp) {s : State}
    (hs : P s) :
    P (hireLapsed d tag stamp s) := by
  unfold hireLapsed
  with_reducible
    repeat' first
      | assumption | rfl | apply keep_setEvent h.toReads | apply keep_releaseUndone h
      | apply keep_finishMatching h | split

theorem keep_endWaiting (h0 : Closed P) (h : HireRecord) {s : State} (hs : P s) :
    P (endWaiting s h) := by
  unfold endWaiting
  with_reducible
    repeat' first
      | assumption | rfl | apply keep_withdrawWaiter h0 | apply keep_finishHire h0
      | apply keep_withdrawChosen h0

theorem keep_endWaitingHires (h : Closed P) {s : State} (hs : P s) : P (endWaitingHires s) := by
  unfold endWaitingHires
  with_reducible repeat' first | assumption | rfl | apply keep_endWaiting h | apply keep_foldl | intro _

theorem keep_clearHires (h : Closed P) {s : State} (hs : P s) : P (clearHires s) := by
  unfold clearHires
  with_reducible
    repeat' first
      | assumption | rfl | apply keep_withdrawWaiter h | apply keep_withdrawChosen h | apply keep_foldl
      | apply h.setHu | intro _

theorem keep_forWaiter (_h : Closed P) (f : Fill) (act : HireRecord → State → State)
    (hf : ∀ h s, P s → P (act h s)) {s : State} (hs : P s) :
    P (forWaiter f act s) := by
  unfold forWaiter
  with_reducible repeat' first | assumption | rfl | apply hf | split

theorem keep_waiterValues (h : Closed P) (m : MemberRecord) (p : Placement) {s : State} (hs : P s) :
    P (waiterValues m p s).2 := by
  unfold waiterValues
  with_reducible repeat' first | assumption | rfl | apply keep_notionalValues h | dsimp only | split

theorem keep_decideWaiter (h : Closed P) (m : MemberRecord) (f : Fill) (p : Placement) {s : State}
    (hs : P s) :
    P (decideWaiter m f p s) := by
  unfold decideWaiter
  with_reducible
    repeat' first
      | assumption | rfl | apply keep_denyHire h | apply keep_decideOnline h | apply keep_forWaiter h
      | apply keep_waiterValues h | intro _ | dsimp only | split

theorem keep_discardFill (h : Closed P) (tag : Nat) (f : Fill) {s : State} (hs : P s) :
    P (discardFill tag f s) := by
  unfold discardFill
  with_reducible
    repeat' first
      | assumption | rfl | apply keep_reply h | apply keep_dropFill h | apply keep_denyHire h
      | apply keep_forWaiter h | intro _

theorem keep_takeFillAnswer (h : Closed P) (tag : Nat) (m : MemberRecord) {s : State} (hs : P s) :
    P (takeFillAnswer tag m s) := by
  unfold takeFillAnswer
  with_reducible
    repeat' first
      | assumption | rfl | apply keep_reply h | apply keep_placeMember h | apply keep_answerLink h
      | apply keep_dropFill h | apply keep_decideWaiter h | apply keep_discardFill h | dsimp only
      | split

theorem keep_takeFillNotFound (h : Closed P) (tag card : Nat) {s : State} (hs : P s) :
    P (takeFillNotFound tag card s) := by
  unfold takeFillNotFound
  with_reducible
    repeat' first
      | assumption | rfl | apply keep_reply h | apply keep_answerLink h | apply keep_dropFill h
      | apply keep_invalidateEntry h | apply keep_denyHire h | apply keep_forWaiter h
      | apply keep_discardFill h | intro _ | dsimp only | split

theorem keep_advanceRun (h : Closed P) {s : State} (hs : P s) : P (advanceRun s) := by
  unfold advanceRun
  with_reducible
    repeat' first
      | assumption | rfl | apply keep_setEvent h.toReads | apply keep_raise h | apply h.setCc | apply h.setSc
      | rfl | dsimp only | split

theorem keep_expireWaiter (h : Closed P) (f : Fill) {s : State} (hs : P s) :
    P (expireWaiter f s) := by
  unfold expireWaiter
  with_reducible
    repeat' first
      | assumption | rfl | apply keep_decideOffline h | apply keep_denyHire h | apply keep_actOn h
      | apply keep_forWaiter h | intro _ | dsimp only | split

theorem keep_fillExpires (h : Closed P) (card : Nat) {s : State} (hs : P s) :
    P (fillExpires card s) := by
  unfold fillExpires
  with_reducible
    repeat' first
      | assumption | rfl | apply keep_reachTime h | apply keep_dropFill h | apply keep_advanceRun h
      | apply keep_expireWaiter h | split

/-! ### WorkOrders -/

theorem keep_putCrew (h : Closed P) (i : Fin 16) (c : Option Crew) {s : State} (hs : P s) :
    P (putCrew i c s) := by
  unfold putCrew
  with_reducible repeat' first | assumption | rfl | apply keep_handCrew h.toReads | apply h.setWoe

theorem keep_takeCrewLoad (h : Closed P) (tag crew level mapLength : Nat) (permits : List Bool)
    {s : State} (hs : P s) :
    P (takeCrewLoad tag crew level mapLength permits s) := by
  unfold takeCrewLoad
  with_reducible
    repeat' first
      | assumption | rfl | apply keep_readCrews h.toReads | apply keep_reply h | apply keep_putCrew h | dsimp only
      | split

theorem keep_takeCrewDrop (h : Closed P) (tag crew : Nat) {s : State} (hs : P s) :
    P (takeCrewDrop tag crew s) := by
  unfold takeCrewDrop
  with_reducible
    repeat' first
      | assumption | rfl | apply keep_readCrews h.toReads | apply keep_reply h | apply keep_putCrew h | dsimp only
      | split

theorem keep_takeFloorSet (h : Closed P) (tag : Nat) (k : OrderKind) (floor : Nat) {s : State}
    (hs : P s) :
    P (takeFloorSet tag k floor s) := by
  unfold takeFloorSet
  with_reducible
    repeat' first
      | assumption | rfl | apply keep_handFloor h.toReads | apply keep_readPlaces h.toReads | apply keep_reply h
      | apply h.setWoe

theorem keep_setSlot (h : Closed P) (i : Fin 2) (w : WorkSlot) {s : State} (hs : P s) :
    P (setSlot i w s) := by
  unfold setSlot
  with_reducible repeat' first | assumption | rfl | apply h.setWoe

theorem keep_judgeStart (h : Closed P) {s : State} (hs : P s) : P (judgeStart s) := by
  unfold judgeStart
  with_reducible
    repeat' first
      | assumption | rfl | apply keep_setSlot h | apply h.setWoe | dsimp only | split

theorem keep_endSlot (h : Closed P) (i : Fin 2) (w : WorkSlot) {s : State} (hs : P s) :
    P (endSlot i w s) := by
  unfold endSlot
  with_reducible repeat' first | assumption | rfl | apply keep_setSlot h | apply keep_judgeStart h

theorem keep_completeOrder (h : Closed P) (i : Fin 2) (w : WorkSlot) (r : OrderResult) (next : Nat)
    {s : State} (hs : P s) :
    P (completeOrder i w r next s) := by
  unfold completeOrder
  with_reducible
    repeat' first
      | assumption | rfl | apply keep_setSlot h | apply keep_endSlot h | dsimp only | split

theorem keep_waitOrder (h : Closed P) (i : Fin 2) (w : WorkSlot) (p : Progress) {s : State}
    (hs : P s) :
    P (waitOrder i w p s) := by
  unfold waitOrder
  with_reducible repeat' first | assumption | rfl | apply keep_setSlot h

theorem keep_abortActive (h : Closed P) (i : Fin 2) (w : WorkSlot) (reason : AbortReason)
    {s : State} (hs : P s) :
    P (abortActive i w reason s) := by
  unfold abortActive
  with_reducible
    repeat' first
      | assumption | rfl | apply keep_raise h | apply keep_setSlot h | apply keep_judgeStart h

theorem keep_abortQueued (h : Closed P) (i : Fin 2) (w : WorkSlot) {s : State} (hs : P s) :
    P (abortQueued i w s) := by
  unfold abortQueued
  with_reducible
    repeat' first
      | assumption | rfl | apply keep_raise h | apply keep_setSlot h | apply h.setWoe

theorem keep_placeList (h : Closed P) (i : Fin 2) (crew : Nat) (orders : List Order) {s : State}
    (hs : P s) :
    P (placeList i crew orders s) := by
  unfold placeList
  with_reducible
    repeat' first
      | assumption | rfl | apply keep_setSlot h | apply keep_judgeStart h | apply h.setWoe

theorem keep_takeOrderSubmit (h : Closed P) (tag crew : Nat) (orders : List Order) {s : State}
    (hs : P s) :
    P (takeOrderSubmit tag crew orders s) := by
  unfold takeOrderSubmit
  with_reducible
    repeat' first
      | assumption | rfl | apply keep_readCrews h.toReads | apply keep_reply h | apply keep_placeList h
      | dsimp only | split

theorem keep_takeOrderStatus (h : Closed P) (tag slot : Nat) {s : State} (hs : P s) :
    P (takeOrderStatus tag slot s) := by
  unfold takeOrderStatus
  with_reducible repeat' first | assumption | rfl | apply keep_reply h

theorem keep_takeOrderAbort (h : Closed P) (tag slot crew : Nat) {s : State} (hs : P s) :
    P (takeOrderAbort tag slot crew s) := by
  unfold takeOrderAbort
  with_reducible
    repeat' first
      | assumption | rfl | apply keep_readCrews h.toReads | apply keep_reply h | apply keep_abortActive h
      | apply keep_abortQueued h | dsimp only | split

theorem keep_collectGoesOn (h : Closed P) (i : Fin 2) (w : WorkSlot) (outstanding : List DockNo)
    (taken ended : Nat) (stopped : Bool) {s : State} (hs : P s) :
    P (collectGoesOn i w outstanding taken ended stopped s) := by
  unfold collectGoesOn
  with_reducible
    repeat' first
      | assumption | rfl | apply keep_completeOrder h | apply keep_waitOrder h | split

theorem keep_collectOutcome (h : Closed P) (d : DockNo) (i : Fin 2) (taken : Bool) {s : State}
    (hs : P s) :
    P (collectOutcome d i taken s) := by
  unfold collectOutcome
  with_reducible repeat' first | assumption | rfl | apply keep_collectGoesOn h | split

theorem keep_countPlace (h : Closed P) {s : State} (hs : P s) : P (countPlace s).2 := by
  unfold countPlace
  with_reducible
    repeat' first
      | assumption | rfl | apply keep_completeOrder h | apply keep_waitOrder h | dsimp only | split

theorem keep_placeExpires (h : Closed P) {s : State} (hs : P s) : P (placeExpires s) := by
  unfold placeExpires
  with_reducible
    repeat' first
      | assumption | rfl | apply keep_reachTime h | apply keep_completeOrder h | split

theorem keep_withdrawOrder (h0 : Closed P) (d : DockNo) (h : Holder) {s : State} (hs : P s) :
    P (withdrawOrder d h s) := by
  unfold withdrawOrder
  split
  · exact keep_putDock h0 d _ (room_le (Nat.le_refl _)) hs
  · exact hs

theorem keep_selectDocks (h0 : Closed P) (h : Holder) (count : Nat) (f : Bool) (l : List DockNo)
    (taken : List DockNo) {s : State} (hs : P s) :
    P (selectDocks h count f l taken s).2.2 := by
  induction l generalizing taken s with
  | nil => exact hs
  | cons d rest ih =>
    have h1 := keep_beginOrderRelease h0 d h (keep_placeHolder h0 d h hs)
    unfold selectDocks
    split
    · exact hs
    · split
      · dsimp only
        split
        · exact ih _ h1
        · exact keep_withdrawOrder h0 d h h1
        · exact ih _ (keep_withdrawOrder h0 d h h1)
      · exact ih _ hs

theorem keep_runCollect (h : Closed P) (i : Fin 2) (w : WorkSlot) (first last count : Nat)
    (includeFlagged : Bool) {s : State} (hs : P s) :
    P (runCollect i w first last count includeFlagged s) := by
  unfold runCollect
  with_reducible
    repeat' first
      | assumption | rfl | apply keep_readRegistry h.toReads | apply keep_collectGoesOn h
      | apply keep_selectDocks h

theorem keep_runPlace (h : Closed P) (i : Fin 2) (w : WorkSlot) (timeout : Nat) {s : State}
    (hs : P s) :
    P (runPlace i w timeout s) := by
  unfold runPlace
  with_reducible repeat' first | assumption | rfl | apply keep_waitOrder h

theorem keep_runSuspend (h : Closed P) (i : Fin 2) (w : WorkSlot) (first last : Nat) {s : State}
    (hs : P s) :
    P (runSuspend i w first last s) := by
  unfold runSuspend
  with_reducible
    repeat' first
      | assumption | rfl | apply keep_suspendDock h | apply keep_completeOrder h | apply keep_foldl
      | intro _

theorem keep_resumeDocks (h : Closed P) (l : List DockNo) (n : Nat) {s : State} (hs : P s) :
    P (resumeDocks l n s).2.2 := by
  induction l generalizing n s with
  | nil => exact hs
  | cons d rest ih =>
    have h1 := keep_resumeDock h d hs
    unfold resumeDocks
    dsimp only
    split
    · exact ih _ h1
    · exact h1
    · exact ih _ h1

theorem keep_runResume (h : Closed P) (i : Fin 2) (w : WorkSlot) (first last : Nat) {s : State}
    (hs : P s) :
    P (runResume i w first last s) := by
  unfold runResume
  with_reducible repeat' first | assumption | rfl | apply keep_completeOrder h | apply keep_resumeDocks h

theorem keep_runFlagBike (h : Closed P) (i : Fin 2) (w : WorkSlot) (bike : Nat) {s : State}
    (hs : P s) :
    P (runFlagBike i w bike s) := by
  unfold runFlagBike
  with_reducible
    repeat' first
      | assumption | rfl | apply keep_readRegistry h.toReads | apply keep_enterFlag h | apply keep_completeOrder h

theorem keep_clearBike (h : Closed P) (bike : Nat) {s : State} (hs : P s) :
    P (clearBike bike s) := by
  unfold clearBike
  with_reducible
    repeat' first
      | assumption | rfl | apply keep_placeCommand h | apply keep_clearFlag h | dsimp only | split

theorem keep_runClearBike (h : Closed P) (i : Fin 2) (w : WorkSlot) (bike : Nat) {s : State}
    (hs : P s) :
    P (runClearBike i w bike s) := by
  unfold runClearBike
  with_reducible
    repeat' first
      | assumption | rfl | apply keep_readRegistry h.toReads | apply keep_completeOrder h | apply keep_clearBike h

theorem keep_clearKind (h : Closed P) (d : DockNo) (k : FaultKind) {s : State} (hs : P s) :
    P (clearKind d k s).2 := by
  have hc := fun k => keep_clearDockFault h d k hs
  unfold clearKind
  dsimp only
  split
  · split
    · rename_i hj
      exact keep_placeCommand h _ _ (keep_putDock h d _ (room_le (by simp [claimOf, hj.1])) hs)
    · exact hc _
  · split
    · rename_i hp
      exact keep_readmit h d hp hs
    · exact hc _
  · exact hc _

theorem keep_clearKinds (h : Closed P) (d : DockNo) (l : List FaultKind) (n : Nat) (b : Bool)
    {s : State} (hs : P s) :
    P (clearKinds d l n b s).2.2 := by
  induction l generalizing n b s with
  | nil => exact hs
  | cons k rest ih =>
    unfold clearKinds
    exact ih _ _ (keep_clearKind h d k hs)

theorem keep_runClearFault (h : Closed P) (i : Fin 2) (w : WorkSlot) (dock : Nat)
    (choice : FaultChoice) {s : State} (hs : P s) :
    P (runClearFault i w dock choice s) := by
  unfold runClearFault
  with_reducible repeat' first | assumption | rfl | apply keep_completeOrder h | apply keep_clearKinds h

theorem keep_runJump (h : Closed P) (i : Fin 2) (w : WorkSlot) (c : Condition) (target : Nat)
    {s : State} (hs : P s) :
    P (runJump i w c target s) := by
  unfold runJump
  with_reducible
    repeat' first
      | assumption | rfl | apply keep_readRegistry h.toReads | apply keep_completeOrder h | dsimp only | split

theorem keep_runEnd (h : Closed P) (i : Fin 2) (w : WorkSlot) (notify : Bool) {s : State} (hs : P s)
    :
    P (runEnd i w notify s) := by
  unfold runEnd
  with_reducible repeat' first | assumption | rfl | apply keep_setEvent h.toReads | apply keep_endSlot h | split

theorem keep_runOrder (h : Closed P) (i : Fin 2) (w : WorkSlot) (o : Order) {s : State} (hs : P s) :
    P (runOrder i w o s) := by
  unfold runOrder
  with_reducible
    repeat' first
      | assumption | rfl | apply keep_runCollect h | apply keep_runPlace h | apply keep_runSuspend h
      | apply keep_runResume h | apply keep_runFlagBike h | apply keep_runClearBike h
      | apply keep_runClearFault h | apply keep_runJump h | apply keep_runEnd h | split

theorem keep_readForOrder (h : Closed P) (w : WorkSlot) (o : Order) {s : State} (hs : P s) :
    P (readForOrder w o s) := by
  unfold readForOrder
  with_reducible
    repeat' first
      | assumption | rfl | apply keep_readPlaces h.toReads | apply keep_readCrews h.toReads | split

theorem keep_executeSlot (h : Closed P) (i : Fin 2) (w : WorkSlot) {s : State} (hs : P s) :
    P (executeSlot i w s) := by
  unfold executeSlot
  with_reducible
    repeat' first
      | assumption | rfl | apply keep_endSlot h | apply keep_completeOrder h | apply keep_abortActive h
      | apply keep_runOrder h | apply keep_readForOrder h | dsimp only | split

theorem keep_executeRunning (h : Closed P) {s : State} (hs : P s) : P (executeRunning s) := by
  unfold executeRunning
  with_reducible repeat' first | assumption | rfl | apply keep_executeSlot h | split

/-! ### Arrivals -/

theorem keep_dropTagWrite (h : Closed P) (d : DockNo) (c : WriteCommand) {s : State} (hs : P s) :
    P (dropTagWrite d c s) := by
  unfold dropTagWrite
  with_reducible repeat' first | assumption | rfl | apply keep_setLine h.toReads

theorem keep_putMark (h : Closed P) (d : DockNo) (bike : Nat) (mark : Bool) {s : State} (hs : P s) :
    P (putMark d bike mark s) := by
  unfold putMark
  dsimp only
  split
  · rename_i b hb
    split
    · exact keep_putDock h d _ (room_le (claimOf_bike (by rw [hb]; rfl))) hs
    · exact hs
  · exact hs

theorem keep_flagFailedWrite (h : Closed P) (d : DockNo) (bike : Nat) {s : State} (hs : P s) :
    P (flagFailedWrite d bike s) := by
  unfold flagFailedWrite
  with_reducible
    repeat' first
      | assumption | rfl | apply keep_readRegistry h.toReads | apply keep_enterFlag h | apply keep_putMark h
      | dsimp only | split

theorem keep_tagCleared (h : Closed P) (d : DockNo) (c : WriteCommand) {s : State} (hs : P s) :
    P (tagCleared d c s) := by
  unfold tagCleared
  with_reducible
    repeat' first
      | assumption | rfl | apply keep_dropTagWrite h | apply keep_putMark h | dsimp only | split

theorem keep_tagWriteFailed (h : Closed P) (d : DockNo) (c : WriteCommand) {s : State} (hs : P s) :
    P (tagWriteFailed d c s) := by
  unfold tagWriteFailed
  with_reducible
    repeat' first
      | assumption | rfl | apply keep_raise h | apply keep_dropTagWrite h | apply keep_flagFailedWrite h
      | dsimp only | split

theorem keep_checkDuplicate (h : Closed P) (d : DockNo) (bike : Nat) {s : State} (hs : P s) :
    P (checkDuplicate d bike s) := by
  unfold checkDuplicate
  split
  · exact hs
  · split
    · exact hs
    · exact keep_raise h _ (keep_putDock h _ _ (room_le (claimOf_bike (by simp))) hs)

theorem keep_flagMarked (h : Closed P) (bike : Nat) (mark : Bool) {s : State} (hs : P s) :
    P (flagMarked bike mark s) := by
  unfold flagMarked
  with_reducible repeat' first | assumption | rfl | apply keep_askFlag h | split

theorem keep_bikeEntered (h : Closed P) (d : DockNo) (bike : Nat) (mark : Bool) {s : State}
    (hs : P s) :
    P (bikeEntered d bike mark s) := by
  unfold bikeEntered
  with_reducible repeat' first | assumption | rfl | apply keep_checkDuplicate h | apply keep_flagMarked h

theorem keep_readForFare (h : Closed P) (t : Stamp) {s : State} (hs : P s) :
    P (readForFare t s) := by
  unfold readForFare
  with_reducible
    repeat' first
      | assumption | rfl | apply keep_readPlan h.toReads | apply keep_readConfig h.toReads | split

theorem keep_raiseSkew (h : Closed P) (d : DockNo) (bike : Nat) (t : Stamp)
    (fare : Option (Nat × FareFlags)) {s : State} (hs : P s) :
    P (raiseSkew d bike t fare s) := by
  unfold raiseSkew
  with_reducible repeat' first | assumption | rfl | apply keep_raise h | split

theorem readForArrival_dock (t : TagReading) (d : DockNo) (s : State) :
    dockOf d (readForArrival t s) = dockOf d s := by
  unfold readForArrival readForFare
  dsimp only
  split
  · split <;> simp [readPlan_dock, readConfig_dock, readQueueHead_dock, readRegistry_dock]
  · simp [readQueueHead_dock, readRegistry_dock]

theorem keep_readForArrival (h : Closed P) (t : TagReading) {s : State} (hs : P s) :
    P (readForArrival t s) := by
  unfold readForArrival
  with_reducible
    repeat' first
      | assumption | apply keep_readQueueHead h.toReads | apply keep_readRegistry h.toReads
      | apply keep_readForFare h | dsimp only | split

theorem keep_arrivalReport (h : Closed P) (d : DockNo) (t : TagReading) {s : State} (hs : P s) :
    P (arrivalReport d t s).2 := by
  unfold arrivalReport
  split
  · exact hs
  · exact hs
  · have h1 := keep_countPlace h hs
    dsimp only
    split <;> exact h1

/-- Counting an arrival for a PLACE leaves the dock records. -/
theorem arrivalReport_dock (d e : DockNo) (t : TagReading) (s : State) :
    dockOf e (arrivalReport d t s).2 = dockOf e s := by
  have hj : ∀ x, dockOf e (judgeStart x) = dockOf e x := by
    intro x
    unfold judgeStart
    split
    · rfl
    · split
      · rfl
      · dsimp only
        split <;> rfl
  have hc : ∀ i w r n x, dockOf e (completeOrder i w r n x) = dockOf e x := by
    intro i w r n x
    unfold completeOrder
    dsimp only
    split
    · exact hj _
    · rfl
  have hp : dockOf e (countPlace s).2 = dockOf e s := by
    unfold countPlace
    split
    · rfl
    · dsimp only
      split
      · rfl
      · exact hc _ _ _ _ _
  unfold arrivalReport
  split
  · rfl
  · rfl
  · dsimp only
    split <;> exact hp

theorem keep_recordArrival (h : Closed P) (d : DockNo) (t : TagReading) {s : State}
    (hv : (dockOf d s).state = .vacant) (hu : (dockOf d s).suspended = false) (hs : P s) :
    P (recordArrival d t s) := by
  unfold recordArrival
  refine h.moveUnit ?_ (keep_arrivalReport h d t hs)
  unfold Room
  rw [arrivalReport_dock]
  simp only [arrivalRecord, claimOf, hv, hu, Bool.false_eq_true, if_false]
  omega

theorem keep_followArrival (h : Closed P) (d : DockNo) (t : TagReading) {s : State} (hs : P s) :
    P (followArrival d t s) := by
  unfold followArrival
  with_reducible
    repeat' first
      | assumption | apply keep_raise h | apply keep_raiseSkew h | apply keep_arrivalWrite h
      | dsimp only | split

theorem keep_arrive (h : Closed P) (d : DockNo) (t : TagReading) {s : State}
    (hv : (dockOf d s).state = .vacant) (hu : (dockOf d s).suspended = false) (hs : P s) :
    P (arrive d t s) := by
  have h1 : P (recordArrival d t (readForArrival t s)) := keep_recordArrival h d t
    ((congrArg DockRecord.state (readForArrival_dock t d s)).trans hv)
    ((congrArg DockRecord.suspended (readForArrival_dock t d s)).trans hu)
    (keep_readForArrival h t hs)
  unfold arrive
  exact keep_dockEvent h _ _ (keep_placeCommand h _ _ (keep_flagMarked h _ _
    (keep_followArrival h d t (keep_checkDuplicate h d _ h1))))

theorem keep_latchSuspended (h : Closed P) (d : DockNo) (t : TagReading) {s : State} (hs : P s) :
    P (latchSuspended d t s) :=
  keep_bikeEntered h _ _ _ (keep_putDock h d _ (room_zero (by simp [claimOf])) hs)

theorem keep_reportBike (h : Closed P) (d : DockNo) (bike : Nat) (a : LastArrival) {s : State}
    (hs : P s) :
    P (reportBike d bike a s) :=
  keep_raise h _ (keep_putDock h d _ (room_le (Nat.le_refl _))
    (keep_placeCommand h _ _ (keep_askFlag h _ _ hs)))

theorem keep_reportDock (h : Closed P) (d : DockNo) {s : State} (hs : P s) :
    P (reportDock d s) := by
  unfold reportDock
  with_reducible repeat' first | assumption | rfl | apply keep_raise h | split

theorem keep_pressButton (h : Closed P) (d : DockNo) {s : State} (hs : P s) :
    P (pressButton d s) := by
  unfold pressButton
  with_reducible
    repeat' first
      | assumption | rfl | apply keep_readConfig h.toReads | apply keep_reportBike h | apply keep_reportDock h
      | dsimp only | split

/-! ### DockEvents -/

theorem keep_endActuation (h : Closed P) (d : DockNo) {s : State} (hs : P s) :
    P (endActuation d s) := by
  unfold endActuation
  with_reducible repeat' first | assumption | rfl | apply keep_setLine h.toReads

theorem keep_handOpened (h0 : Closed P) (d : DockNo) (h : Option Holder) (bike : Nat) {s : State}
    (hs : P s) :
    P (handOpened d h bike s) := by
  unfold handOpened
  with_reducible repeat' first | assumption | rfl | apply keep_hireOpened h0 | split

theorem keep_handTaken (h0 : Closed P) (d : DockNo) (h : Option Holder) (bike : Nat) {s : State}
    (hs : P s) :
    P (handTaken d h bike s) := by
  unfold handTaken
  with_reducible
    repeat' first
      | assumption | rfl | apply keep_hireTaken h0 | apply keep_collectOutcome h0 | split

theorem keep_handFailed (h0 : Closed P) (d : DockNo) (h : Option Holder) {s : State} (hs : P s) :
    P (handFailed d h s) := by
  unfold handFailed
  with_reducible
    repeat' first
      | assumption | rfl | apply keep_hireFailed h0 | apply keep_collectOutcome h0 | split

theorem keep_handLapsed (h0 : Closed P) (d : DockNo) (h : Option Holder) {s : State} (hs : P s) :
    P (handLapsed d h s) := by
  unfold handLapsed
  with_reducible
    repeat' first
      | assumption | rfl | apply keep_hireLapsed h0 | apply keep_collectOutcome h0 | split

theorem keep_raiseJam (h : Closed P) (d : DockNo) (phase : JamPhase) {s : State} (hs : P s) :
    P (raiseJam d phase s) := by
  unfold raiseJam
  with_reducible repeat' first | assumption | rfl | apply keep_raise h

theorem keep_jamDock (h : Closed P) (d : DockNo) {s : State}
    (hd : (dockOf d s).state = .unlocking ∨ (dockOf d s).state = .relocking) (hs : P s) :
    P (jamDock d s) := by
  have h1 := keep_endActuation h d (keep_putDock h d
    { dockOf d s with state := .jammed, suspended := true, deadline := none }
    (room_le (by
      rcases hd with hd | hd <;> cases hu : (dockOf d s).suspended <;>
        cases hb : (dockOf d s).bike <;> simp [claimOf, hd, hu, hb])) hs)
  unfold jamDock
  dsimp only
  split
  · exact keep_raiseJam h _ _ (keep_handFailed h _ _ h1)
  · exact keep_raiseJam h _ _ (keep_handLapsed h _ _ h1)

theorem keep_idleActuatorFault (h : Closed P) (d : DockNo) {s : State} (hs : P s) :
    P (idleActuatorFault d s) := by
  unfold idleActuatorFault
  with_reducible repeat' first | assumption | rfl | apply keep_suspendDock h | apply keep_raiseJam h

theorem keep_relockDock (h : Closed P) (d : DockNo) (clearing : Bool) (cause : RelockCause)
    {s : State} (hd : (dockOf d s).state = .unlocking ∨ (dockOf d s).state = .offered) (hs : P s) :
    P (relockDock d clearing cause s) :=
  keep_placeCommand h _ _ (keep_endActuation h _ (keep_putDock h d _
    (room_le (by rcases hd with hd | hd <;> simp [claimOf, hd])) hs))

theorem keep_offerDock (h : Closed P) (d : DockNo) {s : State}
    (hd : (dockOf d s).state = .unlocking) (hs : P s) : P (offerDock d s) := by
  have h1 := keep_readConfig h.toReads .takeWindow hs
  have hr := readConfig_dock .takeWindow d s
  unfold offerDock
  exact keep_handOpened h _ _ _ (keep_endActuation h _ (keep_putDock h d _
    (room_le (by simp [claimOf, hr, hd])) h1))

theorem keep_openDock (h : Closed P) (d : DockNo) {s : State}
    (hd : (dockOf d s).state = .unlocking) (hs : P s) : P (openDock d s) := by
  unfold openDock
  split
  · exact keep_relockDock h _ _ _ (.inl hd) hs
  · exact keep_offerDock h _ hd hs

theorem keep_takeExpires (h : Closed P) (d : DockNo) {s : State} (hs : P s) :
    P (takeExpires d s) := by
  unfold takeExpires
  dsimp only
  split
  · rename_i hd _
    exact keep_relockDock h _ _ _ (.inr hd) (keep_reachTime h _ hs)
  · exact hs

theorem keep_redock (h : Closed P) (d : DockNo) {s : State} (hs : P s) : P (redock d s) :=
  keep_endActuation h _ (keep_putDock h d _ (room_zero (by simp [claimOf])) hs)

theorem keep_lapseDock (h : Closed P) (d : DockNo) {s : State} (hs : P s) : P (lapseDock d s) := by
  unfold lapseDock
  with_reducible repeat' first | assumption | rfl | apply keep_handLapsed h | apply keep_redock h

theorem keep_stampFail (h : Closed P) (d : DockNo) {s : State} (hs : P s) : P (stampFail d s) := by
  unfold stampFail
  with_reducible
    repeat' first
      | assumption | rfl | apply keep_raise h | apply keep_flagFailedWrite h | apply keep_handFailed h
      | apply keep_redock h | dsimp only | split

theorem keep_takeReleased (h : Closed P) (d : DockNo) {s : State}
    (hd : (dockOf d s).state = .offered ∨ (dockOf d s).state = .relocking) (hs : P s) :
    P (takeReleased d s) := by
  have h1 := keep_endActuation h d (keep_queueMove h
    (takeReport d (dockOf d s).holder (recordBike d s)) d
    { dockOf d s with state := .vacant, bike := none, deadline := none, holder := none }
    (by rcases hd with hd | hd <;> cases hu : (dockOf d s).suspended <;> simp [claimOf, hd, hu]) hs)
  unfold takeReleased
  refine keep_handTaken h _ _ _ (keep_dockEvent h _ _ ?_)
  split
  · exact keep_dropTagWrite h _ _ h1
  · exact h1

theorem keep_lateTake (h0 : Closed P) (h : Option Holder) {s : State} (hs : P s) :
    P (lateTake h s) := by
  unfold lateTake
  with_reducible repeat' first | assumption | rfl | apply keep_releaseTaken h0 | split

theorem keep_takeJammed (h : Closed P) (d : DockNo) {s : State} (hd : (dockOf d s).state = .jammed)
    (hb : (dockOf d s).bike.isSome = true) (hs : P s) :
    P (takeJammed d s) := by
  have h1 := keep_lateTake h (dockOf d s).holder (keep_queueMove h
    (takeReport d (dockOf d s).holder (recordBike d s)) d
    { dockOf d s with bike := none, holder := none } (by simp [claimOf, hd, hb]) hs)
  unfold takeJammed
  refine keep_dockEvent h _ _ ?_
  split
  · exact keep_raise h _ h1
  · exact h1

theorem keep_takeDocked (h : Closed P) (d : DockNo) {s : State} (hs : P s) :
    P (takeDocked d s) :=
  keep_dockEvent h _ _ (keep_raise h _ (keep_putDock h d _ (room_zero (by simp [claimOf])) hs))

theorem finishMatching_dock (d e : DockNo) (tag : Nat) (o : ReplyOutcome) (b : Body) (s : State) :
    dockOf e (finishMatching d tag o b s) = dockOf e s := by
  unfold finishMatching
  split
  · simp [finishHire, reply, finishReply, dockOf, mapHire]
  · rfl

/-- A dock that OPENED is taken from is OFFERED or RELOCKING (R16). -/
theorem openDock_state (d : DockNo) (s : State) :
    (dockOf d (openDock d s)).state = .offered ∨ (dockOf d (openDock d s)).state = .relocking := by
  have hp : ∀ r x, dockOf d (endActuation d (putDock d r x)) = r := by
    intro r x
    simp [endActuation]
  have hl : ∀ c x, dockOf d (placeCommand d c x) = dockOf d x := fun _ _ => rfl
  unfold openDock
  split
  · right
    unfold relockDock
    dsimp only
    rw [hl, hp]
  · left
    unfold offerDock
    dsimp only
    generalize readConfig .takeWindow s = y
    unfold handOpened hireOpened
    split
    · split
      · rw [finishMatching_dock, hp]
      · rw [hp]
    · rw [hp]

theorem keep_takenEvent (h : Closed P) (d : DockNo) {s : State} (hs : P s) :
    P (takenEvent d s) := by
  unfold takenEvent
  dsimp only
  split <;> (try with_reducible exact hs)
  · rename_i hd
    exact keep_takeReleased h d (.inl hd) hs
  · rename_i hd
    exact keep_takeReleased h d (.inr hd) hs
  · rename_i hd
    have h1 := keep_openDock h d hd hs
    have h2 := openDock_state d s
    generalize openDock d s = x at h1 h2 ⊢
    exact keep_takeReleased h d h2 h1
  · rename_i hd
    split
    · rename_i hb
      exact keep_takeJammed h d hd hb hs
    · exact hs
  · exact keep_takeDocked h d hs

theorem keep_probeCloses (h : Closed P) (d : DockNo) (c : DockCondition) {s : State} (hs : P s) :
    P (probeCloses d c s) := by
  have h1 := keep_endActuation h d hs
  unfold probeCloses
  dsimp only
  split
  · exact keep_bikeEntered h _ _ _ (keep_putDock h d _ (room_zero (by simp [claimOf])) h1)
  · exact keep_putDock h d _ (room_zero (by simp [claimOf])) h1

theorem keep_readmissionFails (h : Closed P) (d : DockNo) {s : State}
    (hd : (dockOf d s).state = .parked) (ha : actuating (dockOf d s) = true) (hs : P s) :
    P (readmissionFails d s) := by
  have h1 := keep_endActuation h d hs
  have h2 : dockOf d (endActuation d s) = dockOf d s := rfl
  unfold readmissionFails
  dsimp only
  split
  · refine keep_raiseJam h _ _ (keep_bikeEntered h _ _ _ (keep_putDock h d _ (room_le ?_) h1))
    rw [h2]
    simp [claimOf, hd, ha]
  · exact keep_raiseJam h _ _ (keep_putDock h d _ (room_zero (by simp [claimOf])) h1)

theorem keep_jamProbeFails (h : Closed P) (d : DockNo) {s : State} (hs : P s) :
    P (jamProbeFails d s) :=
  keep_raiseJam h _ _ (keep_endActuation h _ (keep_putDock h d _ (room_le (claimOf_idle _)) hs))

theorem keep_probeFails (h : Closed P) (d : DockNo) {s : State} (hp : probing d s = true) (hs : P s) :
    P (probeFails d s) := by
  unfold probeFails
  split
  · rename_i hd
    exact keep_readmissionFails h d hd (by
      simp only [probing, Bool.and_eq_true] at hp
      exact hp.1) hs
  · exact keep_jamProbeFails h d hs

theorem keep_closeRelockWrite (h : Closed P) (d : DockNo) (c : DockCondition) {s : State} (hs : P s)
    :
    P (closeRelockWrite d c s) := by
  unfold closeRelockWrite
  with_reducible repeat' first | assumption | rfl | apply keep_dropTagWrite h | split

theorem keep_closedEvent (h : Closed P) (d : DockNo) (c : DockCondition) {s : State} (hs : P s) :
    P (closedEvent d c s) := by
  have h1 := keep_closeRelockWrite h d c hs
  unfold closedEvent
  dsimp only
  split
  · rename_i hd
    split
    · exact keep_lapseDock h d h1
    · exact keep_takeReleased h d (.inr hd) h1
  · split
    · exact keep_probeCloses h d c h1
    · exact h1

theorem keep_actuatorFault (h : Closed P) (d : DockNo) {s : State} (hs : P s) :
    P (actuatorFault d s) := by
  unfold actuatorFault
  dsimp only
  split
  · rename_i hd
    exact keep_jamDock h d hd hs
  · split
    · rename_i hp
      exact keep_probeFails h d hp hs
    · exact keep_idleActuatorFault h d hs

theorem keep_latchedEvent (h : Closed P) (d : DockNo) (tag : Option (List Byte)) {s : State}
    (hs : P s) :
    P (latchedEvent d tag s) := by
  unfold latchedEvent
  dsimp only
  split
  · rename_i hv
    split
    · exact keep_latchSuspended h d _ hs
    · rename_i hu
      exact keep_arrive h d _ hv (by simpa using hu) hs
  · exact hs

theorem keep_takeEvent (h : Closed P) (d : DockNo) (e : DockEvent) (c : DockCondition) {s : State}
    (hs : P s) :
    P (takeEvent d e c s) := by
  unfold takeEvent
  dsimp only
  split
  case h_2 =>
    split
    · rename_i hd
      exact keep_openDock h d hd hs
    · exact hs
  all_goals
    with_reducible
      repeat' first
        | assumption | apply keep_tagCleared h | apply keep_tagWriteFailed h
        | apply keep_pressButton h | apply keep_stampFail h | apply keep_takenEvent h
        | apply keep_closedEvent h | apply keep_actuatorFault h | apply keep_latchedEvent h | split

theorem keep_retryActuation (h : Closed P) (d : DockNo) {s : State}
    (ha : actuating (dockOf d s) = true) (hs : P s) : P (retryActuation d s) := by
  unfold retryActuation
  dsimp only
  split
  · exact keep_placeCommand h _ _ (keep_putDock h d _
      (room_le (claimOf_actuating rfl rfl rfl (ha.trans rfl).symm)) hs)
  · exact hs

theorem keep_dockAbsent (h : Closed P) (d : DockNo) {s : State} (hs : P s) :
    P (dockAbsent d s) := by
  unfold dockAbsent
  refine keep_raise h _ (keep_setLine h.toReads _ _ (keep_putDock h d _
    (room_zero (by simp [claimOf])) ?_))
  with_reducible
    repeat' first
      | assumption | apply keep_handFailed h | apply keep_handLapsed h | split

theorem keep_dockReturns (h : Closed P) (d : DockNo) {s : State} (hs : P s) :
    P (dockReturns d s) :=
  keep_raise h _ (keep_putDock h d _ (room_zero (by simp [claimOf, actuating])) hs)

/-! ### Survey -/

theorem keep_setSurvey (h : Closed P) (v : Option Survey) {s : State} (hs : P s) :
    P (setSurvey v s) := by
  unfold setSurvey
  with_reducible repeat' first | assumption | rfl | apply h.setDlc | rfl

theorem keep_surveySet (h : Closed P) (d : DockNo) (r : DockRecord) {s : State}
    (hs : P (putDock d r s)) : P (surveySet d r s) := keep_handDock h.toReads d hs

theorem keep_endSurvey (h : Closed P) {s : State} (hs : P s) : P (endSurvey s) := by
  unfold endSurvey
  with_reducible
    repeat' first
      | assumption | rfl | apply keep_handStation h.toReads | apply keep_judgeStart h | apply keep_setSurvey h
      | apply h.setSc

theorem keep_nextSurvey (h : Closed P) (d : DockNo) {s : State} (hs : P s) :
    P (nextSurvey d s) := by
  unfold nextSurvey
  with_reducible
    repeat' first
      | assumption | rfl | apply keep_setSurvey h | apply keep_endSurvey h | split

theorem keep_dockSurveyed (h : Closed P) (d : DockNo) {s : State} (hs : P s) :
    P (dockSurveyed d s) := by
  unfold dockSurveyed
  with_reducible
    repeat' first
      | assumption | rfl | apply keep_setLine h.toReads | apply keep_placeCommand h | apply keep_nextSurvey h
      | dsimp only | split

theorem keep_surveyBike (h : Closed P) (d : DockNo) (t : TagReading) {s : State} (hs : P s) :
    P (surveyBike d t s) := by
  unfold surveyBike
  with_reducible
    repeat' first
      | assumption | rfl | apply keep_raise h | apply keep_bikeEntered h | dsimp only | split

theorem keep_surveyPark (h : Closed P) (d : DockNo) (c : ReturnCause) {s : State} (hs : P s) :
    P (surveyPark d c s) :=
  keep_dockSurveyed h _ (keep_raise h _ (keep_surveySet h d _
    (keep_putDock h d _ (room_zero (by simp [claimOf, surveyRecord, actuating])) hs)))

theorem keep_surveySilent (h : Closed P) (d : DockNo) {s : State} (hs : P s) :
    P (surveySilent d s) := by
  have h1 : P (surveySet d (surveyRecord d .absent true none s) s) := keep_surveySet h d _
    (keep_putDock h d _ (room_zero (by simp [claimOf, surveyRecord])) hs)
  unfold surveySilent
  refine keep_dockSurveyed h _ ?_
  with_reducible
    repeat' first
      | assumption | apply keep_raise h | split

theorem keep_surveyProbe (h : Closed P) (d : DockNo) (clearing : Bool) {s : State} (hs : P s) :
    P (surveyProbe d clearing s) :=
  keep_placeCommand h _ _ (keep_putDock h d _ (room_zero (by simp [claimOf])) hs)

theorem keep_surveyDocked (h : Closed P) (d : DockNo) (suspended : Bool) (t : TagReading)
    (since : Nat) {s : State} (hs : P s) :
    P (surveyDocked d suspended t since s) :=
  keep_dockSurveyed h _ (keep_surveyBike h _ _ (keep_surveySet h d _
    (keep_putDock h d _ (room_zero (by simp [claimOf, surveyRecord])) hs)))

theorem keep_surveyVacant (h : Closed P) (d : DockNo) (suspended : Bool) {s : State}
    (hs : P (putDock d (surveyRecord d .vacant suspended none s) s)) :
    P (surveyVacant d suspended s) := keep_dockSurveyed h _ (keep_surveySet h d _ hs)

theorem keep_surveyArrival (h : Closed P) (d : DockNo) (t : TagReading) {s : State}
    (hs : P (putDock d (surveyRecord d .vacant false none s) s)) :
    P (surveyArrival d t s) := by
  have hd : dockOf d (surveySet d (surveyRecord d .vacant false none s) s)
      = surveyRecord d .vacant false none s := by
    exact dockOf_putDock_self d _ s
  exact keep_dockSurveyed h _ (keep_arrive h d t (by rw [hd]; rfl) (by rw [hd]; rfl)
    (keep_surveySet h d _ hs))

theorem keep_surveyJam (h : Closed P) (d : DockNo) (bike : Option TagReading) {s : State}
    (hs : ∀ r, claimOf r ≤ (if bike.isSome then 1 else 0) → P (putDock d r s)) :
    P (surveyJam d bike s) := by
  have h1 : ∀ b, P (surveySet d (surveyRecord d .jammed true (bike.map fun t => readingRecord t b) s) s) :=
    fun b => keep_surveySet h d _ (hs _ (by cases bike <;> simp [claimOf, surveyRecord]))
  unfold surveyJam
  refine keep_dockSurveyed h _ (keep_raiseJam h _ _ ?_)
  split
  · exact keep_surveyBike h _ _ (h1 _)
  · exact h1 (stationTime s)

theorem keep_coldBike (h : Closed P) (hc : ColdRoom P) (d : DockNo) (t : TagReading) {s : State}
    (hs : P s) : P (coldBike d t s) := by
  unfold coldBike
  split
  · exact keep_surveyArrival h d t (hc (by simp [claimOf, surveyRecord]) hs)
  · exact keep_surveyDocked h d _ _ _ hs

theorem keep_coldResult (h : Closed P) (hc : ColdRoom P) (d : DockNo) (f : Finding) {s : State}
    (hs : P s) : P (coldResult d f s) := by
  unfold coldResult
  split
  · exact keep_surveyProbe h d _ hs
  · split
    · exact keep_surveyVacant h d _ (hc (by simp [claimOf, surveyRecord]) hs)
    · exact keep_coldBike h hc d _ hs

theorem keep_surveyGate (h : Closed P) (d : DockNo) (n : Nat) (set : State → State)
    (hf : ∀ s, gateAdmits n s = true → P s → P (set s)) {s : State} (hs : P s) :
    P (surveyGate d n set s) := by
  have h1 := keep_readQueueHead h.toReads hs
  unfold surveyGate
  dsimp only
  generalize readQueueHead s = y at h1 ⊢
  split
  · rename_i hg
    exact hf _ hg h1
  · exact keep_surveyPark h d _ h1

theorem keep_surveyTaken (h : Closed P) (d : DockNo) (r : RetainedDock) (m : ReleaseMemory)
    {s : State} (hs : P s) :
    P (surveyTaken d r m s) := by
  unfold surveyTaken
  dsimp only
  cases memoryReport d ((r.bike.map Bike.id).getD 0) m with
  | none =>
    cases r.suspended with
    | true =>
      exact keep_surveyVacant h d _ (keep_putDock h d _ (room_zero (by simp [claimOf, surveyRecord])) hs)
    | false =>
      exact keep_surveyGate h d _ _ (fun s hg hs => keep_surveyVacant h d _
        (keep_putDock h d _ (room_gate hg (by simp [claimOf, surveyRecord])) hs)) hs
  | some x =>
    rw [if_neg (by simp)]
    refine (keep_surveyGate h d _ _ (fun s hg hs => ?_) hs)
    refine keep_surveyVacant h d _ (h.moveUnit (room_gate hg ?_) hs)
    cases r.suspended <;> simp [claimOf, surveyRecord]

theorem keep_surveyJammed (h : Closed P) (d : DockNo) (r : RetainedDock) (found : Option TagReading)
    {s : State} (hs : P s) :
    P (surveyJammed d r found s) := by
  unfold surveyJammed
  dsimp only
  split
  · refine keep_surveyGate h d _ _ (fun s hg hs => keep_dockSurveyed h _ (keep_bikeEntered h _ _ _
      (keep_surveySet h d _ (keep_putDock h d _ (room_gate hg ?_) hs)))) hs
    cases r.bike <;> simp [claimOf, surveyRecord]
  · exact keep_surveyGate h d _ _ (fun s hg hs => keep_dockSurveyed h _ (keep_raise h _
      (keep_surveySet h d _ (h.moveUnit (room_gate hg (by simp [claimOf, surveyRecord])) hs)))) hs

theorem keep_surveyOther (h : Closed P) (d : DockNo) (r : RetainedDock) (found : Option TagReading)
    {s : State} (hs : P s) :
    P (surveyOther d r found s) := by
  have h1 : P (surveySet d (surveyRecord d .parked true none s) s) := keep_surveySet h d _
    (keep_putDock h d _ (room_zero (by simp [claimOf, surveyRecord, actuating])) hs)
  unfold surveyOther
  refine keep_dockSurveyed h _ ?_
  with_reducible
    repeat' first
      | assumption | apply keep_raise h | dsimp only | split

theorem keep_surveySame (h : Closed P) (d : DockNo) (r : RetainedDock) (t : TagReading) {s : State}
    (hs : P s) :
    P (surveySame d r t s) :=
  keep_dockSurveyed h _ (keep_surveyBike h _ _ (keep_surveySet h d _
    (keep_putDock h d _ (room_zero (by simp [claimOf, surveyRecord])) hs)))

theorem keep_surveyLatched (h : Closed P) (d : DockNo) (t : TagReading) {s : State} (hs : P s) :
    P (surveyLatched d t s) := by
  unfold surveyLatched
  with_reducible repeat' first | assumption | rfl | apply keep_surveyDocked h

theorem keep_surveyJamEmpty (h : Closed P) (d : DockNo) {s : State} (hs : P s) :
    P (surveyJamEmpty d s) :=
  keep_dockSurveyed h _ (keep_surveySet h d _
    (keep_putDock h d _ (room_zero (by simp [claimOf, surveyRecord])) hs))

theorem keep_warmResult (h : Closed P) (d : DockNo) (r : RetainedDock) (f : Finding) {s : State}
    (hs : P s) :
    P (warmResult d r f s) := by
  unfold warmResult
  with_reducible
    repeat' first
      | assumption | apply keep_surveyProbe h | apply keep_surveyTaken h
      | apply keep_surveyJammed h | apply keep_surveyOther h | apply keep_surveySame h
      | apply keep_surveyLatched h | apply keep_surveyJamEmpty h | apply keep_surveyGate h
      | apply keep_surveyVacant h | apply keep_surveyArrival h | apply keep_putDock h | intro _ _ _
      | split
  · exact room_zero (by simp [claimOf, surveyRecord])
  · rename_i hg _
    exact room_gate hg (by simp [claimOf, surveyRecord])
  · rename_i hg _
    exact room_gate hg (by simp [claimOf, surveyRecord])

theorem keep_surveyResult (h : Closed P) (d : DockNo) (f : Finding) {s : State}
    (hc : s.sc.startKind = .cold → ColdRoom P) (hs : P s) :
    P (surveyResult d f s) := by
  unfold surveyResult
  split
  · rename_i hk
    exact keep_coldResult h (hc hk) d f hs
  · with_reducible
      repeat' first
        | assumption | apply keep_surveyPark h | apply keep_warmResult h | split

theorem keep_surveyProbeCloses (h : Closed P) (d : DockNo) (c : DockCondition) {s : State}
    (hc : s.sc.startKind = .cold → ColdRoom P) (hs : P s) :
    P (surveyProbeCloses d c s) := by
  have h1 := keep_closeRelockWrite h d c hs
  have hk : (closeRelockWrite d c s).sc = s.sc := by
    unfold closeRelockWrite
    split <;> rfl
  unfold surveyProbeCloses
  dsimp only
  split
  · split
    · rename_i hcold
      exact keep_surveyVacant h d _ (hc (hk ▸ hcold) (by simp [claimOf, surveyRecord]) h1)
    · with_reducible
        repeat' first
          | assumption | apply keep_surveyPark h | apply keep_surveyTaken h | split
  · split
    · rename_i hcold
      exact keep_coldBike h (hc (hk ▸ hcold)) d _ h1
    · with_reducible
        repeat' first
          | assumption | apply keep_surveyPark h | apply keep_surveyDocked h | split

theorem keep_surveyProbeFails (h : Closed P) (d : DockNo) {s : State}
    (hc : s.sc.startKind = .cold → ColdRoom P) (hs : P s) :
    P (surveyProbeFails d s) := by
  unfold surveyProbeFails
  split
  · exact keep_surveyJam h d _ (fun r hr => keep_putDock h d _ (room_zero (by simpa using hr)) hs)
  · split
    · rename_i hcold
      exact keep_surveyJam h d _ (fun r hr => hc hcold (by simpa using hr) hs)
    · exact keep_surveyGate h d _ _ (fun s hg hs => keep_surveyJam h d _ (fun r hr =>
        keep_putDock h d _ (room_gate hg (by simpa using hr)) hs)) hs

theorem keep_surveyEvent (h : Closed P) (d : DockNo) (e : DockEvent) (c : DockCondition) {s : State}
    (hc : s.sc.startKind = .cold → ColdRoom P) (hs : P s) :
    P (surveyEvent d e c s) := by
  unfold surveyEvent
  with_reducible
    repeat' first
      | assumption | apply keep_surveyProbeCloses h | apply keep_surveyProbeFails h | split

/-! ### Line -/

theorem keep_sendCommand (h : Closed P) (d : DockNo) (c : Command) (waiting : List Command)
    (survey : Bool) {s : State} (hs : P s) :
    P (sendCommand d c waiting survey s) := by
  have key : ∀ (x : State) (r : DockRecord) (b : Bool) (now : Nat), dockOf d x = r → P x →
      P (putDock d { r with deadline := if b then sentDeadline now r.deadline else r.deadline } x) := by
    intro x r b now hx hp
    refine keep_putDock h d _ (room_le ?_) hp
    rw [hx]
    refine claimOf_actuating rfl rfl rfl ?_
    cases b
    · rfl
    · rcases hd : r.deadline with _ | ⟨_ | ⟨_, _⟩⟩ <;> simp [actuating, sentDeadline, hd]
  unfold sendCommand
  exact h.setDlc rfl (key _ _ _ _ rfl (keep_setLine h.toReads _ _ hs))

theorem keep_giveTurn (h : Closed P) (d : DockNo) {s : State} (hs : P s) : P (giveTurn d s) := by
  unfold giveTurn
  with_reducible repeat' first | assumption | rfl | apply keep_sendCommand h | split

theorem keep_grantLine (h : Closed P) {s : State} (hs : P s) : P (grantLine s) := by
  unfold grantLine
  with_reducible repeat' first | assumption | rfl | apply keep_giveTurn h | split

theorem keep_endExchange (h : Closed P) (d : DockNo) {s : State} (hs : P s) :
    P (endExchange d s) := by
  unfold endExchange
  with_reducible repeat' first | assumption | rfl | apply keep_setLine h.toReads | apply h.setDlc | rfl

theorem keep_receiveAnswer (h : Closed P) (d : DockNo) (a : DockAnswer) {s : State} (hs : P s) :
    P (receiveAnswer d a s) := by
  unfold receiveAnswer
  with_reducible repeat' first | assumption | rfl | apply keep_setLine h.toReads | apply keep_endExchange h

theorem keep_noteEvent (h : Closed P) (d : DockNo) (n : Nat) {s : State} (hs : P s) :
    P (noteEvent d n s) := by
  unfold noteEvent
  with_reducible repeat' first | assumption | rfl | apply keep_setLine h.toReads

theorem keep_noteAnswer (h : Closed P) (d : DockNo) (a : DockAnswer) {s : State} (hs : P s) :
    P (noteAnswer d a s) := by
  unfold noteAnswer
  with_reducible repeat' first | assumption | rfl | apply keep_noteEvent h | split

theorem keep_takeAnswer (h : Closed P) (d : DockNo) (a : DockAnswer) {s : State}
    (hc : s.sc.startKind = .cold → (lineOf d s).surveyed = false → ColdRoom P) (hs : P s) :
    P (takeAnswer d a s) := by
  unfold takeAnswer
  split
  · exact hs
  · split
    · exact hs
    · split
      · exact keep_takeEvent h d _ _ (keep_noteEvent h d _ hs)
      · rename_i hu
        exact keep_surveyEvent h d _ _ (fun hk => hc hk (by simpa using hu)) (keep_noteEvent h d _ hs)

theorem keep_dockAnswers (h : Closed P) (d : DockNo) (a : DockAnswer) {s : State}
    (hc : s.sc.startKind = .cold → (lineOf d s).surveyed = false → ColdRoom P) (hs : P s) :
    P (dockAnswers d a s) := by
  have h1 := keep_receiveAnswer h d a hs
  have hl : (lineOf d (receiveAnswer d a s)).surveyed = (lineOf d s).surveyed := by
    simp [receiveAnswer, endExchange]
    rfl
  unfold dockAnswers
  dsimp only
  split
  · exact keep_dockReturns h d (keep_noteAnswer h d a h1)
  · exact keep_takeAnswer h d a (fun hk hu => hc hk (hl ▸ hu)) h1

theorem keep_answerEvent (h : Closed P) (d : DockNo) (a : DockAnswer) {s : State}
    (hc : ColdSurvey s → ColdRoom P) (hs : P s) :
    P (answerEvent d a s) := by
  unfold answerEvent
  split
  · exact keep_grantLine h (keep_dockAnswers h d a (fun hk hu => hc ⟨hk, .inr ⟨d, hu⟩⟩) hs)
  · exact hs

theorem keep_surveyAnswered (h : Closed P) (d : DockNo) (a : DockAnswer) (x : SurveyExtra)
    {s : State} (hc : s.sc.startKind = .cold → ColdRoom P) (hs : P s) :
    P (surveyAnswered d a x s) := by
  have h1 := keep_noteAnswer h d a (keep_receiveAnswer h d a hs)
  have hk : (noteAnswer d a (receiveAnswer d a s)).sc = s.sc := by
    unfold noteAnswer
    split <;> rfl
  unfold surveyAnswered
  dsimp only
  split
  · exact h1
  · split
    · exact keep_surveyResult h d _ (fun hcold => hc (hk ▸ hcold)) (keep_setSurvey h _ h1)
    · exact keep_setSurvey h _ h1

theorem keep_surveyPollEvent (h : Closed P) (d : DockNo) (a : DockAnswer) (x : SurveyExtra)
    {s : State} (hc : ColdSurvey s → ColdRoom P) (hs : P s) :
    P (surveyPollEvent d a x s) := by
  unfold surveyPollEvent
  split
  · rename_i hd
    refine keep_grantLine h (keep_surveyAnswered h d a x (fun hk => hc ⟨hk, .inl ?_⟩) hs)
    intro hn
    simp [surveyDock, hn] at hd
  · exact hs

theorem keep_countMiss (h : Closed P) (d : DockNo) {s : State} (hs : P s) : P (countMiss d s) :=
  keep_setLine h.toReads _ _ hs

theorem keep_surveyMissed (h : Closed P) (d : DockNo) {s : State} (hs : P s) :
    P (surveyMissed d s) := by
  unfold surveyMissed
  with_reducible
    repeat' first
      | assumption | apply keep_setSurvey h | apply keep_surveySilent h | split

theorem keep_dockMissed (h : Closed P) (d : DockNo) (c : Command) {s : State} (hs : P s) :
    P (dockMissed d c s) := by
  unfold dockMissed
  with_reducible
    repeat' first
      | assumption | rfl | apply keep_setLine h.toReads | apply keep_dockAbsent h | dsimp only | split

theorem keep_exchangeMissed (h : Closed P) (x : Exchange) {s : State} (hs : P s) :
    P (exchangeMissed x s) := by
  unfold exchangeMissed
  with_reducible
    repeat' first
      | assumption | apply keep_surveyMissed h | apply keep_countMiss h | apply keep_dockMissed h
      | apply keep_endExchange h | apply keep_reachTime h | dsimp only | split

theorem keep_missedEvent (h : Closed P) (d : DockNo) {s : State} (hs : P s) :
    P (missedEvent d s) := by
  unfold missedEvent
  with_reducible
    repeat' first
      | assumption | rfl | apply keep_grantLine h | apply keep_exchangeMissed h | split

theorem keep_serviceEvent (h : Closed P) (d : DockNo) {s : State} (hs : P s) :
    P (serviceEvent d s) := by
  unfold serviceEvent
  with_reducible
    repeat' first
      | assumption | rfl | apply keep_setLine h.toReads | apply keep_grantLine h | dsimp only | split

theorem keep_sweepEvent (h : Closed P) (d : DockNo) {s : State} (hs : P s) :
    P (sweepEvent d s) := by
  unfold sweepEvent
  with_reducible
    repeat' first
      | assumption | rfl | apply keep_reachTime h | apply keep_setLine h.toReads | apply keep_grantLine h
      | dsimp only | split

theorem keep_actuationFails (h : Closed P) (d : DockNo) {s : State}
    (hc : ColdSurvey s → ColdRoom P) (hs : P s) :
    P (actuationFails d s) := by
  unfold actuationFails
  dsimp only
  split
  · rename_i hd
    exact keep_jamDock h d hd hs
  · split
    · rename_i hd
      refine keep_surveyProbeFails h d (fun hk => hc ⟨hk, .inl ?_⟩) hs
      intro hn
      simp [surveyDock, hn] at hd
    · split
      · rename_i hp
        exact keep_probeFails h d hp hs
      · exact hs

theorem keep_actuationEvent (h : Closed P) (d : DockNo) {s : State}
    (hc : ColdSurvey s → ColdRoom P) (hs : P s) :
    P (actuationEvent d s) := by
  unfold actuationEvent
  split
  · rename_i hd
    have h1 := keep_reachTime h (s := s)
    split
    · exact keep_actuationFails h d hc (h1 _ hs)
    · refine keep_retryActuation h d ?_ (h1 _ hs)
      show actuating (dockOf d s) = true
      simp [actuating, hd]
  · exact hs

/-! ### Station -/

theorem keep_tickClock (h : Closed P) {s : State} (hs : P s) : P (tickClock s) := by
  unfold tickClock
  with_reducible repeat' first | assumption | rfl | apply h.setSc | dsimp only | split

theorem keep_takeTimeSet (h : Closed P) (tag t : Nat) {s : State} (hs : P s) :
    P (takeTimeSet tag t s) := by
  unfold takeTimeSet
  with_reducible
    repeat' first
      | assumption | rfl | apply keep_handStation h.toReads | apply keep_reply h | apply h.setSc

theorem keep_takeStationIdSet (h : Closed P) (tag id : Nat) {s : State} (hs : P s) :
    P (takeStationIdSet tag id s) := by
  unfold takeStationIdSet
  with_reducible
    repeat' first
      | assumption | rfl | apply keep_handStation h.toReads | apply keep_reply h | apply h.setSc

theorem keep_readForMode (h : Closed P) (p : Port) {s : State} (hs : P s) :
    P (readForMode p s) := by
  unfold readForMode
  with_reducible
    repeat' first
      | assumption | rfl | apply keep_readCrews h.toReads | apply keep_readConfig h.toReads | split

theorem keep_setTarget (h : Closed P) (m : Mode) {s : State} (hs : P s) : P (setTarget m s) := by
  unfold setTarget
  with_reducible repeat' first | assumption | rfl | apply keep_handStation h.toReads | apply h.setSc

theorem keep_changeMode (h : Closed P) (m : Mode) {s : State} (hs : P s) : P (changeMode m s) := by
  unfold changeMode
  with_reducible
    repeat' first
      | assumption | rfl | apply keep_endWaitingHires h | apply keep_setTarget h | apply h.setSc
      | dsimp only | split

theorem keep_takeStationMode (h : Closed P) (p : Port) (tag : Nat) (m : Mode) (crew : Nat)
    {s : State} (hs : P s) :
    P (takeStationMode p tag m crew s) := by
  unfold takeStationMode
  with_reducible
    repeat' first
      | assumption | rfl | apply keep_reply h | apply keep_readForMode h | apply keep_setTarget h
      | apply keep_changeMode h | dsimp only | split

theorem keep_takeConfigSet (h : Closed P) (tag : Nat) (i : ConfigItem) (v : ConfigValue) {s : State}
    (hs : P s) :
    P (takeConfigSet tag i v s) := by
  unfold takeConfigSet
  with_reducible
    repeat' first
      | assumption | rfl | apply keep_handConfig h.toReads | apply keep_readConfig h.toReads | apply keep_reply h
      | apply h.setSc

theorem keep_takeConfigRead (h : Closed P) (p : Port) (tag : Nat) {s : State} (hs : P s) :
    P (takeConfigRead p tag s) := by
  unfold takeConfigRead
  with_reducible repeat' first | assumption | rfl | apply keep_readPlaces h.toReads | apply keep_reply h

theorem keep_takeStationStatus (h : Closed P) (p : Port) (tag : Nat) {s : State} (hs : P s) :
    P (takeStationStatus p tag s) := by
  unfold takeStationStatus
  with_reducible repeat' first | assumption | rfl | apply keep_reply h

theorem keep_stopPart (h : Closed P) (c : StartCause) {s : State} (hs : P s) :
    P (stopPart c s) := by
  unfold stopPart
  with_reducible repeat' first | assumption | rfl | apply h.setDlc | apply h.setSc | rfl

theorem keep_resetAsserted (h : Closed P) {s : State} (hs : P s) : P (resetAsserted s) := by
  unfold resetAsserted
  with_reducible
    repeat' first
      | assumption | rfl | apply keep_stopPart h | apply h.setSc | dsimp only | split

theorem keep_powerReturns (h : Closed P) {s : State} (hs : P s) : P (powerReturns s) := by
  unfold powerReturns
  with_reducible repeat' first | assumption | rfl | apply keep_stopPart h | split

theorem keep_dropWrites (h : Closed P) {s : State} (hs : P s) : P (dropWrites s) := by
  unfold dropWrites
  with_reducible
    repeat' first
      | assumption | rfl | apply keep_writeWords h.toReads | apply h.setRs | rfl | dsimp only | split

theorem keep_powerLost (h : Closed P) {s : State} (hs : P s) : P (powerLost s) := by
  unfold powerLost
  with_reducible
    repeat' first
      | assumption | rfl | apply keep_abandonWriteBacks h.toReads | apply keep_dropWrites h
      | apply h.setDlc | apply h.setSc

theorem keep_takeStoreStatus (h : Closed P) (tag : Nat) {s : State} (hs : P s) :
    P (takeStoreStatus tag s) := by
  unfold takeStoreStatus
  with_reducible repeat' first | assumption | rfl | apply keep_reply h

theorem keep_clearStore (h : Closed P) (clearMap : Bool) {s : State} (hs : P s) :
    P (clearStore clearMap s) := by
  unfold clearStore
  with_reducible repeat' first | assumption | rfl | apply h.setRs | rfl

theorem keep_takeStoreClear (h : Closed P) (tag : Nat) (clearMap : Bool) {s : State} (hs : P s) :
    P (takeStoreClear tag clearMap s) := by
  unfold takeStoreClear
  with_reducible repeat' first | assumption | rfl | apply keep_reply h | apply keep_clearStore h

theorem keep_scrubNext (h : Closed P) (upsets : List Upset) {s : State} (hs : P s) :
    P (scrubNext upsets s) := by
  unfold scrubNext
  with_reducible
    repeat' first
      | assumption | rfl | apply keep_readRow h.toReads | apply keep_flipWords h.toReads | apply h.setRs | rfl

theorem keep_writeOldest (h : Closed P) {s : State} (hs : P s) : P (writeOldest s) := by
  unfold writeOldest
  with_reducible
    repeat' first
      | assumption | rfl | apply keep_writeRecord h.toReads | apply h.setRs | rfl | dsimp only | split

theorem keep_recordWritten (h : Closed P) {s : State} (hs : P s) : P (recordWritten s) := by
  unfold recordWritten
  with_reducible repeat' first | assumption | rfl | apply keep_writeOldest h | split

theorem keep_powerFails (h : Closed P) (written : Nat) {s : State} (hs : P s) :
    P (powerFails written s) := by
  unfold powerFails
  with_reducible
    repeat' first
      | assumption | rfl | apply keep_abandonWriteBacks h.toReads | apply keep_failWrites h.toReads
      | apply h.setDlc | apply h.setSc | dsimp only | split

/-! ### Starts -/

theorem keep_checkHeld (h : Reads P) {s : State} (hs : P s) : P (checkHeld s) :=
  keep_foldl (fun _ _ hs => keep_readWord h (keep_raiseNoDock h) _ _ hs) hs

theorem keep_startCheck (h : Reads P) {s : State} (hs : P s) : P (startCheck s) := by
  unfold startCheck
  split
  · exact keep_checkHeld h hs
  · exact keep_foldl (fun _ _ hs => keep_readRow h _ hs) hs

theorem keep_writeSignature (h : Closed P) {s : State} (hs : P s) : P (writeSignature s) := by
  unfold writeSignature
  with_reducible repeat' first | assumption | rfl | apply keep_writeRecord h.toReads | split

theorem keep_surveyBegins (h : Closed P) {s : State} (hs : P s) : P (surveyBegins s) := by
  unfold surveyBegins
  with_reducible
    repeat' first
      | assumption | rfl | apply keep_setSurvey h | apply keep_grantLine h | apply keep_writeSignature h
      | apply h.setSc | dsimp only | split

/-! ### Ports -/

theorem keep_completeAnswer (h : Closed P) (p : Port) {s : State} (hs : P s) :
    P (completeAnswer p s) := by
  unfold completeAnswer
  with_reducible repeat' first | assumption | rfl | apply keep_setPort h.toReads

theorem keep_freeReply (h : Closed P) (p : Port) (r : Reply) {s : State} (hs : P s) :
    P (freeReply p r s) := by
  unfold freeReply
  with_reducible
    repeat' first
      | assumption | rfl | apply keep_setPort h.toReads | apply keep_dropHire h | dsimp only | split

theorem keep_readComplete (h : Closed P) (p : Port) {s : State} (hs : P s) :
    P (readComplete p s) := by
  unfold readComplete
  with_reducible
    repeat' first
      | assumption | rfl | apply keep_completeAnswer h | apply keep_freeReply h | split

theorem keep_noticeReads (h : Closed P) (p : Port) (tag : Nat) {s : State} (hs : P s) :
    P (noticeReads p tag s) := by
  unfold noticeReads
  with_reducible
    repeat' first
      | assumption | rfl | apply keep_setPort h.toReads | apply keep_plainRequest h | intro _ | dsimp only | split

theorem keep_noticeComplete (h : Closed P) (p : Port) {s : State} (hs : P s) :
    P (noticeComplete p s) := by
  unfold noticeComplete
  with_reducible
    repeat' first
      | assumption | rfl | apply keep_setPort h.toReads | apply keep_completeAnswer h | dsimp only | split

theorem keep_ownersClear (h : Closed P) (p : Port) {s : State} (hs : P s) :
    P (ownersClear p s) := by
  unfold ownersClear
  with_reducible
    repeat' first
      | assumption | rfl | apply keep_readQueueHead h.toReads | apply keep_restartRead h
      | apply keep_rewaitFills h | apply keep_clearHires h | split

theorem keep_clearPort (h : Closed P) (p : Port) {s : State} (hs : P s) : P (clearPort p s) := by
  unfold clearPort
  with_reducible repeat' first | assumption | rfl | apply keep_setPort h.toReads | apply keep_ownersClear h

end Sys2Proof.Machine
end

