-- ==== Sys2Proof/Laws/Invariants.lean ====
section
/-! SUPPORT. The closed properties: claims (R111), cache ways (R43), the array's canonical form; that a
start and a battery loss keep them too; and that a command keeps a closed property that those keep. -/

namespace Sys2Proof.Machine

/-! ### Closed properties -/

/-- Counted claims follow the dock records (R111). -/
theorem claims_closed : Closed ClaimsRight where
  setPending h := h
  setPi h := h
  setCc _ h := h
  setWays _ h := h
  dropWays h := h
  setHu h := h
  setFu h := h
  setWoe h := h
  setFlt h := h
  setSc _ h := h
  setDlc hx h := by
    rw [claimsRight_iff] at h ⊢
    refine ⟨fun d => ?_, h.2⟩
    have := h.1 d
    simp only [dockOf, State.setDlc] at this ⊢
    rw [hx]; exact this
  setRq hc ht _ h := by
    rw [claimsRight_iff] at h ⊢
    refine ⟨fun d => ?_, ?_⟩
    · have := h.1 d
      simp only [dockOf, State.setRq] at this ⊢
      rw [hc]; exact this
    · simp only [State.setRq]; rw [hc, ht]; exact h.2
  setRs _ _ h := h
  setErrors _ _ h := h
  putWords _ _ _ _ h := h
  putRecord _ h := by
    rw [claimsRight_iff]
    refine ⟨fun e => ?_, rfl⟩
    simp only [countClaim, dockOf, State.setRq, State.setDlc, vget_vset]
    split
    · rfl
    · exact h.claim e
  moveUnit _ h := claims_putDock (claims_appendReport h)

/-- With right claims, held records and claim total come to at most 96 (R112), or a condition given
holds. -/
theorem fit_closed (C : Prop) : Closed fun s => ClaimsRight s ∧ (ClaimsFit s ∨ C) where
  setPending h := h
  setPi h := h
  setCc _ h := h
  setWays _ h := h
  dropWays h := h
  setHu h := h
  setFu h := h
  setWoe h := h
  setFlt h := h
  setSc hx h := ⟨claims_closed.setSc hx h.1, h.2⟩
  setDlc hx h := ⟨claims_closed.setDlc hx h.1, h.2⟩
  setRq hc ht hl h := by
    refine ⟨claims_closed.setRq hc ht hl h.1, h.2.imp_left fun hf => ?_⟩
    simp only [ClaimsFit, State.setRq, ht] at hf ⊢
    omega
  setRs _ _ h := h
  setErrors _ _ h := h
  putWords _ _ _ _ h := h
  putRecord {d r s} hr h := by
    refine ⟨claims_closed.putRecord hr h.1, h.2.imp_left fun hf => ?_⟩
    have := claims_sum h.1 d (claimOf r)
    simp only [ClaimsFit, Room, countClaim, State.setRq, State.setDlc] at hf hr ⊢
    omega
  moveUnit {d r x s} hr h := by
    have hc := claims_appendReport (r := x) h.1
    refine ⟨claims_putDock hc, h.2.imp_left fun hf => ?_⟩
    have ht := putDock_total (d := d) (r := r) hc
    simp only [ClaimsFit, Room, putDock_held, appendReport_rq, dockOf, appendReport_dlc,
      List.length_append, List.length_cons, List.length_nil] at ht hf hr ⊢
    omega

/-- Where the condition holds, the results of a cold survey keep it (R115). -/
theorem fit_cold {C : Prop} (hC : C) : ColdRoom fun s => ClaimsRight s ∧ (ClaimsFit s ∨ C) :=
  fun _ h => ⟨claims_putDock h.1, .inr hC⟩

/-- No set of the cache outgrows its ways (R43). -/
theorem ways_closed : Closed WaysRight where
  setPending h := h
  setPi h := h
  setCc hx h := by intro i; simp only [State.setCc]; rw [hx]; exact h i
  setWays {k l s} hl h := by
    intro i
    simp only [State.setCc, vget_vset]
    split
    · exact Nat.le_trans hl (Nat.max_le.2 ⟨Nat.le_refl 4, h _⟩)
    · exact h i
  dropWays {f s} h := by
    intro i
    have := h i
    simp only [vget, State.setCc, Vector.getElem_map] at this ⊢
    exact Nat.le_trans (List.length_filter_le _ _) this
  setHu h := h
  setFu h := h
  setWoe h := h
  setFlt h := h
  setSc _ h := h
  setDlc _ h := h
  setRq _ _ _ h := h
  setRs _ _ h := h
  setErrors _ _ h := h
  putWords _ _ _ _ h := h
  putRecord _ h := h
  moveUnit _ h := by
    simp only [WaysRight, putDock_cc, appendReport_cc]
    exact h

theorem ways_cold : ColdRoom WaysRight := fun _ h => by
  simp only [WaysRight, putDock_cc]
  exact h

/-- The array keeps its canonical form (R172). -/
theorem array_closed : Closed ArrayRight where
  setPending h := h
  setPi h := h
  setCc _ h := h
  setWays _ h := h
  dropWays h := h
  setHu h := h
  setFu h := h
  setWoe h := h
  setFlt h := h
  setSc _ h := h
  setDlc _ h := h
  setRq _ _ _ h := h
  setRs hx he h := by simp only [ArrayRight, State.setRs] at h ⊢; rw [hx, he]; exact h
  setErrors hx he h := by
    simp only [ArrayRight, State.setRs] at h ⊢; rw [hx]; exact ⟨h.1, he h.2⟩
  putWords p c hx he h := by
    simp only [ArrayRight, State.setRs] at h ⊢; rw [hx]; exact ⟨putCell_wf p c h.1, he h.2⟩
  putRecord _ h := h
  moveUnit _ h := by
    simp only [ArrayRight, putDock_rs, dockHanded_array, dockHanded_errors, appendReport_array]
    exact h

theorem array_cold : ColdRoom ArrayRight := fun _ h => by
  simp only [ArrayRight, putDock_rs, dockHanded_array, dockHanded_errors]
  exact h

/-! ### Starts and the battery -/

/-- The start values give every dock the claim of its record (R111, R191). -/
theorem claims_start (s : State) : ClaimsRight (startValues s) := by
  refine ⟨fun d => ?_, by simp [startValues, State.setPi, State.setDlc, State.setCc, State.setHu,
    State.setRq, State.setWoe, State.setFlt, State.setRs, State.setSc]⟩
  simp [startValues, State.setPi, State.setDlc, State.setCc, State.setHu, State.setRq, State.setWoe,
    State.setFlt, State.setRs, State.setSc, dockOf, vget, DockRecord.start, claimOf]

theorem claims_beginStart (c : StartCause) (s : State) : ClaimsRight (beginStart c s) := by
  unfold beginStart
  dsimp only
  split <;> exact claims_start _

/-- The cache is empty after every start (R64). -/
theorem ways_start (s : State) : WaysRight (startValues s) := by
  intro i
  simp [startValues, State.setPi, State.setDlc, State.setCc, State.setHu, State.setRq, State.setWoe,
    State.setFlt, State.setRs, State.setSc, CardCache.start, vget]

theorem ways_beginStart (c : StartCause) (s : State) : WaysRight (beginStart c s) := by
  unfold beginStart
  dsimp only
  split <;> exact ways_start _

theorem loadQueue_rs (s : State) : (loadQueue s).rs = s.rs := by
  unfold loadQueue
  dsimp only
  split
  · rfl
  · unfold rebuildQueue
    dsimp only
    split <;> rfl

/-- A read of the store leaves at most 96 held records (R122). -/
theorem held_reads : Reads fun s => s.rq.held.length ≤ 96 where
  setPi h := h
  setFu h := h
  setWoe h := h
  setFlt h := h
  setSc _ h := h
  setDlc _ h := h
  setRq _ _ hl h := by simp only [State.setRq]; omega
  setRs _ _ h := h
  setErrors _ _ h := h
  putWords _ _ _ _ h := h

theorem loadQueue_held (s : State) : (loadQueue s).rq.held.length ≤ 96 := by
  unfold loadQueue
  have h1 : (s.setRq .cold).rq.held.length ≤ 96 := by simp [State.setRq, ReportQueue.cold]
  dsimp only
  split
  · exact keep_takeQueueHead held_reads _ h1
  · exact keep_rebuildQueue held_reads h1

theorem loadLog_rq (s : State) : (loadLog s).rq = s.rq := by
  unfold loadLog
  split
  · rfl
  · unfold rebuildLog
    dsimp only
    split <;> rfl

theorem loadRegistry_rq (s : State) : (loadRegistry s).rq = s.rq := by
  unfold loadRegistry
  split <;> rfl

/-- The queue a warm start loads has at most its 96 places (R123). -/
theorem loadOwners_held (s : State) : (loadOwners s).rq.held.length ≤ 96 := by
  unfold loadOwners loadDocks loadOrders loadPlans loadPolicies
  simp only [State.setDlc_rq, State.setWoe_rq, State.setFu_rq, State.setFlt_rq, loadRegistry_rq,
    loadLog_rq]
  exact loadQueue_held _

/-- The report queue after the start values: its records, with every claim 0 (R191). -/
theorem startValues_rq (s : State) :
    (startValues s).rq = { s.rq with claims := Vector.replicate 48 0, claimTotal := 0 } := rfl

/-- After a start, records and claims fit (R112). -/
theorem fit_beginStart (c : StartCause) (s : State) : ClaimsFit (beginStart c s) := by
  have key : ∀ x : State, x.rq.held.length ≤ 96 → ClaimsFit (startValues x) := by
    intro x hx
    unfold ClaimsFit
    rw [startValues_rq]
    exact hx
  unfold beginStart
  dsimp only
  split
  · exact key _ (by simp [coldOwners, State.setDlc, State.setFlt, State.setWoe, State.setRq,
      ReportQueue.cold])
  · exact key _ (keep_startCheck held_reads (loadOwners_held _))

theorem loadLog_rs (s : State) : (loadLog s).rs = s.rs := by
  unfold loadLog
  split
  · rfl
  · unfold rebuildLog
    dsimp only
    split <;> rfl

theorem loadRegistry_rs (s : State) : (loadRegistry s).rs = s.rs := by
  unfold loadRegistry
  split <;> rfl

/-- What the owners load leaves the store as it was. -/
theorem loadOwners_rs (s : State) : (loadOwners s).rs = s.rs := by
  unfold loadOwners loadDocks loadOrders loadPlans loadPolicies
  simp only [State.setDlc_rs, State.setWoe_rs, State.setFu_rs, State.setFlt_rs, loadRegistry_rs,
    loadLog_rs, loadQueue_rs]
  rfl

theorem startValues_array (s : State) : (startValues s).rs.array = s.rs.array := rfl

theorem startValues_errors (s : State) : (startValues s).rs.errors = s.rs.errors := rfl

theorem coldOwners_rs (s : State) : (coldOwners s).rs = s.rs := rfl

theorem array_startValues {s : State} (h : ArrayRight s) : ArrayRight (startValues s) := by
  unfold ArrayRight
  rw [startValues_array, startValues_errors]
  exact h

theorem array_beginStart (c : StartCause) {s : State} (h : ArrayRight s) :
    ArrayRight (beginStart c s) := by
  unfold beginStart
  dsimp only
  split
  · apply array_startValues
    unfold ArrayRight
    rw [coldOwners_rs]
    exact ⟨clearArray_wf (s := s.setSc _) h.1, assocSorted_filter keptAtCold _ h.2⟩
  · apply array_startValues
    apply keep_startCheck array_closed.toReads
    unfold ArrayRight
    rw [loadOwners_rs]
    exact h

theorem array_batteryLost {s : State} (h : ArrayRight s) : ArrayRight (batteryLost s) := by
  unfold batteryLost
  split
  · exact ⟨blank_wf, rfl⟩
  · exact h

theorem claims_batteryLost {s : State} (h : ClaimsRight s) : ClaimsRight (batteryLost s) := by
  unfold batteryLost
  split <;> exact h

theorem ways_batteryLost {s : State} (h : WaysRight s) : WaysRight (batteryLost s) := by
  unfold batteryLost
  split <;> exact h

/-! ### Commands -/

/-- A command's step keeps a closed property that its effect keeps. -/
theorem keep_stepOf {P : State → Prop} (h : Closed P) {f : State → State} {s t : State}
    (hf : P s → P (f s)) (ht : stepOf f s = .next t) (hs : P s) : P t := by
  cases ht
  exact keep_endStep h (hf hs)

theorem keep_startBegins {P : State → Prop} (h : Closed P)
    (hstart : ∀ c s, P s → P (beginStart c s)) (u : List Upset) {s : State} (hs : P s) :
    P (startBegins u s) := by
  unfold startBegins
  split
  · split
    · exact hstart _ _ (keep_flipWords h.toReads u hs)
    · exact hs
  · exact hs

/-- A command keeps a closed property that starts and a battery loss keep, and, in a cold survey, the
results set without the gate. -/
theorem keep_exec {P : State → Prop} (h : Closed P) (hstart : ∀ c s, P s → P (beginStart c s))
    (hbat : ∀ s, P s → P (batteryLost s)) {c : Instr} {s t : State} (hc : ColdSurvey s → ColdRoom P)
    (ht : exec c s = .next t) (hs : P s) : P t := by
  cases c <;> refine keep_stepOf h ?_ ht hs <;> clear ht hs <;> intro hs <;> with_reducible
    repeat' first
      | assumption | apply keep_whileRunning | apply keep_executeRunning h | apply keep_slotRequest h | apply keep_takeBikeFlag h
      | apply keep_takeBikeClear h | apply keep_takeBikeFlagRead h | apply keep_takePolicySet h
      | apply keep_takeFaultRead h | apply keep_takeFaultDiscard h | apply keep_takeDockFaultRead h
      | apply keep_takeWatchSet h | apply keep_takeWatchDrop h | apply keep_takeWatchClearHits h
      | apply keep_takeWatchRead h | apply keep_takeTariffLoad h | apply keep_takeTariffDrop h
      | apply keep_takeQuote h | apply keep_takeReportRead h | apply keep_takeReportReadRestart h
      | apply keep_takeReportRelease h | apply keep_takeFillFetch h | apply keep_takeCardPush h
      | apply keep_takeCardInvalidate h | apply keep_takeCacheFlush h | apply keep_takeCacheMode h
      | apply keep_reply h | apply keep_linkUp h | apply keep_linkDown h
      | apply keep_takeHire h | apply keep_takeCancel h | apply keep_takeStationView h
      | apply keep_takeFillAnswer h | apply keep_takeFillNotFound h
      | apply keep_fillExpires h | apply keep_takeCrewLoad h | apply keep_takeCrewDrop h
      | apply keep_takeFloorSet h | apply keep_takeOrderSubmit h | apply keep_takeOrderStatus h
      | apply keep_takeOrderAbort h | apply keep_placeExpires h | apply keep_endSlot h
      | apply keep_readForOrder h | apply keep_abortActive h | apply keep_completeOrder h
      | apply keep_runOrder h | apply keep_answerEvent h | apply keep_surveyPollEvent h
      | apply keep_missedEvent h | apply keep_serviceEvent h | apply keep_sweepEvent h
      | apply keep_actuationEvent h | apply keep_takeExpires h | apply keep_tickClock h
      | apply keep_takeTimeSet h | apply keep_takeStationIdSet h | apply keep_takeStationMode h
      | apply keep_takeConfigSet h | apply keep_takeConfigRead h | apply keep_takeStationStatus h
      | apply keep_stopPart h | apply keep_resetAsserted h | apply keep_powerReturns h
      | apply keep_powerLost h | apply keep_takeStoreStatus h | apply keep_takeStoreClear h
      | apply keep_scrubNext h | apply keep_recordWritten h | apply keep_powerFails h
      | apply keep_surveyBegins h | apply keep_refuseFrame h | apply keep_plainRequest h
      | apply keep_readComplete h | apply keep_noticeReads h | apply keep_noticeComplete h
      | apply keep_clearPort h | apply keep_startBegins h hstart | apply hbat | intro _

end Sys2Proof.Machine
end

