-- ==== Sys2Proof/Laws/Orders.lean ====
section
/-! SUPPORT. What the orders' operations do: the completion of an order, COLLECT's choice of docks, RESUME,
CLEAR_FAULT, and what each leaves of the Work Order Engine. -/

namespace Sys2Proof.Machine

/-- The docks of a range, in ascending order. -/
theorem dockRange_eq (first last : Nat) :
    dockRange first last = allDocks.filter fun d => decide (first ≤ d.val ∧ d.val ≤ last) := by
  rfl

/-- Some slot is active (R131). -/
theorem anyActive_eq (x : State) :
    anyActive x = (x.woe.slots.toList.any fun o => o.any fun w =>
      decide (w.state = .running ∨ w.state = .waiting)) := by
  simp only [anyActive, Bool.decide_or]
  rfl

/-- The start list judged (R131). -/
theorem judgeStart_judged (x : State) : judgeStart x = startListJudged x := by
  unfold judgeStart startListJudged
  cases x.woe.startList with
  | nil => rfl
  | cons i rest =>
    dsimp only
    rw [anyActive_eq]
    by_cases h : x.sc.mode = .starting ∨ (x.woe.slots.toList.any fun o => o.any fun w =>
        decide (w.state = .running ∨ w.state = .waiting)) = true
    · rw [if_pos h, if_pos h.symm]
    · rw [if_neg h, if_neg fun h' => h h'.symm]
      simp only [slotOf, State.setWoe]
      cases vget x.woe.slots i <;> rfl

/-- Judging the start list changes the Work Order Engine alone. -/
theorem startListJudged_frame (x : State) :
    startListJudged x = x.setWoe (startListJudged x).woe := by
  unfold startListJudged
  split
  · rfl
  · split <;> rfl

/-- Judging the start list does not look at the ports. -/
theorem startListJudged_ports (p : PortInterface) (x : State) :
    startListJudged { x with pi := p } = { startListJudged x with pi := p } := by
  unfold startListJudged stationTime
  dsimp only
  generalize x.woe.startList = l
  cases l with
  | nil => rfl
  | cons i rest =>
    dsimp only
    split
    · rfl
    · rfl

/-- The end of a slot (R146). -/
theorem endSlot_judged (i : Fin 2) (w : WorkSlot) (x : State) :
    endSlot i w x =
      startListJudged (slotPut i { w with state := .ended, endedAt := some (stationTime x) } x) :=
  judgeStart_judged _

/-- The completion of an order (R134). -/
theorem completeOrder_completed (i : Fin 2) (w : WorkSlot) (r : OrderResult) (next : Nat) (x : State) :
    completeOrder i w r next x = orderCompleted i w r next x := by
  unfold completeOrder orderCompleted
  by_cases hn : w.orders.length ≤ next
  · simp only [hn, if_true, Nat.not_lt.2 hn, if_false]
    exact endSlot_judged _ _ _
  · simp only [hn, if_false, Nat.not_le.1 hn, if_true]
    rfl

/-- The abort of an active slot (R136). -/
theorem abortActive_judged (i : Fin 2) (w : WorkSlot) (reason : AbortReason) (x : State) :
    abortActive i w reason x =
      startListJudged (abortRaised i w reason (leftOutstanding w) (slotPut i
        { w with
          results := w.results ++ cutResult w, state := .aborted, abort := some (reason, w.index),
          endedAt := some (stationTime x), progress := none } x)) := judgeStart_judged _

/-- The claim gate (R112). -/
theorem gate_eq (n : Nat) (x : State) :
    gateAdmits n x = true ↔ x.rq.held.length + x.rq.claimTotal + n ≤ 96 := by
  simp [gateAdmits]

/-- The docks a COLLECT may take (R137). -/
theorem eligible_eq (d : DockNo) (f : Bool) (x : State) :
    eligible d f x = true ↔ ((dockOf d x).state = .docked ∧ (dockOf d x).holder = none ∧ held d x = false
          ∧ (f = true ∨ ∀ b, (dockOf d x).bike = some b → b.id ≠ 0 →
            b.mark = false ∧ ∀ e ∈ x.flt.registry, e.bike ≠ b.id)) := by
  unfold eligible bikeFlagged flagged flagOf
  cases hb : (dockOf d x).bike with
  | none => simp [hb]; tauto
  | some b =>
    cases f <;> cases hm : b.mark <;> simp [hb, hm] <;> tauto

/-- The release of a COLLECT, from a dock that its holder has just been placed at. -/
theorem placeThenRelease {s : State} (hc : Clean s) (hr : ClaimsRight s) (d : DockNo) (h : Holder)
    (hd : (dockOf d s).state = .docked) (hh : (dockOf d s).holder = none)
    (hl : (dockOf d s).deadline = none) :
    beginOrderRelease d h (placeHolder d h s) =
      if gateAdmits (releaseIncrease d s) s then
        (.started, startRelease d h none (placeHolder d h s)) else (.backlog, placeHolder d h s) := by
  have hp : placeHolder d h s = s.setDlc { s.dlc with
      docks := vset s.dlc.docks d { dockOf d s with holder := some h } } := by
    apply putDock_quiet hr <;> simp [claimOf, toInhibit, retainedOf, hd, hl, actuating]
  unfold beginOrderRelease
  have hcp : Clean (placeHolder d h s) := putDock_clean hc
  rw [readQueueHead_clean hcp]
  have : beginOwn d h (placeHolder d h s) = true := by
    simp [beginOwn, placeHolder, hd, hl]
  rw [if_pos this]
  have h2 : releaseIncrease d (placeHolder d h s) = releaseIncrease d s := by
    simp [releaseIncrease, placeHolder]
  have h3 : ∀ n, gateAdmits n (placeHolder d h s) = gateAdmits n s := by
    intro n; rw [hp]; rfl
  dsimp only
  rw [h2, h3]

/-- A holder placed and withdrawn leaves the dock as it was. -/
theorem withdraw_place {s : State} (hr : ClaimsRight s) (d : DockNo) (h : Holder)
    (hd : (dockOf d s).state = .docked) (hh : (dockOf d s).holder = none) :
    withdrawOrder d h (placeHolder d h s) = s := by
  unfold withdrawOrder
  rw [if_pos (by simp [placeHolder, hd])]
  have hp : placeHolder d h s = s.setDlc { s.dlc with
      docks := vset s.dlc.docks d { dockOf d s with holder := some h } } := by
    apply putDock_quiet hr <;> simp [claimOf, toInhibit, retainedOf, hd, actuating]
  have hr2 : ClaimsRight (placeHolder d h s) := claims_putDock hr
  rw [putDock_quiet hr2]
  · rw [hp]
    simp [State.setDlc, dockOf, vset_vset]
    have : { vget s.dlc.docks d with holder := none } = vget s.dlc.docks d := by
      rw [← show (vget s.dlc.docks d).holder = none from hh]
    rw [this, vset_self]
  all_goals simp [claimOf, toInhibit, retainedOf, placeHolder, actuating]

/-- The release of a COLLECT begins at a dock (R12, R137). -/
theorem order_release {x : State} (d : DockNo) (h : Holder)
    (hd : (dockOf d x).state = .docked) :
    startRelease d h none (placeHolder d h x) =
      dockEvent .release d
        (dockPut d
          { dockOf d x with
            state := .unlocking, holder := some h, deadline := some (.actuation none false) }
          { lineOf d x with waiting := placeIn (.release none) (lineOf d x).waiting }
          (if (dockOf d x).suspended = true then 1 else 2) x) := by
  unfold startRelease
  dsimp only
  congr 1
  rw [placed_release]
  · have : dockOf d (placeHolder d h x) = { dockOf d x with holder := some h } := by simp [placeHolder]
    rw [this]
    have hl : lineOf d (placeHolder d h x) = lineOf d x := by
      rw [placeHolder, putDock_put, lineOf_dockPut, if_pos rfl, inhibitFollows_same]
      simp [inhibited, hd]
    rw [hl]
    have hp : placeHolder d h x = dockPut d { dockOf d x with holder := some h } (lineOf d x)
       (claimOf { dockOf d x with holder := some h }) x := by
      rw [placeHolder, putDock_put]
    rw [hp]
    unfold dockPut
    simp only [vset_vset, dockOf, lineOf, vget_vset_self, retainedOf, if_true]
    by_cases hs : (vget x.dlc.docks d).suspended = true <;> simp [claimOf, hs, inhibitFollows,
        inhibited, show (vget x.dlc.docks d).state = .docked from hd]
  · simp [inhibited, placeHolder, hd]

/-- One step of a COLLECT's choice: the dock is passed over, stops the choice, or is taken. -/
theorem select_step {x : State} (hc : Clean x) (hr : ClaimsRight x) (h : Holder) (count : Nat) (f : Bool)
    (d : DockNo) (rest taken : List DockNo) (ht : taken.length < count) :
    let r := dockOf d x
    (eligible d f x = false →
      selectDocks h count f (d :: rest) taken x = selectDocks h count f rest taken x)
    ∧ (eligible d f x = true → r.deadline = none →
      let n := if r.suspended = true then 1 else 2
      (gateAdmits n x = false → selectDocks h count f (d :: rest) taken x = (taken, true, x))
      ∧ (gateAdmits n x = true → selectDocks h count f (d :: rest) taken x =
          selectDocks h count f rest (taken ++ [d])
            (startRelease d h none (placeHolder d h x)))) := by
  intro r
  refine ⟨?_, ?_⟩
  · intro he
    rw [selectDocks, if_neg (Nat.not_le.2 ht), if_neg (by simp [he])]
  · intro he hdl n
    have he' := (eligible_eq d f x).1 he
    have hinc : releaseIncrease d x = n := by
      simp [releaseIncrease, n, r]
    refine ⟨?_, ?_⟩ <;> intro hg
    · rw [selectDocks, if_neg (Nat.not_le.2 ht), if_pos he]
      dsimp only
      rw [placeThenRelease hc hr d h he'.1 he'.2.1 hdl, hinc, if_neg (by simp [hg])]
      dsimp only
      rw [withdraw_place hr d h he'.1 he'.2.1]
    · rw [selectDocks, if_neg (Nat.not_le.2 ht), if_pos he]
      dsimp only
      rw [placeThenRelease hc hr d h he'.1 he'.2.1 hdl, hinc, if_pos hg]

/-- A kind leaves a dock's fault set. -/
theorem clearDockFault_put {x : State} (h : ClaimsRight x) (d : DockNo) (k : FaultKind) :
    clearDockFault d k x =
      dockPut d { dockOf d x with faults := (dockOf d x).faults.put k false } (lineOf d x)
        (vget x.rq.claims d) x := by
  unfold clearDockFault
  dsimp only
  rw [putDock_put, h.claim d]
  rfl

/-- A dock event leaves the orders and station control. -/
theorem dockEvent_frame (c : WatchCond) (d : DockNo) (x : State) :
    (dockEvent c d x).woe = x.woe ∧ (dockEvent c d x).sc = x.sc := by
  unfold dockEvent
  generalize finList 4 = l
  induction l generalizing x with
  | nil => exact ⟨rfl, rfl⟩
  | cons a t ih =>
    rw [List.foldl_cons]
    have : (matchWatch c d x a).woe = x.woe ∧ (matchWatch c d x a).sc = x.sc := by
      unfold matchWatch
      split
      · exact ⟨rfl, rfl⟩
      · split
        · simp only []
          split <;> simp [setEvent]
        · exact ⟨rfl, rfl⟩
    rw [(ih _).1, (ih _).2, this.1, this.2]
    exact ⟨rfl, rfl⟩

/-- RESUME of a dock leaves the orders, station control and a sound array. -/
theorem resume_frame {x : State} (hc : Clean x) (d : DockNo) :
    (resumeDock d x).2.woe = x.woe ∧ (resumeDock d x).2.sc = x.sc ∧ Clean (resumeDock d x).2 := by
  have hu : (unsuspend d x).woe = x.woe ∧ (unsuspend d x).sc = x.sc ∧ Clean (unsuspend d x) :=
    ⟨by simp [unsuspend], by simp [unsuspend], putDock_clean hc⟩
  unfold resumeDock
  dsimp only
  rw [readQueueHead_clean hc]
  split
  · split
    · exact hu
    · exact ⟨rfl, rfl, hc⟩
  · split
    · split
      · exact hu
      · exact ⟨rfl, rfl, hc⟩
    · exact ⟨rfl, rfl, hc⟩
  all_goals exact ⟨rfl, rfl, hc⟩

/-- RESUME leaves the orders and station control. -/
theorem resumes_frame (l : List DockNo) (n : Nat) {x : State} (hc : Clean x) :
    (resumeDocks l n x).2.2.woe = x.woe ∧ (resumeDocks l n x).2.2.sc = x.sc := by
  induction l generalizing n x with
  | nil => exact ⟨rfl, rfl⟩
  | cons d t ih =>
    obtain ⟨h1, h2, h3⟩ := resume_frame hc d
    simp only [resumeDocks]
    split
    · rw [(ih _ h3).1, (ih _ h3).2]; exact ⟨h1, h2⟩
    · exact ⟨h1, h2⟩
    · rw [(ih _ h3).1, (ih _ h3).2]; exact ⟨h1, h2⟩

/-- The release of a COLLECT leaves the orders, station control and a sound array. -/
theorem begin_frame {x : State} (hc : Clean x) (d : DockNo) (h : Holder) :
    (beginOrderRelease d h x).2.woe = x.woe ∧ (beginOrderRelease d h x).2.sc = x.sc
      ∧ Clean (beginOrderRelease d h x).2 := by
  unfold beginOrderRelease
  rw [readQueueHead_clean hc]
  split
  · dsimp only
    split
    · unfold startRelease
      refine ⟨?_, ?_, ?_⟩
      · rw [(dockEvent_frame _ _ _).1]; simp [placeCommand, setLine]
      · rw [(dockEvent_frame _ _ _).2]; simp [placeCommand, setLine]
      · unfold Clean; rw [dockEvent_rs]; exact putDock_clean hc
    · exact ⟨rfl, rfl, hc⟩
  · exact ⟨rfl, rfl, hc⟩

/-- A COLLECT's choice leaves the orders and station control. -/
theorem select_frame (h : Holder) (count : Nat) (f : Bool) (l : List DockNo) (taken : List DockNo)
    {x : State} (hc : Clean x) :
    (selectDocks h count f l taken x).2.2.woe = x.woe ∧ (selectDocks h count f l taken x).2.2.sc =
        x.sc := by
  induction l generalizing taken x with
  | nil => exact ⟨rfl, rfl⟩
  | cons d t ih =>
    have hp : Clean (placeHolder d h x) := putDock_clean hc
    obtain ⟨h1, h2, h3⟩ := begin_frame hp d h
    have h1' : (placeHolder d h x).woe = x.woe := by simp [placeHolder]
    have h2' : (placeHolder d h x).sc = x.sc := by simp [placeHolder]
    have hw : ∀ y : State, Clean y → (withdrawOrder d h y).woe = y.woe ∧ (withdrawOrder d h y).sc = y.sc
        ∧ Clean (withdrawOrder d h y) := by
      intro y hy
      unfold withdrawOrder
      split
      · exact ⟨by simp, by simp, putDock_clean hy⟩
      · exact ⟨rfl, rfl, hy⟩
    obtain ⟨w1, w2, w3⟩ := hw _ h3
    simp only [selectDocks]
    split
    · exact ⟨rfl, rfl⟩
    · split
      · split
        · rw [(ih _ h3).1, (ih _ h3).2, h1, h2, h1', h2']; exact ⟨rfl, rfl⟩
        · rw [w1, w2, h1, h2, h1', h2']; exact ⟨rfl, rfl⟩
        · rw [(ih _ w3).1, (ih _ w3).2, w1, w2, h1, h2, h1', h2']; exact ⟨rfl, rfl⟩
      · exact ih _ hc

/-- CLEAR_FAULT of a kind leaves the orders, station control and a sound array. -/
theorem clear_frame {x : State} (hc : Clean x) (d : DockNo) (k : FaultKind) :
    (clearKind d k x).2.woe = x.woe ∧ (clearKind d k x).2.sc = x.sc ∧ Clean (clearKind d k x).2 := by
  have hs : ∀ c f, (startProbe d c f x).woe = x.woe ∧ (startProbe d c f x).sc = x.sc
      ∧ Clean (startProbe d c f x) := by
    intro c f
    exact ⟨by simp [startProbe, placeCommand, setLine], by simp [startProbe, placeCommand, setLine],
        putDock_clean hc⟩
  have hf : ∀ k, (clearDockFault d k x).woe = x.woe ∧ (clearDockFault d k x).sc = x.sc
      ∧ Clean (clearDockFault d k x) :=
    fun k => ⟨by simp [clearDockFault], by simp [clearDockFault], putDock_clean hc⟩
  unfold clearKind
  dsimp only
  split
  · split
    · exact hs _ _
    · exact hf _
  · split
    · unfold readmit
      rw [readQueueHead_clean hc]
      dsimp only
      split
      · exact hs _ _
      · exact ⟨rfl, rfl, hc⟩
    · exact hf _
  · exact hf _

/-- CLEAR_FAULT leaves the orders and station control. -/
theorem clears_frame (d : DockNo) (l : List FaultKind) (n : Nat) (b : Bool) {x : State} (hc : Clean x) :
    (clearKinds d l n b x).2.2.woe = x.woe ∧ (clearKinds d l n b x).2.2.sc = x.sc := by
  induction l generalizing n b x with
  | nil => exact ⟨rfl, rfl⟩
  | cons k t ih =>
    obtain ⟨h1, h2, h3⟩ := clear_frame hc d k
    simp only [clearKinds]
    rw [(ih _ _ h3).1, (ih _ _ h3).2]
    exact ⟨h1, h2⟩

end Sys2Proof.Machine
end

