-- ==== Sys2Proof/WellFormed.lean ====
section
/-! DEFINITION. Well-formed commands: every operand fits the field that carries it. This is the form of
the wire (a byte, a card number of 56 bits, an event number of 4), not the form a request is judged by:
check 4 of R197 is in Machine/Operands.lean, and refuses terms that are well formed here. -/

namespace Sys2Proof

/-- A field of `k` bytes. -/
def fitsBytes (k n : Nat) : Bool := decide (n < 256 ^ k)

/-- A request tag byte (R204). -/
def tagFits (tag : Nat) : Bool := fitsBytes 1 tag

/-- A card number field of seven bytes (R206). -/
def cardFits (card : Nat) : Bool := fitsBytes 7 card

/-- A signed field of four bytes (R206). -/
def signedFits (x : Int) : Bool := decide (-2147483648 ≤ x ∧ x < 2147483648)

/-- The bytes of a tag record, if the tag could be read (R205). -/
def tagRecordFits (b : Option (List Byte)) : Bool := b.all fun b => decide (b.length = 23)

/-- A stamp's fields (R25). -/
def Stamp.wf (t : Stamp) : Bool :=
  fitsBytes 2 t.origin && fitsBytes 2 t.trip && cardFits t.card && fitsBytes 4 t.start
    && decide (t.plan < 16)

/-- A member record's fields (R206). -/
def MemberRecord.wf (m : MemberRecord) : Bool :=
  cardFits m.card && fitsBytes 1 m.standing && fitsBytes 1 m.plan && signedFits m.balance
    && fitsBytes 1 m.hireLimit && fitsBytes 1 m.baseOpen && fitsBytes 4 m.baseMark

/-- A tariff record's four band entries (R94). -/
def TariffEntry.wf (r : TariffEntry) : Bool := decide (r.bands.length = 4)

/-- An order's bike id is a field of four bytes (R132). -/
def Order.wf : Order → Bool
  | .flagBike bike => fitsBytes 4 bike
  | .clearBike bike => fitsBytes 4 bike
  | .collect _ _ _ _ => true
  | .place _ _ => true
  | .suspend _ _ => true
  | .resume _ _ => true
  | .clearFault _ _ => true
  | .jumpIf _ _ => true
  | .endList _ => true

/-- An event: LATCHED carries a tag record (section 1.4). -/
def DockEvent.wf : DockEvent → Bool
  | .latched tag => tagRecordFits tag
  | .opened => true
  | .stampFail => true
  | .closed => true
  | .taken => true
  | .button => true
  | .cleared _ => true
  | .writeFail _ => true
  | .actuatorFault => true

/-- An answer: an event number of 0 to 15 and a bike id of four bytes (R7). -/
def DockAnswer.wf (a : DockAnswer) : Bool :=
  (a.event.all fun x => decide (x.1 < 16) && x.2.wf)
    && (a.condition.bike.all fun b => fitsBytes 4 b.id)

/-- The last-release memory (R26). -/
def ReleaseMemory.wf : ReleaseMemory → Bool
  | .nothing => true
  | .release t => t.all Stamp.wf

/-- What a survey answer carries besides (R192). -/
def SurveyExtra.wf (x : SurveyExtra) : Bool := tagRecordFits x.tag && x.memory.wf

/-- A word of the retained array (R171). -/
def Upset.wf (u : Upset) : Bool := decide (u.row < 64 ∧ u.word < 64)

/-- A command whose operands fit. -/
def Instr.wf : Instr → Bool
  | .frameRefused _ frame => decide (3 ≤ frame.length)
  | .read _ tag => tagFits tag
  | .readRepeat _ tag => tagFits tag
  | .readAnswerComplete _ => true
  | .noticeRead _ tag => tagFits tag
  | .noticeAnswerComplete _ => true
  | .portClear _ tag => tagFits tag
  | .hire tag card _ _ => tagFits tag && cardFits card
  | .cancel tag target => tagFits tag && fitsBytes 1 target
  | .stationView tag => tagFits tag
  | .quote tag plan minutes => tagFits tag && fitsBytes 1 plan && fitsBytes 2 minutes
  | .fillFetch tag => tagFits tag
  | .fillAnswer tag record => tagFits tag && record.wf
  | .fillAnswerNotFound tag card => tagFits tag && cardFits card
  | .cardPush tag record => tagFits tag && record.wf
  | .cardInvalidate tag card => tagFits tag && cardFits card
  | .cacheFlush tag => tagFits tag
  | .cacheMode tag _ _ => tagFits tag
  | .linkStateUp tag => tagFits tag
  | .linkStateDown tag => tagFits tag
  | .reportRead tag n => tagFits tag && fitsBytes 1 n
  | .reportReadRestart tag n => tagFits tag && fitsBytes 1 n
  | .reportRelease tag seq => tagFits tag && fitsBytes 4 seq
  | .tariffLoad tag plan record => tagFits tag && fitsBytes 1 plan && record.wf
  | .tariffDrop tag plan => tagFits tag && fitsBytes 1 plan
  | .crewLoad tag crew level mapLength permits =>
    tagFits tag && fitsBytes 2 crew && fitsBytes 1 level && fitsBytes 1 mapLength
      && decide (permits.length = 48)
  | .crewDrop tag crew => tagFits tag && fitsBytes 2 crew
  | .floorSet tag _ floor => tagFits tag && fitsBytes 1 floor
  | .orderSubmit tag crew orders => tagFits tag && fitsBytes 2 crew && orders.all Order.wf
  | .orderStatus tag slot => tagFits tag && fitsBytes 1 slot
  | .orderAbort tag slot crew => tagFits tag && fitsBytes 1 slot && fitsBytes 2 crew
  | .policySet tag _ _ => tagFits tag
  | .faultRead _ tag n => tagFits tag && fitsBytes 1 n
  | .faultDiscard _ tag n _ => tagFits tag && fitsBytes 1 n
  | .dockFaultRead _ tag => tagFits tag
  | .bikeFlag tag bike => tagFits tag && fitsBytes 4 bike
  | .bikeClear tag bike => tagFits tag && fitsBytes 4 bike
  | .bikeFlagRead _ tag start n => tagFits tag && fitsBytes 1 start && fitsBytes 1 n
  | .watchSet _ tag slot crew base span _ _ _ =>
    tagFits tag && fitsBytes 1 slot && fitsBytes 2 crew && fitsBytes 1 base && fitsBytes 1 span
  | .watchDrop _ tag slot crew => tagFits tag && fitsBytes 1 slot && fitsBytes 2 crew
  | .watchClearHits _ tag slot => tagFits tag && slot.all (fitsBytes 1)
  | .watchRead _ tag => tagFits tag
  | .storeStatus tag => tagFits tag
  | .storeClear tag _ => tagFits tag
  | .timeSet tag time => tagFits tag && fitsBytes 4 time
  | .stationIdSet tag id => tagFits tag && fitsBytes 2 id
  | .stationMode _ tag _ crew => tagFits tag && fitsBytes 2 crew
  | .configSet tag _ _ => tagFits tag
  | .configRead _ tag => tagFits tag
  | .stationStatus _ tag => tagFits tag
  | .stationRestartWarm tag => tagFits tag
  | .stationRestartCold tag => tagFits tag
  | .dockAnswer _ answer => answer.wf
  | .dockExchangeMissed _ => true
  | .dockServiceRequest _ => true
  | .sweepDue _ => true
  | .actuationDeadline _ => true
  | .takeDeadline _ => true
  | .fillExpiry card => cardFits card
  | .placeDeadline => true
  | .orderExecute => true
  | .clockTick => true
  | .scrubRow upsets => upsets.all Upset.wf
  | .recordWriteDone => true
  | .pwrfail written => decide (written < 10)
  | .reset => true
  | .mainPowerReturn => true
  | .startBegin upsets => upsets.all Upset.wf
  | .surveyPollAnswer _ answer extra => answer.wf && extra.wf
  | .batterySupplyLoss => true
  | .mainPowerLoss => true
  | .surveyBegin => true

end Sys2Proof
end

