-- ==== Sys2Proof/Laws/PerInstr.lean ====
section
/-! SUPPORT. A statement about each command as syntax: a row that takes a request slot stands for a kind
that has a kind byte of its own in the catalogue (R203), and its tag is a byte (R204). -/

namespace Sys2Proof.Laws.KindsHaveBytes

open Sys2Proof.Machine

/-- A row that takes a request slot: its kind is one that does, the kind byte of its kind names it, and
a well-formed row's tag is one byte. -/
def Statement (c : Instr) : Prop :=
  ∀ p k tag form, slotRequestOf c = some (p, k, tag, form) →
    slotless k = false ∧ kindOf (kindCode k) = some k ∧ (c.wf = true → tag < 256)

/-- What a row whose operands give its port, kind and tag comes to. -/
theorem of_row {c : Instr} {q : Port} {j : RequestKind} {n : Nat} {b : Bool}
    (h : slotRequestOf c = some (q, j, n, b)) (hs : slotless j = false)
    (hk : kindOf (kindCode j) = some j) (ht : c.wf = true → tagFits n = true) : Statement c := by
  intro p k tag form hc
  rw [h] at hc
  obtain ⟨-, rfl, rfl, -⟩ := hc
  exact ⟨hs, hk, fun hw => by simpa [tagFits, fitsBytes] using ht hw⟩

/-- A row that takes no slot. -/
theorem of_none {c : Instr} (h : slotRequestOf c = none) : Statement c := by
  intro p k tag form hc
  rw [h] at hc
  cases hc

theorem frameRefused (port : Port) (frame : List Byte) : Statement (.frameRefused port frame) := of_none rfl

theorem read (port : Port) (tag : Nat) : Statement (.read port tag) := of_none rfl

theorem readRepeat (port : Port) (tag : Nat) : Statement (.readRepeat port tag) := of_none rfl

theorem readAnswerComplete (port : Port) : Statement (.readAnswerComplete port) := of_none rfl

theorem noticeRead (port : Port) (tag : Nat) : Statement (.noticeRead port tag) := of_none rfl

theorem noticeAnswerComplete (port : Port) : Statement (.noticeAnswerComplete port) := of_none rfl

theorem portClear (port : Port) (tag : Nat) : Statement (.portClear port tag) := of_none rfl

theorem hire (tag : Nat) (card : Nat) (dock : DockRequest) (plan : Option Nat) : Statement (.hire tag card dock plan) :=
  of_row rfl rfl rfl (by simp +contextual [Instr.wf])

theorem cancel (tag : Nat) (target : Nat) : Statement (.cancel tag target) :=
  of_row rfl rfl rfl (by simp +contextual [Instr.wf])

theorem stationView (tag : Nat) : Statement (.stationView tag) :=
  of_row rfl rfl rfl (by simp +contextual [Instr.wf])

theorem quote (tag : Nat) (plan : Nat) (minutes : Nat) : Statement (.quote tag plan minutes) :=
  of_row rfl rfl rfl (by simp +contextual [Instr.wf])

theorem fillFetch (tag : Nat) : Statement (.fillFetch tag) :=
  of_row rfl rfl rfl (by simp +contextual [Instr.wf])

theorem fillAnswer (tag : Nat) (record : MemberRecord) : Statement (.fillAnswer tag record) :=
  of_row rfl rfl rfl (by simp +contextual [Instr.wf])

theorem fillAnswerNotFound (tag : Nat) (card : Nat) : Statement (.fillAnswerNotFound tag card) :=
  of_row rfl rfl rfl (by simp +contextual [Instr.wf])

theorem cardPush (tag : Nat) (record : MemberRecord) : Statement (.cardPush tag record) :=
  of_row rfl rfl rfl (by simp +contextual [Instr.wf])

theorem cardInvalidate (tag : Nat) (card : Nat) : Statement (.cardInvalidate tag card) :=
  of_row rfl rfl rfl (by simp +contextual [Instr.wf])

theorem cacheFlush (tag : Nat) : Statement (.cacheFlush tag) :=
  of_row rfl rfl rfl (by simp +contextual [Instr.wf])

theorem cacheMode (tag : Nat) (allocate : Bool) (serve : Bool) : Statement (.cacheMode tag allocate serve) :=
  of_row rfl rfl rfl (by simp +contextual [Instr.wf])

theorem linkStateUp (tag : Nat) : Statement (.linkStateUp tag) :=
  of_row rfl rfl rfl (by simp +contextual [Instr.wf])

theorem linkStateDown (tag : Nat) : Statement (.linkStateDown tag) :=
  of_row rfl rfl rfl (by simp +contextual [Instr.wf])

theorem reportRead (tag : Nat) (n : Nat) : Statement (.reportRead tag n) :=
  of_row rfl rfl rfl (by simp +contextual [Instr.wf])

theorem reportReadRestart (tag : Nat) (n : Nat) : Statement (.reportReadRestart tag n) :=
  of_row rfl rfl rfl (by simp +contextual [Instr.wf])

theorem reportRelease (tag : Nat) (seq : Nat) : Statement (.reportRelease tag seq) :=
  of_row rfl rfl rfl (by simp +contextual [Instr.wf])

theorem tariffLoad (tag : Nat) (plan : Nat) (record : TariffEntry) : Statement (.tariffLoad tag plan record) :=
  of_row rfl rfl rfl (by simp +contextual [Instr.wf])

theorem tariffDrop (tag : Nat) (plan : Nat) : Statement (.tariffDrop tag plan) :=
  of_row rfl rfl rfl (by simp +contextual [Instr.wf])

theorem crewLoad (tag : Nat) (crew : Nat) (level : Nat) (mapLength : Nat) (permits : List Bool) : Statement (.crewLoad tag crew level mapLength permits) :=
  of_row rfl rfl rfl (by simp +contextual [Instr.wf])

theorem crewDrop (tag : Nat) (crew : Nat) : Statement (.crewDrop tag crew) :=
  of_row rfl rfl rfl (by simp +contextual [Instr.wf])

theorem floorSet (tag : Nat) (kind : OrderKind) (floor : Nat) : Statement (.floorSet tag kind floor) :=
  of_row rfl rfl rfl (by simp +contextual [Instr.wf])

theorem orderSubmit (tag : Nat) (crew : Nat) (orders : List Order) : Statement (.orderSubmit tag crew orders) :=
  of_row rfl rfl rfl (by simp +contextual [Instr.wf])

theorem orderStatus (tag : Nat) (slot : Nat) : Statement (.orderStatus tag slot) :=
  of_row rfl rfl rfl (by simp +contextual [Instr.wf])

theorem orderAbort (tag : Nat) (slot : Nat) (crew : Nat) : Statement (.orderAbort tag slot crew) :=
  of_row rfl rfl rfl (by simp +contextual [Instr.wf])

theorem policySet (tag : Nat) (kind : FaultKind) (policy : Policy) : Statement (.policySet tag kind policy) :=
  of_row rfl rfl rfl (by simp +contextual [Instr.wf])

theorem faultRead (port : Port) (tag : Nat) (n : Nat) : Statement (.faultRead port tag n) :=
  of_row rfl rfl rfl (by simp +contextual [Instr.wf])

theorem faultDiscard (port : Port) (tag : Nat) (n : Nat) (clearLost : Bool) : Statement (.faultDiscard port tag n clearLost) :=
  of_row rfl rfl rfl (by simp +contextual [Instr.wf])

theorem dockFaultRead (port : Port) (tag : Nat) : Statement (.dockFaultRead port tag) :=
  of_row rfl rfl rfl (by simp +contextual [Instr.wf])

theorem bikeFlag (tag : Nat) (bike : Nat) : Statement (.bikeFlag tag bike) :=
  of_row rfl rfl rfl (by simp +contextual [Instr.wf])

theorem bikeClear (tag : Nat) (bike : Nat) : Statement (.bikeClear tag bike) :=
  of_row rfl rfl rfl (by simp +contextual [Instr.wf])

theorem bikeFlagRead (port : Port) (tag : Nat) (start : Nat) (n : Nat) : Statement (.bikeFlagRead port tag start n) :=
  of_row rfl rfl rfl (by simp +contextual [Instr.wf])

theorem watchSet (port : Port) (tag : Nat) (slot : Nat) (crew : Nat) (base : Nat) (span : Nat) (cond : WatchCond) (action : WatchAction) (enabled : Bool) : Statement (.watchSet port tag slot crew base span cond action enabled) :=
  of_row rfl rfl rfl (by simp +contextual [Instr.wf])

theorem watchDrop (port : Port) (tag : Nat) (slot : Nat) (crew : Nat) : Statement (.watchDrop port tag slot crew) :=
  of_row rfl rfl rfl (by simp +contextual [Instr.wf])

theorem watchClearHits (port : Port) (tag : Nat) (slot : Option Nat) : Statement (.watchClearHits port tag slot) :=
  of_row rfl rfl rfl (by simp +contextual [Instr.wf])

theorem watchRead (port : Port) (tag : Nat) : Statement (.watchRead port tag) :=
  of_row rfl rfl rfl (by simp +contextual [Instr.wf])

theorem storeStatus (tag : Nat) : Statement (.storeStatus tag) :=
  of_row rfl rfl rfl (by simp +contextual [Instr.wf])

theorem storeClear (tag : Nat) (clearMap : Bool) : Statement (.storeClear tag clearMap) :=
  of_row rfl rfl rfl (by simp +contextual [Instr.wf])

theorem timeSet (tag : Nat) (time : Nat) : Statement (.timeSet tag time) :=
  of_row rfl rfl rfl (by simp +contextual [Instr.wf])

theorem stationIdSet (tag : Nat) (id : Nat) : Statement (.stationIdSet tag id) :=
  of_row rfl rfl rfl (by simp +contextual [Instr.wf])

theorem stationMode (port : Port) (tag : Nat) (mode : Mode) (crew : Nat) : Statement (.stationMode port tag mode crew) :=
  of_row rfl rfl rfl (by simp +contextual [Instr.wf])

theorem configSet (tag : Nat) (item : ConfigItem) (value : ConfigValue) : Statement (.configSet tag item value) :=
  of_row rfl rfl rfl (by simp +contextual [Instr.wf])

theorem configRead (port : Port) (tag : Nat) : Statement (.configRead port tag) :=
  of_row rfl rfl rfl (by simp +contextual [Instr.wf])

theorem stationStatus (port : Port) (tag : Nat) : Statement (.stationStatus port tag) :=
  of_row rfl rfl rfl (by simp +contextual [Instr.wf])

theorem stationRestartWarm (tag : Nat) : Statement (.stationRestartWarm tag) :=
  of_row rfl rfl rfl (by simp +contextual [Instr.wf])

theorem stationRestartCold (tag : Nat) : Statement (.stationRestartCold tag) :=
  of_row rfl rfl rfl (by simp +contextual [Instr.wf])

theorem dockAnswer (dock : DockNo) (answer : DockAnswer) : Statement (.dockAnswer dock answer) := of_none rfl

theorem dockExchangeMissed (dock : DockNo) : Statement (.dockExchangeMissed dock) := of_none rfl

theorem dockServiceRequest (dock : DockNo) : Statement (.dockServiceRequest dock) := of_none rfl

theorem sweepDue (dock : DockNo) : Statement (.sweepDue dock) := of_none rfl

theorem actuationDeadline (dock : DockNo) : Statement (.actuationDeadline dock) := of_none rfl

theorem takeDeadline (dock : DockNo) : Statement (.takeDeadline dock) := of_none rfl

theorem fillExpiry (card : Nat) : Statement (.fillExpiry card) := of_none rfl

theorem placeDeadline : Statement .placeDeadline := of_none rfl

theorem orderExecute : Statement .orderExecute := of_none rfl

theorem clockTick : Statement .clockTick := of_none rfl

theorem scrubRow (upsets : List Upset) : Statement (.scrubRow upsets) := of_none rfl

theorem recordWriteDone : Statement .recordWriteDone := of_none rfl

theorem pwrfail (written : Nat) : Statement (.pwrfail written) := of_none rfl

theorem reset : Statement .reset := of_none rfl

theorem mainPowerReturn : Statement .mainPowerReturn := of_none rfl

theorem startBegin (upsets : List Upset) : Statement (.startBegin upsets) := of_none rfl

theorem surveyPollAnswer (dock : DockNo) (answer : DockAnswer) (extra : SurveyExtra) : Statement (.surveyPollAnswer dock answer extra) := of_none rfl

theorem batterySupplyLoss : Statement .batterySupplyLoss := of_none rfl

theorem mainPowerLoss : Statement .mainPowerLoss := of_none rfl

theorem surveyBegin : Statement .surveyBegin := of_none rfl

end Sys2Proof.Laws.KindsHaveBytes
end

