-- ==== Sys2Proof/Laws/Requests.lean ====
section
/-! SUPPORT. One lemma for each shape of command: a request answered in its own step with no record
handed, one that hands records, one that leaves its slot unfinished, one that takes no slot, and an
event. -/

namespace Sys2Proof.Machine

@[simp] theorem accepted_rs (p : Port) (k : RequestKind) (tag : Nat) (s : State) :
    (accepted p k tag s).rs = s.rs := by simp [accepted]

theorem accepted_clean {p : Port} {k : RequestKind} {tag : Nat} {s : State} (h : Clean s) :
    Clean (accepted p k tag s) := by
  unfold Clean; rw [accepted_rs]; exact h

/-- The end of a step: the ports as the effect left them but for the attention lines, the store but for
its counter, and every other block as the effect left it. -/
theorem step_ends {f : State → State} {s x : State} (hx : f s = x) :
    ∃ t, stepOf f s = .next t
      ∧ (∀ q, getPort q t = { getPort q x with attention := (getPort q t).attention })
      ∧ t.rs = (endStep x).rs ∧ t = { x with pi := t.pi, rs := t.rs } := by
  refine ⟨endStep x, by rw [stepOf_eq, hx], fun q => by rw [getPort_endStep], rfl, ?_⟩
  conv_lhs => rw [endStep_frame]
  have := endStep_store x
  unfold StoreKept at this
  simp only [State.setRs, State.setPi]
  rw [← this]

/-- A step whose effect changes the ports alone. -/
theorem rest_kept {s x t : State} (hx : x = s.setPi x.pi) (hr : t.rs = (endStep x).rs)
    (ht : t = { x with pi := t.pi, rs := t.rs }) : RestKept s t := by
  have h : x.rs = s.rs := by rw [hx]; rfl
  have hs := endStep_store x
  unfold StoreKept at hs
  unfold RestKept
  rw [← hr, h] at hs
  rw [← hs]
  conv_lhs => rw [ht, hx]
  rfl

/-- A request answered in its own step: the reply, and every block but the ports and the store as its
owner left it. -/
theorem answered {p : Port} {k : RequestKind} {tag : Nat} {form : Bool} {take : State → State}
    {s x : State} {o : ReplyOutcome} {b : Body} (h : Accepts p k tag s) (hf : form = true)
    (hx : take (accepted p k tag s) = reply p k tag o b x) (hp : x.pi = (accepted p k tag s).pi) :
    ∃ t, stepOf (slotRequest p k tag form take) s = .next t ∧ Replied p k tag o b s t
      ∧ t.rs = (endStep x).rs ∧ t = { x with pi := t.pi, rs := t.rs } := by
  subst hf
  refine ⟨endStep (reply p k tag o b x), ?_, replied h hp, ?_, ?_⟩
  · rw [stepOf_eq, slotRequest_taken take h, hx]
  · rw [endStep_rs, endStep_rs]; simp [reply, finishReply]
  · rw [endStep_reply_frame]; rfl

/-- A request answered in its own step whose owner hands no record. -/
theorem answered_kept {p : Port} {k : RequestKind} {tag : Nat} {form : Bool} {take : State → State}
    {s x : State} {o : ReplyOutcome} {b : Body} (h : Accepts p k tag s) (hf : form = true)
    (hx : take (accepted p k tag s) = reply p k tag o b x) (hp : x.pi = (accepted p k tag s).pi)
    (hr : x.rs = s.rs) :
    ∃ t, stepOf (slotRequest p k tag form take) s = .next t ∧ Replied p k tag o b s t
      ∧ StoreKept s t ∧ t = { x with pi := t.pi, rs := t.rs } := by
  obtain ⟨t, h1, h2, h3, h4⟩ := answered h hf hx hp
  refine ⟨t, h1, h2, ?_, h4⟩
  have := endStep_store x
  unfold StoreKept at this ⊢
  rw [h3, ← hr]
  exact this

/-- A request answered in its own step whose owner hands records. -/
theorem answered_hands {p : Port} {k : RequestKind} {tag : Nat} {form : Bool} {take : State → State}
    {s x : State} {o : ReplyOutcome} {b : Body} {l : List (Place × Content)} (h : Accepts p k tag s)
    (hf : form = true) (hx : take (accepted p k tag s) = reply p k tag o b x)
    (hp : x.pi = (accepted p k tag s).pi) (hl : l ≠ []) (hr : x.rs = handAll l s.rs) :
    ∃ t, stepOf (slotRequest p k tag form take) s = .next t ∧ Replied p k tag o b s t
      ∧ t.rs = stepHands l s.rs ∧ t = { x with pi := t.pi, rs := t.rs } := by
  obtain ⟨t, h1, h2, h3, h4⟩ := answered h hf hx hp
  exact ⟨t, h1, h2, by rw [h3, endStep_hands hl hr], h4⟩

/-- An accepted request that leaves its slot unfinished: the slot, and every block but the ports and the
store as its owner left it. -/
theorem left_unfinished {p : Port} {k : RequestKind} {tag : Nat} {form : Bool} {take : State → State}
    {s x : State} (h : Accepts p k tag s) (hf : form = true) (hx : take (accepted p k tag s) = x)
    (hp : x.pi = (accepted p k tag s).pi) :
    ∃ t, stepOf (slotRequest p k tag form take) s = .next t ∧ Taken p k tag s t
      ∧ t.rs = (endStep x).rs ∧ t = { x with pi := t.pi, rs := t.rs } := by
  subst hf
  refine ⟨endStep x, ?_, ⟨?_, ?_⟩, rfl, ?_⟩
  · rw [stepOf_eq, slotRequest_taken take h, hx]
  · rw [getPort_endStep]
    simp only [getPort_congr hp p, accepted, getPort_setPort_self]
  · intro q hq
    rw [getPort_endStep]
    simp only [getPort_congr hp q, accepted, getPort_setPort_ne _ _ hq]
  · conv_lhs => rw [endStep_frame]
    simp only [State.setRs, State.setPi]
    have := endStep_store x
    unfold StoreKept at this
    rw [← this]

/-- A request that takes no slot and changes no block but the ports. -/
theorem plain_answered {p : Port} {k : RequestKind} {tag : Nat} {take : State → AnswerContent × State}
    {s x : State} {c : AnswerContent} (hr : running s = true) (ht : tag ≤ 15) (hs : served k p = true)
    (hk : slotless k = true) (hx : take s = (c, x)) :
    plainRequest p k tag take s = giveAnswer p (answerFor .accepted tag (kindCode k) c) x := by
  have hj : judgeKind p k tag true s = .accepted := by
    simp [judgeKind, hr, hs, hk, Nat.not_lt.2 ht]
  unfold plainRequest
  simp only [powered_of_running hr, hj, Bool.not_true, Bool.false_eq_true, if_false, if_true, hx]

/-- An event of the running part that leaves the ports alone. -/
theorem event_step {f : State → State} {s x : State} (hr : running s = true) (hx : f s = x)
    (hp : x.pi = s.pi) :
    ∃ t, stepOf (whileRunning f) s = .next t ∧ PortsKept s t ∧ t.rs = (endStep x).rs
      ∧ t = { x with pi := t.pi, rs := t.rs } := by
  refine ⟨endStep x, ?_, ?_, rfl, ?_⟩
  · rw [stepOf_eq]; simp only [whileRunning, hr, if_true, hx]
  · intro q
    rw [getPort_endStep, getPort_congr hp q]
  · conv_lhs => rw [endStep_frame]
    simp only [State.setRs, State.setPi]
    have := endStep_store x
    unfold StoreKept at this
    rw [← this]

/-- A step that leaves the ports alone. -/
theorem plain_step {f : State → State} {s x : State} (hx : f s = x) (hp : x.pi = s.pi) :
    ∃ t, stepOf f s = .next t ∧ PortsKept s t ∧ t.rs = (endStep x).rs
      ∧ t = { x with pi := t.pi, rs := t.rs } := by
  refine ⟨endStep x, by rw [stepOf_eq, hx], ?_, rfl, ?_⟩
  · intro q
    rw [getPort_endStep, getPort_congr hp q]
  · conv_lhs => rw [endStep_frame]
    simp only [State.setRs, State.setPi]
    have := endStep_store x
    unfold StoreKept at this
    rw [← this]

/-- A step that leaves the store but for its counter. -/
theorem kept_of_rs {s x t : State} (h : t.rs = (endStep x).rs) (hr : x.rs = s.rs) : StoreKept s t := by
  have := endStep_store x
  unfold StoreKept at this ⊢
  rw [h, ← hr]
  exact this

/-- An answer given to a state whose other blocks are as before. -/
theorem answer_step {f : State → State} {p : Port} {a : Answer} {s : State}
    (hx : f s = giveAnswer p a s) :
    ∃ t, stepOf f s = .next t ∧ Answered p a s t ∧ RestKept s t := by
  refine ⟨endStep (giveAnswer p a s), by rw [stepOf_eq, hx], ⟨?_, ?_⟩, ?_⟩
  · rw [getPort_endStep]; simp [giveAnswer]
  · intro q hq
    rw [getPort_endStep]
    simp only [giveAnswer, getPort_setPort_ne _ _ hq]
  · unfold RestKept
    conv_lhs => rw [endStep_frame]
    rw [giveAnswer, setPort_frame]
    rfl

end Sys2Proof.Machine
end

