-- ==== Sys2Proof/Laws/Rings.lean ====
section
/-! SUPPORT. The runs of a ring that a rebuild looks at: the one it takes is the longest, at the lowest
place among equals (R122, R176). -/

namespace Sys2Proof.Machine

/-- The place before the one `j` places back from a place of the ring. -/
theorem back_step {m n j : Nat} (hn : n < m) (hj : j < m) :
    ((n + m - j) % m + m - 1) % m = (n + m - (j + 1)) % m := by
  by_cases h : j ≤ n
  · have h1 : (n + m - j) % m = n - j := by
      rw [show n + m - j = n - j + m by omega, Nat.add_mod_right, Nat.mod_eq_of_lt (by omega)]
    rw [h1]
    congr 1
    omega
  · have h1 : (n + m - j) % m = n + m - j := Nat.mod_eq_of_lt (by omega)
    rw [h1, show n + m - j + m - 1 = n + m - (j + 1) + m by omega, Nat.add_mod_right]

/-- A run taken back from the newest record, when `j` of its records are already taken. -/
theorem runBack_run {α : Type} {m n : Nat} {get : Nat → Option α} {f : α → α → Bool} {run : List α}
    (h : RingRun m get (fun a b => f a b = true) n run) (k j : Nat) (hk : k + j = run.length) :
    runBack m get f (m - j) ((n + m - j) % m) (run.drop (run.length - j)) = run := by
  obtain ⟨hn, h0, hm, hget, hfol, hlast, hfirst⟩ := h
  induction k generalizing j with
  | zero =>
    have hj : j = run.length := by omega
    subst hj
    rw [Nat.sub_self, List.drop_zero]
    rcases Nat.lt_or_ge run.length m with hl | hl
    · obtain ⟨q, hq⟩ : ∃ q, m - run.length = q + 1 := ⟨m - run.length - 1, by omega⟩
      rw [hq, runBack]
      cases hg : get ((n + m - run.length) % m) with
      | none => rfl
      | some a =>
        cases hr : run.head? with
        | none => rw [List.head?_eq_none_iff] at hr; rw [hr] at h0; cases h0
        | some b =>
          have := hfirst hl a (by rw [hg]; rfl) b (by rw [hr]; rfl)
          simp only [this, Bool.false_eq_true, if_false]
    · have : m - run.length = 0 := by omega
      rw [this, runBack]
  | succ k ih =>
    have hjl : j < run.length := by omega
    obtain ⟨q, hq⟩ : ∃ q, m - j = q + 1 := ⟨m - j - 1, by omega⟩
    have hg := hget j hjl
    have hgs : run[run.length - 1 - j]? = some run[run.length - 1 - j] :=
      List.getElem?_eq_getElem (by omega)
    rw [hgs] at hg
    have hd : run.drop (run.length - (j + 1)) =
        run[run.length - 1 - j] :: run.drop (run.length - j) := by
      rw [show run.length - (j + 1) = run.length - 1 - j by omega, List.drop_eq_getElem_cons (by omega)]
      congr 2
      omega
    have hstep := ih (j + 1) (by omega)
    rw [show m - (j + 1) = q by omega, ← back_step hn (by omega), hd] at hstep
    rw [hq, runBack, hg]
    cases hr : (run.drop (run.length - j)).head? with
    | none => exact hstep
    | some b =>
      rw [List.head?_drop] at hr
      have := hfol (run.length - 1 - j) _ (by rw [hgs]; rfl) b
        (by rw [show run.length - 1 - j + 1 = run.length - j by omega, hr]; rfl)
      simp only [this, if_true]
      exact hstep

theorem getLast?_eq_index {α : Type} (l : List α) : l.getLast? = l[l.length - 1]? := by
  rw [List.getLast?_eq_getElem?]

/-- A run stands among the runs of its ring. -/
theorem run_mem {α : Type} {m n : Nat} {get : Nat → Option α} {f : α → α → Bool} {run : List α}
    (h : RingRun m get (fun a b => f a b = true) n run) : (n, run) ∈ ringRuns m get f := by
  have hb := runBack_run h run.length 0 (by omega)
  obtain ⟨hn, h0, hm, hget, hfol, hlast, hfirst⟩ := h
  unfold ringRuns
  rw [List.mem_filterMap]
  refine ⟨n, List.mem_range.2 hn, ?_⟩
  have hg := hget 0 h0
  have hnm : (n + m - 0) % m = n := by
    rw [Nat.sub_zero, Nat.add_mod_right, Nat.mod_eq_of_lt hn]
  rw [hnm] at hg hb
  rw [Nat.sub_zero, Nat.sub_zero, List.drop_length] at hb
  obtain ⟨r, hr⟩ : ∃ r, run.getLast? = some r := by
    rw [getLast?_eq_index]
    exact ⟨_, List.getElem?_eq_getElem (by omega)⟩
  have hr' : run[run.length - 1 - 0]? = some r := by
    rw [Nat.sub_zero, ← getLast?_eq_index, hr]
  rw [hr'] at hg
  rw [hg]
  dsimp only
  rw [if_neg, hb]
  intro hc
  rw [Option.any_eq_true] at hc
  obtain ⟨x, hx, hfx⟩ := hc
  exact hlast r (by rw [hr]; rfl) x (by rw [hx]; rfl) hfx

/-- What a run is when `j` of its records are taken back: each in its place, each following. -/
structure RunSoFar {α : Type} (m : Nat) (get : Nat → Option α) (f : α → α → Bool) (n : Nat)
    (run : List α) : Prop where
  bound : run.length ≤ m
  places : ∀ k < run.length, get ((n + m - k) % m) = run[run.length - 1 - k]?
  order : ∀ k, ∀ a ∈ run[k]?, ∀ b ∈ run[k + 1]?, f a b = true

theorem RunSoFar.cons {α : Type} {m n : Nat} {get : Nat → Option α} {f : α → α → Bool}
    {run : List α} {r : α} (h : RunSoFar m get f n run) (hl : run.length < m)
    (hg : get ((n + m - run.length) % m) = some r) (hf : ∀ b ∈ run.head?, f r b = true) :
    RunSoFar m get f n (r :: run) := by
  refine ⟨by simp only [List.length_cons]; omega, ?_, ?_⟩
  · intro k hk
    rw [List.length_cons] at hk ⊢
    rcases Nat.lt_or_ge k run.length with hkl | hkl
    · rw [h.places k hkl]
      rw [show run.length + 1 - 1 - k = (run.length - 1 - k) + 1 by omega, List.getElem?_cons_succ]
    · have : k = run.length := by omega
      subst this
      rw [hg]
      simp
  · intro k
    cases k with
    | zero =>
      intro a ha b hb
      simp only [List.getElem?_cons_zero, Option.mem_def, Option.some.injEq] at ha
      subst ha
      rw [List.getElem?_cons_succ] at hb
      exact hf b (by rw [List.head?_eq_getElem?]; exact hb)
    | succ k =>
      rw [List.getElem?_cons_succ, List.getElem?_cons_succ]
      exact h.order k

/-- A run taken back is as long as it can be. -/
theorem runBack_so_far {α : Type} {m n : Nat} {get : Nat → Option α} {f : α → α → Bool} (hn : n < m)
    (fuel : Nat) (run : List α) (h : RunSoFar m get f n run) (hfuel : fuel + run.length = m) :
    let l := runBack m get f fuel ((n + m - run.length) % m) run
    RunSoFar m get f n l ∧ run.length ≤ l.length
      ∧ (∃ t, l = t ++ run)
      ∧ (l.length < m → ∀ a ∈ get ((n + m - l.length) % m), ∀ b ∈ l.head?, f a b = false)
      ∧ (0 < fuel → run = [] → get n ≠ none → l ≠ []) := by
  induction fuel generalizing run with
  | zero =>
    refine ⟨h, Nat.le_refl _, ⟨[], rfl⟩, ?_, ?_⟩
    · intro hl
      simp only [runBack] at hl
      omega
    · intro h0; cases h0
  | succ fuel ih =>
    intro l
    have hl : run.length < m := by omega
    cases hg : get ((n + m - run.length) % m) with
    | none =>
      have : l = run := by simp only [l, runBack, hg]
      rw [this]
      refine ⟨h, Nat.le_refl _, ⟨[], rfl⟩, ?_, ?_⟩
      · intro _ a ha
        rw [hg] at ha
        cases ha
      · rintro _ rfl hne
        rw [List.length_nil, Nat.sub_zero, Nat.add_mod_right, Nat.mod_eq_of_lt hn] at hg
        exact absurd hg hne
    | some r =>
      have go : (∀ b ∈ run.head?, f r b = true) → l = runBack m get f fuel ((n + m - (r :: run).length) % m) (r :: run) →
          RunSoFar m get f n l ∧ run.length ≤ l.length ∧ (∃ t, l = t ++ run)
          ∧ (l.length < m → ∀ a ∈ get ((n + m - l.length) % m), ∀ b ∈ l.head?, f a b = false)
          ∧ (0 < fuel + 1 → run = [] → get n ≠ none → l ≠ []) := by
        intro hf hle
        obtain ⟨a1, a2, ⟨t, ht⟩, a4, -⟩ := ih (r :: run) (h.cons hl hg hf) (by rw [List.length_cons]; omega)
        rw [← hle] at a1 a2 ht a4
        refine ⟨a1, by rw [List.length_cons] at a2; omega, ⟨t ++ [r], by rw [ht]; simp⟩, a4, ?_⟩
        intro _ _ _ he
        rw [he] at a2
        simp at a2
      cases hr : run.head? with
      | none =>
        apply go
        · intro b hb; rw [hr] at hb; cases hb
        · simp only [l, runBack, hg, hr, List.length_cons]
          rw [back_step hn hl]
      | some b =>
        cases hf : f r b with
        | false =>
          have : l = run := by simp only [l, runBack, hg, hr, hf, Bool.false_eq_true, if_false]
          rw [this]
          refine ⟨h, Nat.le_refl _, ⟨[], rfl⟩, ?_, ?_⟩
          · intro _ a ha c hc
            rw [hg] at ha
            rw [hr] at hc
            cases ha
            cases hc
            exact hf
          · rintro _ rfl
            cases hr
        | true =>
          apply go
          · intro c hc; rw [hr] at hc; cases hc; exact hf
          · simp only [l, runBack, hg, hr, hf, if_true, List.length_cons]
            rw [back_step hn hl]

/-- Each of a ring's runs is one. -/
theorem mem_run {α : Type} {m i : Nat} {get : Nat → Option α} {f : α → α → Bool} {l : List α}
    (h : (i, l) ∈ ringRuns m get f) : RingRun m get (fun a b => f a b = true) i l := by
  unfold ringRuns at h
  rw [List.mem_filterMap] at h
  obtain ⟨n, hn, h⟩ := h
  rw [List.mem_range] at hn
  cases hg : get n with
  | none => rw [hg] at h; cases h
  | some r =>
    rw [hg] at h
    dsimp only at h
    split at h
    · cases h
    · rename_i hno
      simp only [Option.some.injEq, Prod.mk.injEq] at h
      obtain ⟨rfl, rfl⟩ := h
      have hz : (n + m - ([] : List α).length) % m = n := by
        rw [List.length_nil, Nat.sub_zero, Nat.add_mod_right, Nat.mod_eq_of_lt hn]
      have := runBack_so_far (get := get) (f := f) hn m [] ⟨Nat.zero_le _, fun k hk => absurd hk (Nat.not_lt_zero _), by
        intro k a ha; cases k <;> cases ha⟩ (by rw [List.length_nil]; omega)
      rw [hz] at this
      obtain ⟨a1, -, -, a4, a5⟩ := this
      have hne := a5 (by omega) rfl (by rw [hg]; simp)
      have hpos : 0 < (runBack m get f m n []).length := List.length_pos_iff.2 hne
      refine ⟨hn, hpos, a1.bound, a1.places, a1.order, ?_, ?_⟩
      · intro a ha b hb hfab
        have h0 := a1.places 0 hpos
        rw [Nat.sub_zero, Nat.add_mod_right, Nat.mod_eq_of_lt hn, Nat.sub_zero, ← getLast?_eq_index, hg] at h0
        rw [← h0] at ha
        cases ha
        apply hno
        rw [Option.any_eq_true]
        exact ⟨b, hb, hfab⟩
      · intro hl a ha b hb
        exact fun hab => absurd (a4 hl a ha b hb) (by rw [show f a b = true from hab]; simp)

/-- The runs are listed by the place of their newest record, lowest first. -/
theorem runs_places {α : Type} (m : Nat) (get : Nat → Option α) (f : α → α → Bool) :
    (ringRuns m get f).Pairwise fun x y => x.1 < y.1 := by
  unfold ringRuns
  refine List.Pairwise.filterMap (R := fun a b : Nat => a < b) _ ?_ List.pairwise_lt_range
  intro a b hab x hx y hy
  dsimp only at hx hy
  split at hx
  · cases hx
  · split at hx
    · cases hx
    · split at hy
      · cases hy
      · split at hy
        · cases hy
        · simp only [Option.some.injEq] at hx hy
          rw [← hx, ← hy]
          exact hab

/-- The fold by which the longest run is found keeps the longest so far, the first among equals. -/
theorem longest_fold {α : Type} (l : List (Nat × List α)) (b x : Nat × List α)
    (hp : (b :: l).Pairwise fun x y => x.1 < y.1) (hx : x ∈ b :: l)
    (hm : ∀ y ∈ b :: l, y.2.length < x.2.length ∨ (y.2.length = x.2.length ∧ x.1 ≤ y.1)) :
    l.foldl
      (fun best x =>
        match best with
        | none => some x
        | some b => if b.2.length < x.2.length then some x else some b) (some b) = some x := by
  induction l generalizing b with
  | nil => rw [List.mem_singleton] at hx; rw [hx]; rfl
  | cons a t ih =>
    rw [List.foldl_cons]
    have h1 := List.pairwise_cons.1 hp
    have h2 := List.pairwise_cons.1 h1.2
    dsimp only
    split
    · rename_i hlt
      apply ih a h1.2
      · rcases List.mem_cons.1 hx with rfl | h
        · have := hm a (by simp); omega
        · exact h
      · intro y hy; exact hm y (List.mem_cons_of_mem _ hy)
    · rename_i hlt
      apply ih b
      · rw [List.pairwise_cons]; exact ⟨fun y hy => h1.1 y (by simp [hy]), h2.2⟩
      · simp only [List.mem_cons] at hx ⊢
        rcases hx with rfl | rfl | h
        · exact Or.inl rfl
        · have h3 := hm b (by simp)
          have h4 := h1.1 x (by simp)
          rcases h3 with h3 | h3 <;> omega
        · exact Or.inr h
      · intro y hy; apply hm; simp only [List.mem_cons] at hy ⊢; tauto

/-- The run that a rebuild takes. -/
theorem longestRun_rebuilt {α : Type} {m n : Nat} {get : Nat → Option α} {f : α → α → Bool}
    {run : List α} (h : RebuiltRun m get (fun a b => f a b = true) n run) :
    longestRun (ringRuns m get f) = some (n, run) := by
  have hmem := run_mem h.1
  have hp := runs_places m get f
  have hall : ∀ y ∈ ringRuns m get f, y.2.length < (n, run).2.length
      ∨ (y.2.length = (n, run).2.length ∧ (n, run).1 ≤ y.1) := fun y hy => h.2 y.1 y.2 (mem_run hy)
  unfold longestRun
  revert hmem hp hall
  cases ringRuns m get f with
  | nil => intro h; cases h
  | cons b l =>
    intro h1 h2 h3
    rw [List.foldl_cons]
    exact longest_fold l b (n, run) h2 h1 h3

/-- With no readable place there is no run. -/
theorem longestRun_none {α : Type} {m : Nat} {get : Nat → Option α} {f : α → α → Bool}
    (h : ∀ n < m, get n = none) : longestRun (ringRuns m get f) = none := by
  have : ringRuns m get f = [] := by
    unfold ringRuns
    rw [List.filterMap_eq_nil_iff]
    intro n hn
    rw [h n (List.mem_range.1 hn)]
  rw [this]
  rfl

/-- The one record of a ring with no other is the run a rebuild takes. -/
theorem lone_run {α : Type} {m n : Nat} {get : Nat → Option α} {follows : α → α → Prop} {a : α}
    (hm : 1 < m) (hn : n < m) (hg : get n = some a) (h0 : ∀ i < m, i ≠ n → get i = none) :
    RebuiltRun m get follows n [a] := by
  have hnext : (n + 1) % m ≠ n := by
    rcases Nat.lt_or_ge (n + 1) m with h | h
    · rw [Nat.mod_eq_of_lt h]; omega
    · rw [show n + 1 = m by omega, Nat.mod_self]; omega
  have hback : ∀ i < m, (i + m - 1) % m ≠ i := fun i hi => by
    rcases Nat.eq_zero_or_pos i with rfl | h
    · rw [Nat.mod_eq_of_lt (by omega)]; omega
    · rw [show i + m - 1 = i - 1 + m by omega, Nat.add_mod_right, Nat.mod_eq_of_lt (by omega)]; omega
  refine ⟨⟨hn, Nat.one_pos, by simp; omega, ?_, ?_, ?_, ?_⟩, ?_⟩
  · intro k hk
    obtain rfl : k = 0 := by simpa using hk
    simpa [Nat.mod_eq_of_lt hn] using hg
  · intro k x _ y hy
    simp at hy
  · rw [h0 _ (Nat.mod_lt _ (by omega)) hnext]
    simp
  · rw [List.length_singleton, h0 _ (Nat.mod_lt _ (by omega)) (hback n hn)]
    simp
  · rintro i other ⟨hi, hpos, hle, hrun, -⟩
    have hin : i = n := by
      have h1 := hrun 0 hpos
      rw [Nat.sub_zero, Nat.add_mod_right, Nat.mod_eq_of_lt hi,
        List.getElem?_eq_getElem (by omega)] at h1
      by_contra hne
      rw [h0 i hi hne] at h1
      cases h1
    subst hin
    refine .inr ⟨?_, Nat.le_refl _⟩
    by_contra hne
    have h1 := hrun 1 (by simp at hne; omega)
    rw [h0 _ (Nat.mod_lt _ (by omega)) (hback i hi), List.getElem?_eq_getElem (by omega)] at h1
    cases h1

end Sys2Proof.Machine
end

