-- ==== Sys2Proof/Tests/Slice0.lean ====
section
/-! SUPPORT. The model's own tests: ill-formed commands that every check of WellFormed refuses, fares and
check words worked out by hand from the spec, and for every statement of Certificates/Slice0 that has
hypotheses a state and operands that meet them. -/

namespace Sys2Proof.Tests

open Sys2Proof.Machine

/-- A running station in service: commissioned, with its link up and nothing in any block. -/
def ready : State :=
  { State.reset with
    pi :=
      { terminal := { PortState.start with attention := true },
        uplink := { PortState.start with attention := true },
        service := { PortState.start with attention := true } },
    sc :=
      { State.reset.sc with
        power := .running, mode := .inService, linkUp := true, clock := 1000,
        station := { id := 7, trip := 5, target := .inService, clockValid := true } } }

/-- A DOCKED dock with a bike. -/
def dockedRecord : DockRecord :=
  { DockRecord.start .empty with
    state := .docked, suspended := false, bike := some { id := 9, mark := false, since := 10 } }

/-- The station with a dock record changed, its claim counted. -/
def dockAt (d : DockNo) (r : DockRecord) : State := putDock d r ready

theorem ready_claims : ClaimsRight ready := (claimsRight_iff _).2 (by decide)

theorem ready_array : ArrayRight ready := ⟨blank_wf, by decide⟩

theorem ready_attention : AttentionRight ready := by
  intro p
  cases p <;> refine iff_of_true (by decide) ⟨by decide, .inr ?_⟩ <;>
    simp only [Noticed] <;> decide

theorem ready_ways : WaysRight ready := by
  intro i
  simp [ready, State.reset, CardCache.start]

theorem dockAt_claims (d : DockNo) (r : DockRecord) : ClaimsRight (dockAt d r) :=
  claims_putDock ready_claims

theorem dockAt_clean (d : DockNo) (r : DockRecord) : Clean (dockAt d r) := putDock_clean rfl

theorem dockAt_dock (d : DockNo) (r : DockRecord) : dockOf d (dockAt d r) = r :=
  dockOf_putDock_self d r ready


/-! ### Ill-formed commands are refused by every check of WellFormed -/

/-- Whether none of some commands is well formed. -/
def noneFits (l : List Instr) : Bool := l.all fun c => !c.wf

theorem test_wf_frame : noneFits [.frameRefused .uplink [0, 0]] = true := by decide

theorem test_wf_tags_ports :
    noneFits [.read .uplink 256, .readRepeat .uplink 256, .noticeRead .uplink 256,
      .portClear .uplink 256, .hire 256 1 .any none, .cancel 256 0, .stationView 256,
      .quote 256 0 0, .fillFetch 256, .fillAnswer 256 ⟨1, 1, 0, 0, 1, 0, 0⟩,
      .fillAnswerNotFound 256 1, .cardPush 256 ⟨1, 1, 0, 0, 1, 0, 0⟩, .cardInvalidate 256 1,
      .cacheFlush 256, .cacheMode 256 true true, .linkStateUp 256, .linkStateDown 256,
      .reportRead 256 1, .reportReadRestart 256 1, .reportRelease 256 0, .tariffDrop 256 0,
      .tariffLoad 256 0 ⟨0, 1, 0, 0, true, List.replicate 4 ⟨1, 1, 0⟩⟩] = true := by decide

theorem test_wf_tags_orders :
    noneFits [.crewLoad 256 1 0 48 (List.replicate 48 true), .crewDrop 256 1,
      .floorSet 256 .collect 0, .orderSubmit 256 1 [], .orderStatus 256 0, .orderAbort 256 0 1,
      .policySet 256 .clockSkew .log, .faultRead .uplink 256 1, .faultDiscard .uplink 256 1 true,
      .dockFaultRead .uplink 256, .bikeFlag 256 1, .bikeClear 256 1, .bikeFlagRead .uplink 256 0 1,
      .watchSet .uplink 256 0 0 0 1 .any .report true, .watchDrop .uplink 256 0 0,
      .watchClearHits .uplink 256 none, .watchRead .uplink 256] = true := by decide

theorem test_wf_tags_station :
    noneFits [.storeStatus 256, .storeClear 256 true, .timeSet 256 1, .stationIdSet 256 1,
      .stationMode .uplink 256 .inService 0, .configSet 256 .grace (.num 0), .configRead .uplink 256,
      .stationStatus .uplink 256, .stationRestartWarm 256, .stationRestartCold 256] = true := by
  decide

theorem test_wf_cards :
    noneFits [.hire 0 (2 ^ 56) .any none, .fillAnswerNotFound 0 (2 ^ 56), .cardInvalidate 0 (2 ^ 56),
      .fillExpiry (2 ^ 56)] = true := by decide

theorem test_wf_numbers :
    noneFits [.cancel 0 256, .quote 0 256 0, .quote 0 0 65536, .reportRead 0 256,
      .reportReadRestart 0 256, .reportRelease 0 4294967296, .tariffDrop 0 256,
      .crewLoad 0 65536 0 48 (List.replicate 48 true), .crewLoad 0 1 256 48 (List.replicate 48 true),
      .crewLoad 0 1 0 256 (List.replicate 48 true), .crewLoad 0 1 0 48 [], .crewDrop 0 65536,
      .floorSet 0 .collect 256, .orderSubmit 0 65536 [], .orderStatus 0 256, .orderAbort 0 256 1,
      .orderAbort 0 0 65536, .faultRead .uplink 0 256, .faultDiscard .uplink 0 256 true,
      .bikeFlag 0 4294967296, .bikeClear 0 4294967296, .bikeFlagRead .uplink 0 256 1,
      .bikeFlagRead .uplink 0 0 256] = true := by decide

theorem test_wf_numbers_station :
    noneFits [.watchSet .uplink 0 256 0 0 1 .any .report true,
      .watchSet .uplink 0 0 65536 0 1 .any .report true,
      .watchSet .uplink 0 0 0 256 1 .any .report true,
      .watchSet .uplink 0 0 0 0 256 .any .report true, .watchDrop .uplink 0 256 0,
      .watchDrop .uplink 0 0 65536, .watchClearHits .uplink 0 (some 256), .timeSet 0 4294967296,
      .stationIdSet 0 65536, .stationMode .uplink 0 .inService 65536, .pwrfail 10] = true := by decide

theorem test_wf_members :
    noneFits [.fillAnswer 0 ⟨2 ^ 56, 1, 0, 0, 1, 0, 0⟩, .cardPush 0 ⟨2 ^ 56, 1, 0, 0, 1, 0, 0⟩,
      .cardPush 0 ⟨1, 256, 0, 0, 1, 0, 0⟩, .cardPush 0 ⟨1, 1, 256, 0, 1, 0, 0⟩,
      .cardPush 0 ⟨1, 1, 0, 2147483648, 1, 0, 0⟩, .cardPush 0 ⟨1, 1, 0, -2147483649, 1, 0, 0⟩,
      .cardPush 0 ⟨1, 1, 0, 0, 256, 0, 0⟩, .cardPush 0 ⟨1, 1, 0, 0, 1, 256, 0⟩,
      .cardPush 0 ⟨1, 1, 0, 0, 1, 0, 4294967296⟩] = true := by decide

theorem test_wf_records :
    noneFits [.tariffLoad 0 256 ⟨0, 1, 0, 0, true, List.replicate 4 ⟨1, 1, 0⟩⟩,
      .tariffLoad 0 0 ⟨0, 1, 0, 0, true, []⟩, .orderSubmit 0 1 [.flagBike 4294967296],
      .orderSubmit 0 1 [.clearBike 4294967296], .scrubRow [⟨64, 0, .single⟩],
      .scrubRow [⟨0, 64, .single⟩], .startBegin [⟨64, 0, .double⟩]] = true := by decide

/-- A stamp whose fields are at their highest values. -/
def highStamp : Stamp :=
  { origin := 65535, trip := 65535, card := 2 ^ 56 - 1, start := 4294967295, plan := 15,
    auth := .offlineUnknown }

/-- An empty closed dock. -/
def empty : DockCondition := { lockOpen := false, bike := none }

/-- A survey answer with a stamp in the last-release memory. -/
def surveyOf (t : Stamp) : Instr :=
  .surveyPollAnswer 0 ⟨none, empty⟩ ⟨none, .release (some t)⟩

theorem test_wf_answers :
    noneFits [.dockAnswer 0 ⟨some (16, .taken), empty⟩,
      .dockAnswer 0 ⟨some (0, .latched (some [])), empty⟩,
      .dockAnswer 0 ⟨none, ⟨false, some ⟨4294967296, false⟩⟩⟩,
      .surveyPollAnswer 0 ⟨some (16, .taken), empty⟩ ⟨none, .nothing⟩,
      .surveyPollAnswer 0 ⟨none, empty⟩ ⟨some [], .nothing⟩,
      surveyOf { highStamp with origin := 65536 }, surveyOf { highStamp with trip := 65536 },
      surveyOf { highStamp with card := 2 ^ 56 }, surveyOf { highStamp with start := 4294967296 },
      surveyOf { highStamp with plan := 16 }] = true
    ∧ (surveyOf highStamp).wf = true := by decide

/-! ### Worked cases of the manual -/

/-- Plan 2 of section 5.9. -/
def plan2 : Plan :=
  { free := 30, bands := [⟨some 60, 30, 100⟩, ⟨some 120, 15, 75⟩, ⟨none, 60, 400⟩], cap := 1200,
    minBalance := 0, offline := true }

/-- Case A of section 5.9. -/
theorem test_fare_afternoon :
    arrivalFare (some plan2) 1000000 1012345 902 418 120 = (800, FareFlags.none) := by decide

/-- Case B of section 5.9. -/
theorem test_fare_overnight :
    arrivalFare (some plan2) 0 100000 902 418 120 = (2400, FareFlags.none) := by decide

/-- Case C of section 5.9, within the grace and a second beyond it. -/
theorem test_fare_redock :
    arrivalFare (some plan2) 1000000 1000095 418 418 120 = (0, { FareFlags.none with redock := true })
    ∧ arrivalFare (some plan2) 1000000 1000121 418 418 120 = (0, FareFlags.none) := by decide

/-- Case D of section 5.9. -/
theorem test_fare_skew :
    arrivalFare (some plan2) 1500000 1499880 902 418 120 = (0, { FareFlags.none with skew := true })
    ∧ arrivalFare (some plan2) 1500000 1499880 418 418 120
      = (0, { FareFlags.none with skew := true, redock := true }) := by decide

/-- Case E of section 5.9. -/
theorem test_fare_saturates :
    arrivalFare (some ⟨0, [⟨none, 1, 5000⟩], 0, 0, true⟩) 0 30000 902 418 120
      = (65535, { FareFlags.none with saturated := true }) := by decide

/-- Case F of section 5.9. -/
theorem test_fare_second_day :
    arrivalFare (some plan2) 0 86400 902 418 120 = (1200, FareFlags.none)
    ∧ arrivalFare (some plan2) 0 86401 902 418 120 = (2400, FareFlags.none) := by decide

/-- Case G of section 5.9, and the same with no day cap. -/
theorem test_fare_clamped :
    arrivalFare (some plan2) 0 700000 902 418 120 = (8400, { FareFlags.none with clamped := true })
    ∧ arrivalFare (some { plan2 with cap := 0 }) 0 700000 902 418 120
      = (65535, { FareFlags.none with clamped := true, saturated := true }) := by decide

/-- The check word of R204 over the digits 1 to 9: the check value that is published for a check of this
polynomial, start and order (from outside the manual). -/
theorem test_check_word :
    checkWord ((List.range 9).map fun i => BitVec.ofNat 8 (0x31 + i)) = 0x29B1#16 := by decide +kernel

/-! ### Witnesses: the hypotheses of each statement hold together -/

/-- The station HALTED. -/
def halted : State := { ready with sc := { ready.sc with power := .halted } }

/-- The station without main power. -/
def dark : State := { ready with sc := { ready.sc with power := .off } }

/-- The station stopped, a start's cause waiting. -/
def stoppedBy (c : StartCause) : State :=
  { ready with sc := { ready.sc with power := .stopped, cause := some c } }

theorem test_StepTakesTheFront :
    { ready with pending := [.clockTick] }.pending = .clockTick :: [] ∧ ready.pending = [] :=
  ⟨rfl, rfl⟩

theorem test_RefusedRequests_powerFail :
    slotRequestOf (.cancel 0 1) = some (.terminal, .cancel, 0, true) ∧ powered halted = true
      ∧ Refuses .terminal .cancel 0 true halted .powerFail :=
  ⟨rfl, by decide, (by decide : running halted = false)⟩

theorem test_RefusedRequests_notOnPort :
    slotRequestOf (.watchRead .terminal 0) = some (.terminal, .watchRead, 0, true)
      ∧ powered ready = true ∧ Refuses .terminal .watchRead 0 true ready .notOnPort :=
  ⟨rfl, by decide, by decide, by decide⟩

theorem test_RefusedRequests_badForm :
    slotRequestOf (.cancel 16 1) = some (.terminal, .cancel, 16, true) ∧ powered ready = true
      ∧ Refuses .terminal .cancel 16 true ready .badForm :=
  ⟨rfl, by decide, by decide, by decide, .inr (by decide)⟩

/-- The Terminal port with replies to `n` tags in its finished list. -/
def heldBy (n : Nat) : State :=
  setPort .terminal
    { getPort .terminal ready with
      finished := (List.range n).map fun i =>
        { tag := i, kind := .stationView, outcome := .done, body := .empty } } ready

theorem test_RefusedRequests_dupTag :
    slotRequestOf (.cancel 0 1) = some (.terminal, .cancel, 0, true) ∧ powered (heldBy 1) = true
      ∧ Refuses .terminal .cancel 0 true (heldBy 1) .dupTag :=
  ⟨rfl, by decide, by decide, by decide, rfl, by decide, by decide⟩

theorem test_RefusedRequests_full :
    slotRequestOf (.cancel 15 1) = some (.terminal, .cancel, 15, true) ∧ powered (heldBy 4) = true
      ∧ Refuses .terminal .cancel 15 true (heldBy 4) .full :=
  ⟨rfl, by decide, by decide, by decide, rfl, by decide, by decide, by decide⟩

theorem test_RefusedRequests_plain :
    plainRequestOf (.read .terminal 16) = some (.terminal, .read, 16) ∧ powered ready = true
      ∧ running ready = true ∧ 15 < 16
      ∧ plainRequestOf (.portClear .uplink 0) = some (.uplink, .portClear, 0)
      ∧ powered halted = true ∧ running halted = false := by decide

theorem test_RefusedFrames_powerFail : powered halted = true ∧ running halted = false := by decide

theorem test_RefusedFrames_long :
    powered ready = true ∧ running ready = true ∧ 120 < (121#8).toNat := by decide

/-- The frame of tag 0, kind 0 and no body is given check word 0, which is not its own. -/
theorem test_RefusedFrames_check :
    powered ready = true ∧ running ready = true ∧ (0#8).toNat ≤ 120 ∧ ([] : List Byte).length = (0#8).toNat
      ∧ ¬[0#8, 0#8] = leBytes 2 (checkWord [0#8, 0#8, 0#8]).toNat := by decide +kernel

theorem test_RefusedFrames_kinds :
    ([0x9c#8, 0xcc#8] = leBytes 2 (checkWord [0#8, 0#8, 0#8]).toNat ∧ kindOf (0#8).toNat = none)
      ∧ leBytes 2 (checkWord [0#8, 45#8, 0#8]).toNat = leBytes 2 (checkWord [0#8, 45#8, 0#8]).toNat
      ∧ kindOf (45#8).toNat = none ∧ kindOf (44#8).toNat = some .stationRestart
      ∧ served .stationRestart .terminal = false := by decide +kernel

/-- A port in the midst of an answer. -/
def answering (p : Port) (c : AnswerContent) (l : List Reply) : State :=
  setPort p
    { getPort p ready with
      finished := l, reported := { EventNotices.clear with restarted := true },
      answer := some (answerFor .accepted 3 1 c) } ready

/-- The reply of an ended hire. -/
def hireReply : Reply := { tag := 2, kind := .hire, outcome := .noBike, body := .empty }

theorem test_RepliesAreRead_asked : running ready = true ∧ 15 ≤ 15 := by decide

theorem test_RepliesAreRead_freed :
    let s := answering .terminal (.reply (some hireReply) false) [hireReply]
    let a := answerFor .accepted 3 1 (.reply (some hireReply) false)
    running s = true ∧ (getPort .terminal s).answer = some a ∧ a.complete = false
      ∧ a.content = .reply (some hireReply) false
      ∧ (getPort .terminal s).finished = hireReply :: [] := by decide

theorem test_RepliesAreRead_nothing :
    let s := answering .terminal (.reply none false) []
    let a := answerFor .accepted 3 1 (.reply none false)
    running s = true ∧ (getPort .terminal s).answer = some a ∧ a.complete = false
      ∧ a.content = .reply none false := by decide

theorem test_RepliesAreRead_repeat :
    let s := answering .terminal (.reply (some hireReply) true) []
    let a := answerFor .accepted 3 1 (.reply (some hireReply) true)
    running s = true ∧ (getPort .terminal s).answer = some a ∧ a.complete = false
      ∧ a.content = .reply (some hireReply) true := by decide

theorem test_NoticesAreReported_asked : running ready = true ∧ 0 ≤ 15 := by decide

theorem test_NoticesAreReported_cleared :
    let s := answering .uplink (.notices [8#8, 0#8]) []
    let a := answerFor .accepted 3 1 (.notices [8#8, 0#8])
    running s = true ∧ (getPort .uplink s).answer = some a ∧ a.complete = false
      ∧ a.content = .notices [8#8, 0#8] := by decide

/-- A hire record in a state. -/
def hireIn (st : HireState) : HireRecord :=
  { tag := 2, card := 77, dockRequest := some 0, plan := none, state := st, chosen := some 0,
    cancelRequested := false }

/-- The station with one hire record. -/
def withHire (st : HireState) : State := { ready with hu := [hireIn st] }

theorem test_PortClear_service : running ready = true ∧ 15 ≤ 15 := by decide

theorem test_PortClear_uplink : running ready = true ∧ Clean ready := by decide

theorem test_AttentionEveryStep :
    AttentionRight ready ∧ ∃ t, step { ready with pending := [.clockTick] } = .next t :=
  ⟨ready_attention, _, rfl⟩

theorem test_ClockCounts_time :
    Accepts .uplink .timeSet 15 ready ∧ 0 < 1 ∧ 1 ≤ 4294967295 ∧ 0 < 4294967295 := by decide

theorem test_ClockCounts_id :
    Accepts .uplink .stationIdSet 0 ready ∧ 0 < 1 ∧ 65535 ≤ 65535 := by decide

theorem test_StationMode_barred :
    Accepts .service .stationMode 0 ready ∧ Clean ready ∧ ¬Port.service = .uplink
      ∧ ready.sc.config.serviceMaySetMode = false := by decide

theorem test_StationMode_starting :
    let s := { ready with sc := { ready.sc with mode := .starting } }
    Accepts .uplink .stationMode 0 s ∧ Mode.maintenance ≠ .starting ∧ Clean s
      ∧ s.sc.mode = .starting := by decide

theorem test_StationMode_same :
    Accepts .uplink .stationMode 0 ready ∧ Clean ready ∧ ready.sc.mode = .inService := by decide

theorem test_StationMode_changed :
    Accepts .uplink .stationMode 0 (withHire .ended) ∧ Clean (withHire .ended)
      ∧ (withHire .ended).sc.mode ≠ .starting ∧ (withHire .ended).sc.mode ≠ .maintenance
      ∧ ∀ h ∈ (withHire .ended).hu, h.state ≠ .authWait := by decide

theorem test_Configuration_set :
    Accepts .uplink .configSet 0 ready ∧ Clean ready ∧ (9 : Int) < 10 ∧ (10 : Int) ≤ 10
      ∧ (90 : Int) ≤ 90 ∧ (90 : Int) < 91 := by decide

theorem test_Configuration_read : Accepts .service .configRead 0 ready ∧ Clean ready := by decide

theorem test_StationStatus : Accepts .service .stationStatus 0 ready := by decide

theorem test_Causes_reset : ready.sc.power ≠ .off ∧ ready.sc.power ≠ .stopped := by decide

theorem test_Causes_again : (stoppedBy .resetLine).sc.power = .stopped := by decide

theorem test_Causes_power : dark.sc.power = .off ∧ halted.sc.power = .halted := by decide

theorem test_Causes_restart : Accepts .uplink .stationRestart 0 ready := by decide

/-- The station with one record waiting to be written. -/
def writing : State := hand (.plan 3) (.plan (some plan2)) ready

theorem writing_array : ArrayRight writing := ready_array

theorem test_Records_written :
    writing.sc.power ≠ .off ∧ writing.sc.power ≠ .halted
      ∧ (∃ e, writing.rs.writeList = e :: []) ∧ ArrayRight writing :=
  ⟨by decide, by decide, ⟨_, rfl⟩, writing_array⟩

theorem test_Records_halted : dark.sc.power = .off ∧ halted.sc.power = .halted := by decide

theorem test_PowerFailure :
    writing.sc.power ≠ .off ∧ writing.sc.power ≠ .halted ∧ ArrayRight writing
      ∧ (∃ e, writing.rs.writeList = e :: []) ∧ ready.rs.writeList = [] :=
  ⟨by decide, by decide, writing_array, ⟨_, rfl⟩, rfl⟩

theorem test_SupplyLosses :
    ArrayRight writing ∧ writing.rs.writeList ≠ [] ∧ dark.sc.power = .off
      ∧ ready.sc.power ≠ .off := ⟨writing_array, by decide, by decide, by decide⟩

theorem test_StoreStatusAndClear :
    Accepts .uplink .storeStatus 0 ready ∧ Accepts .uplink .storeClear 0 ready := by decide

/-- The station with word 64 in error, row 1 marked weak and the capture locked. -/
def damaged (e : WordError) : State :=
  { ready with rs := { ready.rs with
      errors := [(64, e)], weakRows := vset ready.rs.weakRows 1 true,
      capture := { Capture.clear with locked := true } } }

theorem test_ErrorsFound_single :
    ArrayRight (damaged .single) ∧ vget (damaged .single).rs.weakRows 1 = true
      ∧ vget (damaged .single).rs.weakRows 0 = false := ⟨⟨blank_wf, by decide⟩, by decide, by decide⟩

theorem test_ErrorsFound_double :
    (damaged .double).rs.capture.locked = true ∧ ready.rs.capture.locked = false := by decide

theorem test_ErrorsFound_corrected : errorAt 64 (damaged .corrected) = some .corrected := by decide

theorem ready_agree : SequencesAgree ready := by
  refine ⟨fun n i h => ?_, fun n i h => ?_⟩
  · simp [heldReportAt, ready, State.reset, ReportQueue.cold] at h
  · simp [heldFaultAt, ready, State.reset, FaultUnit.cold] at h

theorem test_ErrorsFound_scrub :
    running ready = true ∧ Clean ready ∧ SequencesAgree ready ∧ 63 < 64
      ∧ vget ready.rs.weakRows ready.rs.scrubRow = false
      ∧ ∀ p ∈ rowPlaces ready.rs.scrubRow, inWriteList p ready = false :=
  ⟨by decide, by decide, ready_agree, by decide, by decide, fun _ _ => rfl⟩

theorem test_CacheAndArrayEveryStep :
    WaysRight writing ∧ ArrayRight writing
      ∧ ∃ t, step { writing with pending := [.recordWriteDone] } = .next t :=
  ⟨ready_ways, writing_array, _, rfl⟩

theorem test_ColdStarts :
    (stoppedBy .restartCold).sc.power = .stopped
      ∧ (stoppedBy .restartCold).sc.cause = some .restartCold
      ∧ (stoppedBy .restartCold).rs.writeList = []
      ∧ readable .signature (flipWords [] (stoppedBy .powerReturn)) ≠ some (.signature true) := by
  decide

/-- A held record with a sequence number. -/
def recordOf (q : Nat) : Report :=
  { seq := q, kind := some .strayIn, place := some { time := 9, dock := 0, bike := 9 },
    flags := ⟨false, .none, false, false⟩, hire := none, fare := none, move := none }

/-- A fault record with a sequence. -/
def faultOf (q : Nat) : FaultRecord :=
  { seq := q, kind := .linkDown, time := 9, dock := none, bike := none, detail := .none }

/-- The station stopped with a store that has every cold record and its signature. -/
def retained : State :=
  { stoppedBy .restartWarm with rs := { ready.rs with array := [] } }

/-- The same with two held reports and two logged faults, each across the wrap of its sequence and of its
ring, and the first report read. -/
def retainedHeld : State :=
  let words := fun p c => (placeBase p, List.replicate (placeWords p) c)
  { retained with rs := { retained.rs with
      array :=
        [words (.queueHead 0) (.queueHead { nextSeq := 1, readMark := 0, oldest := 95, count := 2 }),
         words (.report 0) (.report (recordOf 0)),
         words (.report 95) (.report (recordOf 4294967295)),
         words (.faultHead 0)
           (.faultHead { nextSeq := 1, oldest := 31, count := 2, lost := .clear }),
         words (.fault 0) (.fault (faultOf 0)),
         words (.fault 31) (.fault (faultOf 65535))] } }

theorem test_WarmStarts :
    retained.sc.power = .stopped ∧ retained.sc.cause = some .restartWarm
      ∧ StartCause.restartWarm ≠ .restartCold ∧ retained.rs.writeList = [] ∧ Clean retained
      ∧ retained.rs.supplyLost = false ∧ cellOf .signature retained = [.signature true]
      ∧ cellOf (.queueHead 0) retained
        = List.replicate 3 (.queueHead { nextSeq := 1, readMark := 1, oldest := 0, count := 0 })
      ∧ cellOf (.faultHead 0) retained
        = List.replicate 2 (.faultHead { nextSeq := 1, oldest := 0, count := 0, lost := .clear })
      ∧ cellOf (.registryHead 0) retained = [.registryHead 0] := by decide

theorem test_WarmStarts_held :
    Clean retainedHeld ∧ retainedHeld.rs.writeList = []
      ∧ cellOf .signature retainedHeld = [.signature true]
      ∧ cellOf (.queueHead 0) retainedHeld = List.replicate 3
          (.queueHead { nextSeq := 1, readMark := 0, oldest := 95, count := 2 })
      ∧ (1 + 4294967296 - 2) % 4294967296 = 4294967295
      ∧ (0 + 4294967296 - 4294967295) % 4294967296 ≤ 2
      ∧ (∀ i < 2,
          cellOf (.report (reportRing 95 i)) retainedHeld
            = List.replicate 10 (.report (recordOf ((4294967295 + i) % 4294967296))))
      ∧ cellOf (.faultHead 0) retainedHeld = List.replicate 2
          (.faultHead { nextSeq := 1, oldest := 31, count := 2, lost := .clear })
      ∧ faultSeqFits 65535 none 1 65535 = true ∧ faultSeqFits 65535 (some 65535) 1 0 = true
      ∧ (∀ i < 2, cellOf (.fault (faultRing 31 i)) retainedHeld
          = List.replicate 5 (.fault (faultOf ((65535 + i) % 65536))))
      ∧ cellOf (.registryHead 0) retainedHeld = [.registryHead 0] := by decide

theorem test_Survey_begins :
    State.reset.sc.power = .starting ∧ ClaimsRight State.reset ∧ State.reset.dlc.exchange = none
      ∧ (lineOf 0 State.reset).waiting = [] ∧ probing 0 State.reset = false
      ∧ ArrayRight State.reset :=
  ⟨rfl, (claimsRight_iff _).2 (by decide), rfl, rfl, by decide, blank_wf, by decide⟩

/-- The survey polling dock 47, with 14 answers received. -/
def surveying : State :=
  { ready with dlc := { ready.dlc with
      survey := some { dock := 47, answers := 14, misses := 0, finding := none },
      exchange := some { dock := 47, command := .poll, ack := none, survey := true, sentAt := 0 } } }

theorem test_Survey_polls :
    running surveying = true ∧ ClaimsRight surveying
      ∧ surveying.dlc.exchange = some { dock := 47, command := .poll, ack := none, survey := true, sentAt := 0 }
      ∧ surveying.dlc.survey = some { dock := 47, answers := 14, misses := 0, finding := none }
      ∧ (lineOf 47 surveying).waiting = [] ∧ probing 47 surveying = false
      ∧ ∀ e : DockNo, e.val < 47 →
        ¬((lineOf e surveying).surveyed = true ∧ (lineOf e surveying).sweepDue = true) :=
  ⟨by decide, ready_claims, rfl, rfl, rfl, by decide, by decide⟩

theorem test_ClaimsEveryStep :
    ClaimsRight (dockAt 0 dockedRecord)
      ∧ ∃ t, step { dockAt 0 dockedRecord with pending := [.clockTick] } = .next t :=
  ⟨dockAt_claims 0 dockedRecord, _, rfl⟩

/-- The station after a warm start. -/
def warm : State := { ready with sc := { ready.sc with startKind := .warm } }

theorem test_ClaimsFitEveryStep :
    ClaimsRight warm ∧ ClaimsFit warm ∧ ¬ColdSurvey warm
      ∧ ∃ t, step { warm with pending := [.clockTick] } = .next t :=
  ⟨ready_claims, by unfold ClaimsFit; decide, fun (h : ColdSurvey warm) => absurd h.1 (by decide), _, rfl⟩

/-- The station with plan 15 defined. -/
def tariffed : State := { ready with fu := vset ready.fu 15 (some plan2) }

theorem test_Quotes :
    Accepts .terminal .quote 0 tariffed ∧ 10080 ≤ 10080 ∧ Clean tariffed
      ∧ vget tariffed.fu 15 = some plan2 ∧ vget tariffed.fu 0 = none := by decide

/-- Plan 2's bands but the last have a span. -/
theorem test_Quotes_bands :
    ∀ i b, plan2.bands[i]? = some b → (b.span = none ↔ i + 1 = plan2.bands.length) := by
  intro i b h
  match i with
  | 0 => cases h; decide
  | 1 => cases h; decide
  | 2 => cases h; decide
  | i + 3 => simp [plan2] at h

theorem test_ArrivalFares :
    (418 = 418 ∧ min (1000095 - 1000000) 604800 ≤ 120)
      ∧ ¬(418 = 418 ∧ min (1000121 - 1000000) 604800 ≤ 120) := by decide

theorem test_FaresAreSaturated :
    65535 < capTotal ⟨0, [⟨none, 1, 5000⟩], 0, 0, true⟩ 500
        (bandWalk [⟨none, 1, 5000⟩] (500 - 0))
      ∧ capTotal plan2 206 (bandWalk plan2.bands (206 - 30)) ≤ 65535 ∧ plan2.cap ≠ 0 := by decide

theorem test_LoadedPlans :
    Accepts .uplink .tariffLoad 0 ready
      ∧ ([⟨0, 1, 0⟩, ⟨1440, 120, 5000⟩, ⟨1, 1, 1⟩, ⟨1441, 121, 5001⟩] : List BandEntry).length = 4
      ∧ Clean ready := by decide

theorem test_DroppedPlans :
    Accepts .uplink .tariffDrop 0 tariffed ∧ Clean tariffed ∧ running ready = true ∧ 15 < 16 := by
  decide

/-- A fill of card 77 that no hire waits on. -/
def fill77 : Fill :=
  { card := 77, fetched := false, issuedAt := 900, expiry := 5000, waiter := none, poisoned := false }

/-- The station with that fill in its queue, after two fills that ran out. -/
def filling : State := { ready with cc := { ready.cc with fills := [fill77], runCounter := 2 } }

theorem test_Fills_fetch :
    Accepts .uplink .fillFetch 0 filling
      ∧ filling.cc.fills.filter (fun f => !f.fetched) = [fill77] ++ []
      ∧ [fill77].length = min 4 ([fill77] ++ []).length ∧ (filling.cc.fills.map Fill.card).Nodup := by
  decide

theorem test_Fills_modes :
    Accepts .uplink .cacheMode 0 ready ∧ Accepts .uplink .linkState 0 ready := by decide

/-- A member record in form. -/
def member77 : MemberRecord :=
  { card := 77, standing := 1, plan := 15, balance := 500, hireLimit := 2, baseOpen := 0,
    baseMark := 0 }

/-- A card entry in a state with a pending list. -/
def entry77 (st : EntryState) (trips : List Nat) : CardEntry :=
  { state := st, card := 77, standing := some .active, plan := 15, balance := 500, hireLimit := 2,
    baseOpen := 0, filledAt := some 10, hireAdj := 0, fareAdj := 0, pendingTrips := trips }

/-- The station with entries in the set of card 77. -/
def cached (l : List CardEntry) : State :=
  { filling with cc := { filling.cc with sets := vset filling.cc.sets (cardSet 77) l } }

/-- Four entries of other cards of the set, the last two pinned or none. -/
def others (pinned : Bool) : List CardEntry :=
  [109, 141, 173, 205].map fun k =>
    { entry77 .valid (if pinned then [1] else []) with card := k }

theorem test_Members_asked :
    Clean (cached []) ∧ 0 < member77.card ∧ member77.card < 2 ^ 56 ∧ member77.plan ≤ 15
      ∧ standingOf member77.standing = some .active ∧ Accepts .uplink .cardPush 0 (cached [])
      ∧ Accepts .uplink .fillAnswer 0 (cached [])
      ∧ ∀ f ∈ (cached []).cc.fills, f.card = member77.card → f.waiter = none ∧ f.poisoned = false := by
  decide

theorem test_Members_kept :
    let l := vget (cached [entry77 .revoked [4]]).cc.sets (cardSet 77)
    l.filter (fun e => decide (e.card = 77)) = [entry77 .revoked [4]]
      ∧ (entry77 .revoked [4]).state = .revoked := by decide

theorem test_Members_refreshed :
    let l := vget (cached [entry77 .valid [4]]).cc.sets (cardSet 77)
    l.filter (fun e => decide (e.card = 77)) = [entry77 .valid [4]]
      ∧ (entry77 .valid [4]).state ≠ .revoked := by decide

theorem test_Members_placed :
    (∀ e ∈ vget (cached []).cc.sets (cardSet 77), e.card ≠ 77) ∧ (cached []).cc.allocate = true
      ∧ (vget (cached []).cc.sets (cardSet 77)).length < 4
      ∧ ({ (cached []).cc with allocate := false }).allocate = false := by decide

theorem test_Members_evict :
    let l := vget (cached (others false)).cc.sets (cardSet 77)
    (∀ e ∈ l, e.card ≠ 77) ∧ 4 ≤ l.length
      ∧ l = (others false).take 3 ++ { entry77 .valid [] with card := 205 } :: []
      ∧ (entry77 .valid []).pendingTrips = [] := by decide

theorem test_Members_pinned :
    let l := vget (cached (others true)).cc.sets (cardSet 77)
    (∀ e ∈ l, e.card ≠ 77) ∧ 4 ≤ l.length ∧ ∀ e ∈ l, e.pendingTrips ≠ [] := by decide

theorem test_Invalidated :
    0 < 77 ∧ 77 < 2 ^ 56 ∧ Accepts .uplink .cardInvalidate 0 (cached [])
      ∧ Accepts .uplink .fillAnswer 0 (cached [])
      ∧ (∀ f ∈ (cached []).cc.fills, f.card = 77 → f.waiter = none ∧ f.poisoned = false)
      ∧ ∀ e ∈ vget (cached []).cc.sets (cardSet 77), e.card ≠ 77 := by decide

theorem test_Invalidated_entry (st : EntryState) (trips : List Nat) :
    vget (cached [entry77 st trips]).cc.sets (cardSet 77) = [] ++ entry77 st trips :: []
      ∧ (∀ x ∈ ([] ++ [] : List CardEntry), x.card ≠ 77) ∧ (entry77 st trips).card = 77
      ∧ (entry77 st trips).state = st ∧ (entry77 st trips).pendingTrips = trips := by
  refine ⟨by simp [cached], by simp, rfl, rfl, rfl⟩

theorem test_Flush : Accepts .uplink .cacheFlush 0 (cached [entry77 .valid [4]]) := by decide

theorem test_Expired_third :
    running filling = true ∧ filling.cc.fills.find? (fun f => decide (f.card = 77)) = some fill77
      ∧ fill77.waiter = none ∧ min 3 (filling.cc.runCounter + 1) = 3 ∧ filling.sc.linkUp = true
      ∧ Clean filling := by decide

/-- The station with every fault policy IGNORE. -/
def ignoring (s : State) : State :=
  { s with flt := { s.flt with policies := Vector.replicate 14 .ignore } }

theorem test_Expired_down :
    policyOf .linkDown (ignoring filling) = .ignore
      ∧ ({ filling with sc := { filling.sc with linkUp := false } }).sc.linkUp = false := by decide

theorem test_WriteThroughs :
    vget (cached [entry77 .revoked [4]]).cc.sets (cardSet 77) = [] ++ entry77 .revoked [4] :: []
      ∧ (entry77 .revoked [4]).card = 77 ∧ ∀ e ∈ vget (cached []).cc.sets (cardSet 77), e.card ≠ 77 := by
  decide

/-- The station with a hireable bike at dock 47. -/
def hiring : State := dockAt 47 dockedRecord

theorem hiring_dock : dockOf 47 hiring = dockedRecord := dockAt_dock 47 dockedRecord

theorem test_Hires_reserve :
    Accepts .terminal .hire 15 hiring ∧ hireInForm 77 (.dock 47) (some 15) = true ∧ Clean hiring
      ∧ ClaimsRight hiring ∧ hiring.sc.mode = .inService ∧ commissioned hiring = true
      ∧ hiring.hu = [] ∧ hireable 47 hiring = true
      ∧ DockRequest.dock 47 = .dock (47 : DockNo).val
      ∧ hiring.rq.held.length + hiring.rq.claimTotal + 2 ≤ 96
      ∧ (∀ e ∈ vget hiring.cc.sets (cardSet 77), e.card ≠ 77) ∧ hiring.sc.linkUp = true
      ∧ hiring.cc.fills = [] :=
  ⟨by decide, by decide, dockAt_clean _ _, dockAt_claims _ _, by decide, by decide, by decide,
    by decide, rfl, by decide, by decide, by decide, by decide⟩

theorem test_Hires_any :
    hireable 47 hiring = true ∧ ∀ e, hireable e hiring = true →
      dockedSince 47 hiring < dockedSince e hiring
        ∨ (dockedSince 47 hiring = dockedSince e hiring ∧ 47 ≤ e) := by decide

theorem test_Turned_checks :
    Accepts .terminal .hire 0 (withHire .authWait) ∧ hireInForm 77 .any none = true
      ∧ Clean (withHire .authWait) ∧ (∀ h ∈ (withHire .authWait).hu, h.tag ≠ 0)
      ∧ commissioned (withHire .authWait) = true
      ∧ (∃ h ∈ (withHire .authWait).hu, h.card = 77 ∧ (h.state = .authWait ∨ h.state = .unlocking))
      ∧ commissioned State.reset = false ∧ State.reset.sc.mode ≠ .inService := by decide

/-- A DOCKED dock reserved for a hire. -/
def reservedRecord : DockRecord := { dockedRecord with holder := some (.hire 2 none) }

theorem test_Turned_docks :
    failing 47 (dockAt 47 reservedRecord) = [3] ∧ hireable 0 ready = false ∧ failing 0 ready ≠ [3]
      ∧ failing 0 ready ≠ [1, 3] ∧ mayComeFree 0 ready = false
      ∧ ∀ d, hireable d ready = false := by decide

/-- A dock in the release of a collect. -/
def collectedRecord : DockRecord :=
  { dockedRecord with state := .unlocking, holder := some (.order 0 3 65535) }

theorem test_Turned_collect :
    let s := dockAt 47 collectedRecord
    Accepts .terminal .hire 0 s ∧ hireInForm 77 (.dock 47) none = true ∧ Clean s ∧ s.hu = []
      ∧ s.sc.mode = .inService ∧ commissioned s = true ∧ failing 47 s = [1, 3]
      ∧ (dockOf 47 s).holder = some (.order 0 3 65535) ∧ mayComeFree 47 s = true :=
  ⟨by decide, by decide, dockAt_clean _ _, by decide, by decide, by decide, by decide, by decide,
    by decide⟩

/-- A report of nothing. -/
def blankReport : Report :=
  { seq := 0
    kind := none
    place := none
    flags := ⟨false, .none, false, true⟩
    hire := none
    fare := none
    move := none }

/-- The station with a hireable bike and 95 records held. -/
def crowded : State :=
  { hiring with rq := { hiring.rq with held := List.replicate 95 blankReport } }

theorem test_Turned_backlog :
    hireable 47 crowded = true ∧ 96 < crowded.rq.held.length + crowded.rq.claimTotal + 2 := by decide

/-- The station with a hire in AUTH_WAIT that reserved dock 0. -/
def reserved : State := { dockAt 0 reservedRecord with hu := [hireIn .authWait] }

theorem reserved_dock : dockOf 0 reserved = reservedRecord := dockAt_dock 0 reservedRecord

theorem reserved_claims : ClaimsRight reserved := dockAt_claims 0 reservedRecord

theorem test_PortClear_terminal : running reserved = true ∧ 0 ≤ 15 ∧ ClaimsRight reserved :=
  ⟨by decide, by decide, reserved_claims⟩

theorem test_StationMode_maintenance :
    Accepts .uplink .stationMode 0 reserved ∧ Mode.maintenance ≠ .starting ∧ Clean reserved
      ∧ Port.uplink ≠ .terminal ∧ reserved.sc.mode = .inService ∧ ClaimsRight reserved :=
  ⟨by decide, by decide, dockAt_clean _ _, by decide, by decide, reserved_claims⟩

theorem test_Grants :
    Clean reserved ∧ ClaimsRight reserved ∧ (∀ i, vget reserved.flt.watches i = none)
      ∧ (hireIn .authWait).chosen = some 0 ∧ dockOf 0 reserved = reservedRecord
      ∧ reservedRecord.state = .docked ∧ reservedRecord.holder = some (.hire 2 none)
      ∧ reservedRecord.deadline = none ∧ failing 0 reserved = [3]
      ∧ reserved.rq.held.length + reserved.rq.claimTotal + 2 ≤ 96 ∧ (lineOf 0 reserved).waiting = []
      ∧ ∀ e ∈ vget reserved.cc.sets (cardSet 77), e.card ≠ 77 :=
  ⟨dockAt_clean _ _, dockAt_claims 0 reservedRecord, by decide, rfl, reserved_dock, rfl, rfl, rfl,
    by decide, by decide, by decide, by decide⟩

theorem test_Grants_backlog :
    let s := { reserved with rq := { reserved.rq with held := List.replicate 95 blankReport } }
    Clean s ∧ ClaimsRight s ∧ dockOf 0 s = reservedRecord ∧ failing 0 s = [3]
      ∧ ¬s.rq.held.length + s.rq.claimTotal + 2 ≤ 96 :=
  ⟨dockAt_clean _ _, dockAt_claims 0 reservedRecord, reserved_dock, by decide, by decide⟩

theorem test_Grants_gone :
    let r := { reservedRecord with suspended := true }
    let s := { dockAt 0 r with hu := [hireIn .authWait] }
    Clean s ∧ ClaimsRight s ∧ dockOf 0 s = r ∧ r.state = .docked ∧ r.holder = some (.hire 2 none)
      ∧ failing 0 s = [2, 3] ∧ (dockOf 0 (withHire .authWait)).state ≠ .docked
      ∧ ClaimsRight (withHire .authWait) :=
  ⟨dockAt_clean _ _, dockAt_claims _ _, dockAt_dock _ _, rfl, rfl, by decide, by decide, ready_claims⟩

theorem test_Cancels :
    Accepts .terminal .cancel 0 reserved ∧ (∀ h ∈ reserved.hu, h.tag ≠ 3)
      ∧ reserved.hu.find? (fun x => decide (x.tag = 2)) = some (hireIn .authWait)
      ∧ (hireIn .authWait).state = .authWait ∧ ClaimsRight reserved
      ∧ (dockOf 0 reserved).state = .docked ∧ (dockOf 0 reserved).holder = some (.hire 2 none) :=
  ⟨by decide, by decide, by decide, rfl, dockAt_claims 0 reservedRecord, by decide, by decide⟩

theorem test_Cancels_late :
    (withHire .unlocking).hu.find? (fun x => decide (x.tag = 2)) = some (hireIn .unlocking)
      ∧ (withHire .ended).hu.find? (fun x => decide (x.tag = 2)) = some (hireIn .ended)
      ∧ Accepts .terminal .cancel 0 (withHire .ended) := by decide

theorem test_StationView : Accepts .terminal .stationView 0 hiring ∧ Clean hiring :=
  ⟨by decide, dockAt_clean _ _⟩

/-- Records held across the wrap of the sequence number, the first read. -/
def queued : State :=
  { ready with rq := { ready.rq with
      held := [recordOf 4294967294, recordOf 4294967295, recordOf 0], nextSeq := 1,
      readMark := 4294967295 } }

theorem test_Reports_read :
    Accepts .uplink .reportRead 0 queued ∧ 4 ≤ 4 ∧ Clean queued
      ∧ queued.rq.held = [recordOf 4294967294] ++ [recordOf 4294967295, recordOf 0] ++ []
      ∧ queued.rq.held.length ≤ 96 ∧ queued.rq.readMark < 4294967296
      ∧ (queued.rq.readMark + 4294967296 - 4294967294 % 4294967296) % 4294967296 = 1 := by decide

theorem test_Releases :
    Accepts .uplink .reportRelease 0 queued ∧ Clean queued
      ∧ (4294967294 + 4294967296 - 4294967294 % 4294967296) % 4294967296 = 0
      ∧ (4294967295 + 4294967296 - 4294967294 % 4294967296) % 4294967296 = 1
      ∧ 3 ≤ (1 + 4294967296 - 4294967294 % 4294967296) % 4294967296 := by decide

theorem test_Queued : Clean queued := by decide

/-- A crew entry of a level that may name every dock. -/
def crewAt (level : Nat) : Crew :=
  { id := 65535, level := level, mapLength := 48, map := List.replicate 48 true }

/-- The station with one crew in place 0. -/
def crewed (level : Nat) : State :=
  { ready with woe := { ready.woe with crews := vset ready.woe.crews 0 (some (crewAt level)) } }

theorem test_Tables_replaced :
    Accepts .uplink .crewLoad 0 (crewed 2) ∧ Clean (crewed 2) ∧ 0 < 65535 ∧ 2 ≤ 2
      ∧ (List.replicate 48 true).length = 48 ∧ vget (crewed 2).woe.crews 0 = some (crewAt 2)
      ∧ Accepts .uplink .crewDrop 0 (crewed 2) := by decide

theorem test_Tables_added :
    (∀ i c, vget ready.woe.crews i = some c → c.id ≠ 1) ∧ vget ready.woe.crews 0 = none
      ∧ Accepts .uplink .floorSet 0 ready ∧ Accepts .uplink .policySet 0 ready := by
  refine ⟨?_, by decide⟩
  intro i c h
  simp [ready, State.reset, WorkOrders.cold] at h

theorem test_Tables_full :
    let s := { ready with woe := { ready.woe with crews := Vector.replicate 16 (some (crewAt 0)) } }
    (∀ i, vget s.woe.crews i ≠ none) ∧ ∀ i c, vget s.woe.crews i = some c → c.id ≠ 1 := by
  refine ⟨by decide, ?_⟩
  intro i c h
  simp only [vget_replicate, Option.some.injEq] at h
  subst h
  decide

theorem test_Submitted_list :
    Accepts .service .orderSubmit 0 (crewed 2) ∧ Clean (crewed 2)
      ∧ vget (crewed 2).woe.crews 0 = some (crewAt 2)
      ∧ orderInForm 2 (.place 0 0) = false ∧ orderInForm 1 (.endList false) = true
      ∧ vget (crewed 2).woe.slots 0 = none ∧ (crewed 2).woe.startList = []
      ∧ (crewed 2).sc.mode ≠ .starting := by decide

/-- A slot in a state with progress. -/
def slotIn (st : SlotState) (orders : List Order) (progress : Option Progress) : WorkSlot :=
  { state := st, crew := 65535, orders := orders, index := 0, executed := 0, results := [],
    submittedAt := 9, startedAt := some 9, endedAt := none, abort := none, progress := progress }

/-- The station with slots. -/
def slotted (level : Nat) (a b : Option WorkSlot) : State :=
  ignoring { crewed level with woe := { (crewed level).woe with
    slots := vset (vset (crewed level).woe.slots 0 a) 1 b } }

theorem test_Submitted_full :
    let w := slotIn .running [.endList false] none
    ∀ i, ∃ v, vget (slotted 0 (some w) (some w)).woe.slots i = some v ∧ v.state = .running := by
  intro w i
  match i with
  | 0 => exact ⟨w, rfl, rfl⟩
  | 1 => exact ⟨w, rfl, rfl⟩

theorem test_Slots_shown :
    Accepts .service .orderStatus 0 (slotted 2 none none)
      ∧ Accepts .service .orderAbort 0 (slotted 2 none none) ∧ Clean (slotted 2 none none) := by decide

theorem test_Slots_aborted :
    let w := slotIn .waiting [.place 3 60] (some (.place 1 60000))
    let v := slotIn .waiting [.collect 0 47 2 true] (some (.collect [5] 1 0 false))
    let s := slotted 2 (some w) (some v)
    vget s.woe.slots 0 = some w ∧ vget s.woe.slots 1 = some v ∧ w.crew = 65535
      ∧ (slotIn .running [.endList true] none).progress = none ∧ Clean s := by decide

theorem test_Slots_queued :
    let w := slotIn .queued [.endList false] none
    let s := slotted 2 (some (slotIn .running [.endList true] none)) (some w)
    let s := { s with woe := { s.woe with startList := [1] } }
    Accepts .service .orderAbort 0 s ∧ Clean s ∧ vget s.woe.slots 1 = some w ∧ w.crew = 65535
      ∧ w.state = .queued ∧ w.progress = none := by decide

theorem test_Slots_barred :
    let s := slotted 2 none none
    ¬(∃ w, vget s.woe.slots 0 = some w ∧ w.crew = 1) ∧ crewOf 1 s = none := by
  refine ⟨?_, by decide⟩
  rintro ⟨w, h, -⟩
  cases h

/-- The station with one slot that runs one order after another. -/
def working (level : Nat) (orders : List Order) (executed : Nat) : State :=
  slotted level (some { slotIn .running orders none with executed := executed }) none

theorem test_Orders_limit :
    let s := working 2 [.endList false] 96
    running s = true ∧ (∀ j v, j ≠ 0 → vget s.woe.slots j = some v → v.state ≠ .running ∧ v.state ≠ .waiting)
      ∧ Clean s ∧ (slotIn .running [.endList false] none).progress = none ∧ 96 ≤ 96 := by
  refine ⟨by decide, ?_, by decide⟩
  intro j v hj h
  match j with
  | 0 => exact absurd rfl hj
  | 1 => cases h

theorem test_Orders_checked :
    let s := working 2 [.resume 0 47, .endList false] 95
    crewOf 65535 s = some (crewAt 2)
      ∧ (∀ d ∈ namedDocks (.resume 0 47), d < (crewAt 2).mapLength ∧ (crewAt 2).map[d]? = some true)
      ∧ vget s.woe.floors (orderIndex .resume) < 2
      ∧ (crewAt 0).level ≤ vget s.woe.floors (orderIndex .place)
      ∧ crewOf 1 s = none
      ∧ ¬∀ d ∈ namedDocks (.suspend 0 47), d < 47 := by decide

theorem test_Orders_placeDeadline :
    let w := slotIn .waiting [.place 3 60] (some (.place 2 60000))
    w.state = .waiting ∧ w.progress = some (.place 2 60000) ∧ w.orders[w.index]? = some (.place 3 60)
      ∧ 2 < 3 := by decide

theorem test_FaultLog :
    Accepts .service .faultRead 0 ready ∧ 4 ≤ 4 ∧ Clean ready ∧ Accepts .uplink .faultDiscard 0 ready
      ∧ 32 ≤ 32 ∧ Accepts .uplink .dockFaultRead 0 ready ∧ running ready = true := by decide

/-- The station with bike 9 flagged. -/
def flaggedBike : State :=
  { ready with flt := { ready.flt with registry := [{ bike := 9, origin := .rider, time := 5 }] } }

theorem test_BikeFlags_flag :
    Clean flaggedBike ∧ Accepts .uplink .bikeFlag 0 flaggedBike ∧ 0 < 9 ∧ 4294967295 ≤ 4294967295
      ∧ flaggedBike.flt.registry.find? (fun e => decide (e.bike = 9)) = some ⟨9, .rider, 5⟩
      ∧ (∀ e ∈ flaggedBike.flt.registry, e.bike ≠ 1) ∧ flaggedBike.flt.registry.length < 64
      ∧ Accepts .uplink .bikeFlagRead 0 flaggedBike ∧ 63 ≤ 63 ∧ 8 ≤ 8 := by decide

theorem test_BikeFlags_full :
    64 ≤ ((List.range 64).map fun i => (⟨i + 100, .uplink, 5⟩ : FlagEntry)).length := by decide

theorem test_BikeFlags_clear :
    Accepts .uplink .bikeClear 0 hiring ∧ (dockOf 47 hiring).bike.map Bike.id = some 9
      ∧ (∀ e < 47, (dockOf e hiring).bike.map Bike.id ≠ some 9)
      ∧ (∀ d, (dockOf d hiring).bike.map Bike.id ≠ some 1)
      ∧ flaggedBike.flt.registry = [] ++ ⟨9, .rider, 5⟩ :: [] := by decide

/-- A watch of a port over the whole of its span. -/
def watchOf (p : Port) : Watch :=
  { owner := p, base := 47, span := 8, cond := .take, action := .hold, enabled := true, hit := true }

/-- The station with a watch of a port in slot 3. -/
def watched (p : Port) : State :=
  { crewed 0 with flt := { ready.flt with watches := vset ready.flt.watches 3 (some (watchOf p)) } }

theorem test_Watches_owned :
    Accepts .uplink .watchSet 0 (watched .service) ∧ Clean (watched .service) ∧ 47 ≤ 47
      ∧ vget (watched .service).flt.watches 3 = some (watchOf .service)
      ∧ (watchOf .service).owner ≠ .uplink ∧ Accepts .uplink .watchDrop 0 (watched .service) := by
  decide

theorem test_Watches_barred :
    Accepts .service .watchSet 0 (watched .service) ∧ crewOf 1 (watched .service) = none
      ∧ (watchOf .service).owner = .service
      ∧ crewOf 65535 (watched .service) = some (crewAt 0) := by decide

theorem test_Watches_cleared :
    Accepts .uplink .watchClearHits 0 (watched .uplink) ∧ Accepts .uplink .watchRead 0 (watched .uplink)
      ∧ vget (watched .uplink).flt.watches 0 = none
      ∧ vget (watched .uplink).flt.watches 3 = some (watchOf .uplink) := by decide

theorem test_Watches_hold :
    held 40 (watched .uplink) = true ∧ held 47 (watched .uplink) = true
      ∧ held 39 (watched .uplink) = false ∧ 40 = 8 * (47 / 8) + 0 := by decide

theorem test_Raisings :
    Clean ready ∧ ClaimsRight ready ∧ (∀ i, vget ready.flt.watches i = none)
      ∧ vget ready.flt.policies (faultIndex .lockJam) ≠ .ignore ∧ ready.flt.log.length < 32
      ∧ vget (ignoring ready).flt.policies (faultIndex .linkDown) = .ignore
      ∧ 32 ≤ (List.replicate 32 0).length :=
  ⟨by decide, ready_claims, by decide, by decide, by decide, by decide, by decide⟩

theorem test_Suspensions :
    Clean ready ∧ (dockOf 0 ready).suspended = true ∧ dockedRecord.suspended = false
      ∧ dockOf 47 hiring = dockedRecord ∧ Clean hiring ∧ dockedRecord.state = .docked :=
  ⟨by decide, by decide, rfl, hiring_dock, dockAt_clean _ _, rfl⟩

/-- A VACANT dock, suspended or not. -/
def vacantRecord (b : Bool) : DockRecord :=
  { DockRecord.start .empty with state := .vacant, suspended := b }

theorem test_Suspensions_vacant :
    let s := dockAt 47 (vacantRecord true)
    Clean s ∧ (dockOf 47 s).state = .vacant ∧ (dockOf 47 s).suspended = true
      ∧ s.rq.held.length + s.rq.claimTotal + 1 ≤ 96 :=
  ⟨dockAt_clean _ _, by decide, by decide, by decide⟩

/-- The station with a dock surveyed, the exchange as given and one record at it. -/
def onLine (r : DockRecord) (l : LineState) (x : Option Exchange) : State :=
  let s := dockAt 47 r
  { s with dlc := { s.dlc with
      lines := vset s.dlc.lines 47 { l with surveyed := true }, exchange := x } }

theorem onLine_claims (r : DockRecord) (l : LineState) (x : Option Exchange) :
    ClaimsRight (onLine r l x) := dockAt_claims 47 r

/-- A poll of dock 47 under way. -/
def poll47 (c : Command) : Exchange := 
  { dock := 47, command := c, ack := some 15, survey := false, sentAt := 0 }

/-- The line state of dock 47 with an event number taken and two misses counted or fewer. -/
def line47 (misses : Nat) : LineState :=
  { LineState.start 0 (.record .cold) with lastEvent := some 15, missCount := misses }

theorem test_Line_answers :
    let s := onLine dockedRecord (line47 0) (some (poll47 .poll))
    running s = true ∧ ClaimsRight s ∧ s.dlc.survey = none ∧ s.dlc.exchange = some (poll47 .poll)
      ∧ (lineOf 47 s).surveyed = true ∧ (dockOf 47 s).state ≠ .absent
      ∧ (lineOf 47 s).lastEvent = some 15 :=
  ⟨by decide, onLine_claims _ _ _, by decide, by decide, by decide, by decide, by decide⟩

theorem test_Line_misses :
    let s := onLine dockedRecord (line47 1) (some (poll47 (.inhibit true)))
    running s = true ∧ ClaimsRight s ∧ s.dlc.survey = none
      ∧ s.dlc.exchange = some (poll47 (.inhibit true)) ∧ (lineOf 47 s).missCount < 2
      ∧ ∀ c ∈ (lineOf 47 s).waiting, ∀ b, c ≠ .inhibit b :=
  ⟨by decide, onLine_claims _ _ _, by decide, by decide, by decide, by
    intro c hc
    exact absurd hc (by decide +revert)⟩

theorem test_Line_requests :
    let s := onLine dockedRecord (line47 0) none
    running s = true ∧ ClaimsRight s ∧ s.dlc.survey = none ∧ s.dlc.exchange = none
      ∧ (lineOf 47 s).surveyed = true :=
  ⟨by decide, onLine_claims _ _ _, by decide, by decide, by decide⟩

/-- A dock record in a release of hire 2. -/
def releasing (st : DockState) (deadline : Deadline) : DockRecord :=
  { reservedRecord with
    state := st, holder := some (.hire 2 (some highStamp)), deadline := some deadline }

theorem test_Deadlines_resend :
    let s := onLine (releasing .unlocking (.actuation (some 1500) false))
      { line47 0 with actuation := some (.release (some highStamp)) } none
    running s = true ∧ Clean s ∧ ClaimsRight s
      ∧ (dockOf 47 s).deadline = some (.actuation (some 1500) false)
      ∧ (lineOf 47 s).actuation = some (.release (some highStamp)) :=
  ⟨by decide, dockAt_clean _ _, onLine_claims _ _ _, by decide, by decide⟩

theorem test_Deadlines_jam :
    let s := onLine (releasing .relocking (.actuation (some 1500) true)) (line47 0) none
    running s = true ∧ Clean s ∧ ClaimsRight s
      ∧ (dockOf 47 s).deadline = some (.actuation (some 1500) true)
      ∧ (dockOf 47 s).state = .relocking
      ∧ (dockOf 47 s).holder = some (.hire 2 (some highStamp))
      ∧ ∀ i, vget s.flt.watches i = none :=
  ⟨by decide, dockAt_clean _ _, onLine_claims _ _ _, by decide, by decide, by decide, by decide⟩

theorem test_Deadlines_take :
    let s := onLine (releasing .offered (.take 30000)) (line47 0) none
    running s = true ∧ Clean s ∧ ClaimsRight s ∧ (dockOf 47 s).state = .offered
      ∧ (dockOf 47 s).deadline = some (.take 30000)
      ∧ (∀ time used, (dockOf 47 s).deadline ≠ some (.actuation (some time) used)) :=
  ⟨by decide, dockAt_clean _ _, onLine_claims _ _ _, by decide, by decide, by
    intro t b h
    have h2 : (dockOf 47 (onLine (releasing .offered (.take 30000)) (line47 0) none)).deadline
        = some (.take 30000) := by decide
    rw [h2] at h
    cases h⟩

theorem test_Takes_recorded :
    let s := onLine (releasing .relocking (.actuation none true)) (line47 0) none
    Clean s ∧ (dockOf 47 s).state = .relocking
      ∧ (dockOf 47 s).holder = some (.hire 2 (some highStamp))
      ∧ (dockOf 47 s).bike = some { id := 9, mark := false, since := 10 } ∧ ClaimsRight s :=
  ⟨dockAt_clean _ _, by decide, by decide, by decide, onLine_claims _ _ _⟩

theorem test_Takes_docked :
    Clean hiring ∧ (dockOf 47 hiring).state = .docked ∧ (dockOf 0 hiring).state = .absent
      ∧ (dockOf 47 (dockAt 47 { vacantRecord true with state := .jammed })).bike = none :=
  ⟨dockAt_clean _ _, by decide, by decide, by decide⟩

/-- A tag with a stamp whose bike is 9. -/
def stampedTag : List Byte := tagBytes 9 false (some { highStamp with plan := 15, start := 10 })

theorem test_Latched_vacant (b : Bool) :
    let s := dockAt 0 (vacantRecord b)
    Clean s ∧ (dockOf 0 s).state = .vacant ∧ (dockOf 0 s).suspended = b
      ∧ s.sc.station.clockValid = true ∧ (dockOf 47 s).state ≠ .vacant
      ∧ ∀ i, vget s.woe.slots i = none := by
  cases b <;> exact ⟨putDock_clean rfl, by decide⟩

theorem test_Latched_place :
    let w := slotIn .waiting [.place 3 60] (some (.place 2 60000))
    let s := slotted 0 none (some w)
    vget s.woe.slots 1 = some w ∧ w.state = .waiting ∧ w.progress = some (.place 2 60000)
      ∧ w.orders[w.index]? = some (.place 3 60) ∧ 2 < 3 ∧ ¬2 + 1 < 3 ∧ 1 + 1 < 3
      ∧ vget s.woe.slots 0 = none := by decide

/-- A start in the future by more than the grace is a fare with SKEW; the same stamp finds CLEAR_FAILED
where its bike stands in the registry with origin STATION. -/
theorem test_Latched_stamped :
    let t : Stamp := { highStamp with start := 1500000 }
    let r : List FlagEntry := [{ bike := 9, origin := .station, time := 5 }]
    (arrivalFare (some plan2) t.start 1499879 t.origin 7 120).2.skew = true
      ∧ ((r.find? fun e => decide (e.bike = 9)).any fun e => decide (e.origin = .station)) = true
      ∧ State.reset.sc.station.clockValid = false := by decide

theorem test_Latched_tags :
    readingBike (tagReading (some stampedTag)) = 9
      ∧ readingMark (tagReading (some stampedTag)) = false
      ∧ readingBike (tagReading none) = 0
      ∧ tagReading (some (tagBytes 9 false none)) = .readable 9 false none := by decide +kernel

theorem test_RecordBytes :
    0 < 1 ∧ 4294967295 ≤ 4294967295 ∧ highStamp.origin ≤ 65535 ∧ highStamp.card < 72057594037927936
      ∧ 0 < highStamp.origin ∧ ({ highStamp with origin := 0 }).origin = 0
      ∧ member77.card < 72057594037927936 ∧ -2147483648 ≤ member77.balance := by decide

/-! #### Damaged records (chapters 6, 8 and 9) -/

/-- A state with double-bit errors in some words. -/
def torn (l : List Nat) (s : State) : State :=
  { s with rs := { s.rs with errors := l.map fun w => (w, .double) } }

/-- The first word of a place, torn, and no record waiting to be written. -/
def tornAt (p : Place) (s : State) : Prop :=
  let x := torn [placeBase p] s
  placeBase p ∈ placeAddresses p ∧ inWriteList p x = false ∧ errorAt (placeBase p) x = some .double

theorem test_Damaged_tables :
    tornAt (.config .serviceMaySetMode) ready ∧ tornAt (.policy .lockJam) ready
      ∧ tornAt (.floor .endList) ready ∧ tornAt (.plan 15) ready ∧ tornAt (.crew 15) ready
      ∧ tornAt .signature ready := by unfold tornAt; decide

theorem test_Damaged_dock :
    tornAt (.dock 47) ready ∧ (torn [placeBase (.dock 47)] ready).sc.power ≠ .starting
      ∧ (torn [placeBase (.dock 47)] State.reset).sc.power = .starting := by unfold tornAt; decide

/-- The record of sequence 5 in report place 95, held as sequence `q`. -/
def reported (q : Nat) : State :=
  { ready with
    rq := { ready.rq with held := [recordOf q], oldestPlace := 95, nextSeq := q + 1, readMark := q },
    rs := { ready.rs with
      array := [(placeBase (.report 95), List.replicate 10 (.report (recordOf 5)))] } }

/-- A word of report place 95. -/
def word95 (k : Nat) : Nat := placeBase (.report 95) + k

theorem test_Damaged_report :
    let s := torn [word95 0] (reported 5)
    word95 0 ∈ placeAddresses (.report 95) ∧ heldReportAt 95 s = some 0
      ∧ s.rq.held[0]? = some (recordOf 5) ∧ errorAt (word95 0) s = some .double
      ∧ errorAt (word95 9) s ≠ some .double ∧ errorAt (word95 1) s ≠ some .double
      ∧ wordContent (.report 95) 9 s = .report (recordOf 5)
      ∧ wordContent (.report 95) 1 s = .report (recordOf 5) := by decide

theorem test_Damaged_report_kind :
    let s := torn [word95 1, word95 8] (reported 5)
    errorAt (word95 1) s = some .double ∧ errorAt (word95 8) s = some .double
      ∧ errorAt (word95 8) (torn [word95 1] (reported 5)) ≠ some .double
      ∧ wordContent (.report 95) 0 s = .report (recordOf 5) := by decide

theorem test_Damaged_report_disagrees :
    let s := reported 6
    heldReportAt 95 s = some 0 ∧ s.rq.held[0]? = some (recordOf 6) ∧ errorAt (word95 9) s = none
      ∧ inWriteList (.report 95) s = false ∧ word95 9 = placeBase (.report 95) + 9
      ∧ wordContent (.report 95) 0 s = .report (recordOf 5) ∧ (recordOf 5).seq ≠ (recordOf 6).seq := by
  decide

/-- Two fault records across the wrap of the sequence and of the ring. -/
def logged : State :=
  { ready with
    flt := { ready.flt with log := [faultOf 65535, faultOf 0], oldestPlace := 31, nextSeq := 1 },
    rs := { ready.rs with
      array :=
        [(placeBase (.fault 0), List.replicate 5 (.fault (faultOf 0))),
         (placeBase (.fault 31), List.replicate 5 (.fault (faultOf 65535)))] } }

theorem test_Damaged_fault :
    let s := torn [placeBase (.fault 31)] logged
    heldFaultAt 31 s = some 0 ∧ s.flt.log.head? = some (faultOf 65535)
      ∧ errorAt (placeBase (.fault 31)) s = some .double
      ∧ (∀ v ∈ placeAddresses (.fault 0), errorAt v s = none)
      ∧ faultRing 31 1 = 0 ∧ faultWordsFit 0 0 none s = true
      ∧ faultWordsFit 31 65535 none s = true
      ∧ wordContent (.fault 31) 4 s = .fault (faultOf 65535) := by decide

theorem test_Damaged_flag :
    let e : FlagEntry := ⟨9, .rider, 5⟩
    let s := torn [placeBase (.flag 0)]
      { ready with flt := { ready.flt with registry := [e, { e with bike := 10 }] } }
    s.flt.registry = [] ++ e :: [{ e with bike := 10 }] ∧ errorAt (placeBase (.flag 0)) s = some .double
      ∧ ∀ v ∈ placeAddresses (.flag 1), errorAt v s = none := by decide

theorem test_Damaged_head_first_log :
    let head := faultHeadOf logged
    let s := torn [placeBase (.faultHead 0) + 1, placeBase (.fault 31)]
      { logged with rs := { logged.rs with
        array := [(placeBase (.faultHead 1), List.replicate 2 (.faultHead head))] } }
    heldFaultAt 31 s = some 0 ∧ errorAt (placeBase (.fault 31)) s = some .double
      ∧ errorAt (placeBase (.faultHead 0) + 1) s = some .double
      ∧ errorAt (placeBase (.faultHead 0)) s = none ∧ inWriteList (.faultHead 0) s = false
      ∧ readContent (.faultHead 1) s = .faultHead (faultHeadOf s)
      ∧ ∀ v ∈ placeAddresses (.faultHead 1), errorAt v s = none := by decide

theorem test_Damaged_head_first_registry :
    let s := torn [placeBase (.registryHead 0), placeBase (.flag 0)]
      { flaggedBike with rs := { flaggedBike.rs with
        array := [(placeBase (.registryHead 1), [.registryHead 1])] } }
    (0 : Fin 64).val < s.flt.registry.length ∧ errorAt (placeBase (.flag 0)) s = some .double
      ∧ errorAt (placeBase (.registryHead 0)) s = some .double
      ∧ inWriteList (.registryHead 0) s = false
      ∧ readContent (.registryHead 1) s = .registryHead s.flt.registry.length
      ∧ ∀ v ∈ placeAddresses (.registryHead 1), errorAt v s = none := by decide

/-- The last logged record with a sequence that does not come before the next one. -/
theorem test_Damaged_fault_misplaced :
    let s := { logged with flt := { logged.flt with nextSeq := 0 } }
    heldFaultAt 0 s = some 1 ∧ s.flt.log.head? = some (faultOf 65535)
      ∧ errorAt (placeBase (.fault 0) + 4) s = none
      ∧ faultWordsFit 0 65535 (some 65535) s = false ∧ 1 + 1 = s.flt.log.length
      ∧ ∀ v ∈ placeAddresses (.faultHead 0), errorAt v s = none := by decide

/-- A commit word of an older record than its first word's, at the oldest held record (R175). -/
theorem test_Damaged_fault_oldest :
    faultSeqFits 720 none 721 720 = true ∧ faultSeqFits 720 none 721 688 = false := by decide

/-- A record with one inner word of nothing keeps the sequence of its first word. -/
theorem test_Damaged_mixed :
    let words := fun p c => (placeBase p, List.replicate (placeWords p - 2) c ++ [Content.blank, c])
    let s := { logged with rs := { logged.rs with
      array := [words (.report 95) (.report (recordOf 5)), words (.fault 31) (.fault (faultOf 65535))] } }
    firstDouble (.report 95) s = none ∧ wordContent (.report 95) 0 s = .report (recordOf 5)
      ∧ (readableReport 95 s).map Report.seq = some 5 ∧ firstDouble (.fault 31) s = none
      ∧ wordContent (.fault 31) 0 s = .fault (faultOf 65535)
      ∧ (readableFault 31 s).map FaultRecord.seq = some 65535 := by
  refine ⟨by decide, by decide, rfl, by decide, by decide, rfl⟩

theorem test_Damaged_copy :
    let s := torn [placeBase (.queueHead 0)] ready
    errorAt (placeBase (.queueHead 0)) s = some .double
      ∧ (∀ v ∈ placeAddresses (.queueHead 1), errorAt v s = none)
      ∧ readContent (.queueHead 1) s = .queueHead (queueHeadOf s)
      ∧ queueHeadOf s ≠ { queueHeadOf s with nextSeq := 2 } := by decide

/-- The first word of copy A of a head torn, and a copy B that differs from what its owner holds. -/
def staleHead (p : Fin 2 → Place) (c : Content) (l : List Nat) (s : State) : State :=
  torn (placeBase (p 0) :: l) { s with rs := { s.rs with
    array := [(placeBase (p 1), List.replicate (placeWords (p 1)) c)] } }

theorem test_Damaged_copy_stale :
    let q : QueueHead := { nextSeq := 2, readMark := 2, oldest := 0, count := 0 }
    let f : FaultHead := { nextSeq := 2, oldest := 31, count := 1, lost := .clear }
    let a := staleHead .queueHead (.queueHead q) [] ready
    let b := staleHead .faultHead (.faultHead f) [placeBase (.fault 31)] logged
    let c := staleHead .registryHead (.registryHead 2) [placeBase (.flag 0)] flaggedBike
    readContent (.queueHead 1) a = .queueHead q ∧ q ≠ queueHeadOf a
      ∧ (∀ v ∈ placeAddresses (.queueHead 1), errorAt v a = none)
      ∧ readContent (.faultHead 1) b = .faultHead f ∧ f ≠ faultHeadOf b ∧ heldFaultAt 31 b = some 0
      ∧ (∀ v ∈ placeAddresses (.faultHead 1), errorAt v b = none)
      ∧ inWriteList (.faultHead 0) b = false ∧ errorAt (placeBase (.faultHead 0)) b = some .double
      ∧ errorAt (placeBase (.fault 31)) b = some .double
      ∧ readContent (.registryHead 1) c = .registryHead 2 ∧ 2 ≠ c.flt.registry.length
      ∧ (0 : Fin 64).val < c.flt.registry.length ∧ inWriteList (.registryHead 0) c = false
      ∧ (∀ v ∈ placeAddresses (.registryHead 1), errorAt v c = none)
      ∧ errorAt (placeBase (.registryHead 0)) c = some .double
      ∧ errorAt (placeBase (.flag 0)) c = some .double := by decide

/-- Both copies of a record torn. -/
def tornBoth (p : Fin 2 → Place) (s : State) : State := torn [placeBase (p 0), placeBase (p 1)] s

theorem test_Damaged_heads (s : State) (h : s.rs.writeList = []) :
    firstDouble (.station 1) (tornBoth .station s) = some (placeBase (.station 1))
      ∧ firstDouble (.queueHead 1) (tornBoth .queueHead s) = some (placeBase (.queueHead 1))
      ∧ firstDouble (.faultHead 1) (tornBoth .faultHead s) = some (placeBase (.faultHead 1))
      ∧ firstDouble (.registryHead 1) (tornBoth .registryHead s) = some (placeBase (.registryHead 1))
      ∧ inWriteList (.queueHead 1) (tornBoth .queueHead s) = false :=
  ⟨rfl, rfl, rfl, rfl, by simp [inWriteList, tornBoth, torn, h]⟩

theorem test_Damaged_rebuilt_empty :
    (∀ n < 96, readableReport (reportPlace n) (tornBoth .queueHead ready) = none)
      ∧ ∀ n < 32, readableFault (faultPlace n) (tornBoth .faultHead ready) = none := by
  decide +kernel

theorem test_Damaged_rebuilt_reports :
    RebuiltRun 96 (fun n => readableReport (reportPlace n) (tornBoth .queueHead (reported 5)))
      (fun a b => b.seq = (a.seq + 1) % 4294967296) 95 [recordOf 5] :=
  lone_run (by decide) (by decide) (by decide) (by decide +kernel)

theorem test_Damaged_rebuilt_faults :
    RebuiltRun 32
      (fun n => readableFault (faultPlace n)
        (torn [placeBase (.faultHead 0), placeBase (.faultHead 1), placeBase (.fault 0)] logged))
      (fun a b => 1 ≤ (b.seq + 65536 - a.seq % 65536) % 65536
        ∧ (b.seq + 65536 - a.seq % 65536) % 65536 ≤ 32) 31 [faultOf 65535] :=
  lone_run (by decide) (by decide) (by decide) (by decide +kernel)

theorem test_Damaged_rebuilt_flags :
    let e : FlagEntry := ⟨9, .rider, 5⟩
    let s := { ready with rs := { ready.rs with
      array := [(placeBase (.flag 0), List.replicate 3 (.flag (some e)))] } }
    readable (.flag 0) s = some (.flag (some e)) ∧ e.bike ≠ 0
      ∧ readable (.flag 1) s = some (.flag none) := by decide

theorem test_Damaged_free :
    let s := torn [placeBase (.flag 0)] ready
    freePlace (.flag 0) s = true ∧ freePlace (.report 95) s = true ∧ ArrayRight s
      ∧ (cellOf (.flag 0) s).length = placeWords (.flag 0) :=
  ⟨by decide, by decide, ⟨blank_wf, by decide⟩, by decide⟩

/-! #### The survey (chapter 10) -/

/-- The survey of a dock after some answers and misses, with an exchange of a kind. -/
def surveyOn (d : DockNo) (answers misses : Nat) (survey : Bool) : State :=
  { ready with dlc := { ready.dlc with
      survey := some { dock := d, answers := answers, misses := misses, finding := none },
      exchange := some { dock := d, command := .poll, ack := none, survey := survey, sentAt := 0 } } }

theorem test_Survey_sixteenth :
    running (surveyOn 47 15 0 true) = true
      ∧ (surveyOn 47 15 0 true).dlc.survey
        = some { dock := 47, answers := 15, misses := 0, finding := none }
      ∧ (surveyOn 47 15 0 true).dlc.exchange
        = some { dock := 47, command := .poll, ack := none, survey := true, sentAt := 0 } := by decide

theorem test_Survey_probe :
    (surveyOn 47 1 0 false).dlc.exchange
        = some { dock := 47, command := .poll, ack := none, survey := false, sentAt := 0 }
      ∧ (lineOf 47 (surveyOn 47 1 0 false)).surveyed = false
      ∧ (lineOf 47 (surveyOn 47 1 0 false)).lastEvent = none := by decide

/-- The third survey poll missed in a row. -/
theorem test_Survey_third_miss :
    running (surveyOn 47 0 2 true) = true
      ∧ (surveyOn 47 0 2 true).dlc.survey
        = some { dock := 47, answers := 0, misses := 2, finding := none }
      ∧ (surveyOn 47 0 2 true).dlc.exchange
        = some { dock := 47, command := .poll, ack := none, survey := true, sentAt := 0 } := by decide

/-- The survey at a dock whose probe was sent again. -/
def surveyProbe : State :=
  let s := surveyOn 47 1 0 false
  { s with dlc := { s.dlc with
      docks := vset s.dlc.docks 47
        { DockRecord.start .empty with deadline := some (.actuation (some 1500) true) } } }

theorem test_Survey_probe_late :
    running surveyProbe = true ∧ (dockOf 47 surveyProbe).state = .absent
      ∧ (dockOf 47 surveyProbe).deadline = some (.actuation (some 1500) true) := by decide

/-- The survey of dock 47 on a warm start, with a reference. -/
def surveyOf47 (reference : SurveyReference) : State :=
  let s := surveyOn 47 1 0 true
  { s with
    sc := { s.sc with startKind := .warm },
    dlc := { s.dlc with
      lines := vset s.dlc.lines 47 { lineOf 47 s with reference := some reference } } }

/-- A retained record in a state. -/
def retainedIn (st : DockState) : RetainedDock :=
  { RetainedDock.cold with state := st, bike := some { id := 9, mark := false, since := 10 } }

theorem test_Results_asked (r : SurveyReference) :
    Clean (surveyOf47 r)
      ∧ (surveyOf47 r).dlc.survey = some { dock := 47, answers := 1, misses := 0, finding := none }
      ∧ (lineOf 47 (surveyOf47 r)).surveyed = false ∧ (surveyOf47 r).sc.startKind = .warm
      ∧ (lineOf 47 (surveyOf47 r)).reference = some r := by
  have hl : lineOf 47 (surveyOf47 r) = { lineOf 47 (surveyOn 47 1 0 true) with reference := some r } :=
    vget_vset_self _ _ _
  refine ⟨rfl, rfl, ?_, rfl, ?_⟩ <;> rw [hl]
  exact (by decide : (lineOf 47 (surveyOn 47 1 0 true)).surveyed = false)

theorem test_Results_cold :
    Clean (surveyOn 0 1 0 true) ∧ (surveyOn 0 1 0 true).sc.startKind = .cold
      ∧ (lineOf 0 (surveyOn 0 1 0 true)).surveyed = false ∧ (0 : DockNo).val + 1 < 48
      ∧ readingStamp (tagReading none) = none
      ∧ (retainedIn .docked).bike = some { id := 9, mark := false, since := 10 }
      ∧ (surveyOn 0 1 0 true).rq.held.length + (surveyOn 0 1 0 true).rq.claimTotal + 1 ≤ 96 := by
  decide

theorem test_Results_stamped : readingStamp (tagReading (some (tagBytes 9 false (some highStamp)))) ≠ none := by
  decide +kernel

theorem test_Results_startList :
    let w : WorkSlot :=
      { state := .queued, crew := 1, orders := [.endList false], index := 0, executed := 0,
        results := [], submittedAt := 9, startedAt := none, endedAt := none, abort := none,
        progress := none }
    let x := { ready with woe := { ready.woe with
      slots := vset ready.woe.slots 1 (some w), startList := [1] } }
    x.woe.startList = 1 :: [] ∧ x.sc.station.target ≠ .starting ∧ vget x.woe.slots 1 = some w
      ∧ (∀ j v, vget x.woe.slots j = some v → v.state ≠ .running ∧ v.state ≠ .waiting)
      ∧ ready.woe.startList = [] := by
  refine ⟨rfl, by decide, rfl, ?_, rfl⟩
  intro j v h
  match j with
  | 0 => cases h
  | 1 => cases h; decide

theorem test_Results_probed :
    (dockOf 47 surveyProbe).state = .absent
      ∧ (∃ t u, (dockOf 47 surveyProbe).deadline = some (.actuation t u)) ∧ Clean surveyProbe
      ∧ (lineOf 47 surveyProbe).surveyed = false ∧ surveyProbe.sc.startKind = .cold :=
  ⟨by decide, ⟨some 1500, true, rfl⟩, by decide, by decide, by decide⟩

/-! #### Waiters and authorisations (chapters 3 and 4) -/

/-- The fill of card 77 with a hire that waits on it. -/
def waited (poisoned : Bool) : Fill :=
  { fill77 with waiter := some { tag := 2, plan := none }, poisoned := poisoned }

/-- The station with that fill, entries in the card's set, and unknown cards allowed or not. -/
def awaiting (poisoned allocate unknown : Bool) (l : List CardEntry) : State :=
  { ready with
    hu := [hireIn .authWait], fu := vset ready.fu 0 (some plan2),
    cc := { ready.cc with
      fills := [waited poisoned], allocate := allocate, sets := vset ready.cc.sets (cardSet 77) l },
    sc := { ready.sc with config := { ready.sc.config with offlineUnknownAllowed := unknown } } }

theorem test_Waiters_asked :
    let s := awaiting false true true []
    Clean s ∧ SequencesAgree s
      ∧ s.cc.fills.find? (fun x => decide (x.card = 77)) = some (waited false)
      ∧ s.hu.find? (fun x => decide (x.tag = 2)) = some (hireIn .authWait)
      ∧ (awaiting true true true []).cc.fills.find? (fun x => decide (x.card = 77))
        = some (waited true)
      ∧ member77.card = (waited false).card ∧ Accepts .uplink .fillAnswer 0 s
      ∧ memberInForm member77 = true ∧ 0 < 77 ∧ 77 < 2 ^ 56 := by
  refine ⟨by decide, ⟨fun n i h => ?_, fun n i h => ?_⟩, by decide⟩
  · simp [heldReportAt, awaiting, ready, State.reset, ReportQueue.cold] at h
  · simp [heldFaultAt, awaiting, ready, State.reset, FaultUnit.cold] at h

theorem test_Waiters_placed :
    (placeMember member77 (awaiting false true true [])).1 = .placed
      ∧ (placeMember member77 (awaiting false true true [entry77 .valid [4]])).1 = .refreshed
      ∧ (placeMember member77 (awaiting false true true [entry77 .revoked [4]])).1 = .notKept true
      ∧ (placeMember member77 (awaiting false false true [])).1 = .notKept false := by decide

theorem test_Waiters_offline :
    (decideOffline 77 none (awaiting false true true [])).1 = .grant .offlineUnknown 0
      ∧ (decideOffline 77 none (awaiting false true false [])).1 = .deny .offlineRefused := by decide

theorem test_Authorised_kept :
    (dockOf 0 reserved).state = .docked ∧ (dockOf 0 reserved).holder = some (.hire 2 none)
      ∧ (hireIn .authWait).chosen = some 0 ∧ (dockOf 0 (withHire .authWait)).holder = none := by decide

/-- Values that pass every test of R61 under plan 2, at their limits. -/
def passing : HandedValues :=
  { standing := .active, plan := 15, hireLimit := 1, pendingCount := 0, openCount := 0, balance := 0 }

theorem test_Authorised_online :
    planOf 15 tariffed = some plan2 ∧ planOf 14 tariffed = none ∧ passing.standing = .active
      ∧ plan2.minBalance ≤ passing.balance ∧ -1 < plan2.minBalance
      ∧ passing.openCount < passing.hireLimit ∧ passing.hireLimit ≤ 1 ∧ passing.pendingCount < 4
      ∧ 4 ≤ ({ passing with pendingCount := 4 }).pendingCount := by decide

theorem test_Authorised_offline :
    (∀ e ∈ vget (awaiting false true true []).cc.sets (cardSet 77), e.card ≠ 77)
      ∧ (awaiting false true true []).sc.config.offlineUnknownAllowed = true
      ∧ (awaiting false true true []).cc.offlineGrants
        < (awaiting false true true []).sc.config.offlineQuota
      ∧ planOf (awaiting false true true []).sc.config.defaultOfflinePlan (awaiting false true true [])
        ≠ none
      ∧ (awaiting false true true []).cc.allocate = true
      ∧ (awaiting false false true []).cc.allocate = false
      ∧ (vget (awaiting false true true []).cc.sets (cardSet 77)).find? (fun e => decide (e.card = 77))
        = none := by decide

theorem test_Authorised_full (pinned : Bool) :
    let l := vget (awaiting false true true (others pinned)).cc.sets (cardSet 77)
    4 ≤ l.length ∧ (pinned = true → ∀ e ∈ l, e.pendingTrips ≠ [])
      ∧ (pinned = false →
        l = (others false).take 3 ++ { entry77 .valid [] with card := 205 } :: []) := by
  cases pinned <;> decide

theorem test_Authorised_entries (st : EntryState) :
    let s := awaiting false true true [entry77 st []]
    (vget s.cc.sets (cardSet 77)).find? (fun e => decide (e.card = 77)) = some (entry77 st [])
      ∧ (entry77 st []).state = st ∧ s.cc.serve = true
      ∧ ({ s.cc with serve := false }).serve = false
      ∧ (entry77 st []).baseOpen + (entry77 st []).hireAdj = 0 := by
  cases st <;> decide

theorem test_Authorised_lookup :
    let s := awaiting false true true [entry77 .valid []]
    vget s.cc.sets (cardSet 77) = [] ++ entry77 .valid [] :: [] ∧ s.sc.linkUp = true
      ∧ s.sc.station.clockValid = true ∧ (entry77 .valid []).filledAt = some 10 ∧ 10 ≤ s.sc.clock
      ∧ s.sc.clock ≤ 10 + s.sc.config.maximumAge * 60
      ∧ s.cc.fills.find? (fun f => decide (f.card = 77)) = some (waited false)
      ∧ 8 ≤ (List.replicate 8 { fill77 with card := 1 }).length := by decide

theorem test_Authorised_issued :
    let s := awaiting false true true [entry77 .provisional []]
    let x := { s with cc := { s.cc with fills := [] } }
    Clean x ∧ vget x.cc.sets (cardSet 77) = [] ++ entry77 .provisional [] :: []
      ∧ (entry77 .provisional []).card = 77 ∧ (entry77 .provisional []).state ≠ .valid
      ∧ x.sc.linkUp = true ∧ x.cc.fills.length < 8 := by decide

/-! #### Orders (chapter 7) -/

/-- A working slot and a hireable bike at dock 47. -/
def collecting : State :=
  let s := slotted 0 (some (slotIn .running [.collect 0 47 1 true, .endList true] none)) none
  putDock 47 dockedRecord s

theorem collecting_claims : ClaimsRight collecting := claims_putDock (s := slotted 0 _ none) ready_claims

theorem test_OrdersAct_collect :
    Clean collecting ∧ ClaimsRight collecting
      ∧ (selectDocks (.order 0 0 65535) 1 true [0] [] collecting).1 = []
      ∧ (selectDocks (.order 0 0 65535) 1 true [47] [] collecting).1 ≠ []
      ∧ (dockOf 47 collecting).state = .docked ∧ (dockOf 47 collecting).holder = none
      ∧ held 47 collecting = false ∧ (dockOf 47 collecting).deadline = none
      ∧ collecting.rq.held.length + collecting.rq.claimTotal + 2 ≤ 96
      ∧ 96 < crowded.rq.held.length + crowded.rq.claimTotal + 2 :=
  ⟨putDock_clean rfl, collecting_claims, by decide, by decide, by decide, by decide, by decide,
    by decide, by decide, by decide⟩

theorem test_OrdersAct_outcomes :
    let w := slotIn .waiting [.collect 0 47 2 true] (some (.collect [47, 5] 1 0 true))
    vget (slotted 0 (some w) none).woe.slots 0 = some w ∧ w.state = .waiting
      ∧ w.progress = some (.collect [47, 5] 1 0 true) ∧ (5 : DockNo) ∈ [47, 5]
      ∧ ([47, 5] : List DockNo).erase 5 ≠ [] ∧ ([47] : List DockNo).erase 47 = []
      ∧ (0 : DockNo) ∉ [47, 5]
      ∧ (slotIn .running [] none).state ≠ .waiting := by decide

theorem test_OrdersAct_resume :
    (resumeDock 47 (dockAt 47 (vacantRecord true))).1 = .resumed
      ∧ (resumeDock 47 collecting).1 = .unchanged
      ∧ (resumeDock 47 (dockAt 47 { collectedRecord with suspended := true })).1 = .busy
      ∧ (resumeDock 0 ready).1 = .notResumable := by decide

/-- The station with 96 records held and a suspended dock without a bike. -/
def brimming : State :=
  let s := dockAt 47 (vacantRecord true)
  { s with rq := { s.rq with held := List.replicate 96 blankReport } }

theorem brimming_claims : ClaimsRight brimming := dockAt_claims 47 _

theorem test_OrdersAct_backlog :
    (resumeDock 47 brimming).1 = .backlog
      ∧ 96 < brimming.rq.held.length + brimming.rq.claimTotal + 1 ∧ ClaimsRight brimming :=
  ⟨by decide, by decide, brimming_claims⟩

theorem test_OrdersAct_flags :
    (∃ e ∈ flaggedBike.flt.registry, e.bike = 9) ∧ (∀ e ∈ flaggedBike.flt.registry, e.bike ≠ 1)
      ∧ flaggedBike.flt.registry.length < 64 ∧ (dockOf 47 collecting).bike.map Bike.id = some 9
      ∧ (∀ e < 47, (dockOf e collecting).bike.map Bike.id ≠ some 9)
      ∧ ∀ d, (dockOf d flaggedBike).bike.map Bike.id ≠ some 9 := by decide

theorem test_OrdersAct_faults :
    let jam : DockRecord := { dockedRecord with state := .jammed, suspended := true }
    let park : DockRecord := { DockRecord.start .empty with state := .parked }
    jam.state = .jammed ∧ jam.deadline = none ∧ park.state = .parked
      ∧ (dockOf 47 (dockAt 47 park)).state = .parked
      ∧ (dockAt 47 park).rq.held.length + (dockAt 47 park).rq.claimTotal + 1 ≤ 96
      ∧ (dockOf 47 (dockAt 47 jam)).state = .jammed := by decide

theorem test_OrdersAct_jump :
    allDocks.countP (fun d => decide ((dockOf d collecting).state = .vacant)
        && !(dockOf d collecting).suspended) = 0
      ∧ allDocks.countP (fun d => hireable d collecting) = 1 := by decide

/-! #### Dock events (chapters 1 and 2) -/

/-- Dock 47 on the line in a state, with the rest of its record as given. -/
def eventAt (r : DockRecord) (l : LineState) : State := onLine r l none

theorem eventAt_clean (r : DockRecord) (l : LineState) : Clean (eventAt r l) := putDock_clean rfl

theorem eventAt_claims (r : DockRecord) (l : LineState) : ClaimsRight (eventAt r l) :=
  onLine_claims r l none

theorem eventAt_dock (r : DockRecord) (l : LineState) : dockOf 47 (eventAt r l) = r :=
  dockOf_putDock_self 47 r ready

theorem eventAt_line (r : DockRecord) (l : LineState) :
    lineOf 47 (eventAt r l) = { l with surveyed := true } := vget_vset_self _ _ _

theorem test_Line_absent :
    let s := onLine (DockRecord.start .empty) (line47 2) (some (poll47 .poll))
    running s = true ∧ ClaimsRight s ∧ s.dlc.survey = none ∧ s.dlc.exchange = some (poll47 .poll)
      ∧ (lineOf 47 s).surveyed = true ∧ (dockOf 47 s).state = .absent :=
  ⟨by decide, onLine_claims _ _ _, by decide, rfl, by decide, by decide⟩

theorem test_Line_third_miss :
    let s := onLine collectedRecord (line47 2) (some (poll47 .poll))
    running s = true ∧ ClaimsRight s ∧ s.dlc.survey = none ∧ s.dlc.exchange = some (poll47 .poll)
      ∧ (lineOf 47 s).surveyed = true ∧ (lineOf 47 s).missCount = 2 ∧ (dockOf 47 s).state ≠ .absent :=
  ⟨by decide, onLine_claims _ _ _, by decide, rfl, by decide, by decide, by decide⟩

theorem test_Deadlines_any :
    let s := eventAt
      { collectedRecord with state := .jammed, deadline := some (.actuation (some 1500) true) }
      (line47 0)
    running s = true ∧ Clean s ∧ ClaimsRight s ∧ (dockOf 47 s).state = .jammed
      ∧ (dockOf 47 s).deadline = some (.actuation (some 1500) true) ∧ s.dlc.survey = none :=
  ⟨by decide, eventAt_clean _ _, eventAt_claims _ _, by decide, by decide, by decide⟩

/-- The release of hire 2 at dock 47, its record asked to cancel or not. -/
def releaseOf2 (st : DockState) (cancel : Bool) (stamp : Option Stamp) : State :=
  { eventAt
      { dockedRecord with
        state := st, holder := some (.hire 2 stamp), deadline := some (.actuation (some 1500) false) }
      (line47 0) with
    hu := [{ hireIn .unlocking with chosen := some 47, cancelRequested := cancel }] }

theorem test_Releases_opened :
    let s := releaseOf2 .unlocking true (some highStamp)
    Clean s ∧ (s.hu.map HireRecord.tag).Nodup ∧ (dockOf 47 s).state = .unlocking
      ∧ (dockOf 47 s).holder = some (.hire 2 (some highStamp))
      ∧ (∃ h ∈ s.hu, h.tag = 2 ∧ h.state = .unlocking ∧ h.chosen = some 47 ∧ h.cancelRequested = true)
      ∧ ∀ h ∈ (releaseOf2 .unlocking false (some highStamp)).hu, h.cancelRequested = false :=
  ⟨putDock_clean rfl, by decide, by decide, by decide, by decide, by decide⟩

theorem test_Releases_failed :
    let s := releaseOf2 .unlocking false (some highStamp)
    (dockOf 47 s).bike = some { id := 9, mark := false, since := 10 } ∧ 0 < 9
      ∧ (∀ e ∈ s.flt.registry, e.bike ≠ 9) ∧ s.flt.registry.length < 64
      ∧ (dockOf 47 (eventAt collectedRecord (line47 0))).holder = some (.order 0 3 65535)
      ∧ (dockOf 47 (eventAt collectedRecord (line47 0))).state = .unlocking := by decide

theorem test_Releases_closed :
    (dockOf 47 (releaseOf2 .relocking false (some highStamp))).state = .relocking
      ∧ empty.bike = none ∧ ({ empty with bike := some ⟨9, false⟩ }).bike ≠ none
      ∧ (dockOf 47 (eventAt dockedRecord (line47 0))).state = .docked := by decide

theorem test_Jams_actuation :
    (dockOf 47 (releaseOf2 .unlocking false none)).state = .unlocking
      ∧ (dockOf 47 (releaseOf2 .relocking false none)).state = .relocking
      ∧ (dockOf 47 (releaseOf2 .relocking false none)).bike
        = some { id := 9, mark := false, since := 10 }
      ∧ (dockOf 47 (eventAt dockedRecord (line47 0))).deadline = none
      ∧ Clean (releaseOf2 .relocking false none) :=
  ⟨by decide, by decide, by decide, by decide, putDock_clean rfl⟩

theorem test_Jams_probe (b : Option Bike) :
    let s := eventAt
      { DockRecord.start .empty with
        state := .jammed, bike := b, deadline := some (.actuation (some 1500) true) } (line47 0)
    Clean s ∧ (dockOf 47 s).state = .jammed ∧ (dockOf 47 s).bike = b
      ∧ ∃ time used, (dockOf 47 s).deadline = some (.actuation time used) :=
  ⟨putDock_clean rfl, by rw [eventAt_dock], by rw [eventAt_dock], some 1500, true,
    by rw [eventAt_dock]⟩

theorem test_Jams_parked (c : Option DockCondition) :
    let s := eventAt
      { DockRecord.start .empty with
        state := .parked, deadline := some (.actuation (some 1500) true) }
      { line47 0 with lastCondition := c }
    Clean s ∧ (dockOf 47 s).state = .parked ∧ (lineOf 47 s).lastCondition = c
      ∧ ∃ time used, (dockOf 47 s).deadline = some (.actuation time used) :=
  ⟨putDock_clean rfl, by rw [eventAt_dock], by rw [eventAt_line], some 1500, true,
    by rw [eventAt_dock]⟩

/-- A write sent for bike 9. -/
def writeOf (w : WriteCommand) (k : TagWriteKind) : TagWrite :=
  { command := w, write := k, bike := 9, cause := .arrival }

theorem test_TagEvents_writes (w : WriteCommand) (k : TagWriteKind) :
    let s := eventAt dockedRecord { line47 0 with tagWrites := [writeOf w k] }
    Clean s ∧ ClaimsRight s ∧ (dockOf 47 s).state ≠ .parked
      ∧ (lineOf 47 s).tagWrites.find? (fun x => decide (x.command = w)) = some (writeOf w k)
      ∧ (dockOf 47 s).bike.map Bike.id = some (writeOf w k).bike ∧ s.flt.registry.length < 64 := by
  refine ⟨putDock_clean rfl, eventAt_claims _ _, ?_, ?_, ?_, ?_⟩
  · rw [eventAt_dock]; decide
  · rw [eventAt_line]; simp [writeOf]
  · rw [eventAt_dock]; rfl
  · exact (by decide : ready.flt.registry.length < 64)

theorem test_TagEvents_discarded :
    (dockOf 47 (eventAt { DockRecord.start .empty with state := .parked } (line47 0))).state = .parked
      ∧ (lineOf 47 (eventAt dockedRecord (line47 0))).tagWrites = []
      ∧ 64 ≤ ((List.range 64).map fun i => (⟨i + 100, .uplink, 5⟩ : FlagEntry)).length
      ∧ ∀ e ∈ (List.range 64).map fun i => (⟨i + 100, .uplink, 5⟩ : FlagEntry), e.bike ≠ 9 := by decide

theorem test_TagEvents_button (b : Bool) :
    let a : LastArrival := { bike := 9, time := 880, reported := b }
    let s := eventAt { dockedRecord with lastArrival := some a } (line47 0)
    (dockOf 47 s).bike = some { id := 9, mark := false, since := 10 }
      ∧ (dockOf 47 s).lastArrival = some a ∧ s.sc.station.clockValid = true ∧ a.bike = 9
      ∧ a.time ≤ s.sc.clock ∧ s.sc.clock = a.time + s.sc.config.buttonWindow := by
  cases b <;> decide

theorem test_TagEvents_dock_report :
    (dockOf 47 (eventAt dockedRecord (line47 0))).lastArrival = none
      ∧ (dockOf 47 (eventAt dockedRecord (line47 0))).faults.riderDockReport = false := by decide

theorem test_TagEvents_duplicate :
    let s := eventAt dockedRecord (line47 0)
    (dockOf 47 s).bike = some { id := 9, mark := false, since := 10 } ∧ (47 : DockNo) ≠ 0
      ∧ (∀ f < 47, f ≠ 0 → (dockOf f s).bike.map Bike.id ≠ some 9)
      ∧ ∀ e, e ≠ 0 → (dockOf e s).bike.map Bike.id ≠ some 8 := by decide

theorem test_Takes_jammed (h : Option Holder) :
    let s := eventAt { dockedRecord with state := .jammed, holder := h } (line47 0)
    Clean s ∧ (dockOf 47 s).state = .jammed
      ∧ (dockOf 47 s).bike = some { id := 9, mark := false, since := 10 } ∧ (dockOf 47 s).holder = h :=
  ⟨putDock_clean rfl, by rw [eventAt_dock], by rw [eventAt_dock]; rfl, by rw [eventAt_dock]⟩

theorem test_Takes_order :
    let s := eventAt { collectedRecord with state := .offered } (line47 0)
    Clean s ∧ (dockOf 47 s).state = .offered ∧ (dockOf 47 s).holder = some (.order 0 3 65535)
      ∧ (dockOf 47 (eventAt collectedRecord (line47 0))).state = .unlocking :=
  ⟨putDock_clean rfl, by decide, by decide, by decide⟩

end Sys2Proof.Tests
end

section
/-! The flush of the Card Cache (R59): the cache it leaves, its ways, and the number it reports. -/

namespace Sys2Proof.Machine

/-- The cache that CACHE_FLUSH leaves: every set holds its pinned entries alone. -/
def flushed (c : CardCache) : CardCache := { c with sets := c.sets.map fun l => l.filter pinned }

/-- CACHE_FLUSH finishes its reply over the state with the flushed cache, which is all that its owner
changes. -/
theorem takeCacheFlush_eq (tag : Nat) (s : State) :
    takeCacheFlush tag s = reply .uplink .cacheFlush tag .done
      (.count (entryCount s.cc - entryCount (flushed s.cc))) (s.setCc (flushed s.cc)) := rfl

theorem pinned_eq_decide (e : CardEntry) : pinned e = decide (e.pendingTrips ≠ []) := by
  cases h : e.pendingTrips <;> simp [pinned, h]

theorem vget_flushed_sets (c : CardCache) (i : Fin 32) :
    vget (flushed c).sets i = (vget c.sets i).filter fun e => decide (e.pendingTrips ≠ []) := by
  simp only [vget, flushed, Vector.getElem_map]
  exact List.filter_congr fun e _ => pinned_eq_decide e

/-- A set's entries are those not pinned and those that stand after the filter. -/
theorem length_eq_unpinned_add_pinned (l : List CardEntry) :
    l.length = l.countP (fun e => decide (e.pendingTrips = [])) + (l.filter pinned).length := by
  rw [← List.countP_eq_length_filter,
    List.length_eq_countP_add_countP fun e => decide (e.pendingTrips = [])]
  congr 1
  exact List.countP_congr fun e _ => by simp [pinned_eq_decide]

/-- The entries of a cache are those that a flush removes and those that it keeps. -/
theorem entryCount_eq_removed_add_flushed (c : CardCache) :
    entryCount c = (c.sets.toList.map fun l => l.countP fun e => decide (e.pendingTrips = [])).sum
      + entryCount (flushed c) := by
  simp only [entryCount, flushed, Vector.toList_map, List.map_map, ← List.sum_map_add]
  exact congrArg List.sum (List.map_congr_left fun l _ => length_eq_unpinned_add_pinned l)

/-- Settles O32: the flush is a request answered in its own step over the flushed cache, and the number
it reports is what the flushed cache lacks. -/
theorem flushKeepsThePinned : Obligations.FlushKeepsThePinned := by
  intro tag s hacc
  have hcc : (accepted .uplink .cacheFlush tag s).cc = s.cc := setPort_cc _ _ _
  have hframe := accepted_frame .uplink .cacheFlush tag s
  obtain ⟨t, hstep, hreplied, hstore, ht⟩ :=
    answered_kept hacc rfl (takeCacheFlush_eq tag _) rfl (accepted_rs _ _ _ _)
  have hsets : t.cc.sets = (flushed s.cc).sets := by rw [ht, ← hcc]; rfl
  refine ⟨t, _, hstep, hreplied, hstore, ?_, fun i => ?_, ?_⟩
  · conv_lhs => rw [ht, hcc, hframe]
    rw [hsets]
    rfl
  · rw [hsets, vget_flushed_sets]
  · rw [hcc, entryCount_eq_removed_add_flushed s.cc, Nat.add_sub_cancel]

end Sys2Proof.Machine
end

section
/-! The bounds of a fare (R105): stage 9 on the total after the day cap, and the two fare requests. -/

namespace Sys2Proof.Machine

/-! ### Stages 8 and 9 (R104, R105) -/

theorem capTotal_le_cap {p : Plan} (hcap : p.cap ≠ 0) (m total : Nat) :
    capTotal p m total ≤ p.cap * startedDays m := by
  rw [capTotal, if_neg hcap]
  exact Nat.min_le_right _ _

theorem priceDuration_of_gt {p : Plan} {d : Nat} (flags : FareFlags)
    (h : 65535 < capTotal p (startedMinutes d) (bandWalk p.bands (startedMinutes d - p.free))) :
    priceDuration p d flags = (65535, { flags with saturated := true }) :=
  if_pos h

theorem priceDuration_of_le {p : Plan} {d : Nat} (flags : FareFlags)
    (h : capTotal p (startedMinutes d) (bandWalk p.bands (startedMinutes d - p.free)) ≤ 65535) :
    priceDuration p d flags =
      (capTotal p (startedMinutes d) (bandWalk p.bands (startedMinutes d - p.free)), flags) :=
  if_neg (Nat.not_lt.mpr h)

/-- Stage 9 only lowers the total of stage 8. -/
theorem priceDuration_fst (p : Plan) (d : Nat) (flags : FareFlags) :
    (priceDuration p d flags).1 =
      min (capTotal p (startedMinutes d) (bandWalk p.bands (startedMinutes d - p.free))) 65535 := by
  rcases Nat.lt_or_ge 65535
      (capTotal p (startedMinutes d) (bandWalk p.bands (startedMinutes d - p.free))) with h | h
  · rw [priceDuration_of_gt flags h, Nat.min_eq_right h.le]
  · rw [priceDuration_of_le flags h, Nat.min_eq_left h]

/-! ### The two fare requests (R99 to R101, R107) -/

/-- An arrival's duration is 0 where its end lies before its start (R100), as the truncated difference
is. -/
theorem arrivalFare_some (p : Plan) (start stop origin station grace : Nat) :
    let d := min (stop - start) sevenDays
    let flags : FareFlags := { FareFlags.none with
      skew := decide (stop < start), clamped := decide (sevenDays < stop - start) }
    arrivalFare (some p) start stop origin station grace =
      if origin = station ∧ d ≤ grace then (0, { flags with redock := true })
      else priceDuration p d flags := by
  have hd : (if stop < start then 0 else stop - start) = stop - start := by
    split <;> omega
  simp only [arrivalFare, hd]

/-- What R105 says of every fare: it fits 16 bits, and a day cap of its plan bounds it by the cap for
each started day of the duration. -/
def FareBounded (plan : Option Plan) (d fare : Nat) : Prop :=
  fare ≤ 65535 ∧ ∀ p, plan = some p → p.cap ≠ 0 → fare ≤ p.cap * startedDays (startedMinutes d)

/-- Stages 1 and 4 end with 0. -/
theorem fareBounded_zero (plan : Option Plan) (d : Nat) : FareBounded plan d 0 :=
  ⟨Nat.zero_le _, fun _ _ _ => Nat.zero_le _⟩

theorem fareBounded_priceDuration (p : Plan) (d : Nat) (flags : FareFlags) :
    FareBounded (some p) d (priceDuration p d flags).1 := by
  rw [priceDuration_fst]
  refine ⟨Nat.min_le_right _ _, ?_⟩
  rintro _ ⟨rfl⟩ hcap
  exact (Nat.min_le_left _ _).trans (capTotal_le_cap hcap _ _)

theorem fareBounded_arrivalFare (plan : Option Plan) (start stop origin station grace : Nat) :
    FareBounded plan (min (stop - start) sevenDays)
      (arrivalFare plan start stop origin station grace).1 := by
  cases plan with
  | none => exact fareBounded_zero _ _
  | some p =>
    rw [arrivalFare_some]
    split
    case isTrue => exact fareBounded_zero _ _
    case isFalse => exact fareBounded_priceDuration _ _ _

theorem fareBounded_quoteFare (plan : Option Plan) (minutes : Nat) :
    FareBounded plan (min (60 * minutes) sevenDays) (quoteFare plan minutes).1 := by
  cases plan with
  | none => exact fareBounded_zero _ _
  | some p => exact fareBounded_priceDuration _ _ _

/-- One band at the highest rate under the highest day cap. -/
def dearestPlan : Plan := ⟨0, [⟨none, 1, 5000⟩], 65535, 0, true⟩

/-- Seven days of `dearestPlan` cost the day cap's 458,745 cents before stage 9, which saturates it. -/
theorem dearestPlan_saturates_after_cap :
    dearestPlan.cap ≤ 65535
      ∧ dearestPlan.cap * startedDays (startedMinutes (60 * 10080)) = 458745
      ∧ quoteFare (some dearestPlan) 10080 = (65535, { FareFlags.none with saturated := true }) := by
  decide

/-- Settles O26: stage 9 is the case split on the total, both fare requests end with 0 or with the price
of their clamped duration, and seven days of the dearest capped plan saturate. -/
theorem faresAreSaturated : Obligations.FaresAreSaturated :=
  ⟨fun _ _ flags => ⟨priceDuration_of_gt flags, priceDuration_of_le flags⟩,
    fareBounded_arrivalFare, fareBounded_quoteFare,
    dearestPlan, 10080, dearestPlan_saturates_after_cap⟩

end Sys2Proof.Machine
end

section
/-! The properties of every step: what every command keeps of the claims (R111, R112), of the cache and
the array (R43), and of the attention lines (R200). -/

namespace Sys2Proof.Machine

/-! ### Steps -/

theorem step_of_nil {s : State} (h : s.pending = []) : step s = .next s := by
  simp only [step, h]

theorem step_of_cons {c : Instr} {rest : List Instr} {s : State} (h : s.pending = c :: rest) :
    step s = exec c (s.setPending rest) := by
  simp only [step, h]

/-- Settles O1: the two cases of the queue. -/
theorem stepTakesTheFront : Obligations.StepTakesTheFront :=
  ⟨fun _ _ _ h => step_of_cons h, fun _ h => step_of_nil h⟩

/-- A step is idle, or takes the command at the front. -/
theorem step_cases {s t : State} (h : step s = .next t) :
    t = s ∨ ∃ c rest, exec c (s.setPending rest) = .next t := by
  match hp : s.pending with
  | [] =>
    rw [step_of_nil hp] at h
    cases h
    exact .inl rfl
  | c :: rest => exact .inr ⟨c, rest, (step_of_cons hp).symm.trans h⟩

/-- A step keeps a closed property that starts and a battery loss keep, and, in a cold survey, the
results set without the gate. -/
theorem keep_step {P : State → Prop} (h : Closed P) (hstart : ∀ c s, P s → P (beginStart c s))
    (hbat : ∀ s, P s → P (batteryLost s)) {s t : State} (hc : ColdSurvey s → ColdRoom P)
    (ht : step s = .next t) (hs : P s) : P t := by
  rcases step_cases ht with rfl | ⟨c, rest, he⟩
  · exact hs
  · exact keep_exec h hstart hbat (s := s.setPending rest) hc he (h.setPending hs)

/-! ### Claims, cache and array -/

/-- The results of a cold survey are docks set with at most one unit of claim, which the claims follow. -/
theorem claims_cold : ColdRoom ClaimsRight := fun _ h => claims_putDock h

/-- Settles O22. -/
theorem claimsEveryStep : Obligations.ClaimsEveryStep := fun _ _ hs ht =>
  keep_step claims_closed (fun c s _ => claims_beginStart c s) (fun _ => claims_batteryLost)
    (fun _ => claims_cold) ht hs

theorem fit_batteryLost {s : State} (h : ClaimsFit s) : ClaimsFit (batteryLost s) := by
  unfold batteryLost
  split <;> exact h

/-- Settles O23: the claims follow the records on the way, so that each raise of a claim is one of the
sum, and a step outside a cold survey has no result set without the gate. -/
theorem claimsFitEveryStep : Obligations.ClaimsFitEveryStep := fun _ _ hr hf hcold ht =>
  have ⟨_, hfit⟩ := keep_step (P := fun s => ClaimsRight s ∧ (ClaimsFit s ∨ False)) (fit_closed False)
    (fun c s _ => ⟨claims_beginStart c s, .inl (fit_beginStart c s)⟩)
    (fun _ h => ⟨claims_batteryLost h.1, h.2.imp_left fit_batteryLost⟩)
    (fun h => absurd h hcold) ht ⟨hr, .inl hf⟩
  hfit.resolve_right id

/-- Settles O17. -/
theorem cacheAndArrayEveryStep : Obligations.CacheAndArrayEveryStep := fun _ _ ht =>
  ⟨keep_step ways_closed (fun c s _ => ways_beginStart c s) (fun _ => ways_batteryLost)
      (fun _ => ways_cold) ht,
    keep_step array_closed (fun c _ => array_beginStart c) (fun _ => array_batteryLost)
      (fun _ => array_cold) ht⟩

/-! ### Attention lines -/

/-- Every command's step is an effect followed by the end of the step. -/
theorem exec_ends {c : Instr} {s t : State} (h : exec c s = .next t) : ∃ x, t = endStep x := by
  cases c <;> cases h <;> exact ⟨_, rfl⟩

theorem fillWanted_iff (s : State) : fillWanted s = true ↔ ∃ f ∈ s.cc.fills, f.fetched = false := by
  simp [fillWanted]

theorem reportsWaiting_iff (s : State) :
    reportsWaiting s = true ↔ readCount s < s.rq.held.length := by
  rw [reportsWaiting, decide_eq_true_iff, unreadCount, Nat.sub_pos_iff_lt]

theorem faultsWaiting_iff (s : State) : faultsWaiting s = true ↔ s.flt.log ≠ [] := by
  simp [faultsWaiting]

theorem noticeRow_terminal (e : EventNotices) (s : State) :
    noticeRow .terminal e s = [e.stationChanged, e.restarted] := rfl

theorem noticeRow_uplink (e : EventNotices) (s : State) :
    noticeRow .uplink e s =
      [e.linkDown, e.faultAlert, e.watchHit, e.restarted, fillWanted s, reportsWaiting s,
       faultsWaiting s, storeError s] := rfl

theorem noticeRow_service (e : EventNotices) (s : State) :
    noticeRow .service e s =
      [e.orderEnded, e.faultAlert, e.watchHit, e.restarted, faultsWaiting s] := rfl

theorem noticed_uplink (s : State) :
    Noticed .uplink s ↔
      (getPort .uplink s).events.linkDown = true ∨ (getPort .uplink s).events.faultAlert = true
        ∨ (getPort .uplink s).events.watchHit = true ∨ (getPort .uplink s).events.restarted = true
        ∨ (∃ f ∈ s.cc.fills, f.fetched = false) ∨ readCount s < s.rq.held.length
        ∨ s.flt.log ≠ [] ∨ storeError s = true := Iff.rfl

/-- A list of notices has one that is set where its first or a later one is. -/
theorem any_id_cons (b : Bool) (l : List Bool) : (b :: l).any id = true ↔ b = true ∨ l.any id = true := by
  simp

theorem anyNotice_iff (p : Port) (s : State) : anyNotice p s = true ↔ Noticed p s := by
  rw [anyNotice]
  cases p with
  | terminal => simp [noticeRow_terminal, Noticed]
  | uplink =>
    rw [noticeRow_uplink, noticed_uplink, ← reportsWaiting_iff, ← fillWanted_iff, ← faultsWaiting_iff]
    simp only [any_id_cons, List.any_nil, Bool.false_eq_true, or_false]
  | service => simp [noticeRow_service, Noticed, faultsWaiting_iff]

theorem attentionLevel_iff (p : Port) (s : State) :
    attentionLevel p s = true ↔
      s.sc.power = .running ∧ ((getPort p s).finished ≠ [] ∨ Noticed p s) := by
  simp [attentionLevel, running, anyNotice_iff]

theorem attentionRight_iff (s : State) :
    AttentionRight s ↔ ∀ p, (getPort p s).attention = attentionLevel p s :=
  forall_congr' fun p => by
    rw [← attentionLevel_iff]
    exact Bool.eq_iff_iff.symm

/-- The end of a step changes nothing that a level depends on. -/
theorem attentionLevel_endStep (p : Port) (x : State) :
    attentionLevel p (endStep x) = attentionLevel p x := by
  have hk : (endStep x).rs.capture = x.rs.capture := by rw [endStep_store x]
  exact attentionLevel_congr p (by rw [getPort_endStep]) (by rw [getPort_endStep])
    (endStep_cc x) (endStep_rq x) (endStep_flt x) hk (endStep_sc x)

theorem attention_endStep (x : State) : AttentionRight (endStep x) :=
  (attentionRight_iff _).2 fun p => by rw [attentionLevel_endStep, getPort_endStep]

/-- Settles O6: an idle step keeps the premise, and every other ends with the lines levelled. -/
theorem attentionEveryStep : Obligations.AttentionEveryStep := by
  intro s t hs ht
  rcases step_cases ht with rfl | ⟨c, rest, he⟩
  · exact hs
  · obtain ⟨x, rfl⟩ := exec_ends he
    exact attention_endStep x

/-! ### Reset -/

theorem reset_attention : AttentionRight State.reset :=
  (attentionRight_iff _).2 fun p => by cases p <;> rfl

theorem reset_ways : WaysRight State.reset := fun i => by
  simp [State.reset, CardCache.start]

/-- Settles O24. -/
theorem resetHasTheProperties : Obligations.ResetHasTheProperties :=
  ⟨reset_attention, (claimsRight_iff _).2 (by decide), (by decide : (0 : Nat) ≤ 96), reset_ways,
    blank_wf, rfl⟩

end Sys2Proof.Machine
end

section
/-! The Port Interface: what is refused, READ and NOTICE_READ, and PORT_CLEAR (R196 to R202). -/

namespace Sys2Proof.Machine

/-! ### Refused requests and frames (R197) -/

/-- Every row that takes a request slot is a slot request with its own port, kind, tag and form. -/
theorem exec_slotRequest {c : Instr} {p : Port} {k : RequestKind} {tag : Nat} {form : Bool}
    (h : slotRequestOf c = some (p, k, tag, form)) (s : State) :
    ∃ take, exec c s = stepOf (slotRequest p k tag form take) s := by
  cases c <;> cases h <;> exact ⟨_, rfl⟩

/-- A request refused by the table of R197 is judged so. -/
theorem judgeKind_refuses {p : Port} {k : RequestKind} {tag : Nat} {form : Bool} {s : State}
    {code : Acceptance} (hk : slotless k = false) (h : Refuses p k tag form s code) :
    judgeKind p k tag form s = code := by
  unfold judgeKind
  cases code with
  | powerFail => simp [show running s = false from h]
  | notOnPort => obtain ⟨hr, hs⟩ := h; simp [hr, hs]
  | badForm => obtain ⟨hr, hs, hf | ht⟩ := h <;> simp [*]
  | dupTag => obtain ⟨hr, hs, hf, ht, hm⟩ := h; simp [*]
  | full => obtain ⟨hr, hs, hf, ht, hm, hn⟩ := h; simp [*]
  | badCheck => exact absurd h id
  | accepted => exact absurd h id

theorem refuses_accepted {p : Port} {k : RequestKind} {tag : Nat} {form : Bool} {s : State}
    {code : Acceptance} (h : Refuses p k tag form s code) : code ≠ .accepted := by
  rintro rfl
  exact h

/-- No row that takes a slot is of the three kinds that take none. -/
theorem slotless_slotRequest {c : Instr} {p : Port} {k : RequestKind} {tag : Nat} {form : Bool}
    (h : slotRequestOf c = some (p, k, tag, form)) : slotless k = false := by
  cases c <;> cases h <;> rfl

/-- A slot request that fails a check is answered with its code. -/
theorem slotRequest_refuses {c : Instr} {p : Port} {k : RequestKind} {tag : Nat} {form : Bool}
    {s : State} {code : Acceptance} (hc : slotRequestOf c = some (p, k, tag, form))
    (hp : powered s = true) (h : Refuses p k tag form s code) :
    ∃ t, exec c s = .next t ∧ Answered p (answerFor code tag (kindCode k) .nothing) s t
      ∧ RestKept s t := by
  obtain ⟨take, he⟩ := exec_slotRequest hc s
  have hj := judgeKind_refuses (slotless_slotRequest hc) h
  rw [he]
  exact answer_step (hj ▸ slotRequest_refused take hp (hj ▸ refuses_accepted h))

/-- A request without slot that is not accepted is answered with its code. -/
theorem plainRequest_refused {p : Port} {k : RequestKind} {tag : Nat}
    (take : State → AnswerContent × State) {s : State} {code : Acceptance} (hp : powered s = true)
    (hj : judgeKind p k tag true s = code) (hc : code ≠ .accepted) :
    plainRequest p k tag take s = giveAnswer p (answerFor code tag (kindCode k) .nothing) s := by
  unfold plainRequest
  simp [hp, hj, hc]

/-- A refused NOTICE_READ reports nothing. -/
theorem noticeReads_refused {p : Port} {tag : Nat} {s : State} {code : Acceptance}
    (hp : powered s = true) (hj : judgeKind p .noticeRead tag true s = code)
    (hc : code ≠ .accepted) :
    noticeReads p tag s = giveAnswer p (answerFor code tag (kindCode .noticeRead) .nothing) s := by
  unfold noticeReads
  simp only [plainRequest_refused _ hp hj hc, hj, hc, decide_false, Bool.and_false,
    Bool.false_eq_true, if_false]

theorem judgeKind_stopped {p : Port} {k : RequestKind} {tag : Nat} {form : Bool} {s : State}
    (h : running s = false) : judgeKind p k tag form s = .powerFail := by
  simp [judgeKind, h]

theorem judgeKind_notServed {p : Port} {k : RequestKind} {tag : Nat} {form : Bool} {s : State}
    (hr : running s = true) (h : served k p = false) : judgeKind p k tag form s = .notOnPort := by
  simp [judgeKind, hr, h]

/-- READ, NOTICE_READ and PORT_CLEAR are served on every port. -/
theorem served_slotless {k : RequestKind} (h : slotless k = true) (p : Port) : served k p = true := by
  cases k <;> cases h <;> rfl

theorem judgeKind_tag {p : Port} {k : RequestKind} {tag : Nat} {form : Bool} {s : State}
    (hr : running s = true) (hs : served k p = true) (h : 15 < tag) :
    judgeKind p k tag form s = .badForm := by
  simp [judgeKind, hr, hs, h]

theorem slotless_plainRequest {c : Instr} {p : Port} {k : RequestKind} {tag : Nat}
    (h : plainRequestOf c = some (p, k, tag)) : slotless k = true := by
  cases c <;> cases h <;> rfl

/-- The rows without slot, refused with a code. -/
theorem exec_plainRequest_refused {c : Instr} {p : Port} {k : RequestKind} {tag : Nat} {s : State}
    {code : Acceptance} (h : plainRequestOf c = some (p, k, tag)) (hp : powered s = true)
    (hj : judgeKind p k tag true s = code) (hc : code ≠ .accepted) :
    ∃ f, exec c s = stepOf f s ∧ f s = giveAnswer p (answerFor code tag (kindCode k) .nothing) s := by
  cases c <;> cases h
  case read => exact ⟨_, rfl, plainRequest_refused _ hp hj hc⟩
  case readRepeat => exact ⟨_, rfl, plainRequest_refused _ hp hj hc⟩
  case noticeRead => exact ⟨_, rfl, noticeReads_refused hp hj hc⟩
  case portClear => exact ⟨_, rfl, plainRequest_refused _ hp hj hc⟩

theorem plainRequest_refuses {c : Instr} {p : Port} {k : RequestKind} {tag : Nat} {s : State}
    {code : Acceptance} (h : plainRequestOf c = some (p, k, tag)) (hp : powered s = true)
    (hr : (running s = false ∧ code = .powerFail)
      ∨ (running s = true ∧ 15 < tag ∧ code = .badForm)) :
    ∃ t, exec c s = .next t ∧ Answered p (answerFor code tag (kindCode k) .nothing) s t
      ∧ RestKept s t := by
  have hj : judgeKind p k tag true s = code ∧ code ≠ .accepted := by
    rcases hr with ⟨hr, rfl⟩ | ⟨hr, ht, rfl⟩
    · exact ⟨judgeKind_stopped hr, nofun⟩
    · exact ⟨judgeKind_tag hr (served_slotless (slotless_plainRequest h) p) ht, nofun⟩
  obtain ⟨f, he, hf⟩ := exec_plainRequest_refused h hp hj.1 hj.2
  rw [he]
  exact answer_step hf

/-- A raw frame with a refusal is answered with it. -/
theorem frame_refused {p : Port} {frame : List Byte} {s : State} {code : Acceptance} {tag kind : Nat}
    (hp : powered s = true) (h : refusalOf p frame s = some (code, tag, kind)) :
    ∃ t, exec (.frameRefused p frame) s = .next t
      ∧ Answered p (answerFor code tag kind .nothing) s t ∧ RestKept s t := by
  refine answer_step (f := refuseFrame p frame) ?_
  simp [refuseFrame, hp, h]

/-- A length byte above 120 is judged at once (R196). -/
theorem refusalOf_long {p : Port} {tag kind len : Byte} {rest : List Byte} {s : State}
    (h : 120 < len.toNat) :
    refusalOf p (tag :: kind :: len :: rest) s =
      some (if running s then .badForm else .powerFail, tag.toNat, kind.toNat) := by
  simp [refusalOf, h]

/-- A complete frame with a length byte of at most 120, by its checks in order (R197). -/
theorem refusalOf_complete {p : Port} {tag kind len : Byte} {body : List Byte} {c0 c1 : Byte}
    {s : State} (hl : len.toNat ≤ 120) (hb : body.length = len.toNat) :
    refusalOf p (tag :: kind :: len :: (body ++ [c0, c1])) s =
      if running s = false then some (.powerFail, tag.toNat, kind.toNat)
      else if [c0, c1] ≠ leBytes 2 (checkWord (tag :: kind :: len :: body)).toNat then
        some (.badCheck, 0, 0)
      else
        match kindOf kind.toNat with
        | none => some (.notOnPort, tag.toNat, kind.toNat)
        | some k =>
          if judgeKind p k tag.toNat (rawBodyInForm k body) s = .accepted then none
          else some (judgeKind p k tag.toNat (rawBodyInForm k body) s, tag.toNat, kind.toNat) := by
  simp only [refusalOf, checkMatches, List.length_append, List.length_cons, List.length_nil, hb,
    Nat.not_lt.2 hl, lt_irrefl, if_false, Bool.not_eq_true', decide_eq_false_iff_not]
  rw [← hb, List.take_left, List.drop_left]
  rfl

theorem frames_refused {p : Port} {tag kind len : Byte} {body : List Byte} {c0 c1 : Byte} {s : State}
    (hp : powered s = true) (hr : running s = true) (hl : len.toNat ≤ 120)
    (hb : body.length = len.toNat) {code : Acceptance} {i j : Nat}
    (h : (if [c0, c1] ≠ leBytes 2 (checkWord (tag :: kind :: len :: body)).toNat then
        some (Acceptance.badCheck, 0, 0)
      else
        match kindOf kind.toNat with
        | none => some (.notOnPort, tag.toNat, kind.toNat)
        | some k =>
          if judgeKind p k tag.toNat (rawBodyInForm k body) s = .accepted then none
          else some (judgeKind p k tag.toNat (rawBodyInForm k body) s, tag.toNat, kind.toNat))
      = some (code, i, j)) :
    ∃ t, exec (.frameRefused p (tag :: kind :: len :: (body ++ [c0, c1]))) s = .next t
      ∧ Answered p (answerFor code i j .nothing) s t ∧ RestKept s t :=
  frame_refused hp (by rw [refusalOf_complete hl hb, if_neg (by simp [hr]), h])

/-- Settles O2. -/
theorem refusedRequestsChangeNothing : Obligations.RefusedRequestsChangeNothing := by
  refine ⟨fun _ _ _ _ _ _ _ => slotRequest_refuses, fun _ _ _ _ _ _ => plainRequest_refuses, ?_⟩
  intro p tag kind len body c0 c1 s hp
  refine ⟨fun hr hlen => ?_, fun hr hlen => ?_, fun hr hl hb => ⟨?_, ?_, ?_⟩⟩
  · rcases Nat.lt_or_ge 120 len.toNat with h | h
    · exact frame_refused hp (by rw [refusalOf_long h, hr]; rfl)
    · have hb := hlen.resolve_left (Nat.not_lt.2 h)
      exact frame_refused hp (by rw [refusalOf_complete h hb, if_pos hr])
  · exact frame_refused hp (by rw [refusalOf_long hlen, hr]; rfl)
  · intro hm
    exact frames_refused hp hr hl hb (if_pos hm)
  · intro hm hk
    exact frames_refused hp hr hl hb (by rw [if_neg (not_not.2 hm), hk])
  · intro k hm hk hs
    refine frames_refused hp hr hl hb ?_
    rw [if_neg (not_not.2 hm), hk]
    simp [judgeKind_notServed hr hs]

end Sys2Proof.Machine
end

section
/-! READ, NOTICE_READ, and the clocking out of their answers (R199, R201). -/

namespace Sys2Proof.Machine

/-! ### READ (R199) -/

/-- A request without slot that answers with a content and takes nothing. -/
theorem plainRequest_answers {p : Port} {k : RequestKind} {tag : Nat} {s : State}
    {c : State → AnswerContent} (hr : running s = true) (ht : tag ≤ 15) (hk : slotless k = true) :
    plainRequest p k tag (fun s => (c s, s)) s =
      giveAnswer p (answerFor .accepted tag (kindCode k) (c s)) s :=
  plain_answered hr ht (served_slotless hk p) hk rfl

theorem openAnswer_eq {p : Port} {s : State} {a : Answer} (h : (getPort p s).answer = some a)
    (hc : a.complete = false) : openAnswer p s = some a := by
  simp [openAnswer, h, hc]

/-- What is left of the hire records once a read reply's slot is free (R65). -/
def hiresAfter (p : Port) (r : Reply) (s : State) : List HireRecord :=
  if p = .terminal ∧ r.kind = .hire then s.hu.filter (fun h => h.tag ≠ r.tag) else s.hu

theorem freeReply_eq (p : Port) (r : Reply) (s : State) :
    freeReply p r s =
      (setPort p { getPort p s with finished := (getPort p s).finished.erase r, lastRead := some r }
        s).setHu (hiresAfter p r s) := by
  unfold freeReply hiresAfter dropHire
  split
  · simp only [setPort_hu]
  · cases p <;> rfl

theorem getPort_setHu (p : Port) (l : List HireRecord) (s : State) :
    getPort p (s.setHu l) = getPort p s := getPort_congr rfl p

/-- The state after a reply's answer has been clocked out. -/
theorem readComplete_reply {p : Port} {s : State} {a : Answer} {r : Reply} {rest : List Reply}
    (ha : (getPort p s).answer = some a) (hc : a.complete = false)
    (hr : a.content = .reply (some r) false) (hf : (getPort p s).finished = r :: rest) :
    readComplete p s =
      setPort p { getPort p s with
        finished := rest, lastRead := some r, answer := some { a with complete := true } }
        (s.setHu (hiresAfter p r s)) := by
  simp only [readComplete, openAnswer_eq ha hc, Option.map_some, hr, completeAnswer, freeReply_eq,
    getPort_setHu, getPort_setPort_self, ha, hf, List.erase_cons_head]
  cases p <;> rfl

/-- The clocking out of an answer without reply, or of a repeated one, frees nothing. -/
theorem readComplete_nothing {p : Port} {s : State} {a : Answer} {c : Option Reply}
    (ha : (getPort p s).answer = some a) (hc : a.complete = false)
    (hr : a.content = .reply none false ∨ a.content = .reply c true) :
    readComplete p s =
      setPort p { getPort p s with answer := some { a with complete := true } } s := by
  have hx : readComplete p s = completeAnswer p s := by
    unfold readComplete
    rcases hr with hr | hr <;> simp only [openAnswer_eq ha hc, Option.map_some, hr]
  rw [hx, completeAnswer, ha]
  rfl

/-- The end of a step that put a port and, besides the ports, nothing. -/
theorem port_put_step {f : State → State} {p : Port} {x : PortState} {s : State}
    (hx : f s = setPort p x s) :
    ∃ t, stepOf f s = .next t ∧ getPort p t = { x with attention := (getPort p t).attention }
      ∧ OtherPorts p s t ∧ RestKept s t := by
  obtain ⟨t, hstep, hport, hrs, ht⟩ := step_ends hx
  refine ⟨t, hstep, ?_, fun q hq => ?_, rest_kept (setPort_frame p x s) hrs ht⟩
  · rw [hport p, getPort_setPort_self]
  · rw [hport q, getPort_setPort_ne _ _ hq]

theorem whileRunning_eq {f : State → State} {s : State} (h : running s = true) :
    whileRunning f s = f s := if_pos h

/-- Settles O3. -/
theorem repliesAreReadThenFreed : Obligations.RepliesAreReadThenFreed := by
  refine ⟨fun p tag s hr ht => ⟨?_, ?_⟩, fun p s a hr ha hc => ⟨fun r rest hcont hf => ?_, ?_⟩⟩
  · exact answer_step (plainRequest_answers hr ht rfl)
  · exact answer_step (plainRequest_answers hr ht rfl)
  · have hx := (whileRunning_eq hr).trans (readComplete_reply ha hc hcont hf)
    obtain ⟨t, hstep, hport, hrs, ht⟩ := step_ends hx
    refine ⟨t, hstep, ?_, fun q hq => ?_, kept_of_rs hrs (setPort_rs _ _ _), ?_⟩
    · rw [hport p, getPort_setPort_self]
    · rw [hport q, getPort_setPort_ne _ _ hq, getPort_setHu]
    · conv_lhs => rw [ht, setPort_frame]
      rfl
  · intro c hcont
    exact port_put_step ((whileRunning_eq hr).trans (readComplete_nothing ha hc hcont))

/-! ### NOTICE_READ (R201) -/

/-- The bits of the number that a list of bits makes. -/
theorem testBit_bitsToNat (l : List Bool) (i : Nat) :
    (bitsToNat l).testBit i = (l[i]?).getD false := by
  induction l generalizing i with
  | nil => simp [bitsToNat]
  | cons b l ih =>
    have hb : bitsToNat (b :: l) = Nat.bit b (bitsToNat l) := by
      cases b <;> simp [bitsToNat, Nat.bit, Nat.add_comm]
    rw [hb]
    cases i with
    | zero => simp
    | succ i => simp [Nat.testBit_bit_succ, ih]

theorem bitsToNat_lt (l : List Bool) : bitsToNat l < 2 ^ l.length := by
  induction l with
  | nil => simp [bitsToNat]
  | cons b l ih =>
    rw [List.length_cons, bitsToNat, Nat.pow_succ]
    split <;> omega

/-- An accepted NOTICE_READ gives its answer and remembers the event notices reported. -/
theorem noticeReads_eq {p : Port} {tag : Nat} {s : State} (hr : running s = true) (ht : tag ≤ 15) :
    noticeReads p tag s =
      setPort p { getPort p s with
        answer := some (answerFor .accepted tag (kindCode .noticeRead) (.notices (noticeBytes p s))),
        reported := (getPort p s).events } s := by
  have hj : judgeKind p .noticeRead tag true s = .accepted := by
    simp [judgeKind, hr, served_slotless (k := .noticeRead) rfl p, Nat.not_lt.2 ht, slotless]
  simp only [noticeReads, plainRequest_answers hr ht (show slotless .noticeRead = true from rfl), hj,
    powered_of_running hr, Bool.true_and, decide_true, if_true, giveAnswer, getPort_setPort_self]
  cases p <;> rfl

theorem storeError_eq (s : State) : storeError s = s.rs.capture.locked := rfl
theorem reportsWaiting_eq (s : State) : reportsWaiting s = decide (0 < unreadCount s) := rfl
theorem fillWanted_eq (s : State) : fillWanted s = s.cc.fills.any fun f => !f.fetched := rfl
theorem faultsWaiting_eq (s : State) : faultsWaiting s = decide (s.flt.log ≠ []) := by
  rw [Bool.eq_iff_iff, faultsWaiting_iff, decide_eq_true_iff]

/-- The row of R201 written out. -/
theorem noticeRow_eq (p : Port) (e : EventNotices) (s : State) :
    noticeRow p e s =
      match p with
      | .terminal => [e.stationChanged, e.restarted]
      | .uplink =>
        [e.linkDown, e.faultAlert, e.watchHit, e.restarted, s.cc.fills.any (fun f => !f.fetched),
         decide (0 < unreadCount s), decide (s.flt.log ≠ []), s.rs.capture.locked]
      | .service => [e.orderEnded, e.faultAlert, e.watchHit, e.restarted, decide (s.flt.log ≠ [])] := by
  cases p with
  | terminal => rw [noticeRow_terminal]
  | uplink =>
    rw [noticeRow_uplink, fillWanted_eq, reportsWaiting_eq, faultsWaiting_eq, storeError_eq]
  | service => rw [noticeRow_service, faultsWaiting_eq]

theorem noticeRow_length (p : Port) (e : EventNotices) (s : State) : (noticeRow p e s).length ≤ 8 := by
  cases p with
  | terminal => rw [noticeRow_terminal]; exact Nat.le_of_ble_eq_true rfl
  | uplink => rw [noticeRow_uplink]; exact le_refl 8
  | service => rw [noticeRow_service]; exact Nat.le_of_ble_eq_true rfl

/-- A row of at most eight notices as the two bytes of an answer (R204). -/
theorem noticeBytes_eq (p : Port) (s : State) :
    ∃ b : Byte, noticeBytes p s = [b, 0#8]
      ∧ ∀ i, b.getLsbD i = ((noticeRow p (getPort p s).events s)[i]?).getD false := by
  have hl := noticeRow_length p (getPort p s).events s
  rw [noticeBytes]
  revert hl
  generalize noticeRow p (getPort p s).events s = row
  intro hl
  have hlt : bitsToNat row < 256 :=
    (bitsToNat_lt row).trans_le (Nat.pow_le_pow_right (by decide) hl)
  refine ⟨BitVec.ofNat 8 (bitsToNat row), ?_, fun i => ?_⟩
  · simp only [Nat.div_eq_of_lt hlt]
  · rw [BitVec.getLsbD_ofNat, testBit_bitsToNat]
    rcases Nat.lt_or_ge i 8 with hi | hi
    · simp [hi]
    · rw [List.getElem?_eq_none (hl.trans hi)]
      simp

/-- The clocking out of a NOTICE_READ answer. -/
theorem noticeComplete_eq {p : Port} {s : State} {a : Answer} {b : List Byte}
    (ha : (getPort p s).answer = some a) (hc : a.complete = false) (hb : a.content = .notices b) :
    noticeComplete p s =
      setPort p { getPort p s with
        events := clearReported (getPort p s).events (getPort p s).reported,
        reported := .clear, answer := some { a with complete := true } } s := by
  simp only [noticeComplete, openAnswer_eq ha hc, Option.map_some, hb, completeAnswer,
    getPort_setPort_self, ha]
  cases p <;> rfl

/-- Settles O4. -/
theorem noticesAreReportedThenCleared : Obligations.NoticesAreReportedThenCleared := by
  refine ⟨fun p tag s hr ht => ?_, fun p s a b hr ha hc hb => ?_⟩
  · obtain ⟨b, hbytes, hbits⟩ := noticeBytes_eq p s
    rw [noticeRow_eq] at hbits
    obtain ⟨t, hstep, hport, hother, hrest⟩ := port_put_step (f := noticeReads p tag)
      (noticeReads_eq hr ht)
    rw [hbytes] at hport
    exact ⟨t, b, hstep, hport, by cases p <;> exact hbits, hother, hrest⟩
  · exact port_put_step ((whileRunning_eq hr).trans (noticeComplete_eq ha hc hb))

end Sys2Proof.Machine
end

section
/-! Requests answered in their own step, by what their owner makes of a state whatever its ports; and the
hires in AUTH_WAIT that a mode change or a PORT_CLEAR ends (R87, R88, R187, R202). -/

namespace Sys2Proof.Machine

/-! ### Requests, whatever the ports -/

section
variable {p : Port} {k : RequestKind} {tag : Nat} {form : Bool} {take : State → State} {s x : State}
  {o : ReplyOutcome} {b : Body}

/-- A request that its owner answers in the same way whatever the ports hold. -/
theorem request_answered (h : Accepts p k tag s) (hf : form = true)
    (hx : ∀ i, take (s.setPi i) = reply p k tag o b (x.setPi i)) :
    ∃ t, stepOf (slotRequest p k tag form take) s = .next t ∧ Replied p k tag o b s t
      ∧ t.rs = (endStep x).rs ∧ t = { x with pi := t.pi, rs := t.rs } := by
  obtain ⟨t, hstep, hreply, hrs, ht⟩ := answered (x := x.setPi (accepted p k tag s).pi) h hf
    (by conv_lhs => rw [accepted_frame]
        exact hx _) rfl
  exact ⟨t, hstep, hreply, by rw [hrs, endStep_rs, endStep_rs]; rfl, ht⟩

/-- As `request_answered`, where the owner hands no record. -/
theorem request_kept (h : Accepts p k tag s) (hf : form = true) (hr : x.rs = s.rs)
    (hx : ∀ i, take (s.setPi i) = reply p k tag o b (x.setPi i)) :
    ∃ t, stepOf (slotRequest p k tag form take) s = .next t ∧ Replied p k tag o b s t
      ∧ StoreKept s t ∧ t = { x with pi := t.pi, rs := t.rs } := by
  obtain ⟨t, hstep, hreply, hrs, ht⟩ := request_answered h hf hx
  exact ⟨t, hstep, hreply, kept_of_rs hrs hr, ht⟩

/-- As `request_answered`, where the owner changes nothing. -/
theorem request_unchanged (h : Accepts p k tag s) (hf : form = true)
    (hx : ∀ i, take (s.setPi i) = reply p k tag o b (s.setPi i)) :
    ∃ t, stepOf (slotRequest p k tag form take) s = .next t ∧ Replied p k tag o b s t
      ∧ RestKept s t := by
  obtain ⟨t, hstep, hreply, hrs, ht⟩ := request_answered h hf hx
  exact ⟨t, hstep, hreply, rest_kept rfl hrs ht⟩

/-- As `request_answered`, where the owner hands records. -/
theorem request_hands {l : List (Place × Content)} (h : Accepts p k tag s) (hf : form = true)
    (hl : l ≠ []) (hr : x.rs = handAll l s.rs)
    (hx : ∀ i, take (s.setPi i) = reply p k tag o b (x.setPi i)) :
    ∃ t, stepOf (slotRequest p k tag form take) s = .next t ∧ Replied p k tag o b s t
      ∧ t.rs = stepHands l s.rs ∧ t = { x with pi := t.pi, rs := t.rs } := by
  obtain ⟨t, hstep, hreply, hrs, ht⟩ := request_answered h hf hx
  exact ⟨t, hstep, hreply, by rw [hrs, endStep_hands hl hr], ht⟩

end

theorem bothCopies_ne_nil (p : Fin 2 → Place) (c : Content) : bothCopies p c ≠ [] :=
  List.cons_ne_nil _ _

/-! ### Hires in AUTH_WAIT withdrawn (R63, R84, R87, R88) -/

/-- Fills without the waiters that are hires of a list. -/
def fillsWithout (l : List HireRecord) (fills : List Fill) : List Fill :=
  fills.map fun f =>
    if l.any fun h => f.waiter.any fun w => decide (w.tag = h.tag) then { f with waiter := none } else f

/-- Whether a holder is the one of a hire. -/
def holderOf (h : HireRecord) (x : Holder) : Bool :=
  match x with
  | .hire tag _ => decide (tag = h.tag)
  | _ => false

/-- A dock's record without the holder of a hire of a list, while it is DOCKED. -/
def recordWithout (l : List HireRecord) (d : DockNo) (r : DockRecord) : DockRecord :=
  if r.state = .docked ∧ l.any fun h => decide (h.chosen = some d) && r.holder.any (holderOf h) then
    { r with holder := none }
  else r

/-- The dock table without the holders of a list's hires. -/
@[irreducible] def docksWithout (l : List HireRecord) (docks : Vector DockRecord 48) :
    Vector DockRecord 48 :=
  Vector.ofFn fun d => recordWithout l d (vget docks d)

theorem vget_docksWithout (l : List HireRecord) (docks : Vector DockRecord 48) (d : DockNo) :
    vget (docksWithout l docks) d = recordWithout l d (vget docks d) := by
  unfold docksWithout
  simp [vget]

/-- The state with the waiters and holders of a list's hires withdrawn. -/
def hiresWithdrawn (l : List HireRecord) (s : State) : State :=
  { s with
    cc := { s.cc with fills := fillsWithout l s.cc.fills },
    dlc := { s.dlc with docks := docksWithout l s.dlc.docks } }

theorem dockOf_hiresWithdrawn (l : List HireRecord) (d : DockNo) (s : State) :
    dockOf d (hiresWithdrawn l s) = recordWithout l d (dockOf d s) :=
  vget_docksWithout l _ d

theorem recordWithout_holder (l : List HireRecord) (d : DockNo) (r : DockRecord) :
    recordWithout l d r = r
      ∨ r.state = .docked ∧ recordWithout l d r = { r with holder := none } := by
  unfold recordWithout
  split
  case isTrue h => exact .inr ⟨h.1, rfl⟩
  case isFalse => exact .inl rfl

/-- A holder withdrawn from a DOCKED dock leaves what the claim, the INHIBIT and the store know of it. -/
theorem recordWithout_kept (l : List HireRecord) (d : DockNo) (r : DockRecord) :
    claimOf (recordWithout l d r) = claimOf r ∧ toInhibit (recordWithout l d r) = toInhibit r
      ∧ retainedOf (recordWithout l d r) = retainedOf r := by
  rcases recordWithout_holder l d r with h | ⟨hs, h⟩
  · rw [h]
    exact ⟨rfl, rfl, rfl⟩
  · rw [h]
    exact ⟨by simp [claimOf, hs], rfl, rfl⟩

theorem claims_hiresWithdrawn {l : List HireRecord} {s : State} (h : ClaimsRight s) :
    ClaimsRight (hiresWithdrawn l s) := by
  rw [claimsRight_iff] at h ⊢
  refine ⟨fun d => ?_, h.2⟩
  rw [dockOf_hiresWithdrawn, (recordWithout_kept l d _).1]
  exact h.1 d

theorem hiresWithdrawn_of {l : List HireRecord} {s : State} {fills : List Fill}
    {docks : Vector DockRecord 48} (hf : fillsWithout l s.cc.fills = fills)
    (hd : ∀ d, recordWithout l d (dockOf d s) = vget docks d) :
    hiresWithdrawn l s =
      { s with cc := { s.cc with fills := fills }, dlc := { s.dlc with docks := docks } } := by
  have hv : docksWithout l s.dlc.docks = docks :=
    vget_ext fun d => (vget_docksWithout l _ d).trans (hd d)
  unfold hiresWithdrawn
  rw [hf, hv]

theorem hiresWithdrawn_nil (s : State) : hiresWithdrawn [] s = s :=
  hiresWithdrawn_of (fills := s.cc.fills) (docks := s.dlc.docks) (by simp [fillsWithout])
    fun d => by simp [recordWithout, dockOf]

theorem fillsWithout_cons (h : HireRecord) (l : List HireRecord) (fills : List Fill) :
    fillsWithout l (fillsWithout [h] fills) = fillsWithout (h :: l) fills := by
  simp only [fillsWithout, List.map_map]
  refine List.map_congr_left fun f _ => ?_
  by_cases hw : f.waiter.any fun w => decide (w.tag = h.tag) <;> simp [hw]

theorem recordWithout_cons (h : HireRecord) (l : List HireRecord) (d : DockNo) (r : DockRecord) :
    recordWithout l d (recordWithout [h] d r) = recordWithout (h :: l) d r := by
  by_cases hs : r.state = .docked
  · by_cases hh : decide (h.chosen = some d) && r.holder.any (holderOf h) <;>
      simp [recordWithout, hs, hh]
  · simp [recordWithout, hs]

theorem hiresWithdrawn_cons (h : HireRecord) (l : List HireRecord) (s : State) :
    hiresWithdrawn l (hiresWithdrawn [h] s) = hiresWithdrawn (h :: l) s := by
  have hd : ∀ d, recordWithout l d (dockOf d (hiresWithdrawn [h] s))
      = vget (hiresWithdrawn (h :: l) s).dlc.docks d := fun d => by
    rw [dockOf_hiresWithdrawn, recordWithout_cons, ← dockOf_hiresWithdrawn]
    rfl
  exact hiresWithdrawn_of (fillsWithout_cons h l s.cc.fills) hd

theorem heldByHire_eq (d : DockNo) (h : HireRecord) (s : State) :
    heldByHire d h.tag s = (dockOf d s).holder.any (holderOf h) := by
  unfold heldByHire
  cases (dockOf d s).holder with
  | none => rfl
  | some x => cases x <;> rfl

/-- The holder of a hire is withdrawn from its chosen dock. -/
theorem withdrawChosen_eq {s : State} (h : HireRecord) (hc : ClaimsRight s) :
    withdrawChosen h s =
      { s with dlc := { s.dlc with
          docks := docksWithout [h] s.dlc.docks } } := by
  have hsame : (∀ d, recordWithout [h] d (dockOf d s) = dockOf d s) →
      { s with dlc := { s.dlc with docks := docksWithout [h] s.dlc.docks } } = s := by
    intro hall
    have hv : docksWithout [h] s.dlc.docks = s.dlc.docks :=
      vget_ext fun d => (vget_docksWithout _ _ d).trans (hall d)
    rw [hv]
  unfold withdrawChosen
  split
  case h_2 hn =>
    exact (hsame fun d => by simp [recordWithout, hn]).symm
  case h_1 d hd =>
    have hr : recordWithout [h] d (dockOf d s)
        = if (dockOf d s).state = .docked ∧ heldByHire d h.tag s = true then
            { dockOf d s with holder := none } else dockOf d s := by
      rw [heldByHire_eq]
      simp [recordWithout, hd]
    have hother : ∀ e, d ≠ e → recordWithout [h] e (dockOf e s) = dockOf e s := fun e he => by
      simp [recordWithout, hd, he]
    unfold withdrawHire
    by_cases hb : heldByHire d h.tag s = true ∧ (dockOf d s).state = .docked
    · rw [if_pos hb.symm] at hr
      obtain ⟨hclaim, hinh, hret⟩ := recordWithout_kept [h] d (dockOf d s)
      rw [if_pos hb, ← hr, putDock_quiet hc hclaim hinh hret]
      have hv : vset s.dlc.docks d (recordWithout [h] d (dockOf d s))
          = docksWithout [h] s.dlc.docks := vget_ext fun e => by
        rw [vget_docksWithout, vget_vset]
        split
        case isTrue he => rw [he]; rfl
        case isFalse he => exact (hother e he).symm
      rw [hv]
      rfl
    · rw [if_neg (fun hn => hb hn.symm)] at hr
      rw [if_neg hb]
      refine (hsame fun e => ?_).symm
      by_cases he : d = e
      · rw [← he, hr]
      · exact hother e he

theorem withdrawWaiter_eq (h : HireRecord) (s : State) :
    withdrawWaiter h.tag s = { s with cc := { s.cc with fills := fillsWithout [h] s.cc.fills } } := by
  simp only [withdrawWaiter, fillsWithout, List.any_cons, List.any_nil, Bool.or_false]
  rfl

/-- One hire's waiter and holder are withdrawn. -/
theorem withdraw_one {s : State} (h : HireRecord) (hc : ClaimsRight s) :
    withdrawChosen h (withdrawWaiter h.tag s) = hiresWithdrawn [h] s := by
  rw [withdrawWaiter_eq, withdrawChosen_eq h (by exact hc)]
  rfl

/-- A list's waiters and holders are withdrawn one by one. -/
theorem withdraw_all {s : State} (l : List HireRecord) (hc : ClaimsRight s) :
    l.foldl (fun s h => withdrawChosen h (withdrawWaiter h.tag s)) s = hiresWithdrawn l s := by
  induction l generalizing s with
  | nil => exact (hiresWithdrawn_nil s).symm
  | cons h l ih =>
    rw [List.foldl_cons, withdraw_one h hc, ih (claims_hiresWithdrawn hc), hiresWithdrawn_cons]

/-- The hires in AUTH_WAIT. -/
def waitingHires (s : State) : List HireRecord := s.hu.filter fun h => decide (h.state = .authWait)

theorem any_waitingHires (f : HireRecord → Bool) (s : State) :
    (waitingHires s).any f = s.hu.any fun h => decide (h.state = .authWait) && f h :=
  List.any_filter

theorem fillsWithout_waiting (s : State) :
    fillsWithout (waitingHires s) s.cc.fills = withoutWaiters s := by
  simp only [fillsWithout, withoutWaiters, any_waitingHires]

theorem recordWithout_waiting (d : DockNo) (s : State) :
    recordWithout (waitingHires s) d (dockOf d s) = withoutWaitingHolder d s := by
  simp only [recordWithout, withoutWaitingHolder, any_waitingHires, ← Bool.and_assoc]
  rfl

/-! ### PORT_CLEAR (R202) -/

/-- A PORT_CLEAR gives its answer and leaves its port without slots and event notices, and what the
owners of the withdrawn requests did. -/
theorem portClear_ends {p : Port} {tag : Nat} {s x : State} (hr : running s = true) (ht : tag ≤ 15)
    (hx : ∀ i, ownersClear p (s.setPi i) = x.setPi i) :
    ∃ t, exec (.portClear p tag) s = .next t
      ∧ (getPort p t =
          { unfinished := [], finished := [], lastRead := none, events := .clear, reported := .clear,
            answer := some (answerFor .accepted tag 3
              (.withdrawn ((getPort p s).unfinished.length + (getPort p s).finished.length))),
            attention := (getPort p t).attention }
        ∧ OtherPorts p s t)
      ∧ t.rs = (endStep x).rs ∧ t = { x with pi := t.pi, rs := t.rs } := by
  have hclear : clearPort p s =
      setPort p { getPort p s with
        unfinished := [], finished := [], lastRead := none, events := .clear, reported := .clear }
        (x.setPi s.pi) := by
    have hi := setPort_frame p
      { getPort p s with unfinished := [], finished := [], lastRead := none } s
    rw [clearPort, hi, hx]
    cases p <;> rfl
  have hplain : plainRequest p .portClear tag
      (fun s => (.withdrawn (heldTags (getPort p s)).length, clearPort p s)) s
      = giveAnswer p (answerFor .accepted tag (kindCode .portClear)
          (.withdrawn (heldTags (getPort p s)).length)) (clearPort p s) :=
    plain_answered hr ht (served_slotless rfl p) rfl rfl
  obtain ⟨t, hstep, hport, hrs, hframe⟩ := step_ends hplain
  refine ⟨t, hstep, ⟨?_, fun q hq => ?_⟩, ?_, ?_⟩
  · rw [hport p, giveAnswer, getPort_setPort_self, hclear, getPort_setPort_self]
    simp only [heldTags, List.length_append, List.length_map]
    rfl
  · rw [hport q, giveAnswer, getPort_setPort_ne _ _ hq, hclear, getPort_setPort_ne _ _ hq]
    rfl
  · rw [hrs, endStep_rs, endStep_rs]
    simp only [giveAnswer, setPort_rs, hclear, State.setPi_rs]
  · have hx : ∀ a, giveAnswer p a (clearPort p s) = x.setPi (giveAnswer p a (clearPort p s)).pi :=
      fun a => by
        rw [hclear]
        cases p <;> rfl
    conv_lhs => rw [hframe, hx]
    rfl

/-- On the Uplink port the fills wait again and the read mark goes back (R54, R119). -/
theorem ownersClear_uplink {s : State} (hc : Clean s) (i : PortInterface) :
    ownersClear .uplink (s.setPi i) =
      State.setPi i { s with
        cc := { s.cc with fills := s.cc.fills.map fun f => { f with fetched := false } },
        rq := { s.rq with readMark := oldestSeq s },
        rs := if s.rq.readMark = oldestSeq s then s.rs
          else handAll (bothCopies .queueHead
            (.queueHead { queueHeadOf s with readMark := oldestSeq s })) s.rs } := by
  rw [ownersClear, readQueueHead_clean (by exact hc)]
  unfold restartRead setReadMark
  by_cases h : s.rq.readMark = oldestSeq s
  · rw [if_pos (by exact h), if_pos h, ← h]
    rfl
  · rw [if_neg (by exact h), if_neg h]
    rfl

/-- On the Service port the requests have no owner. -/
theorem ownersClear_service (s : State) : ownersClear .service s = s := rfl

/-- On the Terminal port every hire record is removed (R88). -/
theorem ownersClear_terminal {s : State} (hc : ClaimsRight s) (i : PortInterface) :
    ownersClear .terminal (s.setPi i) =
      State.setPi i ((hiresWithdrawn (waitingHires s) s).setHu []) := by
  have h := withdraw_all (waitingHires s) (s := s.setPi i) hc
  show State.setHu [] (List.foldl _ _ _) = _
  unfold waitingHires at h ⊢
  rw [State.setPi_hu, h]
  rfl

/-- Settles O5. -/
theorem portClearWithdraws : Obligations.PortClearWithdraws := by
  refine fun p tag s hr ht => ⟨?_, ?_, ?_⟩
  · rintro rfl
    obtain ⟨t, hstep, hport, hrs, hframe⟩ :=
      portClear_ends (x := s) hr ht fun _ => ownersClear_service _
    exact ⟨t, hstep, hport, rest_kept rfl hrs hframe⟩
  · rintro rfl hc
    obtain ⟨t, hstep, hport, hrs, hframe⟩ := portClear_ends hr ht (ownersClear_terminal hc)
    refine ⟨t, hstep, hport, kept_of_rs hrs rfl, ?_, fun d => ?_⟩
    · rw [← fillsWithout_waiting, congrArg (fun t => t.dlc.docks) hframe]
      exact hframe
    · rw [← recordWithout_waiting, ← dockOf_hiresWithdrawn]
      exact (congrArg (dockOf d) hframe).trans rfl
  · rintro rfl hc
    obtain ⟨t, hstep, hport, hrs, hframe⟩ := portClear_ends hr ht (ownersClear_uplink hc)
    refine ⟨t, hstep, hport, ?_, hframe⟩
    split
    case isTrue h => exact kept_of_rs hrs (if_pos h)
    case isFalse h => rw [hrs, endStep_hands (bothCopies_ne_nil _ _) (if_neg h)]

end Sys2Proof.Machine
end

section
/-! STATION_MODE, and the hires that MAINTENANCE ends (R87, R187). -/

namespace Sys2Proof.Machine

/-! ### Hires ended -/

/-- The replies of hires ended at a mode change (R87). -/
def endedReplies (l : List HireRecord) : List Reply :=
  l.map fun h => { tag := h.tag, kind := .hire, outcome := .notInService, body := .empty }

/-- The hire records with those of a list's hires ENDED. -/
def hiresEnded (l hires : List HireRecord) : List HireRecord :=
  hires.map fun x => if l.any fun h => decide (h.tag = x.tag) then { x with state := .ended } else x

/-- The Terminal port with the replies of a list's hires finished. -/
def portEnded (l : List HireRecord) (q : PortState) : PortState :=
  { q with
    unfinished := q.unfinished.filter fun u => l.all fun h => decide (u.1 ≠ h.tag),
    finished := q.finished ++ endedReplies l }

/-- The state with a list's hires ended by NOT_IN_SERVICE. -/
def notInServiceEnded (l : List HireRecord) (s : State) : State :=
  { s with hu := hiresEnded l s.hu, pi := { s.pi with terminal := portEnded l s.pi.terminal } }

theorem hiresEnded_nil (hires : List HireRecord) : hiresEnded [] hires = hires := by
  simp [hiresEnded]

theorem hiresEnded_cons (h : HireRecord) (l hires : List HireRecord) :
    hiresEnded l (hiresEnded [h] hires) = hiresEnded (h :: l) hires := by
  simp only [hiresEnded, List.map_map]
  refine List.map_congr_left fun x _ => ?_
  by_cases hx : h.tag = x.tag <;> simp [hx]

theorem portEnded_nil (q : PortState) : portEnded [] q = q := by
  simp [portEnded, endedReplies]

theorem portEnded_cons (h : HireRecord) (l : List HireRecord) (q : PortState) :
    portEnded l (portEnded [h] q) = portEnded (h :: l) q := by
  simp [portEnded, endedReplies, List.filter_filter, Bool.and_comm]

theorem notInServiceEnded_of {l hires : List HireRecord} {q : PortState} {s : State}
    (hh : hiresEnded l s.hu = hires) (hq : portEnded l s.pi.terminal = q) :
    notInServiceEnded l s = { s with hu := hires, pi := { s.pi with terminal := q } } := by
  subst hh hq
  rfl

theorem notInServiceEnded_nil (s : State) : notInServiceEnded [] s = s :=
  notInServiceEnded_of (hiresEnded_nil s.hu) (portEnded_nil s.pi.terminal)

theorem notInServiceEnded_cons (h : HireRecord) (l : List HireRecord) (s : State) :
    notInServiceEnded l (notInServiceEnded [h] s) = notInServiceEnded (h :: l) s :=
  notInServiceEnded_of (hiresEnded_cons h l s.hu) (portEnded_cons h l s.pi.terminal)

/-- One hire's NOT_IN_SERVICE reply is finished. -/
theorem finish_notInService (h : HireRecord) (s : State) :
    finishHire h.tag .notInService .empty s = notInServiceEnded [h] s := by
  rw [finishHire_answered]
  refine (notInServiceEnded_of ?_ ?_).symm
  · simp [hiresEnded, eq_comm]
  · simp [portEnded, endedReplies]

theorem hiresWithdrawn_notInService (l m : List HireRecord) (s : State) :
    hiresWithdrawn l (notInServiceEnded m s) = notInServiceEnded m (hiresWithdrawn l s) := rfl

theorem claims_notInServiceEnded {l : List HireRecord} {s : State} (h : ClaimsRight s) :
    ClaimsRight (notInServiceEnded l s) := h

/-- The waiting hires are withdrawn and answered one by one. -/
theorem endWaiting_all {s : State} (l : List HireRecord) (hc : ClaimsRight s) :
    l.foldl endWaiting s = notInServiceEnded l (hiresWithdrawn l s) := by
  induction l generalizing s with
  | nil => rw [hiresWithdrawn_nil, notInServiceEnded_nil]; rfl
  | cons h l ih =>
    have hone : endWaiting s h = notInServiceEnded [h] (hiresWithdrawn [h] s) := by
      rw [endWaiting, withdraw_one h hc, finish_notInService]
    rw [List.foldl_cons, hone, ih (claims_notInServiceEnded (claims_hiresWithdrawn hc)),
      hiresWithdrawn_notInService, notInServiceEnded_cons, hiresWithdrawn_cons]

theorem endWaitingHires_eq {s : State} (hc : ClaimsRight s) :
    endWaitingHires s = notInServiceEnded (waitingHires s) (hiresWithdrawn (waitingHires s) s) :=
  endWaiting_all (waitingHires s) hc

/-- With no hire in AUTH_WAIT none is ended. -/
theorem endWaitingHires_none {s : State} (h : ∀ x ∈ s.hu, x.state ≠ .authWait) :
    endWaitingHires s = s := by
  have hn : waitingHires s = [] := by
    simpa [waitingHires] using h
  exact (congrArg (List.foldl endWaiting s) hn).trans rfl

/-! ### STATION_MODE (R187) -/

/-- The state with the target mode put and the station record handed. -/
def targetPut (m : Mode) (s : State) : State :=
  { s with
    sc := { s.sc with station := { s.sc.station with target := m } },
    rs := handAll (bothCopies .station (.station { s.sc.station with target := m })) s.rs }

theorem setTarget_eq (m : Mode) (s : State) : setTarget m s = targetPut m s := rfl

theorem supervisor_iff (crew : Nat) (s : State) :
    supervisor crew s = true ↔ ∃ c, crewOf crew s = some c ∧ c.level = 0 := by
  simp [supervisor, Option.any_eq_true]

/-- What a port must be, or have, to set the mode. -/
theorem modePermitted_iff {p : Port} (hs : served .stationMode p = true) (crew : Nat) (s : State) :
    modePermitted p crew s = true ↔
      p = .uplink ∨ s.sc.config.serviceMaySetMode = true
        ∧ ∃ c, crewOf crew s = some c ∧ c.level = 0 := by
  rw [← supervisor_iff]
  cases p with
  | terminal => cases hs
  | uplink => simp [modePermitted]
  | service => simp [modePermitted]

section
variable {p : Port} {tag : Nat} {m : Mode} {crew : Nat} {s : State}

theorem takeStationMode_refused (hc : Clean s) (h : modePermitted p crew s = false) :
    takeStationMode p tag m crew s = reply p .stationMode tag .notPermitted .empty s := by
  simp only [takeStationMode, readForMode_clean hc, h, Bool.not_false, if_true]

theorem takeStationMode_starting (hc : Clean s) (h : modePermitted p crew s = true)
    (hm : s.sc.mode = .starting) :
    takeStationMode p tag m crew s =
      reply p .stationMode tag .done (.modeWas s.sc.mode) (targetPut m s) := by
  simp only [takeStationMode, readForMode_clean hc, h, Bool.not_true, Bool.false_eq_true, if_false,
    if_pos hm, setTarget_eq]

theorem takeStationMode_permitted (hc : Clean s) (h : modePermitted p crew s = true)
    (hm : s.sc.mode ≠ .starting) :
    takeStationMode p tag m crew s =
      reply p .stationMode tag .done (.modeWas s.sc.mode) (changeMode m s) := by
  simp only [takeStationMode, readForMode_clean hc, h, Bool.not_true, Bool.false_eq_true, if_false,
    if_neg hm]

end

/-- The state with mode and target put. -/
def modePut (m : Mode) (s : State) : State :=
  { targetPut m s with sc := { s.sc with station := { s.sc.station with target := m }, mode := m } }

theorem changeMode_ne {m : Mode} {s : State} (h : s.sc.mode ≠ m) :
    changeMode m s = if m = .maintenance then endWaitingHires (modePut m s) else modePut m s :=
  if_neg h

/-- A change of the mode that ends no hire. -/
theorem changeMode_quiet {m : Mode} {s : State} (h : s.sc.mode ≠ m)
    (hq : m = .maintenance → ∀ x ∈ s.hu, x.state ≠ .authWait) : changeMode m s = modePut m s := by
  rw [changeMode_ne h]
  split
  case isTrue hm => exact endWaitingHires_none (s := modePut m s) (hq hm)
  case isFalse => rfl

/-- The state in which MAINTENANCE has ended the waiting hires, but for the Terminal port's replies. -/
def maintenanceEntered (s : State) : State :=
  (hiresWithdrawn (waitingHires s) (modePut .maintenance s)).setHu (hiresEnded (waitingHires s) s.hu)

theorem changeMode_maintenance {s : State} (h : s.sc.mode ≠ .maintenance) (hc : ClaimsRight s) :
    changeMode .maintenance s =
      setPort .terminal (portEnded (waitingHires s) (getPort .terminal s))
        ((maintenanceEntered s).setPi s.pi) := by
  rw [changeMode_ne h, if_pos rfl, endWaitingHires_eq (by exact hc)]
  rfl

/-- A STATION_MODE on a port other than the Terminal port that ends the waiting hires: its own reply, and
theirs on the Terminal port. -/
theorem maintenance_ports {p : Port} {tag : Nat} {s : State} {b : Body} (hp : p ≠ .terminal)
    (hacc : Accepts p .stationMode tag s) (x : State) :
    let y := reply p .stationMode tag .done b
      (setPort .terminal (portEnded (waitingHires s) (getPort .terminal s))
        (x.setPi (accepted p .stationMode tag s).pi))
    getPort p y = { getPort p s with
        finished := (getPort p s).finished ++
          [{ tag := tag, kind := .stationMode, outcome := .done, body := b }],
        answer := some (answerFor .accepted tag (kindCode .stationMode) .nothing),
        reported := .clear }
      ∧ getPort .terminal y = portEnded (waitingHires s) (getPort .terminal s)
      ∧ ∀ q, q ≠ p → q ≠ .terminal → getPort q y = getPort q s := by
  have hown : ∀ q, getPort q (x.setPi (accepted p .stationMode tag s).pi)
      = getPort q (accepted p .stationMode tag s) := getPort_congr rfl
  refine ⟨?_, ?_, fun q hq hn => ?_⟩
  · simp only [reply, finishReply, getPort_setPort_self, getPort_setPort_ne _ _ hp, hown]
    simp only [accepted, getPort_setPort_self, filter_held hacc]
  · simp only [reply, finishReply, getPort_setPort_self, getPort_setPort_ne _ _ hp.symm]
  · simp only [reply, finishReply, getPort_setPort_ne _ _ hq, getPort_setPort_ne _ _ hn, hown]
    simp only [accepted, getPort_setPort_ne _ _ hq]

/-- Settles O8. -/
theorem stationModeIsPut : Obligations.StationModeIsPut := by
  intro p tag mode crew s hacc hmode hc
  have hform : decide (mode ≠ .starting) = true := decide_eq_true hmode
  have hiff := modePermitted_iff hacc.2.1 crew s
  refine ⟨fun hn => ?_, fun hy hm => ?_, fun hy hm => ?_, fun hy hm hne hq => ?_,
    fun hy hp hm hmm hr => ?_⟩
  · have h : modePermitted p crew s = false := by rwa [← Bool.not_eq_true, hiff]
    exact request_kept (x := s) hacc hform rfl fun i => takeStationMode_refused (s := s.setPi i) hc h
  · exact request_hands (x := targetPut mode s) hacc hform (bothCopies_ne_nil _ _) rfl fun i =>
      takeStationMode_starting (s := s.setPi i) hc (hiff.2 hy) hm
  · refine request_kept (x := s) hacc hform rfl fun i => ?_
    rw [takeStationMode_permitted (by exact hc) (by exact hiff.2 hy) (by exact hm ▸ hmode)]
    exact congrArg _ (if_pos hm)
  · refine request_hands (x := modePut mode s) hacc hform (bothCopies_ne_nil _ _) rfl fun i => ?_
    rw [takeStationMode_permitted (by exact hc) (by exact hiff.2 hy) (by exact hm)]
    exact congrArg _ (changeMode_quiet (s := s.setPi i) hne hq)
  · subst hmm
    have htake : takeStationMode p tag .maintenance crew (accepted p .stationMode tag s) =
        reply p .stationMode tag .done (.modeWas .inService)
          (setPort .terminal (portEnded (waitingHires s) (getPort .terminal s))
            ((maintenanceEntered s).setPi (accepted p .stationMode tag s).pi)) := by
      have hterm : getPort .terminal (accepted p .stationMode tag s) = getPort .terminal s :=
        getPort_setPort_ne _ _ hp.symm
      rw [← hterm]
      conv_lhs => rw [accepted_frame]
      rw [takeStationMode_permitted (by exact hc) (by exact hiff.2 hy) (by exact hm ▸ (by decide)),
        changeMode_maintenance (by exact hm ▸ (by decide)) (by exact hr)]
      exact congrArg (fun m => reply p .stationMode tag .done (.modeWas m) _) hm
    obtain ⟨hown, hterm, hother⟩ :=
      maintenance_ports (b := .modeWas .inService) hp hacc (maintenanceEntered s)
    obtain ⟨t, hstep, hport, hrs, hframe⟩ := step_ends
      (f := slotRequest p .stationMode tag true (takeStationMode p tag .maintenance crew))
      ((slotRequest_taken _ hacc).trans htake)
    have hhanded : t.rs = stepHands (bothCopies .station
        (.station { s.sc.station with target := .maintenance })) s.rs := by
      rw [hrs]
      exact endStep_hands (bothCopies_ne_nil _ _) (by rw [reply_frame]; simp only [State.setPi_rs, setPort_rs]; rfl)
    have hframe' : t = { maintenanceEntered s with pi := t.pi, rs := t.rs } := by
      conv_lhs => rw [hframe, reply_frame, setPort_frame]
      rfl
    refine ⟨t, hstep, hhanded, ?_, ?_, fun q hq hn => ?_, ?_, fun d => ?_⟩
    · rw [hport p, hown]
    · rw [hport .terminal, hterm]; rfl
    · rw [hport q, hother q hq hn]
    · rw [← fillsWithout_waiting, congrArg (fun t => t.dlc.docks) hframe']
      exact hframe'
    · rw [← recordWithout_waiting, ← dockOf_hiresWithdrawn]
      exact (congrArg (dockOf d) hframe').trans rfl

end Sys2Proof.Machine
end

section
/-! Station Control's clock, configuration and status, the causes of a start, and the store's own requests
(R172, R179, R184 to R190). -/

namespace Sys2Proof.Machine

/-! ### The clock (R184 to R186) -/

theorem min_clockMax (n : Nat) : min clockMax (n + 1) = if n < 4294967295 then n + 1 else 4294967295 := by
  unfold clockMax
  split <;> omega

theorem tickClock_eq (s : State) :
    tickClock s =
      { s with sc := { s.sc with
          clock :=
            if s.rs.supplyLost = true ∧ s.sc.power = .off then s.sc.clock
            else if s.sc.clock < 4294967295 then s.sc.clock + 1 else 4294967295 } } := by
  unfold tickClock
  split
  case isTrue => rfl
  case isFalse => rw [min_clockMax]; rfl

/-- A step that leaves the ports and the store alone. -/
theorem quiet_step {f : State → State} {s x : State} (hx : f s = x) (hp : x.pi = s.pi)
    (hr : x.rs = s.rs) :
    ∃ t, stepOf f s = .next t ∧ PortsKept s t ∧ StoreKept s t
      ∧ t = { x with pi := t.pi, rs := t.rs } := by
  obtain ⟨t, hstep, hports, hrs, ht⟩ := plain_step hx hp
  exact ⟨t, hstep, hports, kept_of_rs hrs hr, ht⟩

/-- A step that changes nothing but the attention lines. -/
theorem idle_step {f : State → State} {s : State} (hx : f s = s) :
    ∃ t, stepOf f s = .next t ∧ PortsKept s t ∧ RestKept s t := by
  obtain ⟨t, hstep, hports, hrs, ht⟩ := plain_step hx rfl
  exact ⟨t, hstep, hports, rest_kept rfl hrs ht⟩

/-- Settles O7. -/
theorem clockCountsAndIsSet : Obligations.ClockCountsAndIsSet := by
  refine ⟨fun s => quiet_step (tickClock_eq s) rfl rfl,
    fun tag s => ⟨fun time hacc h0 h1 => ?_, fun id hacc h0 h1 => ?_⟩⟩
  · let station := { s.sc.station with clockValid := true }
    exact request_hands
      (x := { s with
        sc := { s.sc with clock := time, station := station },
        rs := handAll (bothCopies .station (.station station)) s.rs })
      hacc (decide_eq_true ⟨h0, h1⟩) (bothCopies_ne_nil _ _) rfl fun _ => rfl
  · let station := { s.sc.station with id := id }
    exact request_hands
      (x := { s with
        sc := { s.sc with station := station },
        rs := handAll (bothCopies .station (.station station)) s.rs })
      hacc (decide_eq_true ⟨h0, h1⟩) (bothCopies_ne_nil _ _) rfl fun _ => rfl

/-! ### Configuration and status (R188, R189) -/

/-- Whether a value is one that an item can hold. -/
def fitsItem (i : ConfigItem) : ConfigValue → Prop
  | .num n => yesNoItem i = false ∧ 0 ≤ n
  | .yesNo _ => yesNoItem i = true

theorem configValue_set_self (c : Configuration) {i : ConfigItem} {v : ConfigValue}
    (h : fitsItem i v) : configValue (setConfigValue c i v) i = v := by
  cases v with
  | num n =>
    obtain ⟨hi, hn⟩ := h
    have hv : ConfigValue.num (n.toNat : Int) = .num n := by rw [Int.toNat_of_nonneg hn]
    cases i <;> first | exact hv | cases hi
  | yesNo b => cases i <;> first | rfl | cases h

theorem configValue_set_ne (c : Configuration) {i other : ConfigItem} (v : ConfigValue)
    (h : other ≠ i) : configValue (setConfigValue c i v) other = configValue c other := by
  cases i <;> cases other <;> first | rfl | exact absurd rfl h

theorem takeConfigSet_eq {tag : Nat} {i : ConfigItem} {v : ConfigValue} {s : State} (hc : Clean s)
    (h : fitsItem i (keptValue i v).1) :
    takeConfigSet tag i v s =
      reply .uplink .configSet tag .done
        (.configSet (keptValue i v).1 (configValue s.sc.config i) (keptValue i v).2)
        { s with
          sc := { s.sc with config := setConfigValue s.sc.config i (keptValue i v).1 },
          rs := handAll [(.config i, .config (keptValue i v).1)] s.rs } := by
  have hv := configValue_set_self s.sc.config h
  simp only [takeConfigSet, readConfig_clean hc, handConfig, State.setSc_sc, hv]
  rfl

/-- A CONFIG_SET of a value in form, by what is kept of it. -/
theorem configSet_takes {tag : Nat} {s : State} {i : ConfigItem} {v kept : ConfigValue}
    {clamped : Bool} (hacc : Accepts .uplink .configSet tag s) (hc : Clean s)
    (hform : configInForm i v = true) (hk : keptValue i v = (kept, clamped)) (hfit : fitsItem i kept) :
    ∃ t config, exec (.configSet tag i v) s = .next t
      ∧ Replied .uplink .configSet tag .done
          (.configSet kept (configValue s.sc.config i) clamped) s t
      ∧ configValue config i = kept
      ∧ (∀ other, other ≠ i → configValue config other = configValue s.sc.config other)
      ∧ t.rs = stepHands [(.config i, .config kept)] s.rs
      ∧ t = { s with pi := t.pi, rs := t.rs, sc := { s.sc with config := config } } := by
  obtain ⟨t, hstep, hreply, hrs, ht⟩ := request_hands
    (x := { s with
      sc := { s.sc with config := setConfigValue s.sc.config i kept },
      rs := handAll [(.config i, .config kept)] s.rs })
    (o := .done) (b := .configSet kept (configValue s.sc.config i) clamped)
    (take := takeConfigSet tag i v) hacc hform (List.cons_ne_nil _ _) rfl fun j => by
      rw [takeConfigSet_eq (by exact hc) (by rw [hk]; exact hfit), hk]
      rfl
  exact ⟨t, _, hstep, hreply, configValue_set_self _ hfit,
    fun other => configValue_set_ne _ _, hrs, ht⟩

theorem keptValue_num {i : ConfigItem} {lo hi : Int} (h : configRange i = (lo, hi)) (n : Int) :
    keptValue i (.num n) = (.num (limit lo hi n), decide (limit lo hi n ≠ n)) := by
  rw [keptValue, h, limited]

/-- Every range is of numbers from 0 up. -/
theorem configRange_numeric (i : ConfigItem) :
    0 ≤ (configRange i).1 ∧ (configRange i).1 ≤ (configRange i).2 := by
  cases i <;> decide

/-- A number is kept within its item's range. -/
theorem configSet_number {tag : Nat} {s : State} {i : ConfigItem} {lo hi : Int}
    (hacc : Accepts .uplink .configSet tag s) (hc : Clean s) (hnum : yesNoItem i = false)
    (hr : configRange i = (lo, hi)) {n m : Int} {clamped : Bool} (hm : limit lo hi n = m)
    (hcl : decide (m ≠ n) = clamped) :
    ∃ t config, exec (.configSet tag i (.num n)) s = .next t
      ∧ Replied .uplink .configSet tag .done
          (.configSet (.num m) (configValue s.sc.config i) clamped) s t
      ∧ configValue config i = .num m
      ∧ (∀ other, other ≠ i → configValue config other = configValue s.sc.config other)
      ∧ t.rs = stepHands [(.config i, .config (.num m))] s.rs
      ∧ t = { s with pi := t.pi, rs := t.rs, sc := { s.sc with config := config } } := by
  have hrange := configRange_numeric i
  rw [hr] at hrange
  refine configSet_takes hacc hc (by simp [configInForm, hnum])
    (by rw [keptValue_num hr, hm, hcl]) ⟨hnum, ?_⟩
  rw [← hm, limit]
  exact hrange.1.trans (le_max_left _ _)

/-- A number below, within or above a range, as the range keeps it. -/
theorem configSet_ranges {tag : Nat} {s : State} {i : ConfigItem} {lo hi : Int}
    (hacc : Accepts .uplink .configSet tag s) (hc : Clean s) (hnum : yesNoItem i = false)
    (hr : configRange i = (lo, hi)) (n : Int) :
    let takes := fun (m : Int) clamped =>
      ∃ t config, exec (.configSet tag i (.num n)) s = .next t
        ∧ Replied .uplink .configSet tag .done
            (.configSet (.num m) (configValue s.sc.config i) clamped) s t
        ∧ configValue config i = .num m
        ∧ (∀ other, other ≠ i → configValue config other = configValue s.sc.config other)
        ∧ t.rs = stepHands [(.config i, .config (.num m))] s.rs
        ∧ t = { s with pi := t.pi, rs := t.rs, sc := { s.sc with config := config } }
    (n < lo → takes lo true) ∧ (lo ≤ n → n ≤ hi → takes n false) ∧ (hi < n → takes hi true) := by
  have hrange := (configRange_numeric i).2
  rw [hr] at hrange
  refine ⟨fun h => ?_, fun h1 h2 => ?_, fun h => ?_⟩
  · exact configSet_number hacc hc hnum hr (by unfold limit; omega) (by simp; omega)
  · exact configSet_number hacc hc hnum hr (by unfold limit; omega) (by simp)
  · exact configSet_number hacc hc hnum hr (by unfold limit; omega) (by simp; omega)

theorem takeConfigRead_eq {p : Port} {tag : Nat} {s : State} (hc : Clean s) :
    takeConfigRead p tag s = reply p .configRead tag .done (.config s.sc.config) s := by
  rw [takeConfigRead, readPlaces_clean hc (by rfl)]

theorem statusView_eq (s : State) :
    statusView s =
      { mode := s.sc.mode, target := s.sc.station.target, id := s.sc.station.id,
        commissioned := decide (s.sc.station.id ≠ 0 ∧ s.sc.station.clockValid = true),
        clock := s.sc.clock, clockValid := s.sc.station.clockValid, linkUp := s.sc.linkUp,
        trip := s.sc.station.trip, startKind := s.sc.startKind, startReason := s.sc.startReason,
        surveyed :=
          if s.sc.mode = .starting then some (allDocks.countP fun d => (lineOf d s).surveyed)
          else none } := by
  simp only [statusView, surveyedDocks, List.countP_eq_length_filter, commissioned,
    Bool.decide_and, Bool.decide_eq_true]

/-- Settles O9. -/
theorem configurationAndStatusAreKept : Obligations.ConfigurationAndStatusAreKept := by
  refine ⟨fun tag s item hacc hc => ⟨fun b hr => ?_, fun lo hi n hr => ?_⟩,
    fun p tag s hacc hc => ?_, fun p tag s hacc => ?_⟩
  · have hy : yesNoItem item = true := by cases item <;> first | rfl | cases hr
    exact configSet_takes hacc hc hy rfl hy
  · have hy : yesNoItem item = false ∧ configRange item = (lo, hi) := by
      cases item <;> cases hr <;> exact ⟨rfl, rfl⟩
    exact configSet_ranges hacc hc hy.1 hy.2 n
  · exact request_kept (x := s) hacc rfl rfl fun i => takeConfigRead_eq (s := s.setPi i) hc
  · rw [← statusView_eq]
    exact request_kept (x := s) hacc rfl rfl fun _ => rfl

/-! ### Causes of a start (R182, R190) -/

/-- The part stopped with a cause. -/
def stoppedBy (c : StartCause) (s : State) : State :=
  { s with
    dlc := { s.dlc with exchange := none }, sc := { s.sc with power := .stopped, cause := some c } }

theorem stopPart_eq (c : StartCause) (s : State) : stopPart c s = stoppedBy c s := rfl

theorem resetAsserted_on {s : State} (h : s.sc.power ≠ .off) (hs : s.sc.power ≠ .stopped) :
    resetAsserted s =
      { stoppedBy .resetLine s with sc := { (stoppedBy .resetLine s).sc with resetLine := true } } := by
  unfold resetAsserted
  cases hp : s.sc.power with
  | off => exact absurd hp h
  | stopped => exact absurd hp hs
  | starting => rfl
  | running => rfl
  | halted => rfl

theorem resetAsserted_stopped {s : State} (h : s.sc.power = .stopped) :
    resetAsserted s = { s with sc := { s.sc with resetLine := true } } := by
  simp only [resetAsserted, h]
  rfl

theorem powerReturns_eq {s : State} (h : s.sc.power = .off ∨ s.sc.power = .halted) :
    powerReturns s = stoppedBy .powerReturn s := by
  rcases h with h | h <;> simp only [powerReturns, h] <;> rfl

/-- STATION_RESTART leaves its slot unfinished in the stopped part. -/
theorem restart_step {tag : Nat} {s : State} (c : StartCause)
    (hacc : Accepts .uplink .stationRestart tag s) :
    ∃ t, stepOf (slotRequest .uplink .stationRestart tag true (stopPart c)) s = .next t
      ∧ Taken .uplink .stationRestart tag s t ∧ StoreKept s t
      ∧ t = { s with
          pi := t.pi, rs := t.rs, dlc := { s.dlc with exchange := none },
          sc := { s.sc with power := .stopped, cause := some c } } := by
  obtain ⟨t, hstep, htaken, hrs, ht⟩ := left_unfinished (take := stopPart c) hacc rfl rfl rfl
  refine ⟨t, hstep, htaken, kept_of_rs hrs (accepted_rs _ _ _ _), ?_⟩
  conv_lhs => rw [ht, accepted_frame]
  rfl

/-- Settles O10. -/
theorem causesStopThePart : Obligations.CausesStopThePart :=
  ⟨fun _ h hs => quiet_step (resetAsserted_on h hs) rfl rfl,
    fun _ h => quiet_step (resetAsserted_stopped h) rfl rfl,
    fun _ h => quiet_step (powerReturns_eq h) rfl rfl,
    fun _ _ hacc => ⟨restart_step .restartWarm hacc, restart_step .restartCold hacc⟩⟩

/-! ### STORE_STATUS and STORE_CLEAR (R179) -/

theorem vget_weakRows (clearMap : Bool) (s : State) (r : Fin 64) :
    vget (clearStore clearMap s).rs.weakRows r = if clearMap then false else vget s.rs.weakRows r := by
  cases clearMap with
  | false => rfl
  | true => exact vget_replicate false r

/-- Settles O14. -/
theorem storeStatusAndClear : Obligations.StoreStatusAndClear := by
  refine fun tag s => ⟨fun hacc => ?_, fun clearMap hacc => ?_⟩
  · exact request_kept (x := s) hacc rfl rfl fun _ => rfl
  · obtain ⟨t, hstep, hreply, hrs, ht⟩ := request_answered (x := clearStore clearMap s)
      (o := .done)
      (b := .capture s.rs.capture) (take := takeStoreClear tag clearMap) hacc rfl fun _ => rfl
    have hstore : t.rs = { (clearStore clearMap s).rs with stepNo := t.rs.stepNo } := by
      rw [hrs]; exact endStep_store _
    refine ⟨t, hstep, hreply, ?_, fun r => ?_, ?_⟩
    · have hweak : t.rs.weakRows = (clearStore clearMap s).rs.weakRows := by rw [hstore]
      rw [hweak]
      conv_lhs => rw [ht, hstore]
      rfl
    · rw [hstore]; exact vget_weakRows clearMap s r
    · rw [storeError_eq, hstore]; rfl

end Sys2Proof.Machine
end

section
/-! The write list, the writing of its oldest record, and what a failure of power leaves (R172, R173, R181
to R184). -/

namespace Sys2Proof.Machine

/-! ### Records handed (R172) -/

theorem insertEntry_perm (e : WriteEntry) (l : List WriteEntry) : (insertEntry e l).Perm (e :: l) := by
  induction l with
  | nil => exact .refl _
  | cons x t ih =>
    unfold insertEntry
    split
    case isTrue => exact .refl _
    case isFalse => exact (ih.cons x).trans (.swap e x t)

/-- The first entry with a property, where the entry put in has it and no other. -/
theorem find_insertEntry_self {f : WriteEntry → Bool} {e : WriteEntry} {l : List WriteEntry}
    (he : f e = true) (hl : ∀ x ∈ l, f x = false) : (insertEntry e l).find? f = some e := by
  induction l with
  | nil => simp [insertEntry, he]
  | cons x t ih =>
    unfold insertEntry
    split
    case isTrue => simp [he]
    case isFalse =>
      rw [List.find?_cons, hl x List.mem_cons_self]
      exact ih fun y hy => hl y (List.mem_cons_of_mem _ hy)

theorem find_insertEntry_other {f : WriteEntry → Bool} {e : WriteEntry} (l : List WriteEntry)
    (he : f e = false) : (insertEntry e l).find? f = l.find? f := by
  induction l with
  | nil => simp [insertEntry, he]
  | cons x t ih =>
    unfold insertEntry
    split
    case isTrue => rw [List.find?_cons, he]
    case isFalse => rw [List.find?_cons, List.find?_cons, ih]

/-- An entry as it stands once its place's record is handed again. -/
def rehanded (n : Nat) (p : Place) (c : Content) (x : WriteEntry) : WriteEntry :=
  if x.place = p then { x with content := c, handed := n } else x

theorem rehanded_place (n : Nat) (p : Place) (c : Content) (x : WriteEntry) :
    (rehanded n p c x).place = x.place := by
  unfold rehanded
  split <;> rfl

theorem any_place_iff (p : Place) (l : List WriteEntry) :
    (l.any fun x => decide (x.place = p)) = true ↔ ∃ x ∈ l, x.place = p := by
  simp

/-- A record handed has its entry replaced, or a new one in the list. -/
theorem putEntry_cases (n : Nat) (p : Place) (c : Content) (l : List WriteEntry) :
    (∃ x ∈ l, x.place = p) ∧ putEntry n p c l = l.map (rehanded n p c)
      ∨ (∀ x ∈ l, x.place ≠ p)
        ∧ putEntry n p c l = insertEntry { place := p, content := c, entered := n, handed := n } l := by
  unfold putEntry
  split
  case isTrue h => exact .inl ⟨(any_place_iff p l).1 h, rfl⟩
  case isFalse h =>
    exact .inr ⟨fun x hx hp => h ((any_place_iff p l).2 ⟨x, hx, hp⟩), rfl⟩

theorem find_rehanded (n : Nat) (p q : Place) (c : Content) (l : List WriteEntry) :
    ((l.map (rehanded n p c)).find? fun x => decide (x.place = q))
      = (l.find? fun x => decide (x.place = q)).map (rehanded n p c) := by
  rw [List.find?_map]
  congr 2
  funext x
  exact congrArg (fun r => decide (r = q)) (rehanded_place n p c x)

/-- The entry of a place whose record was handed. -/
theorem find_putEntry_self (n : Nat) (p : Place) (c : Content) (l : List WriteEntry) :
    ∃ e, ((putEntry n p c l).find? fun x => decide (x.place = p)) = some e ∧ e.content = c := by
  rcases putEntry_cases n p c l with ⟨⟨x, hx, hp⟩, h⟩ | ⟨hl, h⟩ <;> rw [h]
  · rw [find_rehanded]
    cases hf : l.find? fun x => decide (x.place = p) with
    | none => exact absurd hp (by simpa using List.find?_eq_none.1 hf x hx)
    | some y =>
      have hy : y.place = p := by simpa using List.find?_some hf
      exact ⟨_, rfl, by rw [rehanded, if_pos hy]⟩
  · exact ⟨_, find_insertEntry_self (by simp) (fun x hx => by simp [hl x hx]), rfl⟩

theorem find_putEntry_other (n : Nat) {p q : Place} (c : Content) (l : List WriteEntry) (hq : q ≠ p) :
    ((putEntry n p c l).find? fun x => decide (x.place = q))
      = l.find? fun x => decide (x.place = q) := by
  rcases putEntry_cases n p c l with ⟨-, h⟩ | ⟨-, h⟩ <;> rw [h]
  · rw [find_rehanded]
    cases hf : l.find? fun x => decide (x.place = q) with
    | none => rfl
    | some y =>
      have hy : y.place = q := by simpa using List.find?_some hf
      rw [Option.map_some, rehanded, if_neg (hy ▸ hq)]
  · exact find_insertEntry_other l (by simp [hq.symm])

/-- A place has one entry, or as many as it had. -/
theorem count_putEntry (n : Nat) (p : Place) (c : Content) (l : List WriteEntry) :
    (putEntry n p c l).countP (fun x => decide (x.place = p))
      = max 1 (l.countP fun x => decide (x.place = p)) := by
  rcases putEntry_cases n p c l with ⟨⟨x, hx, hp⟩, h⟩ | ⟨hl, h⟩ <;> rw [h]
  · have hpos : 0 < l.countP fun x => decide (x.place = p) :=
      List.countP_pos_iff.2 ⟨x, hx, by simp [hp]⟩
    have hcomp : (fun x => decide (x.place = p)) ∘ rehanded n p c
        = fun x : WriteEntry => decide (x.place = p) :=
      funext fun x => congrArg (fun r => decide (r = p)) (rehanded_place n p c x)
    rw [List.countP_map, hcomp, Nat.max_eq_right hpos]
  · have hzero : (l.countP fun x => decide (x.place = p)) = 0 :=
      List.countP_eq_zero.2 fun x hx => by simp [hl x hx]
    rw [(insertEntry_perm _ l).countP_eq, List.countP_cons, hzero]
    simp

theorem readContent_hand_self (p : Place) (c : Content) (s : State) :
    readContent p (hand p c s) = c := by
  obtain ⟨e, he, hc⟩ := find_putEntry_self s.rs.stepNo p c s.rs.writeList
  show (match (putEntry s.rs.stepNo p c s.rs.writeList).find? fun x => decide (x.place = p) with
    | some e => e.content
    | none => wordsContent p (cellOf p (hand p c s))) = c
  rw [he]
  exact hc

theorem inWriteList_hand (p : Place) (c : Content) (s : State) :
    inWriteList p (hand p c s) = true := by
  obtain ⟨e, he, -⟩ := find_putEntry_self s.rs.stepNo p c s.rs.writeList
  have hp : decide (e.place = p) = true := List.find?_some (p := fun x : WriteEntry => decide (x.place = p)) he
  exact List.any_eq_true.2 ⟨e, List.mem_of_find?_eq_some he, hp⟩

theorem readContent_hand_other {p q : Place} (c : Content) (s : State) (hq : q ≠ p) :
    readContent q (hand p c s) = readContent q s := by
  have hl : (hand p c s).rs.writeList = putEntry s.rs.stepNo p c s.rs.writeList := rfl
  unfold readContent
  rw [hl, find_putEntry_other _ c _ hq]
  rfl

/-! ### Words in error -/

/-- The array and the words in error depend on the store alone. -/
theorem errorAt_congr {x y : State} (h : x.rs.errors = y.rs.errors) (w : Nat) :
    errorAt w x = errorAt w y := by
  rw [errorAt, h]; rfl

theorem cellOf_congr {x y : State} (h : x.rs.array = y.rs.array) (p : Place) : cellOf p x = cellOf p y := by
  rw [cellOf, h]; rfl


theorem assocGet_clearErrors (l : List Nat) {e : List (Nat × WordError)} (h : assocSorted e = true)
    (w : Nat) : assocGet w (clearErrors l e) = if w ∈ l then none else assocGet w e := by
  induction l generalizing e with
  | nil => rfl
  | cons v l ih =>
    have hs := assocDel_sorted v e h
    rw [show clearErrors (v :: l) e = clearErrors l (assocDel v e) from rfl, ih hs,
      assocGet_del _ _ _ h]
    by_cases hw : w = v <;> by_cases hl : w ∈ l <;> simp [hw, hl]

/-- What an abandoned write-back leaves of a word in error, with the choice of whether it was made. -/
def abandonedError (made : Nat → Bool) (x : Nat × WordError) : Option (Nat × WordError) :=
  if x.2 ≠ .corrected then some x else if made x.1 then none else some (x.1, .single)

theorem abandonedError_key {made : Nat → Bool} {x y : Nat × WordError}
    (h : abandonedError made x = some y) : y.1 = x.1 := by
  unfold abandonedError at h
  split at h
  · cases h; rfl
  · split at h <;> cases h
    rfl

theorem assocGet_abandoned (made : Nat → Bool) {l : List (Nat × WordError)}
    (h : assocSorted l = true) (w : Nat) :
    Abandoned (assocGet w l) (assocGet w (l.filterMap (abandonedError made))) := by
  induction l with
  | nil => exact rfl
  | cons x t ih =>
    obtain ⟨k, v⟩ := x
    rw [assocSorted_cons] at h
    by_cases hw : w = k
    · subst hw
      have hnone : assocGet w (t.filterMap (abandonedError made)) = none := by
        refine assocGet_none _ _ fun y hy => ?_
        obtain ⟨x, hx, hxy⟩ := List.mem_filterMap.1 hy
        rw [abandonedError_key hxy]
        exact h.1 x hx
      rw [List.filterMap_cons]
      cases v with
      | single => simp [abandonedError, assocGet, Abandoned]
      | double => simp [abandonedError, assocGet, Abandoned]
      | corrected => by_cases hm : made w <;> simp [abandonedError, assocGet, Abandoned, hm, hnone]
    · have hhead : assocGet w ((k, v) :: t) = assocGet w t := by simp [assocGet, hw]
      have htail : assocGet w (((k, v) :: t).filterMap (abandonedError made))
          = assocGet w (t.filterMap (abandonedError made)) := by
        rw [List.filterMap_cons]
        split
        case h_1 => rfl
        case h_2 y hy =>
          have hk : y.1 = k := abandonedError_key hy
          rw [← hk] at hw
          simp [assocGet, hw]
      rw [hhead, htail]
      exact ih h.2

theorem errorAt_abandonWriteBacks {s : State} (h : assocSorted s.rs.errors = true) (w : Nat) :
    Abandoned (errorAt w s) (errorAt w (abandonWriteBacks s)) :=
  assocGet_abandoned (Config.writeBackMade s.rs.stepNo) h w

/-! ### The oldest record is written -/

theorem recordWritten_eq {s : State} {e : WriteEntry} {rest : List WriteEntry} (h : s.sc.power ≠ .off)
    (hh : s.sc.power ≠ .halted) (hl : s.rs.writeList = e :: rest) :
    recordWritten s =
      { writeRecord e.place e.content s with
        rs := { (writeRecord e.place e.content s).rs with writeList := rest } } := by
  have hw : storeWrites s = true := by simp [storeWrites, h, hh]
  simp only [recordWritten, hw, if_true, writeOldest, hl]
  rfl

theorem storeWrites_not {s : State} (h : s.sc.power = .off ∨ s.sc.power = .halted) :
    storeWrites s = false := by
  rcases h with h | h <;> simp [storeWrites, h]

/-- A step that leaves all but the store alone. -/
theorem store_step {f : State → State} {s x : State} (hx : f s = x) (hp : x.pi = s.pi) :
    ∃ t, stepOf f s = .next t ∧ PortsKept s t ∧ t.rs = { x.rs with stepNo := t.rs.stepNo }
      ∧ t = { x with pi := t.pi, rs := t.rs } := by
  obtain ⟨t, hstep, hports, hrs, ht⟩ := plain_step hx hp
  exact ⟨t, hstep, hports, kept_of_rs hrs rfl, ht⟩

/-- Settles O11. -/
theorem recordsAreHandedAndWritten : Obligations.RecordsAreHandedAndWritten := by
  refine ⟨fun p c s => ⟨readContent_hand_self p c s, ?_, fun q hq => readContent_hand_other c s hq,
      count_putEntry s.rs.stepNo p c s.rs.writeList⟩,
    fun s e rest h hh hl harr => ?_, fun s h => ?_⟩
  · rw [readable, if_pos (.inl (inWriteList_hand p c s)), readContent_hand_self]
  · obtain ⟨t, hstep, hports, hrs, ht⟩ := store_step (recordWritten_eq h hh hl) rfl
    have harray : t.rs.array = (writeRecord e.place e.content s).rs.array := by rw [hrs]
    have herrors : t.rs.errors = clearErrors (placeAddresses e.place) s.rs.errors := by rw [hrs]; rfl
    refine ⟨t, hstep, hports, fun p => ?_, fun w => ?_, ?_⟩
    · rw [cellOf_congr harray p, cellOf_writeRecord e.place p e.content harr.1]
      refine ite_congr rfl (fun hp => by rw [hp]) fun _ => rfl
    · rw [errorAt, herrors, assocGet_clearErrors _ harr.2]
      rfl
    · rw [harray, herrors]
      conv_lhs => rw [ht, hrs]
      rfl
  · exact idle_step (if_neg (by simp [storeWrites_not h]))

/-! ### A write cut short (R181) -/

/-- The commit word of a record (R171). -/
def commitWord (p : Place) : Nat := placeBase p + placeWords p - 1

theorem cellOf_writeWords {p : Place} (q : Place) (c : Content) (k : Nat) {s : State}
    (h : arrayWf s.rs.array = true) :
    cellOf q (writeWords p c k s) =
      if q = p then List.replicate k c ++ (cellOf q s).drop k else cellOf q s := by
  have hput := cell_put p q (List.replicate k c ++ (cellOf p s).drop k) s.rs.array ((arrayWf_iff _).1 h).1
  refine Eq.trans hput ?_
  split
  case isTrue hq => rw [hq]
  case isFalse => rfl

theorem errorAt_writeWords (p : Place) (c : Content) (k : Nat) {s : State}
    (h : assocSorted s.rs.errors = true) (w : Nat) :
    errorAt w (writeWords p c k s) = if w ∈ (placeAddresses p).take k then none else errorAt w s :=
  assocGet_clearErrors _ h w

/-- The state with the commit words of some records forced. -/
def commitsForced (ps : List Place) (s : State) : State := ps.foldl (fun s p => forceCommit p s) s

theorem commitsForced_cons (p : Place) (ps : List Place) (s : State) :
    commitsForced (p :: ps) s = commitsForced ps (forceCommit p s) := rfl

/-- Commit words forced change the words in error alone. -/
theorem commitsForced_frame (ps : List Place) (s : State) :
    commitsForced ps s = s.setRs { s.rs with errors := (commitsForced ps s).rs.errors } := by
  induction ps generalizing s with
  | nil => rfl
  | cons p ps ih => rw [commitsForced_cons, ih]; rfl

theorem commitsForced_sorted (ps : List Place) {s : State} (h : assocSorted s.rs.errors = true) :
    assocSorted (commitsForced ps s).rs.errors = true := by
  induction ps generalizing s with
  | nil => exact h
  | cons p ps ih => exact ih (assocPut_sorted _ _ _ h)

theorem errorAt_commitsForced (ps : List Place) (s : State) (w : Nat) :
    errorAt w (commitsForced ps s) = if ∃ p ∈ ps, w = commitWord p then some .double
      else errorAt w s := by
  induction ps generalizing s with
  | nil => simp [commitsForced]
  | cons p ps ih =>
    have hput : errorAt w (forceCommit p s)
        = if w = commitWord p then some .double else errorAt w s := assocGet_put _ _ _ _
    rw [commitsForced_cons, ih, hput]
    by_cases hp : w = commitWord p <;> by_cases hps : ∃ q ∈ ps, w = commitWord q <;> simp_all

/-- The places whose commit words a PWRFAIL forces: that of the record being written, and of those handed
with it for places that it newly names. -/
def forcedPlaces (e : WriteEntry) (rest : List WriteEntry) (s : State) : List Place :=
  e.place :: (rest.filter fun x =>
    decide (x.handed = e.handed) && (newlyNamed e s).contains x.place).map WriteEntry.place

theorem mem_newlyNamed (e : WriteEntry) (s : State) (p : Place) :
    p ∈ newlyNamed e s ↔
      p ∈ headNames e.content ∧ p ∉ headNames (wordsContent e.place (cellOf e.place s)) := by
  simp [newlyNamed]

theorem mem_forcedPlaces (e : WriteEntry) (rest : List WriteEntry) (s : State) (p : Place) :
    p ∈ forcedPlaces e rest s ↔
      p = e.place
        ∨ ∃ x ∈ rest, x.place = p ∧ x.handed = e.handed ∧ p ∈ headNames e.content
            ∧ p ∉ headNames (wordsContent e.place (cellOf e.place s)) := by
  simp only [forcedPlaces, List.mem_cons, List.mem_map, List.mem_filter, Bool.and_eq_true,
    decide_eq_true_eq, List.contains_iff_mem, mem_newlyNamed]
  refine or_congr_right (exists_congr fun x => ?_)
  constructor
  · rintro ⟨⟨hx, hh, hn, hb⟩, rfl⟩
    exact ⟨hx, rfl, hh, hn, hb⟩
  · rintro ⟨hx, rfl, hh, hn, hb⟩
    exact ⟨⟨hx, hh, hn, hb⟩, rfl⟩

theorem failWrites_nil {written : Nat} {s : State} (h : s.rs.writeList = []) :
    failWrites written s = s := by
  simp only [failWrites, h]

theorem failWrites_cons {written : Nat} {s : State} {e : WriteEntry} {rest : List WriteEntry}
    (h : s.rs.writeList = e :: rest) :
    failWrites written s =
      let x := commitsForced (forcedPlaces e rest s)
        (writeWords e.place e.content (min written (placeWords e.place - 1)) s)
      x.setRs { x.rs with writeList := [] } := by
  simp only [failWrites, h, forcedPlaces, commitsForced_cons]
  simp only [commitsForced, List.foldl_map]
  rfl

/-- What the write list's failure leaves but for words and words in error. -/
theorem failWrites_frame (written : Nat) (s : State) :
    failWrites written s = s.setRs { s.rs with
      array := (failWrites written s).rs.array, errors := (failWrites written s).rs.errors,
      writeList := [] } := by
  cases h : s.rs.writeList with
  | nil =>
    rw [failWrites_nil h, ← h]
    rfl
  | cons e rest =>
    rw [failWrites_cons h, commitsForced_frame]
    rfl

/-- The part halted by PWRFAIL. -/
theorem powerFails_eq {written : Nat} {s : State} (h : s.sc.power ≠ .off) (hh : s.sc.power ≠ .halted) :
    powerFails written s =
      { s with
        rs := (abandonWriteBacks (failWrites written s)).rs
        dlc := { s.dlc with exchange := none },
        sc := { s.sc with power := .halted, cause := none, resetLine := false } } := by
  have hw : storeWrites s = true := by simp [storeWrites, h, hh]
  simp only [powerFails, hw, if_true]
  rw [failWrites_frame]
  rfl

theorem attentionLevel_stopped {p : Port} {s : State} (h : s.sc.power ≠ .running) :
    attentionLevel p s = false := by
  simp [attentionLevel, running, h]

/-- The end of a step that stops the part releases its attention lines (R200). -/
theorem ports_released {f : State → State} {s x t : State} (hx : f s = x) (hp : x.pi = s.pi)
    (h : x.sc.power ≠ .running) (ht : stepOf f s = .next t) (q : Port) :
    getPort q t = { getPort q s with attention := false } := by
  rw [stepOf_eq, hx] at ht
  cases ht
  rw [getPort_endStep, attentionLevel_stopped h, getPort_congr hp]

theorem failWrites_sorted {written : Nat} {s : State} (h : assocSorted s.rs.errors = true) :
    assocSorted (failWrites written s).rs.errors = true := by
  cases hl : s.rs.writeList with
  | nil => rw [failWrites_nil hl]; exact h
  | cons e rest =>
    rw [failWrites_cons hl]
    exact commitsForced_sorted _ (clearErrors_sorted _ _ h)

/-- Settles O12. -/
theorem powerFailureCutsTheWrite : Obligations.PowerFailureCutsTheWrite := by
  intro s written h hh harr
  obtain ⟨t, hstep, -, hrs, ht⟩ := step_ends (powerFails_eq (written := written) h hh)
  have hstore : t.rs = { (abandonWriteBacks (failWrites written s)).rs with stepNo := t.rs.stepNo } :=
    hrs ▸ endStep_store _
  have harray : t.rs.array = (failWrites written s).rs.array := by rw [hstore]; rfl
  have herrors : t.rs.errors = (abandonWriteBacks (failWrites written s)).rs.errors := by rw [hstore]
  have habandon : ∀ w, Abandoned (errorAt w (failWrites written s)) (errorAt w t) := fun w => by
    rw [errorAt_congr herrors]
    exact errorAt_abandonWriteBacks (failWrites_sorted harr.2) w
  have hlist : (abandonWriteBacks (failWrites written s)).rs =
      { s.rs with
        array := (failWrites written s).rs.array,
        errors := (abandonWriteBacks (failWrites written s)).rs.errors, writeList := [],
        stepNo := (abandonWriteBacks (failWrites written s)).rs.stepNo } := by
    rw [failWrites_frame]; rfl
  refine ⟨t, hstep, fun q => ?_, ?_, fun hnil => ?_, fun e rest hl => ⟨fun p => ?_, fun p hp => ?_,
    fun w hw => ?_⟩⟩
  · exact ports_released (powerFails_eq h hh) rfl (by simp) hstep q
  · rw [harray, herrors]
    conv_lhs => rw [ht, hstore, hlist]
  · rw [failWrites_nil hnil] at harray habandon
    exact ⟨harray, habandon⟩
  · rw [cellOf_congr (harray.trans (by rw [failWrites_cons hl, commitsForced_frame])) p]
    exact cellOf_writeWords p e.content _ harr.1
  · have hdouble : errorAt (commitWord p) (failWrites written s) = some .double := by
      rw [failWrites_cons hl]
      refine (errorAt_commitsForced _ _ _).trans (if_pos ⟨p, ?_, rfl⟩)
      exact (mem_forcedPlaces e rest s p).2 hp
    have hw := habandon (commitWord p)
    rw [hdouble] at hw
    exact hw
  · have hsame : errorAt w (failWrites written s) =
        if w ∈ (placeAddresses e.place).take (min written (placeWords e.place - 1)) then none
        else errorAt w s := by
      rw [failWrites_cons hl]
      refine (errorAt_commitsForced _ _ _).trans ((if_neg ?_).trans
        (errorAt_writeWords _ _ _ harr.2 w))
      rintro ⟨p, hp, hc⟩
      exact hw p ((mem_forcedPlaces e rest s p).1 hp) hc
    rw [← hsame]
    exact habandon w

/-! ### Losses of supply (R183, R184) -/

theorem dropWrites_nil {s : State} (h : s.rs.writeList = []) : dropWrites s = s := by
  simp only [dropWrites, h]

theorem dropWrites_cons {s : State} {e : WriteEntry} {rest : List WriteEntry}
    (h : s.rs.writeList = e :: rest) :
    dropWrites s =
      let x := writeWords e.place e.content
        (min (Config.wordsAtPowerLoss s.rs.stepNo) (placeWords e.place)) s
      x.setRs { x.rs with writeList := [], stepNo := s.rs.stepNo + 1 } := by
  simp only [dropWrites, h]
  rfl

theorem dropWrites_frame (s : State) :
    dropWrites s = s.setRs { s.rs with
      array := (dropWrites s).rs.array, errors := (dropWrites s).rs.errors, writeList := [],
      stepNo := (dropWrites s).rs.stepNo } := by
  cases h : s.rs.writeList with
  | nil =>
    rw [dropWrites_nil h, ← h]
    rfl
  | cons e rest => rw [dropWrites_cons h]; rfl

theorem dropWrites_sorted {s : State} (h : assocSorted s.rs.errors = true) :
    assocSorted (dropWrites s).rs.errors = true := by
  cases hl : s.rs.writeList with
  | nil => rw [dropWrites_nil hl]; exact h
  | cons e rest => rw [dropWrites_cons hl]; exact clearErrors_sorted _ _ h

theorem powerLost_eq (s : State) :
    powerLost s =
      { s with
        rs := (abandonWriteBacks (dropWrites s)).rs
        dlc := { s.dlc with exchange := none },
        sc := { s.sc with power := .off, cause := none, resetLine := false } } := by
  simp only [powerLost]
  rw [dropWrites_frame]
  rfl

theorem batteryLost_off {s : State} (h : s.sc.power = .off) :
    batteryLost s =
      { s with
        rs := { s.rs with supplyLost := true, array := [(0, [.signature false])], errors := [] },
        sc := { s.sc with clock := 0 } } := if_pos h

/-- The array without supply reads the signature not written, and every other place cold. -/
theorem cellOf_blank {s : State} (h : s.rs.array = [(0, [.signature false])]) :
    cellOf .signature s = [.signature false] ∧ ∀ p, p ≠ .signature → cellOf p s = coldCell p := by
  refine ⟨by rw [cellOf, h]; rfl, fun p hp => ?_⟩
  have hbase : placeBase p ≠ 0 := fun h0 => hp (placeBase_injective (h0.trans rfl))
  rw [cellOf, h, assocGet, if_neg hbase]
  rfl

/-- Settles O13. -/
theorem supplyLosses : Obligations.SupplyLosses := by
  refine ⟨fun s harr => ?_, fun s h => ?_, fun s h => idle_step (if_neg h)⟩
  · obtain ⟨t, hstep, hports, hstore, ht⟩ := store_step (powerLost_eq s) rfl
    have harray : t.rs.array = (dropWrites s).rs.array := by rw [hstore]; rfl
    have herrors : t.rs.errors = (abandonWriteBacks (dropWrites s)).rs.errors := by rw [hstore]
    have habandon : ∀ w, Abandoned (errorAt w (dropWrites s)) (errorAt w t) := fun w => by
      rw [errorAt_congr herrors]
      exact errorAt_abandonWriteBacks (dropWrites_sorted harr.2) w
    have hlist : (abandonWriteBacks (dropWrites s)).rs =
        { s.rs with
          array := (dropWrites s).rs.array,
          errors := (abandonWriteBacks (dropWrites s)).rs.errors, writeList := [],
          stepNo := (abandonWriteBacks (dropWrites s)).rs.stepNo } := by
      rw [dropWrites_frame]; rfl
    refine ⟨t, hstep, hports, ?_, fun hnil => ?_,
      fun e rest hl => ⟨min (Config.wordsAtPowerLoss s.rs.stepNo) (placeWords e.place),
        Nat.min_le_right _ _, fun p => ?_, fun w => ?_⟩⟩
    · rw [harray, herrors]
      conv_lhs => rw [ht, hstore, hlist]
    · rw [dropWrites_nil hnil] at harray habandon
      exact ⟨harray, habandon⟩
    · rw [cellOf_congr (harray.trans (by rw [dropWrites_cons hl])) p]
      exact cellOf_writeWords p e.content _ harr.1
    · have hw := habandon w
      rw [dropWrites_cons hl] at hw
      rw [← errorAt_writeWords e.place e.content _ harr.2 w]
      exact hw
  · obtain ⟨t, hstep, hports, hstore, ht⟩ := store_step (batteryLost_off h) rfl
    have harray : t.rs.array = [(0, [.signature false])] := by rw [hstore]
    refine ⟨t, hstep, hports, ?_, cellOf_blank harray⟩
    rw [harray]
    conv_lhs => rw [ht, hstore]

end Sys2Proof.Machine
end

section
/-! The tariff table and the fares of quotes and arrivals (R90, R94, R95, R99 to R107). -/

namespace Sys2Proof.Machine

/-! ### The band walk (R103) -/

/-- The span of band `i` of a list. -/
def spanAt (bands : List Band) (i : Nat) : Nat := ((bands[i]?).bind Band.span).getD 0

/-- What is left of a remainder at band `i`. -/
def leftAt (bands : List Band) (r i : Nat) : Nat := r - ((List.range i).map (spanAt bands)).sum

/-- What band `i` takes of a remainder: all that is left, where it is the last. -/
def portionAt (bands : List Band) (r i : Nat) : Nat :=
  if i + 1 < bands.length then min (leftAt bands r i) (spanAt bands i) else leftAt bands r i

/-- What band `i` charges. -/
def chargeAt (bands : List Band) (r i : Nat) : Nat :=
  ((bands[i]?).map fun b => (portionAt bands r i + b.block - 1) / b.block * b.rate).getD 0

/-- Every band but the last has a span, and the last has none. -/
def SpansEnd (bands : List Band) : Prop :=
  ∀ i b, bands[i]? = some b → (b.span = none ↔ i + 1 = bands.length)

theorem spansEnd_tail {b : Band} {l : List Band} (h : SpansEnd (b :: l)) : SpansEnd l :=
  fun i x hx => (h (i + 1) x hx).trans (by simp)

theorem leftAt_succ (b : Band) (l : List Band) (r i : Nat) :
    leftAt (b :: l) r (i + 1) = leftAt l (r - spanAt (b :: l) 0) i := by
  have hshift : (fun j => spanAt (b :: l) (j + 1)) = spanAt l := rfl
  simp only [leftAt, List.range_succ_eq_map, List.map_cons, List.map_map, List.sum_cons, Nat.sub_sub,
    Function.comp_def, Nat.succ_eq_add_one, hshift]

theorem portionAt_succ (b : Band) (l : List Band) (r i : Nat) :
    portionAt (b :: l) r (i + 1) = portionAt l (r - spanAt (b :: l) 0) i := by
  simp only [portionAt, leftAt_succ, List.length_cons, Nat.add_lt_add_iff_right]
  rfl

theorem chargeAt_succ (b : Band) (l : List Band) (r i : Nat) :
    chargeAt (b :: l) r (i + 1) = chargeAt l (r - spanAt (b :: l) 0) i := by
  simp only [chargeAt, List.getElem?_cons_succ, portionAt_succ]

/-- The walk takes from each band what is left for it. -/
theorem bandWalk_eq {bands : List Band} (h : SpansEnd bands) (r : Nat) :
    bandWalk bands r = ((List.range bands.length).map (chargeAt bands r)).sum := by
  induction bands generalizing r with
  | nil => rfl
  | cons b l ih =>
    have hrest : ((List.range (b :: l).length).map (chargeAt (b :: l) r)).sum
        = chargeAt (b :: l) r 0 + bandWalk l (r - spanAt (b :: l) 0) := by
      rw [ih (spansEnd_tail h), List.length_cons, List.range_succ_eq_map, List.map_cons,
        List.sum_cons, List.map_map]
      exact congrArg _ (congrArg _ (List.map_congr_left fun i _ => chargeAt_succ b l r i))
    rw [hrest]
    cases l with
    | nil => simp [bandWalk, chargeAt, portionAt, leftAt]
    | cons c l =>
      have hspan : b.span ≠ none := fun hn => by simpa using (h 0 b rfl).1 hn
      obtain ⟨k, hk⟩ := Option.ne_none_iff_exists'.1 hspan
      have hsub : r - min r k = r - k := by omega
      have h0 : spanAt (b :: c :: l) 0 = k := by simp [spanAt, hk]
      have hwalk : bandWalk (b :: c :: l) r =
          (min r k + b.block - 1) / b.block * b.rate + bandWalk (c :: l) (r - min r k) := by
        rw [bandWalk]
        exact hk
      rw [hwalk, hsub, h0]
      simp [chargeAt, portionAt, leftAt, h0]

/-! ### Quotes and arrivals -/

theorem startedMinutes_quote {m : Nat} (h : m ≤ 10080) :
    startedMinutes (min (60 * m) sevenDays) = m := by
  unfold startedMinutes sevenDays
  omega

/-- The total of a plan's minutes after the day cap (R103, R104). -/
def pricedTotal (p : Plan) (minutes : Nat) : Nat :=
  capTotal p minutes ((List.range p.bands.length).map (chargeAt p.bands (minutes - p.free))).sum

theorem priceDuration_total {p : Plan} (hp : SpansEnd p.bands) (d : Nat) (flags : FareFlags) :
    priceDuration p d flags =
      (min (pricedTotal p (startedMinutes d)) 65535,
        { flags with
          saturated := flags.saturated || decide (65535 < pricedTotal p (startedMinutes d)) }) := by
  rw [pricedTotal, ← bandWalk_eq hp]
  rcases Nat.lt_or_ge 65535
    (capTotal p (startedMinutes d) (bandWalk p.bands (startedMinutes d - p.free))) with h | h
  · rw [priceDuration_of_gt flags h, Nat.min_eq_right h.le, decide_eq_true h, Bool.or_true]
  · rw [priceDuration_of_le flags h, Nat.min_eq_left h, decide_eq_false (Nat.not_lt.2 h),
      Bool.or_false]

/-- A fare's price does not depend on the flags of the stages before it, and its own flag is added. -/
theorem priceDuration_flags (p : Plan) (d : Nat) (flags : FareFlags) (h : flags.saturated = false) :
    priceDuration p d flags =
      ((priceDuration p d .none).1,
        { flags with saturated := (priceDuration p d .none).2.saturated }) := by
  unfold priceDuration
  dsimp only
  split
  case isTrue => rfl
  case isFalse =>
    cases flags
    cases h
    rfl

/-- The price of a duration is that of its started minutes. -/
theorem priceDuration_minutes (p : Plan) {d : Nat} (h : d ≤ 604800) (flags : FareFlags) :
    priceDuration p (min (60 * ((d + 59) / 60)) sevenDays) flags = priceDuration p d flags := by
  have hm : startedMinutes (min (60 * ((d + 59) / 60)) sevenDays) = startedMinutes d := by
    unfold startedMinutes sevenDays
    omega
  unfold priceDuration
  rw [hm]

theorem quoteFare_none (minutes : Nat) :
    quoteFare none minutes = (0, { FareFlags.none with planMissing := true }) := rfl

theorem quoteFare_some (p : Plan) (minutes : Nat) :
    quoteFare (some p) minutes = priceDuration p (min (60 * minutes) sevenDays) .none := rfl

theorem planIndex_val (p : Fin 16) : planIndex p.val = p := Fin.ext (Nat.mod_eq_of_lt p.isLt)

theorem takeQuote_eq {tag minutes : Nat} {plan : Fin 16} {s : State} (hc : Clean s) :
    takeQuote tag plan.val minutes s =
      reply .terminal .quote tag .done
        (.fare (quoteFare (vget s.fu plan) minutes).1 (quoteFare (vget s.fu plan) minutes).2) s := by
  simp only [takeQuote, readPlan_clean hc, planOf, planIndex_val]

/-- A QUOTE of a plan's minutes is answered with its fare. -/
theorem quote_step {tag minutes : Nat} {plan : Fin 16} {s : State} (hacc : Accepts .terminal .quote tag s)
    (hm : minutes ≤ 10080) (hc : Clean s) {fare : Nat} {flags : FareFlags}
    (h : quoteFare (vget s.fu plan) minutes = (fare, flags)) :
    ∃ t, exec (.quote tag plan.val minutes) s = .next t
      ∧ Replied .terminal .quote tag .done (.fare fare flags) s t
      ∧ StoreKept s t ∧ t = { s with pi := t.pi, rs := t.rs } := by
  have hform : quoteInForm plan.val minutes = true := by
    have := plan.isLt
    simp [quoteInForm]
    omega
  refine request_kept (x := s) hacc hform rfl fun i => ?_
  rw [takeQuote_eq (by exact hc)]
  exact congrArg (fun f : Nat × FareFlags => reply .terminal .quote tag .done (.fare f.1 f.2) _) h

theorem arrivalFare_none (start stop origin station grace : Nat) :
    arrivalFare none start stop origin station grace =
      (0, { FareFlags.none with planMissing := true }) := rfl

/-- Settles O25. -/
theorem quotesPriceTheMinutes : Obligations.QuotesPriceTheMinutes := by
  refine ⟨fun tag plan minutes s hacc hm hc => ⟨fun hp => ?_, fun p hp hspans => ?_⟩,
    fun plan start stop origin station grace => ⟨?_, fun p hp => ⟨fun h => ?_, fun h => ?_⟩⟩⟩
  · exact quote_step hacc hm hc (by rw [hp, quoteFare_none])
  · refine quote_step hacc hm hc ?_
    rw [hp, quoteFare_some, priceDuration_total hspans, startedMinutes_quote hm]
    rfl
  · rintro rfl
    exact arrivalFare_none _ _ _ _ _
  · subst hp
    have hclamp : decide (sevenDays < stop - start) = decide (start + 604800 < stop) := by
      unfold sevenDays
      exact decide_eq_decide.2 (by omega)
    rw [arrivalFare_some,
      if_pos (show origin = station ∧ min (stop - start) sevenDays ≤ grace from h), hclamp]
  · subst hp
    have hclamp : decide (sevenDays < stop - start) = decide (start + 604800 < stop) := by
      unfold sevenDays
      exact decide_eq_decide.2 (by omega)
    rw [arrivalFare_some,
      if_neg (show ¬(origin = station ∧ min (stop - start) sevenDays ≤ grace) from h), hclamp,
      priceDuration_flags _ _ _ rfl]
    dsimp only
    rw [quoteFare_some, priceDuration_minutes p (Nat.min_le_right _ _)]
    rfl

/-! ### TARIFF_LOAD and TARIFF_DROP (R94, R95) -/

/-- A value limited to a range. -/
def within (lo hi x : Int) : Int := if x < lo then lo else if hi < x then hi else x

theorem limit_within {lo hi : Int} (h : lo ≤ hi) (x : Int) : limit lo hi x = within lo hi x := by
  unfold limit within
  omega

theorem limited_iff (lo hi x : Int) : limited lo hi x = false ↔ limit lo hi x = x := by
  simp [limited]

/-- A value limited to numbers from 0 up, as the number kept. -/
theorem toNat_limit {lo hi : Int} (h0 : 0 ≤ lo) (x : Int) :
    ((limit lo hi x).toNat : Int) = limit lo hi x :=
  Int.toNat_of_nonneg (h0.trans (le_max_left _ _))

theorem keptBands_le (r : TariffEntry) : 1 ≤ keptBands r ∧ keptBands r ≤ 4 := by
  unfold keptBands limit
  omega

/-- Band `i` of a load with four band entries, as kept. -/
theorem keptEntries_get (r : TariffEntry) (i : Nat) :
    (keptEntries r)[i]? = if i < keptBands r then
        (r.bands[i]?).map fun e => (decide (i + 1 = keptBands r), e) else none := by
  simp only [keptEntries, List.getElem?_map, List.getElem?_zipIdx, List.getElem?_take, Option.map_map]
  split
  case isTrue => simp [Function.comp_def]
  case isFalse => rfl

theorem limitPlan_bands {r : TariffEntry} {i : Nat} {e : BandEntry} {b : Band}
    (he : r.bands[i]? = some e) (hb : (limitPlan r).bands[i]? = some b) :
    i < keptBands r ∧ b = limitBand (decide (i + 1 = keptBands r)) e := by
  simp only [limitPlan, List.getElem?_map, keptEntries_get r] at hb
  split at hb
  case isTrue h =>
    rw [he] at hb
    exact ⟨h, by simpa using hb.symm⟩
  case isFalse => cases hb

theorem limitPlan_length {r : TariffEntry} (hr : r.bands.length = 4) :
    (limitPlan r).bands.length = keptBands r := by
  have := (keptBands_le r).2
  simp [limitPlan, keptEntries, hr, this]

theorem limitPlan_get {r : TariffEntry} {i : Nat} {e : BandEntry}
    (he : r.bands[i]? = some e) (hi : i < keptBands r) :
    (limitPlan r).bands[i]? = some (limitBand (decide (i + 1 = keptBands r)) e) := by
  simp [limitPlan, keptEntries_get r, hi, he]

theorem limitBand_span (last : Bool) (e : BandEntry) :
    (limitBand last e).span.map Int.ofNat = if last then none else some (limit 1 1440 e.span) := by
  cases last with
  | true => rfl
  | false => exact congrArg some (toNat_limit (by decide) e.span)

theorem limitBand_block (last : Bool) (e : BandEntry) :
    ((limitBand last e).block : Int) = limit 1 120 e.block := toNat_limit (by decide) e.block

theorem limitBand_rate (last : Bool) (e : BandEntry) :
    ((limitBand last e).rate : Int) = limit 0 5000 e.rate := toNat_limit (by decide) e.rate

/-- A band is kept unlimited exactly where its kept fields are those given. -/
theorem bandLimited_iff (last : Bool) (e : BandEntry) :
    bandLimited last e = false ↔
      (last = false → (limitBand last e).span.map Int.ofNat = some e.span)
        ∧ ((limitBand last e).block : Int) = e.block ∧ ((limitBand last e).rate : Int) = e.rate := by
  rw [limitBand_span, limitBand_block, limitBand_rate]
  simp only [bandLimited, Bool.or_eq_false_iff, limited_iff, and_assoc]
  cases last <;> simp [limited_iff]

theorem keptEntries_any (r : TariffEntry) :
    ((keptEntries r).any fun x => bandLimited x.1 x.2) = false ↔
      ∀ i e b, r.bands[i]? = some e → (limitPlan r).bands[i]? = some b →
        (i + 1 < keptBands r → b.span.map Int.ofNat = some e.span)
          ∧ (b.block : Int) = e.block ∧ (b.rate : Int) = e.rate := by
  rw [List.any_eq_false]
  constructor
  · intro h i e b he hb
    obtain ⟨hi, rfl⟩ := limitPlan_bands he hb
    have hmem : (decide (i + 1 = keptBands r), e) ∈ keptEntries r :=
      List.mem_of_getElem? (i := i) (by rw [keptEntries_get r, if_pos hi, he]; rfl)
    have hband := (bandLimited_iff _ e).1 (by simpa using h _ hmem)
    exact ⟨fun hlt => hband.1 (decide_eq_false hlt.ne), hband.2⟩
  · intro h x hx
    obtain ⟨i, hx⟩ := List.mem_iff_getElem?.1 hx
    rw [keptEntries_get r] at hx
    split at hx
    case isTrue hi =>
      obtain ⟨e, he, rfl⟩ := Option.map_eq_some_iff.1 hx
      obtain ⟨hspan, hrest⟩ := h i e _ he (limitPlan_get he hi)
      rw [Bool.not_eq_true, bandLimited_iff]
      exact ⟨fun hl => hspan (lt_of_le_of_ne hi (of_decide_eq_false hl)), hrest⟩
    case isFalse => cases hx

theorem takeTariffLoad_eq {tag : Nat} {plan : Fin 16} {r : TariffEntry} {s : State} (hc : Clean s) :
    takeTariffLoad tag plan.val r s =
      reply .uplink .tariffLoad tag .loaded
        (.planLoaded (planLimited r) (vget s.fu plan).isSome (limitPlan r))
        { s with
          fu := vset s.fu plan (some (limitPlan r)),
          rs := handAll [(.plan plan, .plan (some (limitPlan r)))] s.rs } := by
  simp only [takeTariffLoad, readPlan_clean hc, planOf, planIndex_val, handPlan, State.setFu_fu,
    vget_vset_self]
  rfl

theorem planLimited_iff (r : TariffEntry) :
    planLimited r = false ↔
      (keptBands r : Int) = r.bandCount ∧ ((limitPlan r).free : Int) = r.free
        ∧ ((limitPlan r).cap : Int) = r.cap ∧ (limitPlan r).minBalance = r.minBalance
        ∧ ∀ i e b, r.bands[i]? = some e → (limitPlan r).bands[i]? = some b →
          (i + 1 < keptBands r → b.span.map Int.ofNat = some e.span)
            ∧ (b.block : Int) = e.block ∧ (b.rate : Int) = e.rate := by
  have hn : (keptBands r : Int) = limit 1 4 r.bandCount := toNat_limit (by decide) _
  have hf : ((limitPlan r).free : Int) = limit 0 240 r.free := toNat_limit (by decide) _
  have hcap : ((limitPlan r).cap : Int) = limit 0 65535 r.cap := toNat_limit (by decide) _
  rw [hn, hf, hcap]
  simp only [planLimited, Bool.or_eq_false_iff, limited_iff, keptEntries_any r, and_assoc]
  rfl

/-- Settles O27. -/
theorem loadedPlansAreLimited : Obligations.LoadedPlansAreLimited := by
  intro tag plan r s hacc hr hc
  have hform : tariffInForm plan.val r = true := by
    have := plan.isLt
    simp [tariffInForm, hr]
    omega
  have hn : (within 1 4 r.bandCount).toNat = keptBands r := by
    rw [keptBands, limit_within (by decide)]
  obtain ⟨t, hstep, hreply, hrs, ht⟩ := request_hands
    (x := { s with
      fu := vset s.fu plan (some (limitPlan r)),
      rs := handAll [(.plan plan, .plan (some (limitPlan r)))] s.rs })
    (take := takeTariffLoad tag plan.val r) (o := .loaded)
    (b := .planLoaded (planLimited r) (vget s.fu plan).isSome (limitPlan r)) hacc hform (List.cons_ne_nil _ _) rfl
    fun i => takeTariffLoad_eq (s := s.setPi i) hc
  refine ⟨t, limitPlan r, planLimited r, hstep, hreply, hrs, ht, ?_, ?_, ?_, rfl, ?_,
    fun i e b he hb => ?_, ?_⟩
  · exact (toNat_limit (by decide) _).trans (limit_within (by decide) _)
  · exact (toNat_limit (by decide) _).trans (limit_within (by decide) _)
  · exact limit_within (by decide) _
  · exact (limitPlan_length hr).trans hn.symm
  · obtain ⟨hi, rfl⟩ := limitPlan_bands he hb
    refine ⟨?_, ?_, ?_⟩
    · have hlast : decide (i + 1 = keptBands r) = true ↔ ¬i + 1 < keptBands r := by
        rw [decide_eq_true_iff]; omega
      rw [limitBand_span, limit_within (by decide)]
      show (if decide (i + 1 = keptBands r) = true then none else some (within 1 1440 e.span))
        = if i + 1 < (within 1 4 r.bandCount).toNat then some (within 1 1440 e.span) else none
      rw [hn]
      by_cases h : i + 1 < keptBands r
      · rw [if_pos h, if_neg (fun hl => hlast.1 hl h)]
      · rw [if_neg h, if_pos (hlast.2 h)]
    · exact (limitBand_block _ e).trans (limit_within (by decide) _)
    · exact (limitBand_rate _ e).trans (limit_within (by decide) _)
  · show planLimited r = false ↔ ((within 1 4 r.bandCount).toNat : Int) = _ ∧ _ ∧ _ ∧ _ ∧
      ∀ i e b, _ → _ → (i + 1 < (within 1 4 r.bandCount).toNat → _) ∧ _
    rw [hn]
    exact planLimited_iff r

theorem takeTariffDrop_eq {tag : Nat} {plan : Fin 16} {s : State} (hc : Clean s) :
    takeTariffDrop tag plan.val s =
      reply .uplink .tariffDrop tag (if (vget s.fu plan).isSome then .dropped else .notDefined) .empty
        { s with
          fu := vset s.fu plan none, rs := handAll [(.plan plan, .plan none)] s.rs } := by
  simp only [takeTariffDrop, readPlan_clean hc, planOf, planIndex_val, handPlan, State.setFu_fu,
    vget_vset_self]
  rfl

/-- Settles O28. -/
theorem droppedPlansAreUndefined : Obligations.DroppedPlansAreUndefined := by
  refine ⟨fun tag plan s hacc hc => ?_, fun tag plan s hr hp => ?_⟩
  · obtain ⟨t, hstep, hreply, hrs, ht⟩ := request_hands
      (x := { s with fu := vset s.fu plan none, rs := handAll [(.plan plan, .plan none)] s.rs })
      (take := takeTariffDrop tag plan.val)
      (o := if (vget s.fu plan).isSome then .dropped else .notDefined) (b := .empty) hacc
      (decide_eq_true (Nat.le_of_lt_succ plan.isLt)) (List.cons_ne_nil _ _) rfl
      fun i => takeTariffDrop_eq (s := s.setPi i) hc
    exact ⟨t, hstep, hreply, hrs, ht, by rw [ht]; exact vget_vset_self _ _ _⟩
  · exact slotRequest_refuses (code := .badForm) rfl (powered_of_running hr)
      ⟨hr, rfl, .inl (decide_eq_false (Nat.not_le.2 hp))⟩

end Sys2Proof.Machine
end

section
/-! The card cache: fills fetched, switches and link, write-throughs, and member records placed and taken
away (R42 to R60). -/

namespace Sys2Proof.Machine

/-! ### FILL_FETCH, CACHE_MODE and LINK_STATE (R53, R54, R60) -/

/-- The oldest entries of a list, at most four. -/
theorem take_four {α : Type} {taken rest : List α} (h : taken.length = min 4 (taken ++ rest).length) :
    (taken ++ rest).take 4 = taken := by
  rw [List.length_append] at h
  rcases Nat.lt_or_ge taken.length 4 with hlt | hge
  · have hr : rest = [] := List.length_eq_zero_iff.1 (by omega)
    rw [hr, List.append_nil]
    exact List.take_of_length_le (by omega)
  · have h4 : taken.length = 4 := by omega
    rw [← h4, List.take_left]

/-- The entries fetched are known by their cards, where no two fills are of one card. -/
theorem any_card_iff {fills taken : List Fill} (hsub : ∀ g ∈ taken, g ∈ fills)
    (hn : (fills.map Fill.card).Nodup) {f : Fill} (hf : f ∈ fills) :
    (taken.any fun g => decide (g.card = f.card)) = true ↔ f ∈ taken := by
  simp only [List.any_eq_true, decide_eq_true_eq]
  constructor
  · rintro ⟨g, hg, hc⟩
    exact List.inj_on_of_nodup_map hn (hsub g hg) hf hc ▸ hg
  · exact fun h => ⟨f, h, rfl⟩

theorem takeFillFetch_eq {tag : Nat} {s : State} {taken rest : List Fill}
    (h : s.cc.fills.filter (fun f => !f.fetched) = taken ++ rest)
    (hl : taken.length = min 4 (taken ++ rest).length) (hn : (s.cc.fills.map Fill.card).Nodup) :
    takeFillFetch tag s =
      reply .uplink .fillFetch tag .done (.fills (taken.map fun f => (f.card, f.issuedAt)))
        { s with cc := { s.cc with
          fills := s.cc.fills.map fun f => if f ∈ taken then { f with fetched := true } else f } } := by
  have htake : fillsToFetch s = taken := by rw [fillsToFetch, h, take_four hl]
  have hsub : ∀ g ∈ taken, g ∈ s.cc.fills := fun g hg =>
    (List.mem_filter.1 (h ▸ List.mem_append_left rest hg)).1
  have hmap : (s.cc.fills.map fun f =>
      if taken.any (fun g => decide (g.card = f.card)) then { f with fetched := true } else f)
      = s.cc.fills.map fun f => if f ∈ taken then { f with fetched := true } else f :=
    List.map_congr_left fun f hf => if_congr (any_card_iff hsub hn hf) rfl rfl
  simp only [takeFillFetch, htake, hmap]
  rfl

theorem takeCacheMode_eq (tag : Nat) (allocate serve : Bool) (s : State) :
    takeCacheMode tag allocate serve s =
      reply .uplink .cacheMode tag (if allocate = true ∧ serve = false then .badMode else .done) .empty
        { s with cc := if allocate = true ∧ serve = false then s.cc
            else { s.cc with allocate := allocate, serve := serve } } := by
  unfold takeCacheMode
  cases allocate <;> cases serve <;> rfl

/-- The state with the link up: a change to UP clears the run counter and the offline grant count (R53). -/
theorem linkUp_eq (s : State) :
    linkUp s =
      { s with
        sc := { s.sc with linkUp := true },
        cc := if s.sc.linkUp then s.cc else { s.cc with runCounter := 0, offlineGrants := 0 } } := by
  unfold linkUp
  split
  case isTrue h =>
    have hsc : { s.sc with linkUp := true } = s.sc := by rw [← h]
    rw [hsc]
  case isFalse => rfl

/-- Settles O29. -/
theorem fillsModeAndLinkRequests : Obligations.FillsModeAndLinkRequests := by
  refine fun tag s => ⟨fun taken rest hacc h hl hn => ?_, fun allocate serve hacc => ?_,
    fun hacc => ⟨?_, ?_⟩⟩
  · exact request_kept (x := { s with cc := { s.cc with
      fills := s.cc.fills.map fun f => if f ∈ taken then { f with fetched := true } else f } })
      hacc rfl rfl fun i => takeFillFetch_eq (s := s.setPi i) h hl hn
  · let bad := allocate = true ∧ serve = false
    exact request_kept
      (x := { s with cc := if bad then s.cc else { s.cc with allocate := allocate, serve := serve } })
      hacc rfl rfl fun i => takeCacheMode_eq tag allocate serve (s.setPi i)
  · exact request_kept (x := { s with
        sc := { s.sc with linkUp := true },
        cc := if s.sc.linkUp then s.cc else { s.cc with runCounter := 0, offlineGrants := 0 } })
      hacc rfl rfl fun i => congrArg _ (linkUp_eq (s.setPi i))
  · exact request_kept (x := { s with sc := { s.sc with linkUp := false } }) hacc rfl rfl fun _ => rfl

/-! ### A card's entry in its set -/

theorem setSet_same (k : Nat) (s : State) : setSet k (vget s.cc.sets (cardSet k)) s = s := by
  unfold setSet
  rw [vset_self]
  rfl

theorem setSet_setSet (k : Nat) (l m : List CardEntry) (s : State) :
    setSet k m (setSet k l s) = setSet k m s := by
  simp only [setSet, State.setCc_cc, vset_vset, State.setCc_twice]

@[simp] theorem vget_setSet (k : Nat) (l : List CardEntry) (s : State) :
    vget (setSet k l s).cc.sets (cardSet k) = l := vget_vset_self _ _ _

theorem mapEntry_none {k : Nat} (f : CardEntry → CardEntry) {s : State}
    (h : ∀ e ∈ vget s.cc.sets (cardSet k), e.card ≠ k) : mapEntry k f s = s := by
  have hmap : ((vget s.cc.sets (cardSet k)).map fun e => if e.card = k then f e else e)
      = vget s.cc.sets (cardSet k) :=
    (List.map_congr_left fun e he => if_neg (h e he)).trans (List.map_id _)
  rw [mapEntry, hmap, setSet_same]

theorem entryOf_none {k : Nat} {s : State} (h : ∀ e ∈ vget s.cc.sets (cardSet k), e.card ≠ k) :
    entryOf k s = none :=
  List.find?_eq_none.2 fun e he => by simpa using h e he

section
variable {k : Nat} {s : State} {a b : List CardEntry} {e : CardEntry}

/-- Entries of other cards are found at neither side. -/
theorem find_entry (ha : ∀ x ∈ a ++ b, x.card ≠ k) (he : e.card = k) :
    (a ++ e :: b).find? (fun e => decide (e.card = k)) = some e := by
  have hnone : a.find? (fun e => decide (e.card = k)) = none :=
    List.find?_eq_none.2 fun x hx => by simpa using ha x (List.mem_append_left b hx)
  rw [List.find?_append, hnone, Option.none_or, List.find?_cons, decide_eq_true he]

theorem entryOf_some (hl : vget s.cc.sets (cardSet k) = a ++ e :: b)
    (ha : ∀ x ∈ a ++ b, x.card ≠ k) (he : e.card = k) : entryOf k s = some e := by
  rw [entryOf, hl, find_entry ha he]

theorem mapEntry_some (f : CardEntry → CardEntry) (hl : vget s.cc.sets (cardSet k) = a ++ e :: b)
    (ha : ∀ x ∈ a ++ b, x.card ≠ k) (he : e.card = k) :
    mapEntry k f s = setSet k (a ++ f e :: b) s := by
  have hside : ∀ c : List CardEntry, (∀ x ∈ c, x.card ≠ k) →
      (c.map fun e => if e.card = k then f e else e) = c := fun c hc =>
    (List.map_congr_left fun x hx => if_neg (hc x hx)).trans (List.map_id _)
  rw [mapEntry, hl, List.map_append, List.map_cons, if_pos he,
    hside a fun x hx => ha x (List.mem_append_left b hx),
    hside b fun x hx => ha x (List.mem_append_right a hx)]

theorem dropEntry_some (hl : vget s.cc.sets (cardSet k) = a ++ e :: b)
    (ha : ∀ x ∈ a ++ b, x.card ≠ k) (he : e.card = k) :
    dropEntry k s = setSet k (a ++ b) s := by
  have hside : ∀ c : List CardEntry, (∀ x ∈ c, x.card ≠ k) →
      (c.filter fun e => decide (e.card ≠ k)) = c := fun c hc =>
    List.filter_eq_self.2 fun x hx => decide_eq_true (hc x hx)
  rw [dropEntry, hl, List.filter_append, List.filter_cons, if_neg (by simp [he]),
    hside a fun x hx => ha x (List.mem_append_left b hx),
    hside b fun x hx => ha x (List.mem_append_right a hx)]

theorem dropRevoked_none (h : ∀ e ∈ vget s.cc.sets (cardSet k), e.card ≠ k) : dropRevoked k s = s := by
  simp only [dropRevoked, entryOf_none h]

/-- The card's entry as it is put, and removed where it is REVOKED with no release left (R48). -/
theorem dropRevoked_put (ha : ∀ x ∈ a ++ b, x.card ≠ k) (he : e.card = k) :
    dropRevoked k (setSet k (a ++ e :: b) s) =
      if e.state = .revoked ∧ e.pendingTrips = [] then setSet k (a ++ b) s
      else setSet k (a ++ e :: b) s := by
  have hget := vget_setSet k (a ++ e :: b) s
  simp only [dropRevoked, entryOf_some hget ha he, dropEntry_some hget ha he, setSet_setSet]

/-! ### Write-throughs (R47 to R49) -/

theorem releaseBegun_some (trip : Nat) (hl : vget s.cc.sets (cardSet k) = a ++ e :: b)
    (ha : ∀ x ∈ a ++ b, x.card ≠ k) (he : e.card = k) :
    releaseBegun k trip s =
      if e.pendingTrips.length < 4 then
        setSet k (a ++ { e with
          pendingTrips := e.pendingTrips ++ [trip], hireAdj := min 100 (e.hireAdj + 1) } :: b) s
      else s := by
  rw [releaseBegun, mapEntry_some _ hl ha he]
  split
  case isTrue => rfl
  case isFalse => rw [← hl, setSet_same]

theorem releaseUndone_some (trip : Nat) (hl : vget s.cc.sets (cardSet k) = a ++ e :: b)
    (ha : ∀ x ∈ a ++ b, x.card ≠ k) (he : e.card = k) :
    let e' := if trip ∈ e.pendingTrips then
        { e with pendingTrips := e.pendingTrips.erase trip, hireAdj := max (-96) (e.hireAdj - 1) }
      else e
    releaseUndone k trip s =
      if e'.state = .revoked ∧ e'.pendingTrips = [] then setSet k (a ++ b) s
      else setSet k (a ++ e' :: b) s := by
  rw [releaseUndone, mapEntry_some _ hl ha he]
  simp only [List.contains_iff_mem]
  exact dropRevoked_put ha (by split <;> exact he)

theorem releaseTaken_some (trip : Nat) (hl : vget s.cc.sets (cardSet k) = a ++ e :: b)
    (ha : ∀ x ∈ a ++ b, x.card ≠ k) (he : e.card = k) :
    let e' := if trip ∈ e.pendingTrips then { e with pendingTrips := e.pendingTrips.erase trip }
      else { e with hireAdj := min 100 (e.hireAdj + 1) }
    releaseTaken k trip s =
      if e'.state = .revoked ∧ e'.pendingTrips = [] then setSet k (a ++ b) s
      else setSet k (a ++ e' :: b) s := by
  rw [releaseTaken, mapEntry_some _ hl ha he]
  simp only [List.contains_iff_mem]
  exact dropRevoked_put ha (by split <;> exact he)

end

/-- Settles O34. -/
theorem writeThroughsFollowTheReleases : Obligations.WriteThroughsFollowTheReleases := by
  refine fun s card trip fare => ⟨fun h => ⟨mapEntry_none _ h, ?_, ?_, mapEntry_none _ h⟩,
    fun a e b hl ha he => ⟨releaseBegun_some trip hl ha he, releaseUndone_some trip hl ha he,
      releaseTaken_some trip hl ha he, mapEntry_some _ hl ha he⟩⟩
  · rw [releaseUndone, mapEntry_none _ h, dropRevoked_none h]
  · rw [releaseTaken, mapEntry_none _ h, dropRevoked_none h]

end Sys2Proof.Machine
end

section
/-! Member records placed, and cards invalidated (R45, R46, R53, R55 to R58). -/

namespace Sys2Proof.Machine

/-! ### The answer's effect on the link (R53) -/

/-- The state in which a FILL_ANSWER has brought the link up and taken a card's fill entry. -/
def answeredUp (k : Nat) (s : State) : State :=
  { s with
    sc := { s.sc with linkUp := true },
    cc := { s.cc with
      fills := s.cc.fills.filter fun f => decide (f.card ≠ k), runCounter := 0,
      offlineGrants := if s.sc.linkUp then s.cc.offlineGrants else 0 } }

theorem answerLink_eq (s : State) :
    answerLink s =
      { s with
        sc := { s.sc with linkUp := true },
        cc := { s.cc with
          runCounter := 0, offlineGrants := if s.sc.linkUp then s.cc.offlineGrants else 0 } } := by
  rw [answerLink, linkUp_eq]
  cases s.sc.linkUp <;> rfl

theorem dropFill_answerLink (k : Nat) (s : State) : dropFill k (answerLink s) = answeredUp k s := by
  rw [answerLink_eq]
  rfl

theorem fillOf_answerLink (k : Nat) (s : State) : fillOf k (answerLink s) = fillOf k s := by
  rw [answerLink_eq]
  rfl

/-- Without a fill entry of the card none is taken. -/
theorem answerLink_none {k : Nat} {s : State} (h : fillOf k s = none) :
    answerLink s = answeredUp k s := by
  have hf : s.cc.fills.filter (fun f => decide (f.card ≠ k)) = s.cc.fills :=
    List.filter_eq_self.2 fun f hf => by simpa using List.find?_eq_none.1 h f hf
  rw [answeredUp, hf, answerLink_eq]

theorem fillOf_mem {k : Nat} {s : State} {f : Fill} (h : fillOf k s = some f) :
    f ∈ s.cc.fills ∧ f.card = k :=
  ⟨List.mem_of_find?_eq_some h, by simpa using List.find?_some h⟩

/-! ### Placements (R45, R46) -/

/-- A card's entry is changed and moves to the head of its set. -/
theorem touchEntry_mapEntry {k : Nat} {f : CardEntry → CardEntry} {s : State} {e : CardEntry}
    (hf : ∀ x, x.card = k → (f x).card = k)
    (he : (vget s.cc.sets (cardSet k)).filter (fun e => decide (e.card = k)) = [e]) :
    touchEntry k (mapEntry k f s) =
      setSet k (f e :: (vget s.cc.sets (cardSet k)).filter fun e => decide (e.card ≠ k)) s := by
  have hcard : ∀ x : CardEntry, (if x.card = k then f x else x).card = k ↔ x.card = k := fun x => by
    by_cases hx : x.card = k
    · simp [hx, hf x hx]
    · simp [hx]
  have hek : e.card = k := by
    have hmem : e ∈ (vget s.cc.sets (cardSet k)).filter fun e => decide (e.card = k) :=
      he ▸ List.mem_singleton_self e
    simpa using (List.mem_filter.1 hmem).2
  have hown : (((vget s.cc.sets (cardSet k)).map fun x => if x.card = k then f x else x).filter
      fun e => decide (e.card = k)) = [f e] := by
    rw [List.filter_map]
    simp only [Function.comp_def, hcard, he, List.map_cons, List.map_nil, if_pos hek]
  have hother : (((vget s.cc.sets (cardSet k)).map fun x => if x.card = k then f x else x).filter
      fun e => decide (e.card ≠ k))
      = (vget s.cc.sets (cardSet k)).filter fun e => decide (e.card ≠ k) := by
    rw [List.filter_map]
    simp only [Function.comp_def, ne_eq, hcard]
    refine (List.map_congr_left fun x hx => if_neg ?_).trans (List.map_id _)
    simpa using (List.mem_filter.1 hx).2
  simp only [touchEntry, mapEntry, vget_setSet, hown, hother, setSet_setSet]
  rfl

section
variable {m : MemberRecord} {s : State}

theorem placeMember_revoked {e : CardEntry} (he : entryOf m.card s = some e) (hr : e.state = .revoked) :
    placeMember m s = (.notKept true, s) := by
  simp only [placeMember, he, hr, if_true]

theorem placeMember_off (he : entryOf m.card s = none) (ha : s.cc.allocate = false) :
    placeMember m s = (.notKept false, s) := by
  simp [placeMember, he, ha]

/-- The entry that a placement makes with a pending list. -/
def placedEntry (m : MemberRecord) (pending : List Nat) (s : State) : CardEntry :=
  memberEntry m pending (recompute m.card m.baseMark pending.length s) s

theorem placeMember_refreshed {e : CardEntry} (hc : Clean s) (hs : SequencesAgree s)
    (he : (vget s.cc.sets (cardSet m.card)).filter (fun e => decide (e.card = m.card)) = [e])
    (hr : e.state ≠ .revoked) :
    placeMember m s =
      (.refreshed, setSet m.card (placedEntry m e.pendingTrips s ::
        (vget s.cc.sets (cardSet m.card)).filter fun e => decide (e.card ≠ m.card)) s) := by
  have hfind : entryOf m.card s = some e := by
    rw [entryOf, ← List.head?_filter, he]
    rfl
  simp only [placeMember, hfind, hr, if_false, readHeldReports_agree hc hs]
  exact congrArg _ (touchEntry_mapEntry (fun _ _ => rfl) he)

theorem allocate_free {e : CardEntry} (h : (vget s.cc.sets (cardSet e.card)).length < 4) :
    allocate e s = some (setSet e.card (e :: vget s.cc.sets (cardSet e.card)) s) := if_pos h

theorem allocate_full {e : CardEntry} (h : 4 ≤ (vget s.cc.sets (cardSet e.card)).length) :
    allocate e s = (evict (vget s.cc.sets (cardSet e.card))).map fun l => setSet e.card (e :: l) s :=
  if_neg (Nat.not_lt.2 h)

/-- A record without entry is placed where the allocation finds a way. -/
theorem placeMember_allocate (hc : Clean s) (hs : SequencesAgree s) (he : entryOf m.card s = none)
    (ha : s.cc.allocate = true) :
    placeMember m s =
      match allocate (placedEntry m [] s) s with
      | some t => (.placed, t)
      | none => (.notKept false, s) := by
  simp only [placeMember, he, ha, if_true, readHeldReports_agree hc hs]
  rfl

theorem placeMember_free (hc : Clean s) (hs : SequencesAgree s) (he : entryOf m.card s = none)
    (ha : s.cc.allocate = true) (h : (vget s.cc.sets (cardSet m.card)).length < 4) :
    placeMember m s =
      (.placed, setSet m.card (placedEntry m [] s :: vget s.cc.sets (cardSet m.card)) s) := by
  rw [placeMember_allocate hc hs he ha, allocate_free (e := placedEntry m [] s) h]
  rfl

theorem placeMember_pinned (hc : Clean s) (hs : SequencesAgree s) (he : entryOf m.card s = none)
    (ha : s.cc.allocate = true) (h : 4 ≤ (vget s.cc.sets (cardSet m.card)).length)
    (hp : ∀ e ∈ vget s.cc.sets (cardSet m.card), e.pendingTrips ≠ []) :
    placeMember m s = (.notKept false, s) := by
  rw [placeMember_allocate hc hs he ha, allocate_full (e := placedEntry m [] s) h,
    evict_none (l := vget s.cc.sets (cardSet (placedEntry m [] s).card)) hp]
  rfl

theorem placeMember_evicts {a b : List CardEntry} {v : CardEntry} (hc : Clean s) (hs : SequencesAgree s)
    (he : entryOf m.card s = none) (ha : s.cc.allocate = true)
    (h : 4 ≤ (vget s.cc.sets (cardSet m.card)).length)
    (hl : vget s.cc.sets (cardSet m.card) = a ++ v :: b) (hv : v.pendingTrips = [])
    (hp : ∀ e ∈ b, e.pendingTrips ≠ []) :
    placeMember m s = (.placed, setSet m.card (placedEntry m [] s :: (a ++ b)) s) := by
  have hset : vget s.cc.sets (cardSet (placedEntry m [] s).card) = a ++ v :: b := hl
  rw [placeMember_allocate hc hs he ha, allocate_full (e := placedEntry m [] s) h, hset,
    evict_some hv hp]
  rfl

end

/-! ### CARD_PUSH and FILL_ANSWER of a member record -/

/-- A state that a placement cannot tell from another: the same cache entries, queue and time. -/
def PlacesAs (s y : State) : Prop :=
  y.cc.sets = s.cc.sets ∧ y.cc.allocate = s.cc.allocate ∧ y.rq = s.rq ∧ stationTime y = stationTime s
    ∧ Clean y ∧ SequencesAgree y

/-- A placement that makes an outcome and a set, whatever else the state holds, is made so by CARD_PUSH
and by FILL_ANSWER. -/
theorem places_of {tag : Nat} {m : MemberRecord} {s : State} {p : Placement} {set : List CardEntry}
    {o : ReplyOutcome} {clamped : Bool} (ho : placementOutcome p = o)
    (hcl : memberLimited m = clamped) (hc : Clean s) (hs : SequencesAgree s) (hform : memberInForm m = true)
    (hp : ∀ y, PlacesAs s y → placeMember m y = (p, setSet m.card set y)) :
    (Accepts .uplink .cardPush tag s → ∃ t, exec (.cardPush tag m) s = .next t
      ∧ Replied .uplink .cardPush tag o (.clamped clamped) s t
      ∧ StoreKept s t
      ∧ t = { s with
          pi := t.pi, rs := t.rs,
          cc := { s.cc with sets := vset s.cc.sets (cardSet m.card) set } })
    ∧ (Accepts .uplink .fillAnswer tag s →
      (∀ f ∈ s.cc.fills, f.card = m.card → f.waiter = none ∧ f.poisoned = false) →
      ∃ t, exec (.fillAnswer tag m) s = .next t
        ∧ Replied .uplink .fillAnswer tag o (.clamped clamped) s t
        ∧ StoreKept s t
        ∧ t = { s with
            pi := t.pi, rs := t.rs, sc := { s.sc with linkUp := true },
            cc := { s.cc with
              sets := vset s.cc.sets (cardSet m.card) set,
              fills := s.cc.fills.filter fun f => decide (f.card ≠ m.card),
              runCounter := 0,
              offlineGrants := if s.sc.linkUp then s.cc.offlineGrants else 0 } }) := by
  subst ho hcl
  refine ⟨fun hacc => ?_, fun hacc hf => ?_⟩
  · refine request_kept (x := setSet m.card set s) hacc hform rfl fun i => ?_
    rw [takeCardPush, hp (s.setPi i) ⟨rfl, rfl, rfl, rfl, hc, hs⟩]
    rfl
  · refine request_kept (x := setSet m.card set (answeredUp m.card s)) hacc hform rfl fun i => ?_
    have hplace := hp (answeredUp m.card (s.setPi i)) ⟨rfl, rfl, rfl, rfl, hc, hs⟩
    unfold takeFillAnswer
    simp only [fillOf_answerLink]
    cases hfill : fillOf m.card (s.setPi i) with
    | none =>
      simp only [answerLink_none hfill, hplace]
      rfl
    | some f =>
      obtain ⟨hmem, hcard⟩ := fillOf_mem hfill
      obtain ⟨hw, hpois⟩ := hf f hmem hcard
      simp only [hpois, Bool.false_eq_true, if_false, dropFill_answerLink, hplace, decideWaiter, hw,
        Option.isSome_none]
      rfl

theorem memberLimited_eq (m : MemberRecord) :
    memberLimited m = decide (within (-1000000) 1000000 m.balance ≠ m.balance
      ∨ within 1 4 m.hireLimit ≠ m.hireLimit ∨ within 0 15 m.baseOpen ≠ m.baseOpen) := by
  simp only [memberLimited, limited, limit_within (show (-1000000 : Int) ≤ 1000000 by decide),
    limit_within (show (1 : Int) ≤ 4 by decide), limit_within (show (0 : Int) ≤ 15 by decide),
    Bool.decide_or, Bool.or_assoc]

/-- The adjustments depend on the report queue alone. -/
theorem recompute_congr {s y : State} (h : y.rq = s.rq) (card mark n : Nat) :
    recompute card mark n y = recompute card mark n s := by
  unfold recompute recordsAfter afterMark reportDistance
  rw [h]

/-- The entry a placement makes, in a state that places as another does. -/
theorem placedEntry_eq {m : MemberRecord} {s y : State} {standing : Standing} (pending : List Nat)
    (h : PlacesAs s y) (hst : standingOf m.standing = some standing) :
    placedEntry m pending y =
      { state := .valid, card := m.card, standing := some standing, plan := m.plan,
        balance := within (-1000000) 1000000 m.balance,
        hireLimit := (within 1 4 m.hireLimit).toNat, baseOpen := (within 0 15 m.baseOpen).toNat,
        filledAt := some (stationTime s),
        hireAdj := (recompute m.card m.baseMark pending.length s).1,
        fareAdj := (recompute m.card m.baseMark pending.length s).2,
        pendingTrips := pending } := by
  obtain ⟨-, -, hrq, htime, -, -⟩ := h
  rw [placedEntry, recompute_congr hrq, memberEntry, htime, hst, limit_within (by decide), limit_within (by decide),
    limit_within (by decide)]

theorem standing_range {n : Nat} {standing : Standing} (h : standingOf n = some standing) :
    1 ≤ n ∧ n ≤ 3 := by
  match n, h with
  | 1, _ => decide
  | 2, _ => decide
  | 3, _ => decide

/-- Settles O30. -/
theorem memberRecordsArePlaced : Obligations.MemberRecordsArePlaced := by
  intro tag m s standing hc hs hpos hlt hplan hst
  have hform : memberInForm m = true := by
    have hcard : cardInForm m.card = true := decide_eq_true ⟨hpos, hlt⟩
    simp [memberInForm, hcard, standing_range hst, hplan]
  have hnone : ∀ {y}, PlacesAs s y → (∀ e ∈ vget s.cc.sets (cardSet m.card), e.card ≠ m.card) →
      entryOf m.card y = none := fun hy h => entryOf_none (by rw [hy.1]; exact h)
  refine ⟨fun e he hr => ?_, fun e he hr => ?_, fun hn => ⟨fun ha => ?_, fun ha hl => ?_,
    fun ha hl hp => ?_, fun a v b ha hl hab hv hp => ?_⟩⟩
  · refine places_of (p := .notKept true) rfl (memberLimited_eq m) hc hs hform fun y hy => ?_
    have hfind : entryOf m.card y = some e := by
      rw [entryOf, hy.1, ← List.head?_filter, he]; rfl
    rw [placeMember_revoked hfind hr, ← hy.1, setSet_same]
  · refine places_of (p := .refreshed) rfl (memberLimited_eq m) hc hs hform fun y hy => ?_
    obtain ⟨hsets, -, -, -, hcy, hsy⟩ := id hy
    rw [placeMember_refreshed hcy hsy (by rw [hsets]; exact he) hr, placedEntry_eq _ hy hst, hsets]
    rfl
  · refine places_of (p := .notKept false) rfl (memberLimited_eq m) hc hs hform fun y hy => ?_
    rw [placeMember_off (hnone hy hn) (hy.2.1.trans ha), ← hy.1, setSet_same]
  · refine places_of (p := .placed) rfl (memberLimited_eq m) hc hs hform fun y hy => ?_
    obtain ⟨hsets, hal, -, -, hcy, hsy⟩ := id hy
    rw [placeMember_free hcy hsy (hnone hy hn) (hal.trans ha) (by rw [hsets]; exact hl),
      placedEntry_eq _ hy hst, hsets]
    rfl
  · refine places_of (p := .notKept false) rfl (memberLimited_eq m) hc hs hform fun y hy => ?_
    obtain ⟨hsets, hal, -, -, hcy, hsy⟩ := id hy
    rw [placeMember_pinned hcy hsy (hnone hy hn) (hal.trans ha) (by rw [hsets]; exact hl)
      (by rw [hsets]; exact hp), ← hsets, setSet_same]
  · refine places_of (p := .placed) rfl (memberLimited_eq m) hc hs hform fun y hy => ?_
    obtain ⟨hsets, hal, -, -, hcy, hsy⟩ := id hy
    rw [placeMember_evicts hcy hsy (hnone hy hn) (hal.trans ha) (by rw [hsets]; exact hl)
      (by rw [hsets]; exact hab) hv hp, placedEntry_eq _ hy hst]
    rfl

/-! ### CARD_INVALIDATE and NOT_FOUND (R56, R58) -/

theorem invalidateEntry_none {k : Nat} {s : State}
    (h : ∀ e ∈ vget s.cc.sets (cardSet k), e.card ≠ k) : invalidateEntry k s = (.noEntry, s) := by
  simp only [invalidateEntry, entryOf_none h]

section
variable {k : Nat} {s : State} {a b : List CardEntry} {e : CardEntry}

theorem invalidateEntry_revoked (hl : vget s.cc.sets (cardSet k) = a ++ e :: b)
    (ha : ∀ x ∈ a ++ b, x.card ≠ k) (he : e.card = k) (hr : e.state = .revoked) :
    invalidateEntry k s = (.revoked, s) := by
  simp only [invalidateEntry, entryOf_some hl ha he, hr, if_true]

theorem invalidateEntry_removed (hl : vget s.cc.sets (cardSet k) = a ++ e :: b)
    (ha : ∀ x ∈ a ++ b, x.card ≠ k) (he : e.card = k) (hr : e.state ≠ .revoked)
    (hp : e.pendingTrips = []) : invalidateEntry k s = (.removed, setSet k (a ++ b) s) := by
  have hpin : pinned e = false := by simp [pinned, hp]
  simp only [invalidateEntry, entryOf_some hl ha he, hr, if_false, hpin, Bool.false_eq_true,
    dropEntry_some hl ha he]

theorem invalidateEntry_pinned (hl : vget s.cc.sets (cardSet k) = a ++ e :: b)
    (ha : ∀ x ∈ a ++ b, x.card ≠ k) (he : e.card = k) (hr : e.state ≠ .revoked)
    (hp : e.pendingTrips ≠ []) :
    invalidateEntry k s =
      (.revoked, setSet k (a ++ { e with state := .revoked, standing := none } :: b) s) := by
  have hpin : pinned e = true := by simp [pinned, hp]
  simp only [invalidateEntry, entryOf_some hl ha he, hr, if_false, hpin, if_true,
    mapEntry_some _ hl ha he]

end

/-- A cache effect and a set that an invalidation makes, whatever else the state holds, are made by
CARD_INVALIDATE and by a NOT_FOUND answer. -/
theorem goes_of {tag card : Nat} {s : State} {effect : CacheEffect} {set : List CardEntry}
    (hform : cardInForm card = true)
    (hp : ∀ y : State, y.cc.sets = s.cc.sets → invalidateEntry card y = (effect, setSet card set y)) :
    (Accepts .uplink .cardInvalidate tag s → ∃ t, exec (.cardInvalidate tag card) s = .next t
      ∧ Replied .uplink .cardInvalidate tag .done
          (.invalidated effect (s.cc.fills.any fun f => decide (f.card = card))) s t
      ∧ StoreKept s t
      ∧ t = { s with
          pi := t.pi, rs := t.rs,
          cc := { s.cc with
            sets := vset s.cc.sets (cardSet card) set,
            fills := s.cc.fills.map fun f =>
              if f.card = card then { f with poisoned := true } else f } })
    ∧ (Accepts .uplink .fillAnswer tag s →
      (∀ f ∈ s.cc.fills, f.card = card → f.waiter = none ∧ f.poisoned = false) →
      ∃ t, exec (.fillAnswerNotFound tag card) s = .next t
        ∧ Replied .uplink .fillAnswer tag .notFoundTaken .empty s t ∧ StoreKept s t
        ∧ t = { s with
            pi := t.pi, rs := t.rs, sc := { s.sc with linkUp := true },
            cc := { s.cc with
              sets := vset s.cc.sets (cardSet card) set,
              fills := s.cc.fills.filter fun f => decide (f.card ≠ card),
              runCounter := 0,
              offlineGrants := if s.sc.linkUp then s.cc.offlineGrants else 0 } }) := by
  refine ⟨fun hacc => ?_, fun hacc hf => ?_⟩
  · refine request_kept (x := poisonFill card (setSet card set s)) hacc hform rfl fun i => ?_
    have hany : (fillOf card (setSet card set (s.setPi i))).isSome
        = s.cc.fills.any fun f => decide (f.card = card) := by
      rw [Bool.eq_iff_iff, fillOf, List.find?_isSome, List.any_eq_true]
      rfl
    rw [takeCardInvalidate, hp (s.setPi i) rfl, hany]
    rfl
  · refine request_kept (x := setSet card set (answeredUp card s)) hacc hform rfl fun i => ?_
    have hgoes := hp (answeredUp card (s.setPi i)) rfl
    unfold takeFillNotFound
    simp only [fillOf_answerLink]
    cases hfill : fillOf card (s.setPi i) with
    | none =>
      simp only [answerLink_none hfill, hgoes]
      rfl
    | some f =>
      obtain ⟨hmem, hcard⟩ := fillOf_mem hfill
      obtain ⟨hw, hpois⟩ := hf f hmem hcard
      simp only [hpois, Bool.false_eq_true, if_false, dropFill_answerLink, forWaiter, hw, hgoes]
      rfl

/-- Settles O31. -/
theorem invalidatedCardsAreGone : Obligations.InvalidatedCardsAreGone := by
  intro tag card s hpos hlt
  have hform : cardInForm card = true := decide_eq_true ⟨hpos, hlt⟩
  refine ⟨fun h => ?_, fun a e b hl ha he => ⟨fun hr => ?_, fun hr hp => ?_, fun hr hp => ?_⟩⟩
  · refine goes_of hform fun y hy => ?_
    rw [invalidateEntry_none (by rw [hy]; exact h), ← hy, setSet_same]
  · refine goes_of hform fun y hy => ?_
    rw [invalidateEntry_revoked (by rw [hy]; exact hl) ha he hr, ← hy, setSet_same]
  · exact goes_of hform fun y hy => invalidateEntry_removed (by rw [hy]; exact hl) ha he hr hp
  · exact goes_of hform fun y hy => invalidateEntry_pinned (by rw [hy]; exact hl) ha he hr hp

end Sys2Proof.Machine
end

section
/-! The station view, and the report queue's requests (R89, R108 to R118). -/

namespace Sys2Proof.Machine

/-! ### STATION_VIEW (R23, R89) -/

theorem allDocks_get : ∀ d : DockNo, allDocks[d.val]? = some d := by decide

theorem flagged_iff (bike : Nat) (s : State) :
    flagged bike s = false ↔ ∀ f ∈ s.flt.registry, f.bike ≠ bike := by
  simp [flagged, flagOf]

/-- R23's conditions, which all hold of a hireable dock. -/
theorem hireable_iff (d : DockNo) (s : State) :
    hireable d s = true ↔
      ∃ b, (dockOf d s).bike = some b ∧ (dockOf d s).state = .docked
        ∧ (dockOf d s).suspended = false ∧ (dockOf d s).holder = none ∧ b.id ≠ 0
        ∧ (∀ f ∈ s.flt.registry, f.bike ≠ b.id) ∧ b.mark = false ∧ held d s = false := by
  cases hb : (dockOf d s).bike with
  | none => simp [hireable, conditionsFail, hb]
  | some b =>
    simp [hireable, conditionsFail, hb, ← flagged_iff]

theorem takeStationView_eq {tag : Nat} {s : State} (hc : Clean s) :
    takeStationView tag s =
      reply .terminal .stationView tag .done
        (.stationView s.sc.mode (commissioned s) (allDocks.map (viewEntry s))) s := by
  rw [takeStationView, readRegistry_clean hc]

theorem commissioned_eq (s : State) :
    commissioned s = decide (s.sc.station.id ≠ 0 ∧ s.sc.station.clockValid = true) := by
  simp only [commissioned, Bool.decide_and, Bool.decide_eq_true]

/-- Settles O40. -/
theorem stationViewShowsTheDocks : Obligations.StationViewShowsTheDocks := by
  intro tag s hacc hc
  obtain ⟨t, hstep, hreply, hstore, ht⟩ := request_kept (x := s) (take := takeStationView tag)
    (o := .done) (b := .stationView s.sc.mode (commissioned s) (allDocks.map (viewEntry s)))
    hacc rfl rfl fun i => takeStationView_eq (s := s.setPi i) hc
  rw [commissioned_eq] at hreply
  refine ⟨t, _, hstep, hreply, hstore, ht, by rw [List.length_map]; rfl, fun d => ?_⟩
  have hget : (allDocks.map (viewEntry s))[d.val]? = some (viewEntry s d) := by
    rw [List.getElem?_map, allDocks_get]
    rfl
  exact ⟨_, hget, rfl, rfl, hireable_iff d s, rfl⟩

/-! ### Queueing (R108 to R110) -/

theorem handAll_nil (rs : RetainedStore) : handAll [] rs = rs := rfl

theorem appendReport_eq (r : Report) (s : State) :
    appendReport r s =
      { s with
        rq := { s.rq with held := s.rq.held ++ [r], nextSeq := nextSequence s.rq.nextSeq },
        rs := handAll
          (bothCopies .queueHead (.queueHead
            { nextSeq := nextSequence s.rq.nextSeq, readMark := s.rq.readMark,
              oldest := s.rq.oldestPlace, count := s.rq.held.length + 1 })
            ++ [(.report (reportRing s.rq.oldestPlace s.rq.held.length), .report r)]) s.rs } := by
  have hlast : (s.rq.held ++ [r])[s.rq.held.length]? = some r := by simp
  have hlen : (s.rq.held ++ [r]).length = s.rq.held.length + 1 := by simp
  rw [handAll_append, ← hlen]
  simp only [appendReport, handReport, handQueueHead, handBoth, hand_rq, State.setRq_rq, hlast]
  rfl

/-- Settles O42. -/
theorem queuedRecordsTakeTheNextSequence : Obligations.QueuedRecordsTakeTheNextSequence := by
  intro n s hc
  rw [queueReport, readQueueHead_clean hc]
  exact appendReport_eq (reportOf n s) s

/-! ### Records handed, and sequences that agree -/

/-- The state with records handed. -/
def handed (l : List (Place × Content)) (s : State) : State := s.setRs (handAll l s.rs)

theorem handed_cons (p : Place) (c : Content) (l : List (Place × Content)) (s : State) :
    handed ((p, c) :: l) s = handed l (hand p c s) := rfl

theorem inWriteList_iff (p : Place) (s : State) :
    inWriteList p s = true ↔ (s.rs.writeList.find? fun x => decide (x.place = p)).isSome = true := by
  rw [List.find?_isSome, inWriteList, List.any_eq_true]

/-- A record handed takes no place out of the write list. -/
theorem not_inWriteList_hand {p q : Place} {c : Content} {s : State}
    (h : inWriteList q (hand p c s) = false) : inWriteList q s = false := by
  by_cases hq : q = p
  · rw [hq, inWriteList_hand] at h
    cases h
  · rw [← Bool.not_eq_true, inWriteList_iff] at h ⊢
    rwa [show (hand p c s).rs.writeList = putEntry s.rs.stepNo p c s.rs.writeList from rfl,
      find_putEntry_other _ c _ hq] at h

theorem not_inWriteList_handed {q : Place} {l : List (Place × Content)} {s : State}
    (h : inWriteList q (handed l s) = false) : inWriteList q s = false := by
  induction l generalizing s with
  | nil => exact h
  | cons x l ih => exact not_inWriteList_hand (ih h)

/-! ### REPORT_READ (R116, R117) -/

/-- The records handed when the read mark is put: the head, where the mark changed. -/
def markHands (q : Nat) (s : State) : List (Place × Content) :=
  if q = s.rq.readMark then []
  else bothCopies .queueHead (.queueHead { queueHeadOf s with readMark := q })

/-- The state with the read mark put. -/
def marked (q : Nat) (s : State) : State :=
  { s with rq := { s.rq with readMark := q }, rs := handAll (markHands q s) s.rs }

theorem setReadMark_eq (q : Nat) (s : State) : setReadMark q s = marked q s := by
  unfold setReadMark marked markHands
  by_cases h : q = s.rq.readMark
  · rw [if_pos h.symm, if_pos h, h]
    rfl
  · rw [if_neg fun hq => h hq.symm, if_neg h]
    rfl

theorem marked_clean {q : Nat} {s : State} (h : Clean s) : Clean (marked q s) := h

theorem marked_agree {q : Nat} {s : State} (h : SequencesAgree s) : SequencesAgree (marked q s) :=
  ⟨fun n i hi hn => h.1 n i hi (not_inWriteList_handed (l := markHands q s) hn),
    fun n i hi hn => h.2 n i hi (not_inWriteList_handed (l := markHands q s) hn)⟩

theorem filterMap_range_get {α : Type} (l : List α) :
    (List.range l.length).filterMap (fun i => l[i]?) = l := by
  induction l with
  | nil => rfl
  | cons x l ih =>
    rw [List.length_cons, List.range_succ_eq_map, List.filterMap_cons, List.filterMap_map]
    exact congrArg (List.cons x) ih

/-- The numbers of the records in the middle of a list give those records. -/
theorem filterMap_middle {α : Type} (a b c : List α) :
    ((List.range b.length).map fun i => a.length + i).filterMap (fun i => (a ++ b ++ c)[i]?) = b := by
  have hget : ∀ i ∈ List.range b.length, (a ++ b ++ c)[a.length + i]? = b[i]? := fun i hi => by
    have hi : i < b.length := List.mem_range.1 hi
    rw [List.append_assoc, List.getElem?_append_right (Nat.le_add_right _ _), Nat.add_sub_cancel_left,
      List.getElem?_append_left hi]
  rw [List.filterMap_map]
  exact (List.filterMap_congr hget).trans (filterMap_range_get b)

/-- The state in which a REPORT_READ has taken its records: the mark put at the records to be read first, and
then past them. -/
theorem readReports_eq {n : Nat} {s : State} {read taken rest : List Report} (hc : Clean s)
    (hs : SequencesAgree s) (hheld : s.rq.held = read ++ taken ++ rest)
    (hread : readCount s = read.length) (htake : taken.length = min n (taken ++ rest).length) :
    readReports n s =
      (taken, marked ((s.rq.readMark + taken.length) % 4294967296) s) := by
  have hcount : min n (unreadCount s) = taken.length := by
    rw [unreadCount, hread, hheld, htake]
    simp only [List.length_append]
    omega
  have hrange : readRange n s = (List.range taken.length).map fun i => read.length + i := by
    rw [readRange, hcount, hread]
  have hrecords : (readRange n s).filterMap (fun i => s.rq.held[i]?) = taken := by
    rw [hrange, hheld]
    exact filterMap_middle read taken rest
  have hlen : (readRange n s).length = taken.length := by rw [hrange]; simp
  simp only [readReports, readPlaces_agree hc hs, hrecords, hlen, setReadMark_eq]

/-- A sequence number's distance from the oldest held record, as far as it is below 4,294,967,296. -/
theorem reportDistance_eq (q : Nat) (s : State) :
    reportDistance q s =
      (q + 4294967296 - ((s.rq.held.head?.map Report.seq).getD s.rq.nextSeq) % 4294967296)
        % 4294967296 := rfl

/-- A mark moved on by few records lies as much farther from the oldest. -/
theorem distance_add {mark oldest r k : Nat} (h : (mark + 4294967296 - oldest % 4294967296) % 4294967296 = r)
    (hk : r + k ≤ 96) :
    ((mark + k) % 4294967296 + 4294967296 - oldest % 4294967296) % 4294967296 = r + k := by
  omega

/-- A mark moved on by some records, fewer than all, is another. -/
theorem mark_ne {mark k : Nat} (h0 : 0 < k) (hk : k ≤ 96) :
    mark ≠ (mark + k) % 4294967296 := by
  omega

/-- The records handed by a read that took its records from a mark. -/
def readHands (mark : Nat) (taken : List Report) (s : State) : List (Place × Content) :=
  markHands mark s ++
    if taken = [] then []
    else bothCopies .queueHead
      (.queueHead { queueHeadOf s with readMark := (mark + taken.length) % 4294967296 })

/-- A REPORT_READ from a mark. -/
theorem reportRead_marked {tag n mark : Nat} {s : State} {read taken rest : List Report} (hc : Clean s)
    (hs : SequencesAgree s) (hheld : s.rq.held = read ++ taken ++ rest)
    (hlen : s.rq.held.length ≤ 96) (hm : mark < 4294967296)
    (hread : reportDistance mark s = read.length)
    (htake : taken.length = min n (taken ++ rest).length) :
    (let r := readReports n (marked mark s)
     reply .uplink .reportRead tag .done (reportReadBody r.1 (unreadCount r.2)) r.2) =
      reply .uplink .reportRead tag .done
        (.bytes (leBytes 1 rest.length ++ (taken.map reportBytes).flatten))
        { s with
          rq := { s.rq with readMark := (mark + taken.length) % 4294967296 },
          rs := handAll (readHands mark taken s) s.rs } := by
  have hreports := readReports_eq (n := n) (s := marked mark s) hc (marked_agree hs) hheld hread htake
  have hsum : s.rq.held.length = read.length + taken.length + rest.length := by
    rw [hheld, List.length_append, List.length_append]
  have hfew : read.length + taken.length ≤ 96 := by omega
  have hnext : reportDistance ((mark + taken.length) % 4294967296) s = read.length + taken.length :=
    distance_add hread hfew
  have hstate : marked ((mark + taken.length) % 4294967296) (marked mark s) =
      { s with
        rq := { s.rq with readMark := (mark + taken.length) % 4294967296 },
        rs := handAll (readHands mark taken s) s.rs } := by
    have hhands : markHands ((mark + taken.length) % 4294967296) (marked mark s) =
        if taken = [] then []
        else bothCopies .queueHead
          (.queueHead { queueHeadOf s with readMark := (mark + taken.length) % 4294967296 }) := by
      unfold markHands
      by_cases ht : taken = []
      · rw [if_pos ht, if_pos]
        rw [ht]
        exact Nat.mod_eq_of_lt hm
      · rw [if_neg ht, if_neg]
        · rfl
        · exact (mark_ne (List.length_pos_iff.2 ht) (by omega)).symm
    unfold readHands
    rw [handAll_append, ← hhands]
    rfl
  have hunread : unreadCount (marked ((mark + taken.length) % 4294967296) (marked mark s))
      = rest.length := by
    show s.rq.held.length - reportDistance ((mark + taken.length) % 4294967296) s = rest.length
    rw [hnext, hsum]
    omega
  simp only [hreports]
  rw [show (marked mark s).rq.readMark = mark from rfl, hunread, hstate]
  rfl

theorem takeReportRead_eq {tag n : Nat} {s : State} (hc : Clean s) :
    takeReportRead tag n s =
      let r := readReports n (marked s.rq.readMark s)
      reply .uplink .reportRead tag .done (reportReadBody r.1 (unreadCount r.2)) r.2 := by
  rw [takeReportRead, readQueueHead_clean hc, ← setReadMark_eq, setReadMark, if_pos rfl]

theorem takeReportReadRestart_eq {tag n : Nat} {s : State} (hc : Clean s) :
    takeReportReadRestart tag n s =
      let r := readReports n (marked (oldestSeq s) s)
      reply .uplink .reportRead tag .done (reportReadBody r.1 (unreadCount r.2)) r.2 := by
  rw [takeReportReadRestart, readQueueHead_clean hc, restartRead, setReadMark_eq]

/-- A step whose owner handed some records or none. -/
theorem hands_or_kept {s x t : State} {l : List (Place × Content)} (ht : t.rs = (endStep x).rs)
    (hr : x.rs = handAll l s.rs) : if l = [] then StoreKept s t else t.rs = stepHands l s.rs := by
  split
  case isTrue h => exact kept_of_rs ht (by rw [hr, h, handAll_nil])
  case isFalse h => rw [ht, endStep_hands h hr]

/-- A REPORT_READ, with restart or without, is answered with the records it takes from its mark. -/
theorem reportRead_step {tag n mark : Nat} {take : State → State} {s : State}
    {read taken rest : List Report} (hacc : Accepts .uplink .reportRead tag s) (hn : n ≤ 4)
    (hc : Clean s) (hs : SequencesAgree s) (hheld : s.rq.held = read ++ taken ++ rest)
    (hlen : s.rq.held.length ≤ 96) (hm : mark < 4294967296)
    (hread : reportDistance mark s = read.length)
    (htake : taken.length = min n (taken ++ rest).length)
    (hx : ∀ y : State, Clean y → y.rq = s.rq → take y =
      let r := readReports n (marked mark y)
      reply .uplink .reportRead tag .done (reportReadBody r.1 (unreadCount r.2)) r.2) :
    ∃ t, stepOf (slotRequest .uplink .reportRead tag (decide (n ≤ 4)) take) s = .next t
      ∧ Replied .uplink .reportRead tag .done
          (.bytes (leBytes 1 rest.length ++ (taken.map reportBytes).flatten)) s t
      ∧ (if readHands mark taken s = [] then StoreKept s t
          else t.rs = stepHands (readHands mark taken s) s.rs)
      ∧ t = { s with
          pi := t.pi, rs := t.rs,
          rq := { s.rq with readMark := (mark + taken.length) % 4294967296 } } := by
  obtain ⟨t, hstep, hreply, hrs, ht⟩ := request_answered
    (x := { s with
      rq := { s.rq with readMark := (mark + taken.length) % 4294967296 },
      rs := handAll (readHands mark taken s) s.rs })
    (take := take) hacc (decide_eq_true hn) fun i => by
      rw [hx (s.setPi i) hc rfl]
      exact reportRead_marked (s := s.setPi i) hc hs hheld hlen hm hread htake
  exact ⟨t, hstep, hreply, hands_or_kept hrs rfl, ht⟩

/-! ### REPORT_RELEASE (R118) -/

theorem reportRelease_refused {tag seq : Nat} {s : State} {o : ReplyOutcome}
    (hacc : Accepts .uplink .reportRelease tag s)
    (hx : ∀ i, takeReportRelease tag seq (s.setPi i) = reply .uplink .reportRelease tag o .empty
      (s.setPi i)) :
    ∃ t, exec (.reportRelease tag seq) s = .next t
      ∧ Replied .uplink .reportRelease tag o .empty s t ∧ StoreKept s t
      ∧ t = { s with pi := t.pi, rs := t.rs } :=
  request_kept (x := s) hacc rfl rfl hx

section
variable {tag seq : Nat} {s : State}

theorem takeReportRelease_noSuch (hc : Clean s) (h : s.rq.held.length ≤ reportDistance seq s) :
    takeReportRelease tag seq s = reply .uplink .reportRelease tag .noSuchRecord .empty s := by
  simp only [takeReportRelease, readQueueHead_clean hc, h, if_true]

theorem takeReportRelease_notRead (hc : Clean s) (h : reportDistance seq s < s.rq.held.length)
    (hr : readCount s ≤ reportDistance seq s) :
    takeReportRelease tag seq s = reply .uplink .reportRelease tag .notRead .empty s := by
  simp only [takeReportRelease, readQueueHead_clean hc, Nat.not_le.2 h, if_false, hr, if_true]

theorem takeReportRelease_released (hc : Clean s) (h : reportDistance seq s < s.rq.held.length)
    (hr : reportDistance seq s < readCount s) :
    takeReportRelease tag seq s =
      reply .uplink .reportRelease tag .released (.count (reportDistance seq s + 1))
        (dropReports (reportDistance seq s + 1) s) := by
  simp only [takeReportRelease, readQueueHead_clean hc, Nat.not_le.2 h, Nat.not_le.2 hr, if_false]

end

/-- The state with the oldest reports dropped and the head handed. -/
theorem dropReports_eq (k : Nat) (s : State) :
    dropReports k s =
      { s with
        rq := { s.rq with
          held := s.rq.held.drop k, oldestPlace := reportRing s.rq.oldestPlace k },
        rs := handAll (bothCopies .queueHead (.queueHead
          { nextSeq := s.rq.nextSeq, readMark := s.rq.readMark,
            oldest := reportRing s.rq.oldestPlace k, count := s.rq.held.length - k })) s.rs } := by
  rw [← List.length_drop]
  rfl

theorem reportRelease_step {tag seq k : Nat} {s : State} (hacc : Accepts .uplink .reportRelease tag s)
    (hc : Clean s) (h : reportDistance seq s < s.rq.held.length)
    (hr : reportDistance seq s < readCount s) (hk : k = reportDistance seq s + 1) :
    ∃ t, exec (.reportRelease tag seq) s = .next t
      ∧ Replied .uplink .reportRelease tag .released (.count k) s t
      ∧ t.rs = stepHands
          (bothCopies .queueHead (.queueHead
            { nextSeq := s.rq.nextSeq, readMark := s.rq.readMark,
              oldest := reportRing s.rq.oldestPlace k, count := s.rq.held.length - k })) s.rs
      ∧ t = { s with
          pi := t.pi, rs := t.rs,
          rq := { s.rq with
            held := s.rq.held.drop k, oldestPlace := reportRing s.rq.oldestPlace k } } := by
  have hx : ∀ i, takeReportRelease tag seq (s.setPi i) =
      reply .uplink .reportRelease tag .released (.count k) ((dropReports k s).setPi i) := fun i => by
    rw [takeReportRelease_released (s := s.setPi i) hc h hr, hk]
    rfl
  rw [dropReports_eq] at hx
  exact request_hands hacc rfl (bothCopies_ne_nil _ _) rfl hx

/-- Settles O41. -/
theorem reportsAreReadThenReleased : Obligations.ReportsAreReadThenReleased := by
  refine ⟨fun tag n restart s read taken rest hacc hn hc hs => ?_,
    fun tag seq s hacc hc => ⟨fun h => ?_, fun h hr => ?_, fun h hr => ?_⟩⟩
  · intro oldest mark hheld hlen hm hread htake
    cases restart with
    | false =>
      exact reportRead_step hacc hn hc hs hheld hlen hm hread htake fun y hy hq => by
        rw [takeReportRead_eq hy, hq]
        rfl
    | true =>
      exact reportRead_step hacc hn hc hs hheld hlen hm hread htake fun y hy hq => by
        rw [takeReportReadRestart_eq hy, oldestSeq, hq]
        rfl
  · exact reportRelease_refused hacc fun i => takeReportRelease_noSuch (s := s.setPi i) hc h
  · exact reportRelease_refused hacc fun i => takeReportRelease_notRead (s := s.setPi i) hc h hr
  · exact reportRelease_step hacc hc h hr (congrArg (· + 1) (reportDistance_eq seq s).symm)

end Sys2Proof.Machine
end

section
/-! The tables of crews, floors and policies (R125, R126, R128, R156). -/

namespace Sys2Proof.Machine

/-- A request whose owner hands some records or none, in the same way whatever the ports hold. -/
theorem request_hands_or_kept {p : Port} {k : RequestKind} {tag : Nat} {form : Bool}
    {take : State → State} {s x : State} {o : ReplyOutcome} {b : Body} {l : List (Place × Content)}
    (h : Accepts p k tag s) (hf : form = true) (hr : x.rs = handAll l s.rs)
    (hx : ∀ i, take (s.setPi i) = reply p k tag o b (x.setPi i)) :
    ∃ t, stepOf (slotRequest p k tag form take) s = .next t ∧ Replied p k tag o b s t
      ∧ (if l = [] then StoreKept s t else t.rs = stepHands l s.rs)
      ∧ t = { x with pi := t.pi, rs := t.rs } := by
  obtain ⟨t, hstep, hreply, hrs, ht⟩ := request_answered h hf hx
  exact ⟨t, hstep, hreply, hands_or_kept hrs hr, ht⟩

/-! ### The first number of a kind -/

theorem find_first {α : Type} [LT α] {f : α → Bool} {a : α} (ha : f a = true)
    {l : List α} (hl : l.Pairwise (· < ·)) (hm : a ∈ l) (hb : ∀ b, b < a → f b = false) :
    l.find? f = some a := by
  induction l with
  | nil => cases hm
  | cons b l ih =>
    rw [List.pairwise_cons] at hl
    rcases List.mem_cons.1 hm with rfl | hm
    · rw [List.find?_cons_of_pos ha]
    · rw [List.find?_cons_of_neg (by simp [hb b (hl.1 a hm)])]
      exact ih hl.2 hm

theorem find_finList {n : Nat} {f : Fin n → Bool} {i : Fin n} (hi : f i = true)
    (hb : ∀ j, j < i → f j = false) : (finList n).find? f = some i :=
  find_first hi (finList_sorted n) (mem_finList i) hb

theorem find_finList_none {n : Nat} {f : Fin n → Bool} (h : ∀ i, f i = false) :
    (finList n).find? f = none :=
  List.find?_eq_none.2 fun i _ => by simp [h i]

/-! ### Crew places (R124) -/

theorem crewPlace_first {crew : Nat} {i : Fin 16} {c : Crew} {s : State}
    (hi : vget s.woe.crews i = some c) (hc : c.id = crew)
    (hb : ∀ j < i, ∀ c, vget s.woe.crews j = some c → c.id ≠ crew) : crewPlace crew s = some i :=
  find_finList (by simp [hi, hc]) fun j hj => by
    cases hv : vget s.woe.crews j with
    | none => rfl
    | some c => simpa using hb j hj c hv

theorem crewPlace_none {crew : Nat} {s : State}
    (h : ∀ i c, vget s.woe.crews i = some c → c.id ≠ crew) : crewPlace crew s = none :=
  find_finList_none fun i => by
    cases hv : vget s.woe.crews i with
    | none => rfl
    | some c => simpa using h i c hv

theorem freeCrewPlace_first {i : Fin 16} {s : State} (hi : vget s.woe.crews i = none)
    (hb : ∀ j < i, vget s.woe.crews j ≠ none) : freeCrewPlace s = some i :=
  find_finList (by simp [hi]) fun j hj => by
    cases hv : vget s.woe.crews j with
    | none => exact absurd hv (hb j hj)
    | some c => rfl

theorem freeCrewPlace_none {s : State} (h : ∀ i, vget s.woe.crews i ≠ none) :
    freeCrewPlace s = none :=
  find_finList_none fun i => by
    cases hv : vget s.woe.crews i with
    | none => exact absurd hv (h i)
    | some c => rfl

theorem putCrew_eq (i : Fin 16) (c : Option Crew) (s : State) :
    putCrew i c s =
      { s with
        rs := handAll [(.crew i, .crew c)] s.rs,
        woe := { s.woe with crews := vset s.woe.crews i c } } := by
  rw [putCrew, handCrew, State.setWoe, vget_vset_self]
  rfl

/-! ### CREW_LOAD and CREW_DROP (R125, R126) -/

theorem takeCrewLoad_replaced {tag crew level mapLength : Nat} {permits : List Bool} {i : Fin 16}
    {s : State} (hc : Clean s) (hi : crewPlace crew s = some i) :
    takeCrewLoad tag crew level mapLength permits s =
      reply .uplink .crewLoad tag .replaced (.clamped (decide (48 < mapLength)))
        (putCrew i (some (loadedCrew crew level mapLength permits)) s) := by
  unfold takeCrewLoad
  simp only [readCrews_clean hc, hi]

theorem takeCrewLoad_added {tag crew level mapLength : Nat} {permits : List Bool} {i : Fin 16}
    {s : State} (hc : Clean s) (hn : crewPlace crew s = none) (hi : freeCrewPlace s = some i) :
    takeCrewLoad tag crew level mapLength permits s =
      reply .uplink .crewLoad tag .added (.clamped (decide (48 < mapLength)))
        (putCrew i (some (loadedCrew crew level mapLength permits)) s) := by
  unfold takeCrewLoad
  simp only [readCrews_clean hc, hn, hi]

theorem takeCrewLoad_full {tag crew level mapLength : Nat} {permits : List Bool} {s : State}
    (hc : Clean s) (hn : crewPlace crew s = none) (hf : freeCrewPlace s = none) :
    takeCrewLoad tag crew level mapLength permits s =
      reply .uplink .crewLoad tag .tableFull (.clamped (decide (48 < mapLength))) s := by
  unfold takeCrewLoad
  simp only [readCrews_clean hc, hn, hf]

theorem takeCrewDrop_dropped {tag crew : Nat} {i : Fin 16} {s : State} (hc : Clean s)
    (hi : crewPlace crew s = some i) :
    takeCrewDrop tag crew s = reply .uplink .crewDrop tag .dropped .empty (putCrew i none s) := by
  unfold takeCrewDrop
  simp only [readCrews_clean hc, hi]

theorem takeCrewDrop_noSuch {tag crew : Nat} {s : State} (hc : Clean s)
    (hn : crewPlace crew s = none) :
    takeCrewDrop tag crew s = reply .uplink .crewDrop tag .noSuchCrew .empty s := by
  unfold takeCrewDrop
  simp only [readCrews_clean hc, hn]

/-- A request that puts one crew place. -/
theorem crew_put_step {k : RequestKind} {tag : Nat} {form : Bool} {take : State → State}
    {s : State} {o : ReplyOutcome} {b : Body} {i : Fin 16} {c : Option Crew}
    (h : Accepts .uplink k tag s) (hf : form = true)
    (hx : ∀ j, take (s.setPi j) = reply .uplink k tag o b (putCrew i c (s.setPi j))) :
    ∃ t, stepOf (slotRequest .uplink k tag form take) s = .next t ∧ Replied .uplink k tag o b s t
      ∧ (if [(Place.crew i, Content.crew c)] = [] then StoreKept s t
          else t.rs = stepHands [(.crew i, .crew c)] s.rs)
      ∧ t = { s with pi := t.pi, rs := t.rs,
                     woe := { s.woe with crews := vset s.woe.crews i c } } :=
  request_hands_or_kept
    (x := { s with rs := handAll [(.crew i, .crew c)] s.rs,
                   woe := { s.woe with crews := vset s.woe.crews i c } })
    h hf rfl fun j => by
      rw [hx, putCrew_eq]
      rfl

/-- A request on the crew table that leaves it as it is. -/
theorem crew_kept_step {k : RequestKind} {tag : Nat} {form : Bool} {take : State → State}
    {s : State} {o : ReplyOutcome} {b : Body} (h : Accepts .uplink k tag s) (hf : form = true)
    (hx : ∀ j, take (s.setPi j) = reply .uplink k tag o b (s.setPi j)) :
    ∃ t, stepOf (slotRequest .uplink k tag form take) s = .next t ∧ Replied .uplink k tag o b s t
      ∧ (if ([] : List (Place × Content)) = [] then StoreKept s t else t.rs = stepHands [] s.rs)
      ∧ t = { s with pi := t.pi, rs := t.rs, woe := { s.woe with crews := s.woe.crews } } :=
  request_hands_or_kept (x := s) h hf rfl hx

/-! ### FLOOR_SET and POLICY_SET (R128, R156) -/

theorem takeFloorSet_eq {tag floor : Nat} {k : OrderKind} {s : State} (hc : Clean s) :
    takeFloorSet tag k floor s =
      reply .uplink .floorSet tag .done (.count (floorOf k s))
        (handFloor k
          (s.setWoe { s.woe with floors := vset s.woe.floors (orderIndex k) floor })) := by
  rw [takeFloorSet, readPlaces_clean hc rfl]

theorem handFloor_put (k : OrderKind) (floor : Nat) (s : State) :
    handFloor k (s.setWoe { s.woe with floors := vset s.woe.floors (orderIndex k) floor }) =
      { s with
        rs := handAll [(.floor k, .floor floor)] s.rs,
        woe := { s.woe with floors := vset s.woe.floors (orderIndex k) floor } } := by
  rw [handFloor, State.setWoe, vget_vset_self]
  rfl

theorem policyFixed_iff (k : FaultKind) :
    policyFixed k = true ↔ k = .lockJam ∨ k = .storeDamaged := by
  cases k <;> simp [policyFixed]

theorem takePolicySet_fixed {tag : Nat} {k : FaultKind} {p : Policy} {s : State} (hc : Clean s)
    (h : policyFixed k = true) :
    takePolicySet tag k p s = reply .uplink .policySet tag .fixed .empty s := by
  rw [takePolicySet, readPlaces_clean hc rfl, if_pos h]

theorem takePolicySet_put {tag : Nat} {k : FaultKind} {p : Policy} {s : State} (hc : Clean s)
    (h : policyFixed k = false) :
    takePolicySet tag k p s =
      reply .uplink .policySet tag .done (.policyWas (policyOf k s))
        (handPolicy k
          (s.setFlt { s.flt with policies := vset s.flt.policies (faultIndex k) p })) := by
  rw [takePolicySet, readPlaces_clean hc rfl, if_neg (by simp [h])]

theorem handPolicy_put (k : FaultKind) (p : Policy) (s : State) :
    handPolicy k (s.setFlt { s.flt with policies := vset s.flt.policies (faultIndex k) p }) =
      { s with
        rs := handAll [(.policy k, .policy p)] s.rs,
        flt := { s.flt with policies := vset s.flt.policies (faultIndex k) p } } := by
  rw [handPolicy, State.setFlt, vget_vset_self]
  rfl

/-- Settles O43. -/
theorem tablesTakeTheirRows : Obligations.TablesTakeTheirRows := by
  intro tag s hc
  refine ⟨fun crew level mapLength permits hacc h0 h1 h2 h3 => ?load,
    fun crew hacc => ⟨fun i c hi hid hb => ?drop, fun hn => ?noSuch⟩,
    fun kind floor hacc hf => ?floor, fun kind policy hacc => ⟨fun hfix => ?fixed, fun hfix => ?policy⟩⟩
  case load =>
    have hform : crewInForm crew level permits = true := by simp [crewInForm, *]
    intro entry loads put
    refine ⟨fun i c hi hid hb => ?_, fun hn => ⟨fun i hi hb => ?_, fun hfull => ?_⟩⟩
    · exact crew_put_step hacc hform fun j =>
        takeCrewLoad_replaced (s := s.setPi j) hc (crewPlace_first (s := s.setPi j) hi hid hb)
    · exact crew_put_step hacc hform fun j =>
        takeCrewLoad_added (s := s.setPi j) hc (crewPlace_none (s := s.setPi j) hn)
          (freeCrewPlace_first (s := s.setPi j) hi hb)
    · exact crew_kept_step hacc hform fun j =>
        takeCrewLoad_full (s := s.setPi j) hc (crewPlace_none (s := s.setPi j) hn)
          (freeCrewPlace_none (s := s.setPi j) hfull)
  case drop =>
    exact crew_put_step hacc rfl fun j =>
      takeCrewDrop_dropped (s := s.setPi j) hc (crewPlace_first (s := s.setPi j) hi hid hb)
  case noSuch =>
    exact crew_kept_step hacc rfl fun j =>
      takeCrewDrop_noSuch (s := s.setPi j) hc (crewPlace_none (s := s.setPi j) hn)
  case floor =>
    exact request_hands (l := [(.floor kind, .floor floor)])
      (x := { s with
        rs := handAll [(.floor kind, .floor floor)] s.rs,
        woe := { s.woe with floors := vset s.woe.floors (orderIndex kind) floor } })
      hacc (by simpa using hf) (by simp) rfl fun i => by
        rw [takeFloorSet_eq (s := s.setPi i) hc, handFloor_put]
        rfl
  case fixed =>
    exact request_kept (x := s) hacc rfl rfl fun i =>
      takePolicySet_fixed (s := s.setPi i) hc ((policyFixed_iff kind).2 hfix)
  case policy =>
    exact request_hands (l := [(.policy kind, .policy policy)])
      (x := { s with
        rs := handAll [(.policy kind, .policy policy)] s.rs,
        flt := { s.flt with policies := vset s.flt.policies (faultIndex kind) policy } })
      hacc rfl (by simp) rfl fun i => by
        rw [takePolicySet_put (s := s.setPi i) hc
          (by simpa using mt (policyFixed_iff kind).1 hfix), handPolicy_put]
        rfl

end Sys2Proof.Machine
end

section
/-! Operations beside a request's own slot, and the submission, status and abort of work order lists
(R131 to R133, R136, R147, R148). -/

namespace Sys2Proof.Machine

/-! ### What an owner does beside the slot of its request -/

/-- An operation goes side by side with the slot a request takes: it does the same before the slot is taken
and after. -/
def BesideSlot (p : Port) (k : RequestKind) (tag : Nat) (f : State → State) (s : State) : Prop :=
  f (accepted p k tag s) = accepted p k tag (f s)

theorem accepted_pi {p : Port} {k : RequestKind} {tag : Nat} {s y : State} (h : y.pi = s.pi) :
    (accepted p k tag y).pi = (accepted p k tag s).pi := by
  cases p <;> simp [accepted, setPort, getPort, State.setPi, h]

/-- An operation that neither looks at the ports nor changes them. -/
theorem besideSlot_portless {p : Port} {k : RequestKind} {tag : Nat} {f : State → State} {s : State}
    (h : ∀ i, f (s.setPi i) = (f s).setPi i) : BesideSlot p k tag f s := by
  have hpi : (f s).pi = s.pi := by
    have hs := congrArg State.pi (h s.pi)
    exact hs
  unfold BesideSlot
  rw [accepted_frame, h, accepted_frame p k tag (f s), accepted_pi hpi]

theorem besideSlot_comp {p : Port} {k : RequestKind} {tag : Nat} {f g : State → State} {s : State}
    (hf : BesideSlot p k tag f s) (hg : BesideSlot p k tag g (f s)) :
    BesideSlot p k tag (fun s => g (f s)) s := by
  unfold BesideSlot at *
  dsimp only
  rw [hf, hg]

theorem putEvent_clear (e : EventKind) : putEvent e false .clear = .clear := by cases e <;> rfl

theorem besideSlot_setEvent (p q : Port) (k : RequestKind) (tag : Nat) (e : EventKind) (s : State) :
    BesideSlot p k tag (setEvent q e) s := by
  have hc := putEvent_clear e
  unfold BesideSlot
  cases p <;> cases q <;>
    simp only [accepted, setEvent, setPort, getPort, State.setPi, hc]

/-- A request answered in its own step, by what its owner makes of the part beside the slot. -/
theorem request_beside {p : Port} {k : RequestKind} {tag : Nat} {form : Bool} {take : State → State}
    {s y : State} {o : ReplyOutcome} {b : Body} (h : Accepts p k tag s) (hy : Accepts p k tag y)
    (hf : form = true) (hx : take (accepted p k tag s) = reply p k tag o b (accepted p k tag y)) :
    ∃ t, stepOf (slotRequest p k tag form take) s = .next t ∧ Replied p k tag o b y t
      ∧ t.rs = (endStep y).rs ∧ t = { y with pi := t.pi, rs := t.rs } := by
  subst hf
  obtain ⟨t, hstep, -, hrs, ht⟩ :=
    step_ends (f := slotRequest p k tag true take) (s := s)
      ((slotRequest_taken take h).trans hx)
  rw [reply_frame, accepted_frame] at hrs ht
  have hend : t = endStep (reply p k tag o b (accepted p k tag y)) := by
    rw [stepOf_eq, slotRequest_taken take h, hx] at hstep
    injection hstep with hstep
    exact hstep.symm
  exact ⟨t, hstep, hend ▸ replied hy rfl, by rw [hrs, endStep_rs, endStep_rs]; rfl, ht⟩

/-- A raising of a kind without a dock, in a store that reads clean (R153, R154). -/
theorem raise_dockless {r : Raising} {s : State} (hc : Clean s) (hd : r.dock = none) :
    raise r s =
      match policyOf r.kind s with
      | .ignore => s
      | .log => logFault r s
      | .logNotify => faultAlert (logFault r s)
      | .suspend => faultAlert (logFault r s) := by
  cases hp : policyOf r.kind s <;>
    simp only [raise_clean hc, watchRaising, raiseRead, fixedEntries, policyAction, enterRaising,
      suspendRaising, hd, hp]

theorem handFault_portless (n : Nat) (s : State) (i : PortInterface) :
    handFault n (s.setPi i) = (handFault n s).setPi i := by
  simp only [handFault, State.setPi]
  cases s.flt.log[n]? <;> rfl

theorem logFault_portless (r : Raising) (s : State) (i : PortInterface) :
    logFault r (s.setPi i) = (logFault r s).setPi i := by
  by_cases h : 32 ≤ s.flt.log.length
  · rw [logFault, logFault, if_pos (by exact h), if_pos h]
    rfl
  · rw [logFault, logFault, if_neg (by exact h), if_neg h]
    exact handFault_portless _ (handFaultHead (State.setFlt _ s)) i

theorem besideSlot_faultAlert (p : Port) (k : RequestKind) (tag : Nat) (s : State) :
    BesideSlot p k tag faultAlert s :=
  besideSlot_comp (f := setEvent .uplink .faultAlert) (g := setEvent .service .faultAlert)
    (besideSlot_setEvent _ _ _ _ _ _) (besideSlot_setEvent _ _ _ _ _ _)

theorem besideSlot_raise {p : Port} {k : RequestKind} {tag : Nat} {r : Raising} {s : State}
    (hc : Clean s) (hd : r.dock = none) : BesideSlot p k tag (raise r) s := by
  have hlog : BesideSlot p k tag (logFault r) s := besideSlot_portless (logFault_portless r s)
  have halert := besideSlot_comp hlog (besideSlot_faultAlert p k tag (logFault r s))
  have hpol : policyOf r.kind (accepted p k tag s) = policyOf r.kind s := by
    rw [accepted_frame]
    rfl
  unfold BesideSlot at *
  rw [raise_dockless (accepted_clean hc) hd, raise_dockless hc hd, hpol]
  cases policyOf r.kind s with
  | ignore => rfl
  | log => exact hlog
  | logNotify => exact halert
  | suspend => exact halert

/-- Beside the slots of the ports, an operation leaves the part's mode and the held tags. -/
def SlotsKept (s y : State) : Prop :=
  y.sc = s.sc ∧ ∀ p, heldTags (getPort p y) = heldTags (getPort p s)

theorem SlotsKept.trans {s x y : State} (h : SlotsKept s x) (h' : SlotsKept x y) : SlotsKept s y :=
  ⟨h'.1.trans h.1, fun p => (h'.2 p).trans (h.2 p)⟩

theorem slotsKept_of_pi {s y : State} (hsc : y.sc = s.sc) (hpi : y.pi = s.pi) : SlotsKept s y :=
  ⟨hsc, fun p => by rw [getPort_congr hpi p]⟩

theorem SlotsKept.accepts {s y : State} (h : SlotsKept s y) {p : Port} {k : RequestKind} {tag : Nat}
    (hacc : Accepts p k tag s) : Accepts p k tag y := by
  obtain ⟨hrun, hserved, htag, hheld, hroom⟩ := hacc
  exact ⟨by rw [running, h.1]; exact hrun, hserved, htag, by rw [h.2]; exact hheld,
    by rw [h.2]; exact hroom⟩

theorem slotsKept_setEvent (q : Port) (e : EventKind) (s : State) : SlotsKept s (setEvent q e s) :=
  ⟨by simp [setEvent], fun p => by
    rw [getPort_setEvent]
    split <;> rfl⟩

theorem slotsKept_faultAlert (s : State) : SlotsKept s (faultAlert s) :=
  (slotsKept_setEvent _ _ _).trans (slotsKept_setEvent _ _ _)

theorem handFault_sc (n : Nat) (s : State) : (handFault n s).sc = s.sc := by
  unfold handFault
  split <;> rfl

theorem logFault_sc (r : Raising) (s : State) : (logFault r s).sc = s.sc := by
  unfold logFault
  split
  · rfl
  · exact handFault_sc _ _

theorem slotsKept_logFault (r : Raising) (s : State) : SlotsKept s (logFault r s) :=
  slotsKept_of_pi (logFault_sc r s) (logFault_effect r s).1

theorem slotsKept_raise {r : Raising} {s : State} (hc : Clean s) (hd : r.dock = none) :
    SlotsKept s (raise r s) := by
  rw [raise_dockless hc hd]
  cases policyOf r.kind s with
  | ignore => exact slotsKept_of_pi rfl rfl
  | log => exact slotsKept_logFault r s
  | logNotify => exact (slotsKept_logFault r s).trans (slotsKept_faultAlert _)
  | suspend => exact (slotsKept_logFault r s).trans (slotsKept_faultAlert _)

end Sys2Proof.Machine
end

section
/-! The submission, status and abort of work order lists (R131 to R133, R136, R147, R148). -/

namespace Sys2Proof.Machine

/-! ### Crews and slots -/

theorem mem_toList_vget {α : Type} {n : Nat} (v : Vector α n) (a : α) :
    a ∈ v.toList ↔ ∃ i, vget v i = a := by
  rw [Vector.mem_toList_iff, Vector.mem_iff_getElem]
  exact ⟨fun ⟨i, hi, h⟩ => ⟨⟨i, hi⟩, h⟩, fun ⟨i, h⟩ => ⟨i.val, i.isLt, h⟩⟩

theorem crewOf_eq_none {id : Nat} {s : State} :
    crewOf id s = none ↔ ∀ i c, vget s.woe.crews i = some c → c.id ≠ id := by
  rw [crewOf, List.findSome?_eq_none_iff]
  constructor
  · intro h i c hi hid
    simpa [hid] using h (some c) ((mem_toList_vget _ _).2 ⟨i, hi⟩)
  · intro h a ha
    obtain ⟨i, rfl⟩ := (mem_toList_vget _ _).1 ha
    cases hv : vget s.woe.crews i with
    | none => rfl
    | some c => simp [h i c hv]

theorem crewOf_isNone_iff {id : Nat} {s : State} :
    (crewOf id s).isNone = true ↔ ¬∃ i c, vget s.woe.crews i = some c ∧ c.id = id := by
  rw [Option.isNone_iff_eq_none, crewOf_eq_none]
  simp

theorem anyActive_iff (s : State) :
    anyActive s = true ↔ ∃ i w, vget s.woe.slots i = some w
      ∧ (w.state = .running ∨ w.state = .waiting) := by
  rw [anyActive_eq, List.any_eq_true]
  constructor
  · rintro ⟨o, ho, hw⟩
    obtain ⟨i, hi⟩ := (mem_toList_vget _ _).1 ho
    cases o with
    | none => cases hw
    | some w => exact ⟨i, w, hi, of_decide_eq_true hw⟩
  · rintro ⟨i, w, hi, hw⟩
    exact ⟨some w, (mem_toList_vget _ _).2 ⟨i, hi⟩, decide_eq_true hw⟩

theorem startListJudged_nil {s : State} (h : s.woe.startList = []) : startListJudged s = s := by
  unfold startListJudged
  rw [h]

/-- A start list held back stays as it is (R131). -/
theorem startListJudged_held {s : State}
    (h : s.sc.mode = .starting ∨ ∃ i w, vget s.woe.slots i = some w
      ∧ (w.state = .running ∨ w.state = .waiting)) : startListJudged s = s := by
  unfold startListJudged
  cases s.woe.startList with
  | nil => rfl
  | cons i rest =>
    dsimp only
    rw [if_pos (by rwa [← anyActive_iff, anyActive_eq] at h)]

/-- The first slot of a start list that nothing holds back runs (R131). -/
theorem startListJudged_starts {s : State} {i : Fin 2} {rest : List (Fin 2)} {w : WorkSlot}
    (hl : s.woe.startList = i :: rest) (hi : vget s.woe.slots i = some w)
    (hm : s.sc.mode ≠ .starting)
    (ha : ¬∃ i w, vget s.woe.slots i = some w ∧ (w.state = .running ∨ w.state = .waiting)) :
    startListJudged s =
      { s with woe := { s.woe with
          startList := rest,
          slots := vset s.woe.slots i
            (some { w with state := .running, index := 0, startedAt := some (stationTime s) }) } } := by
  unfold startListJudged
  rw [hl]
  dsimp only
  rw [if_neg (by rw [← anyActive_eq, anyActive_iff]; exact not_or.2 ⟨hm, ha⟩), hi]

/-! ### ORDER_SUBMIT (R132, R133) -/

/-- A slot that takes a new list. -/
def OpenSlot (i : Fin 2) (s : State) : Prop :=
  vget s.woe.slots i = none
    ∨ ∃ w, vget s.woe.slots i = some w ∧ (w.state = .ended ∨ w.state = .aborted)

theorem slotOpen_iff (i : Fin 2) (s : State) : slotOpen i s = true ↔ OpenSlot i s := by
  unfold slotOpen OpenSlot slotOf
  cases vget s.woe.slots i <;> simp

theorem openSlot_none {s : State} (h : ∀ i, ¬OpenSlot i s) : openSlot s = none :=
  find_finList_none fun i => Bool.eq_false_iff.2 (mt (slotOpen_iff i s).1 (h i))

theorem openSlot_first {i : Fin 2} {s : State} (hi : OpenSlot i s) (hb : ∀ j < i, ¬OpenSlot j s) :
    openSlot s = some i :=
  find_finList ((slotOpen_iff i s).2 hi) fun j hj =>
    Bool.eq_false_iff.2 (mt (slotOpen_iff j s).1 (hb j hj))

theorem OpenSlot.idle {i : Fin 2} {s : State} (h : OpenSlot i s) {w : WorkSlot}
    (hw : vget s.woe.slots i = some w) : ¬(w.state = .running ∨ w.state = .waiting) := by
  rcases h with h | ⟨w', h, hst⟩
  · rw [h] at hw
    cases hw
  · rw [h] at hw
    cases hw
    rcases hst with hst | hst <;> simp [hst]

theorem orderFault_first {orders : List Order} {i : Fin 24} {o : Order}
    (hi : orders[i.val]? = some o) (hf : orderInForm orders.length o = false)
    (hb : ∀ (j : Fin 24) o, j < i → orders[j.val]? = some o →
      orderInForm orders.length o = true) : orderFault orders = some i.val := by
  have hlt : i.val < orders.length := (List.getElem?_eq_some_iff.1 hi).1
  have ho : orders[i.val] = o := (List.getElem?_eq_some_iff.1 hi).2
  have hne : orders.isEmpty = false := by
    cases orders with
    | nil => simp at hlt
    | cons a l => rfl
  have hfind : orders.findIdx? (fun o => !orderInForm orders.length o) = some i.val := by
    rw [List.findIdx?_eq_some_iff_getElem]
    refine ⟨hlt, by simp [ho, hf], fun j hj => ?_⟩
    have hj24 : j < 24 := Nat.lt_trans hj i.isLt
    have hform := hb ⟨j, hj24⟩ orders[j] hj (List.getElem?_eq_getElem (Nat.lt_trans hj hlt))
    simp [hform]
  rw [orderFault, hne, hfind]
  simp

theorem orderFault_none {orders : List Order} (h0 : 0 < orders.length) (h24 : orders.length ≤ 24)
    (h : ∀ o ∈ orders, orderInForm orders.length o = true) : orderFault orders = none := by
  have hne : orders.isEmpty = false := by
    cases orders with
    | nil => cases h0
    | cons a l => rfl
  have hfind : orders.findIdx? (fun o => !orderInForm orders.length o) = none := by
    rw [List.findIdx?_eq_none_iff]
    intro o ho
    simp [h o ho]
  rw [orderFault, hne, hfind]
  simp [Nat.not_lt.2 h24]

section
variable {tag crew : Nat} {orders : List Order} {s : State}

theorem takeOrderSubmit_unknown (hc : Clean s) (hn : (crewOf crew s).isNone = true) :
    takeOrderSubmit tag crew orders s = reply .service .orderSubmit tag .unknownCrew .empty s := by
  unfold takeOrderSubmit
  simp only [readCrews_clean hc, hn, if_true]

theorem takeOrderSubmit_bad {i : Nat} (hc : Clean s) (hn : (crewOf crew s).isNone = false)
    (hf : orderFault orders = some i) :
    takeOrderSubmit tag crew orders s =
      reply .service .orderSubmit tag .badOrder (.index i) s := by
  unfold takeOrderSubmit
  simp only [readCrews_clean hc, hn, hf, Bool.false_eq_true, if_false]

theorem takeOrderSubmit_full (hc : Clean s) (hn : (crewOf crew s).isNone = false)
    (hf : orderFault orders = none) (ho : openSlot s = none) :
    takeOrderSubmit tag crew orders s = reply .service .orderSubmit tag .slotsFull .empty s := by
  unfold takeOrderSubmit
  simp only [readCrews_clean hc, hn, hf, ho, Bool.false_eq_true, if_false]

theorem takeOrderSubmit_placed {i : Fin 2} (hc : Clean s) (hn : (crewOf crew s).isNone = false)
    (hf : orderFault orders = none) (ho : openSlot s = some i) :
    takeOrderSubmit tag crew orders s =
      reply .service .orderSubmit tag .submitted
        (.submitted i (submitState i (placeList i crew orders s))) (placeList i crew orders s) := by
  unfold takeOrderSubmit
  simp only [readCrews_clean hc, hn, hf, ho, Bool.false_eq_true, if_false]

end

/-- A list placed where nothing holds it back runs at once (R133). -/
theorem placeList_starts {i : Fin 2} {crew : Nat} {orders : List Order} {s : State}
    (hl : s.woe.startList = []) (hm : s.sc.mode ≠ .starting)
    (ha : ¬∃ i w, vget s.woe.slots i = some w ∧ (w.state = .running ∨ w.state = .waiting)) :
    placeList i crew orders s =
      { s with woe := { s.woe with
          slots := vset s.woe.slots i (some
            { submittedSlot crew orders s with
              state := .running, startedAt := some (stationTime s) }) } } := by
  have hact : ¬∃ j w, vget (vset s.woe.slots i (some (submittedSlot crew orders s))) j = some w
      ∧ (w.state = .running ∨ w.state = .waiting) := by
    rintro ⟨j, w, hj, hw⟩
    rw [vget_vset] at hj
    split at hj
    · injection hj with hj
      subst hj
      simp [submittedSlot] at hw
    · exact ha ⟨j, w, hj, hw⟩
  have hjudged := startListJudged_starts (i := i) (rest := [])
    (s := { s with woe := { s.woe with
      slots := vset s.woe.slots i (some (submittedSlot crew orders s)), startList := [i] } })
    rfl (vget_vset_self _ _ _) hm hact
  have hstart : s.woe.startList ++ [i] = [i] := by rw [hl, List.nil_append]
  unfold placeList
  rw [judgeStart_judged]
  dsimp only [setSlot, State.setWoe]
  rw [hstart, hjudged]
  dsimp only
  rw [vset_vset, ← hl]
  rfl

/-- A list placed behind the survey or behind the other slot stays QUEUED (R133). -/
theorem placeList_queued {i : Fin 2} {crew : Nat} {orders : List Order} {s : State}
    (hi : OpenSlot i s)
    (h : (∃ i w, vget s.woe.slots i = some w ∧ (w.state = .running ∨ w.state = .waiting))
      ∨ s.sc.mode = .starting) :
    placeList i crew orders s =
      { s with woe := { s.woe with
          slots := vset s.woe.slots i (some (submittedSlot crew orders s)),
          startList := s.woe.startList ++ [i] } } := by
  unfold placeList
  rw [judgeStart_judged, startListJudged_held]
  · rfl
  · rcases h with ⟨j, w, hj, hw⟩ | h
    · have hne : i ≠ j := fun e => hi.idle (e ▸ hj) hw
      exact .inr ⟨j, w, (vget_vset_ne _ _ hne).trans hj, hw⟩
    · exact .inl h

/-- Settles O44. -/
theorem submittedListsTakeASlot : Obligations.SubmittedListsTakeASlot := by
  intro tag crew orders s hacc hc known isOpen active answered
  refine ⟨fun hk => ?_, fun hk => ?_⟩
  · exact request_kept (x := s) hacc rfl rfl fun j =>
      takeOrderSubmit_unknown (s := s.setPi j) hc (crewOf_isNone_iff.2 hk)
  have hn : (crewOf crew s).isNone = false :=
    Bool.eq_false_iff.2 fun h => crewOf_isNone_iff.1 h hk
  refine ⟨fun i o hi hf hb => ?_, fun h0 h24 hform => ⟨fun hfull => ?_, fun i hi hb => ?_⟩⟩
  · exact request_kept (x := s) hacc rfl rfl fun j =>
      takeOrderSubmit_bad (s := s.setPi j) hc hn (orderFault_first hi hf hb)
  · exact request_kept (x := s) hacc rfl rfl fun j =>
      takeOrderSubmit_full (s := s.setPi j) hc hn (orderFault_none h0 h24 hform)
        (openSlot_none (s := s.setPi j) hfull)
  have hplaced := fun j => takeOrderSubmit_placed (tag := tag) (s := s.setPi j) hc hn
    (orderFault_none h0 h24 hform) (openSlot_first (s := s.setPi j) hi hb)
  refine ⟨fun hl ha hm => ?_, fun hwait => ?_⟩
  · refine request_kept (x := { s with woe := { s.woe with
      slots := vset s.woe.slots i (some
        { submittedSlot crew orders s with
          state := .running, startedAt := some (stationTime s) }) } }) hacc rfl rfl fun j => ?_
    rw [hplaced j, placeList_starts (s := s.setPi j) hl hm ha]
    simp only [submitState, slotOf, vget_vset_self]
    rfl
  · refine request_kept (x := { s with woe := { s.woe with
      slots := vset s.woe.slots i (some (submittedSlot crew orders s)),
      startList := s.woe.startList ++ [i] } }) hacc rfl rfl fun j => ?_
    rw [hplaced j, placeList_queued (s := s.setPi j) hi hwait]
    simp only [submitState, slotOf, vget_vset_self]
    rfl

/-! ### ORDER_STATUS and ORDER_ABORT (R136, R147, R148) -/

theorem workSlot_val (i : Fin 2) : workSlot i.val = i :=
  Fin.ext (Nat.mod_eq_of_lt i.isLt)

theorem slotInForm_val (i : Fin 2) : decide (i.val ≤ 1) = true :=
  decide_eq_true (Nat.le_of_lt_succ i.isLt)

theorem takeOrderStatus_eq (tag : Nat) (i : Fin 2) (s : State) :
    takeOrderStatus tag i.val s =
      reply .service .orderStatus tag .done
        (.slotStatus ((vget s.woe.slots i).map (slotView i s))) s := by
  rw [takeOrderStatus, workSlot_val]
  rfl

theorem mayAbort_iff (crew : Nat) (i : Fin 2) (s : State) :
    mayAbort crew i s = true ↔ (∃ w, vget s.woe.slots i = some w ∧ w.crew = crew)
      ∨ ∃ c, crewOf crew s = some c ∧ c.level = 0 := by
  rw [mayAbort, Bool.or_eq_true, supervisor_iff, slotOf]
  cases vget s.woe.slots i <;> simp

theorem abortQueued_raised (i : Fin 2) (w : WorkSlot) (s : State) :
    abortQueued i w s =
      abortRaised i { w with index := 0 } .requested (leftOutstanding w)
        (slotPut i
          { w with
            index := 0, state := .aborted, abort := some (.requested, 0),
            endedAt := some (stationTime s) }
          { s with woe := { s.woe with
              startList := s.woe.startList.filter fun j => decide (j ≠ i) } }) := rfl

theorem slotsKept_abortRaised (i : Fin 2) (w : WorkSlot) (reason : AbortReason) (left : Nat)
    {s : State} (hc : Clean s) : SlotsKept s (abortRaised i w reason left s) :=
  slotsKept_raise hc rfl

theorem besideSlot_abortRaised {p : Port} {k : RequestKind} {tag : Nat} (i : Fin 2) (w : WorkSlot)
    (reason : AbortReason) (left : Nat) {s : State} (hc : Clean s) :
    BesideSlot p k tag (abortRaised i w reason left) s :=
  besideSlot_raise hc rfl

theorem slotsKept_slotPut (i : Fin 2) (w : WorkSlot) (s : State) : SlotsKept s (slotPut i w s) :=
  slotsKept_of_pi rfl rfl

theorem slotsKept_startListJudged (s : State) : SlotsKept s (startListJudged s) :=
  slotsKept_of_pi (by rw [startListJudged_frame]; rfl) (by rw [startListJudged_frame]; rfl)

theorem slotsKept_abortQueued (i : Fin 2) (w : WorkSlot) {s : State} (hc : Clean s) :
    SlotsKept s (abortQueued i w s) := by
  have hput : SlotsKept s (s.setWoe { s.woe with
      startList := s.woe.startList.filter fun j => decide (j ≠ i) }) := slotsKept_of_pi rfl rfl
  rw [abortQueued_raised]
  exact (hput.trans (slotsKept_slotPut i _ _)).trans (slotsKept_abortRaised i _ _ _ (by exact hc))

section
variable {tag crew : Nat} {i : Fin 2} {s : State}

theorem takeOrderAbort_refused (hc : Clean s) (h : mayAbort crew i s = false) :
    takeOrderAbort tag i.val crew s =
      reply .service .orderAbort tag .notPermitted .empty s := by
  unfold takeOrderAbort
  rw [workSlot_val, readCrews_clean hc]
  simp only [h, Bool.not_false, if_true]

theorem takeOrderAbort_notActive (hc : Clean s) (h : mayAbort crew i s = true)
    (hw : ∀ w, vget s.woe.slots i = some w → w.state = .ended ∨ w.state = .aborted) :
    takeOrderAbort tag i.val crew s = reply .service .orderAbort tag .notActive .empty s := by
  unfold takeOrderAbort
  rw [workSlot_val, readCrews_clean hc]
  simp only [h, Bool.not_true, Bool.false_eq_true, if_false, slotOf]
  cases hv : vget s.woe.slots i with
  | none => rfl
  | some w => rcases hw w hv with hst | hst <;> simp only [hst]

theorem takeOrderAbort_active {w : WorkSlot} (hc : Clean s) (h : mayAbort crew i s = true)
    (hv : vget s.woe.slots i = some w) (hst : w.state = .running ∨ w.state = .waiting) :
    takeOrderAbort tag i.val crew s =
      reply .service .orderAbort tag .aborted .empty (abortActive i w .requested s) := by
  unfold takeOrderAbort
  rw [workSlot_val, readCrews_clean hc]
  simp only [h, Bool.not_true, Bool.false_eq_true, if_false, slotOf, hv]
  rcases hst with hst | hst <;> simp only [hst]

theorem takeOrderAbort_queued {w : WorkSlot} (hc : Clean s) (h : mayAbort crew i s = true)
    (hv : vget s.woe.slots i = some w) (hst : w.state = .queued) :
    takeOrderAbort tag i.val crew s =
      reply .service .orderAbort tag .aborted .empty (abortQueued i w s) := by
  unfold takeOrderAbort
  rw [workSlot_val, readCrews_clean hc]
  simp only [h, Bool.not_true, Bool.false_eq_true, if_false, slotOf, hv, hst]

end

theorem besideSlot_abortActive {p : Port} {k : RequestKind} {tag : Nat} (i : Fin 2) (w : WorkSlot)
    (reason : AbortReason) {s : State} (hc : Clean s) :
    BesideSlot p k tag (abortActive i w reason) s := by
  have hput : BesideSlot p k tag (slotPut i { w with
      results := w.results ++ cutResult w, state := .aborted, abort := some (reason, w.index),
      endedAt := some (stationTime s), progress := none }) s := besideSlot_portless fun _ => rfl
  have hraise := besideSlot_comp hput
    (besideSlot_abortRaised i w reason (leftOutstanding w) (by exact hc))
  have hjudge := besideSlot_comp hraise
    (besideSlot_portless fun j => startListJudged_ports j _)
  have htime : stationTime (accepted p k tag s) = stationTime s := by
    rw [accepted_frame]
    rfl
  unfold BesideSlot at *
  rw [abortActive_judged, abortActive_judged, htime]
  exact hjudge

theorem besideSlot_abortQueued {p : Port} {k : RequestKind} {tag : Nat} (i : Fin 2) (w : WorkSlot)
    {s : State} (hc : Clean s) : BesideSlot p k tag (abortQueued i w) s := by
  have hput : BesideSlot p k tag (fun x => slotPut i
      { w with
        index := 0, state := .aborted, abort := some (.requested, 0),
        endedAt := some (stationTime x) }
      { x with woe := { x.woe with
          startList := x.woe.startList.filter fun j => decide (j ≠ i) } }) s :=
    besideSlot_portless fun _ => rfl
  exact besideSlot_comp (g := abortRaised i { w with index := 0 } .requested (leftOutstanding w)) hput
    (besideSlot_abortRaised i { w with index := 0 } .requested (leftOutstanding w) (by exact hc))

/-- An abort, as the step of its request. -/
theorem orderAbort_step {tag crew : Nat} {i : Fin 2} {s y : State} {f : State → State}
    (hacc : Accepts .service .orderAbort tag s) (hkept : SlotsKept s y) (hf : f s = y)
    (hbeside : BesideSlot .service .orderAbort tag f s)
    (hx : ∀ j, takeOrderAbort tag i.val crew (s.setPi j) =
      reply .service .orderAbort tag .aborted .empty (f (s.setPi j))) :
    ∃ t, exec (.orderAbort tag i.val crew) s = .next t
      ∧ Replied .service .orderAbort tag .aborted .empty y t ∧ StoreKept y t
      ∧ t = { y with pi := t.pi, rs := t.rs } := by
  subst hf
  obtain ⟨t, hstep, hreply, hrs, ht⟩ :=
    request_beside (take := takeOrderAbort tag i.val crew) (o := .aborted) (b := .empty)
      hacc (hkept.accepts hacc) (slotInForm_val i)
      (by rw [← hbeside, accepted_frame]; exact hx _)
  exact ⟨t, hstep, hreply, kept_of_rs hrs rfl, ht⟩

/-- The abort of an active slot, as the step of its request. -/
theorem orderAbort_active {tag crew : Nat} {i : Fin 2} {w : WorkSlot} {s : State}
    (hacc : Accepts .service .orderAbort tag s) (hc : Clean s) (h : mayAbort crew i s = true)
    (hv : vget s.woe.slots i = some w) (hst : w.state = .running ∨ w.state = .waiting)
    {y : State} (hy : abortActive i w .requested s = y) :
    ∃ t, exec (.orderAbort tag i.val crew) s = .next t
      ∧ Replied .service .orderAbort tag .aborted .empty y t ∧ StoreKept y t
      ∧ t = { y with pi := t.pi, rs := t.rs } := by
  have hkept : SlotsKept s y := by
    rw [← hy, abortActive_judged]
    exact ((slotsKept_slotPut i _ s).trans
      (slotsKept_abortRaised i w .requested (leftOutstanding w) (by exact hc))).trans
        (slotsKept_startListJudged _)
  exact orderAbort_step hacc hkept hy (besideSlot_abortActive i w .requested hc) fun j =>
    takeOrderAbort_active (s := s.setPi j) hc h hv hst

/-- The abort of an active slot, by its cut order and its outstanding releases. -/
theorem abortActive_cut {i : Fin 2} {w : WorkSlot} {reason : AbortReason} {s : State}
    {cut : List OrderResult} (hcut : cutResult w = cut) {left : Nat} (hleft : leftOutstanding w = left) :
    abortActive i w reason s =
      startListJudged (abortRaised i w reason left (slotPut i
        { w with
          state := .aborted, results := w.results ++ cut, abort := some (reason, w.index),
          endedAt := some (stationTime s), progress := none } s)) := by
  rw [abortActive_judged, hcut, hleft]

/-- Settles O45. -/
theorem slotsAreShownAndAborted : Obligations.SlotsAreShownAndAborted := by
  intro tag i s
  refine ⟨fun hacc => ?_, fun crew hacc hc => ?_⟩
  · obtain ⟨t, hstep, hreply, hstore, ht⟩ := request_kept (x := s)
      (take := takeOrderStatus tag i.val) (o := .done)
      (b := .slotStatus ((vget s.woe.slots i).map (slotView i s))) hacc (slotInForm_val i) rfl
      fun j => takeOrderStatus_eq tag i (s.setPi j)
    refine ⟨t, _, hstep, hreply, hstore, ht, fun hv => by rw [hv]; rfl, fun w hw => ?_⟩
    rw [hw]
    rfl
  intro own chief answered
  refine ⟨fun hown hchief => ?_, fun hmay => ?_⟩
  · have h : mayAbort crew i s = false :=
      Bool.eq_false_iff.2 fun h => (mayAbort_iff crew i s).1 h |>.elim hown hchief
    exact request_kept (x := s) hacc (slotInForm_val i) rfl fun j =>
      takeOrderAbort_refused (s := s.setPi j) hc h
  have h : mayAbort crew i s = true := (mayAbort_iff crew i s).2 hmay
  refine ⟨fun hw => ?_, fun w hv => ?_⟩
  · exact request_kept (x := s) hacc (slotInForm_val i) rfl fun j =>
      takeOrderAbort_notActive (s := s.setPi j) hc h hw
  intro leaves cuts
  refine ⟨fun hst hp => ?_, fun l taken ended stopped hst hp => ?_,
    fun placed deadline hst hp => ?_, fun hst hp => ?_⟩
  · exact orderAbort_active hacc hc h hv (.inl hst)
      (abortActive_cut (by rw [cutResult, hp]) (by rw [leftOutstanding, hp]))
  · exact orderAbort_active hacc hc h hv (.inr hst)
      (abortActive_cut (by rw [cutResult, hp]) (by rw [leftOutstanding, hp]))
  · exact orderAbort_active hacc hc h hv (.inr hst)
      (abortActive_cut (by rw [cutResult, hp]) (by rw [leftOutstanding, hp]))
  · have hraised := abortQueued_raised i w s
    rw [show leftOutstanding w = 0 by rw [leftOutstanding, hp]] at hraised
    exact orderAbort_step hacc (hraised ▸ slotsKept_abortQueued i w hc)
      hraised (besideSlot_abortQueued i w hc) fun j =>
        takeOrderAbort_queued (s := s.setPi j) hc h hv hst

end Sys2Proof.Machine
end

section
/-! The bike flag registry (R163 to R166). -/

namespace Sys2Proof.Machine

/-! ### Entries (R164) -/

theorem flagOutcome_present {bike : Nat} {s : State} {e : FlagEntry}
    (h : s.flt.registry.find? (fun e => decide (e.bike = bike)) = some e) :
    flagOutcome bike s = .present e := by
  rw [flagOutcome, flagOf, h]

theorem flagOutcome_entered {bike : Nat} {s : State} (h : ∀ e ∈ s.flt.registry, e.bike ≠ bike)
    (hl : s.flt.registry.length < 64) : flagOutcome bike s = .entered := by
  have hf : flagOf bike s = none := List.find?_eq_none.2 fun e he => by simp [h e he]
  simp only [flagOutcome, hf, if_pos hl]

theorem handFlag_last (e : FlagEntry) (l : List FlagEntry) (s : State) :
    handFlag l.length (handRegistryHead (s.setFlt { s.flt with registry := l ++ [e] })) =
      { s with
        flt := { s.flt with registry := l ++ [e] },
        rs := handAll
          (bothCopies .registryHead (.registryHead (l.length + 1))
            ++ [(.flag (flagPlace l.length), .flag (some e))]) s.rs } := by
  have he : (l ++ [e])[l.length]? = some e := by simp
  have hl : (l ++ [e]).length = l.length + 1 := by simp
  unfold handFlag handRegistryHead handBoth
  simp only [State.setFlt, hand, State.setRs, he, hl]
  rfl

theorem enterFlag_present {bike : Nat} {origin : FlagOrigin} {s : State}
    (h : ∃ e ∈ s.flt.registry, e.bike = bike) : enterFlag bike origin s = s := by
  obtain ⟨e, he, hb⟩ := h
  cases hf : s.flt.registry.find? fun e => decide (e.bike = bike) with
  | some e => rw [enterFlag, flagOutcome_present hf]
  | none => exact absurd hb (by simpa using List.find?_eq_none.1 hf e he)

/-- The part with an entry appended to the registry. -/
def flagAppended (bike : Nat) (origin : FlagOrigin) (s : State) : State :=
  let e : FlagEntry := { bike := bike, origin := origin, time := stationTime s }
  { s with
    flt := { s.flt with registry := s.flt.registry ++ [e] },
    rs := handAll
      (bothCopies .registryHead (.registryHead (s.flt.registry.length + 1))
        ++ [(.flag (flagPlace s.flt.registry.length), .flag (some e))]) s.rs }

theorem enterFlag_entered {bike : Nat} {origin : FlagOrigin} {s : State}
    (h : ∀ e ∈ s.flt.registry, e.bike ≠ bike) (hl : s.flt.registry.length < 64) :
    enterFlag bike origin s = flagAppended bike origin s := by
  rw [enterFlag, flagOutcome_entered h hl]
  exact handFlag_last _ _ s

theorem enterFlag_full {bike : Nat} {origin : FlagOrigin} {s : State}
    (h : ∀ e ∈ s.flt.registry, e.bike ≠ bike) (hl : 64 ≤ s.flt.registry.length) :
    enterFlag bike origin s =
      if automaticOrigin origin then loseRecord .bike (readFaultHead s) else s := by
  rw [enterFlag, flagOutcome_full.2 ⟨h, hl⟩]

theorem bikeLost_eq (s : State) :
    loseRecord .bike s =
      { s with
        flt := { s.flt with lost := { s.flt.lost with bike := true } },
        rs := handAll
          (bothCopies .faultHead (.faultHead
            { nextSeq := s.flt.nextSeq, oldest := s.flt.oldestPlace, count := s.flt.log.length,
              lost := { s.flt.lost with bike := true } })) s.rs } := rfl

/-! ### BIKE_FLAG (R165) -/

theorem bikeInForm_of {bike : Nat} (h0 : 0 < bike) (h1 : bike ≤ 4294967295) :
    bikeInForm bike = true := decide_eq_true ⟨h0, h1⟩

section
variable {tag bike : Nat} {s : State}

theorem takeBikeFlag_present {e : FlagEntry} (hc : Clean s)
    (h : s.flt.registry.find? (fun e => decide (e.bike = bike)) = some e) :
    takeBikeFlag tag bike s =
      reply .uplink .bikeFlag tag .present (.flagKept e.origin e.time) s := by
  simp only [takeBikeFlag, readRegistry_clean hc, flagOutcome_present h]

theorem takeBikeFlag_full (hc : Clean s) (h : ∀ e ∈ s.flt.registry, e.bike ≠ bike)
    (hl : 64 ≤ s.flt.registry.length) :
    takeBikeFlag tag bike s = reply .uplink .bikeFlag tag .registryFull .empty s := by
  simp only [takeBikeFlag, readRegistry_clean hc, flagOutcome_full.2 ⟨h, hl⟩]

theorem takeBikeFlag_entered (hc : Clean s) (h : ∀ e ∈ s.flt.registry, e.bike ≠ bike)
    (hl : s.flt.registry.length < 64) :
    takeBikeFlag tag bike s =
      reply .uplink .bikeFlag tag .entered .empty (enterFlag bike .uplink s) := by
  simp only [takeBikeFlag, readRegistry_clean hc, flagOutcome_entered h hl]

/-! ### BIKE_CLEAR (R163, R165) -/

theorem findIdx_entry {a b : List FlagEntry} {e : FlagEntry} (he : e.bike = bike)
    (ha : ∀ x ∈ a, x.bike ≠ bike) :
    (a ++ e :: b).findIdx? (fun e => decide (e.bike = bike)) = some a.length := by
  rw [List.findIdx?_append, List.findIdx?_eq_none_iff.2 fun x hx => by simp [ha x hx],
    List.findIdx?_cons]
  simp [he]

theorem clearFlag_removed {a b : List FlagEntry} {e : FlagEntry} (h : s.flt.registry = a ++ e :: b)
    (he : e.bike = bike) (ha : ∀ x ∈ a, x.bike ≠ bike) :
    clearFlag bike s = removeFlag a.length s := by
  rw [clearFlag, h, findIdx_entry he ha]

theorem clearFlag_absent (h : ∀ e ∈ s.flt.registry, e.bike ≠ bike) : clearFlag bike s = s := by
  rw [clearFlag, List.findIdx?_eq_none_iff.2 fun x hx => by simp [h x hx]]

theorem flagged_of_mem {e : FlagEntry} (h : e ∈ s.flt.registry) (he : e.bike = bike) :
    flagged bike s = true := by
  cases hf : flagged bike s with
  | true => rfl
  | false => exact absurd he ((flagged_iff bike s).1 hf e h)

/-- The dock whose record names a bike, as R41 finds it. -/
def NamesBike (bike : Nat) (named : Option DockNo) (s : State) : Prop :=
  (∀ d, named = some d → (dockOf d s).bike.map Bike.id = some bike
    ∧ ∀ e < d, (dockOf e s).bike.map Bike.id ≠ some bike)
  ∧ (named = none → ∀ d, (dockOf d s).bike.map Bike.id ≠ some bike)

theorem dockNaming_eq {named : Option DockNo} (h0 : 0 < bike) (h : NamesBike bike named s) :
    dockNaming bike s = named := by
  rw [dockNaming, if_neg (Nat.ne_of_gt h0)]
  cases named with
  | none => exact List.find?_eq_none.2 fun d _ => by simpa using h.2 rfl d
  | some d =>
    obtain ⟨hd, hb⟩ := h.1 d rfl
    exact firstDock (decide_eq_true hd) fun e he => decide_eq_false (hb e he)

/-- The lines with a MARK clear placed at the dock that names a bike. -/
def markPlaced (named : Option DockNo) (s : State) : Vector LineState 48 :=
  match named with
  | some d =>
    vset s.dlc.lines d { lineOf d s with waiting := placeIn (.mark false) (lineOf d s).waiting }
  | none => s.dlc.lines

theorem takeBikeClear_eq {named : Option DockNo} (hc : Clean s)
    (hn : dockNaming bike (clearFlag bike s) = named) :
    takeBikeClear tag bike s =
      reply .uplink .bikeClear tag (if flagged bike s then .removed else .notPresent) (.dock named)
        ((clearFlag bike s).setDlc
          { (clearFlag bike s).dlc with lines := markPlaced named (clearFlag bike s) }) := by
  subst hn
  simp only [takeBikeClear, readRegistry_clean hc]
  cases dockNaming bike (clearFlag bike s) <;> rfl

/-! ### BIKE_FLAG_READ (R166) -/

theorem takeBikeFlagRead_eq {p : Port} {start n : Nat} (hc : Clean s) :
    takeBikeFlagRead p tag start n s =
      reply p .bikeFlagRead tag .done
        (.flags ((s.flt.registry.drop start).take n) s.flt.registry.length) s := by
  have hplaces : ((List.range ((s.flt.registry.drop start).take n).length).map
      fun i => Place.flag (flagPlace (start + i))).all unsequenced = true := by
    simp [unsequenced]
  have hkept : ((s.flt.registry.drop start).take n).filter
      (fun e => s.flt.registry.contains e) = (s.flt.registry.drop start).take n :=
    List.filter_eq_self.2 fun e he => List.contains_iff_mem.2
      (List.mem_of_mem_drop (List.mem_of_mem_take he))
  unfold takeBikeFlagRead
  rw [readPlaces_clean hc rfl]
  dsimp only
  rw [readPlaces_clean hc hplaces, hkept]

end

/-- Settles O49. -/
theorem bikeFlagsAreKept : Obligations.BikeFlagsAreKept := by
  intro tag s hc
  refine ⟨fun bike hacc h0 h1 => ?flag, fun bike named hacc h0 h1 hd hn => ?clear,
    fun p start n hacc hs hn => ?read, fun bike origin => ?entry⟩
  case flag =>
    intro registry flags
    refine ⟨fun e he => ?_, fun hno => ⟨fun hl => ?_, fun hl => ?_⟩⟩
    · exact request_hands_or_kept (l := []) (x := s) hacc (bikeInForm_of h0 h1) rfl fun j =>
        takeBikeFlag_present (s := s.setPi j) hc he
    · exact request_hands_or_kept (l := []) (x := s) hacc (bikeInForm_of h0 h1) rfl fun j =>
        takeBikeFlag_full (s := s.setPi j) hc hno hl
    · refine request_hands_or_kept (x := flagAppended bike .uplink s) hacc (bikeInForm_of h0 h1)
        rfl fun j => ?_
      rw [takeBikeFlag_entered (s := s.setPi j) hc hno hl,
        enterFlag_entered (s := s.setPi j) hno hl]
      rfl
  case clear =>
    intro lines clears
    have hnaming : ∀ y : State, y.dlc = s.dlc → dockNaming bike y = named := fun y hy =>
      dockNaming_eq (s := y) h0 ⟨fun d e => by rw [dockOf, hy]; simpa only [dockOf, hy] using hd d e,
        fun e d => by rw [dockOf, hy]; exact hn e d⟩
    refine ⟨fun hno => ?_, fun a e b hreg he ha => ?_⟩
    · refine request_hands_or_kept (l := [])
        (x := s.setDlc { s.dlc with lines := markPlaced named s }) hacc (bikeInForm_of h0 h1) rfl
        fun j => ?_
      have hclear : clearFlag bike (s.setPi j) = s.setPi j := clearFlag_absent hno
      have hflag : flagged bike (s.setPi j) = false := (flagged_iff bike _).2 hno
      rw [takeBikeClear_eq (s := s.setPi j) hc (hnaming _ (by rw [hclear]; rfl)), hclear, hflag]
      rfl
    · have hremoved := fun y (hy : y.flt.registry = a ++ e :: b) =>
        (clearFlag_removed hy he ha).trans (removed_flag y a b e hy)
      refine request_hands_or_kept
        (x := { s with
          flt := { s.flt with registry := a ++ b },
          dlc := { s.dlc with lines := markPlaced named s },
          rs := handAll
            (bothCopies .registryHead (.registryHead (a ++ b).length)
              ++ (List.range (b.length + 1)).map fun k =>
                (.flag (flagPlace (a.length + k)), .flag (a ++ b)[a.length + k]?)) s.rs })
        hacc (bikeInForm_of h0 h1) rfl fun j => ?_
      have hclear := hremoved (s.setPi j) hreg
      have hflag : flagged bike (s.setPi j) = true :=
        flagged_of_mem (e := e) (by exact hreg ▸ List.mem_append_right a List.mem_cons_self) he
      rw [takeBikeClear_eq (s := s.setPi j) hc (hnaming _ (by rw [hclear]; rfl)), hclear, hflag]
      rfl
  case read =>
    exact request_kept (x := s) hacc (decide_eq_true ⟨hs, hn⟩) rfl fun j =>
      takeBikeFlagRead_eq (s := s.setPi j) hc
  case entry =>
    intro registry e lost
    refine ⟨enterFlag_present, fun hno => ⟨enterFlag_entered hno, fun hl => ⟨fun ho => ?_, fun ho => ?_⟩⟩⟩
    · rw [enterFlag_full hno hl]
      rcases ho with rfl | rfl <;> rfl
    · rw [enterFlag_full hno hl, readFaultHead_clean hc]
      rcases ho with rfl | rfl | rfl <;> exact bikeLost_eq s

end Sys2Proof.Machine
end

section
/-! The watches: their requests, and the dock events that hit them (R167 to R170). -/

namespace Sys2Proof.Machine

/-! ### Folds over the slots -/

/-- A vector whose entries are mapped at the places of a list, by a map that does nothing twice. -/
theorem vget_foldl_vset {α : Type} {n : Nat} {g : α → α} (hg : ∀ a, g (g a) = g a) (l : List (Fin n))
    (v : Vector α n) (i : Fin n) :
    vget (l.foldl (fun v j => vset v j (g (vget v j))) v) i =
      if i ∈ l then g (vget v i) else vget v i := by
  induction l generalizing v with
  | nil => simp
  | cons j l ih =>
    rw [List.foldl_cons, ih, vget_vset]
    by_cases hj : j = i
    · subst hj
      by_cases hm : j ∈ l <;> simp [hm, hg]
    · have hne : i ≠ j := fun h => hj h.symm
      simp [hj, hne]

/-! ### Dock events (R168) -/

/-- A watch after a dock event. -/
def watchHitBy (c : WatchCond) (d : DockNo) (w : Watch) : Watch :=
  { w with hit := w.hit || watchMatches w c d }

theorem watchHitBy_twice (c : WatchCond) (d : DockNo) (o : Option Watch) :
    (o.map (watchHitBy c d)).map (watchHitBy c d) = o.map (watchHitBy c d) := by
  cases o with
  | none => rfl
  | some w =>
    have hm : watchMatches (watchHitBy c d w) c d = watchMatches w c d := rfl
    simp only [Option.map_some, watchHitBy, Bool.or_assoc]
    congr 2
    rw [show watchMatches { w with hit := w.hit || watchMatches w c d } c d = watchMatches w c d
      from hm, Bool.or_self]

/-- Whether a dock event at a slot rings a port. -/
def slotRings (c : WatchCond) (d : DockNo) (p : Port) (o : Option Watch) : Bool :=
  o.any fun w => watchMatches w c d && w.enabled && decide (w.owner = p)

theorem slotRings_hit (c : WatchCond) (d : DockNo) (p : Port) (o : Option Watch) :
    slotRings c d p (o.map (watchHitBy c d)) = slotRings c d p o := by
  cases o <;> rfl

/-- A port with its WATCH_HIT notice set, where it is rung. -/
def portRung (b : Bool) (q : PortState) : PortState :=
  { q with
    events := { q.events with watchHit := q.events.watchHit || b },
    reported := { q.reported with watchHit := q.reported.watchHit && !b } }

theorem portRung_false (q : PortState) : portRung false q = q := by
  simp [portRung]

theorem portRung_portRung (a b : Bool) (q : PortState) :
    portRung b (portRung a q) = portRung (a || b) q := by
  simp [portRung, Bool.or_assoc, Bool.and_assoc]

theorem matchWatch_watches (c : WatchCond) (d : DockNo) (i : Fin 4) (s : State) :
    (matchWatch c d s i).flt =
      { s.flt with
        watches := vset s.flt.watches i ((vget s.flt.watches i).map (watchHitBy c d)) } := by
  unfold matchWatch
  cases hv : vget s.flt.watches i with
  | none =>
    dsimp only [Option.map_none]
    rw [← hv, vset_self]
  | some w =>
    dsimp only [Option.map_some, watchHitBy]
    cases hm : watchMatches w c d with
    | true =>
      rw [if_pos rfl, Bool.or_true]
      cases w.enabled
      · rfl
      · rw [if_pos rfl]
        simp [setEvent, State.setFlt]
    | false =>
      rw [if_neg (by simp), Bool.or_false, ← hv, vset_self]

theorem getPort_setFlt (p : Port) (f : FaultUnit) (s : State) :
    getPort p (s.setFlt f) = getPort p s := getPort_congr rfl p

theorem getPort_matchWatch (c : WatchCond) (d : DockNo) (p : Port) (i : Fin 4) (s : State) :
    getPort p (matchWatch c d s i) =
      portRung (slotRings c d p (vget s.flt.watches i)) (getPort p s) := by
  unfold matchWatch slotRings
  cases vget s.flt.watches i with
  | none => exact (portRung_false _).symm
  | some w =>
    dsimp only [Option.any_some]
    cases watchMatches w c d with
    | false => exact (portRung_false _).symm
    | true =>
      cases w.enabled with
      | false => exact (portRung_false _).symm
      | true =>
        simp only [if_true, Bool.true_and]
        rw [getPort_setEvent]
        split
        case isTrue h =>
          rw [decide_eq_true h]
          simp [portRung, putEvent, getPort_setFlt]
        case isFalse h =>
          rw [decide_eq_false h, portRung_false]
          rfl

/-- The watches and the ports after a dock event is matched against some slots. -/
theorem matchWatch_fold (c : WatchCond) (d : DockNo) (l : List (Fin 4)) (s : State) :
    (l.foldl (matchWatch c d) s).flt =
        { s.flt with
          watches := l.foldl
            (fun v j => vset v j ((vget v j).map (watchHitBy c d))) s.flt.watches }
      ∧ ∀ p, getPort p (l.foldl (matchWatch c d) s) =
          portRung (l.any fun i => slotRings c d p (vget s.flt.watches i)) (getPort p s) := by
  induction l generalizing s with
  | nil => exact ⟨rfl, fun p => (portRung_false _).symm⟩
  | cons i l ih =>
    obtain ⟨hflt, hport⟩ := ih (matchWatch c d s i)
    refine ⟨?_, fun p => ?_⟩
    · rw [List.foldl_cons, hflt, matchWatch_watches]
      rfl
    · have hrings : ∀ j, slotRings c d p (vget (matchWatch c d s i).flt.watches j) =
          slotRings c d p (vget s.flt.watches j) := fun j => by
        rw [matchWatch_watches, vget_vset]
        split
        case isTrue h => rw [slotRings_hit, h]
        case isFalse h => rfl
      rw [List.foldl_cons, hport, getPort_matchWatch, portRung_portRung, List.any_cons]
      simp only [hrings]

theorem dockEvent_frame_eq (c : WatchCond) (d : DockNo) (s : State) :
    dockEvent c d s =
      { s with
        pi := (dockEvent c d s).pi,
        flt := { s.flt with watches := (dockEvent c d s).flt.watches } } := by
  have hflt : (dockEvent c d s).flt =
      { s.flt with watches := (dockEvent c d s).flt.watches } := by
    unfold dockEvent
    rw [(matchWatch_fold c d _ s).1]
  rw [← hflt]
  exact watchesMatched_only c d (finList 4) s s rfl rfl

theorem vget_dockEvent (c : WatchCond) (d : DockNo) (s : State) (i : Fin 4) :
    vget (dockEvent c d s).flt.watches i = (vget s.flt.watches i).map (watchHitBy c d) := by
  unfold dockEvent
  rw [(matchWatch_fold c d _ s).1]
  dsimp only
  rw [vget_foldl_vset (watchHitBy_twice c d), if_pos (mem_finList i)]

/-- Whether a dock event rings a port. -/
def eventRings (c : WatchCond) (d : DockNo) (p : Port) (s : State) : Bool :=
  s.flt.watches.toList.any fun o => o.any fun w =>
    watchMatches w c d && w.enabled && decide (w.owner = p)

theorem getPort_dockEvent (c : WatchCond) (d : DockNo) (p : Port) (s : State) :
    getPort p (dockEvent c d s) = portRung (eventRings c d p s) (getPort p s) := by
  have h : ((finList 4).any fun i => slotRings c d p (vget s.flt.watches i)) =
      eventRings c d p s := by
    rw [Bool.eq_iff_iff, eventRings, List.any_eq_true, List.any_eq_true]
    constructor
    · rintro ⟨i, -, hi⟩
      exact ⟨_, (mem_toList_vget _ _).2 ⟨i, rfl⟩, hi⟩
    · rintro ⟨o, ho, hw⟩
      obtain ⟨i, rfl⟩ := (mem_toList_vget _ _).1 ho
      exact ⟨i, mem_finList i, hw⟩
  unfold dockEvent
  rw [(matchWatch_fold c d _ s).2, h]

/-! ### Docks held (R167, R169) -/

theorem watchCovers_iff (w : Watch) (d : DockNo) :
    watchCovers w d = true ↔ ∃ k < w.span, d.val = w.span * (w.base / w.span) + k := by
  have h := Nat.div_add_mod w.base w.span
  simp only [watchCovers, decide_eq_true_eq]
  constructor
  · rintro ⟨h1, h2⟩
    exact ⟨d.val - w.span * (w.base / w.span), by omega, by omega⟩
  · rintro ⟨k, hk, hd⟩
    omega

theorem held_iff (d : DockNo) (s : State) :
    held d s = true ↔ ∃ i w, vget s.flt.watches i = some w ∧ w.enabled = true ∧ w.action = .hold
      ∧ ∃ k < w.span, d.val = w.span * (w.base / w.span) + k := by
  rw [held, List.any_eq_true]
  constructor
  · rintro ⟨o, ho, hw⟩
    obtain ⟨i, hi⟩ := (mem_toList_vget _ _).1 ho
    cases o with
    | none => cases hw
    | some w =>
      simp only [Bool.and_eq_true, decide_eq_true_eq] at hw
      obtain ⟨⟨hen, hact⟩, hcov⟩ := hw
      exact ⟨i, w, hi, hen, hact, (watchCovers_iff w d).1 hcov⟩
  · rintro ⟨i, w, hi, hen, hact, hcov⟩
    refine ⟨some w, (mem_toList_vget _ _).2 ⟨i, hi⟩, ?_⟩
    simp [hen, hact, (watchCovers_iff w d).2 hcov]

/-! ### The requests (R170) -/

theorem watchSlot_val (i : Fin 4) : watchSlot i.val = i := Fin.ext (Nat.mod_eq_of_lt i.isLt)

theorem watchSlotInForm_val (i : Fin 4) : watchSlotInForm i.val = true :=
  decide_eq_true (Nat.le_of_lt_succ i.isLt)

/-- What bars a port from a watch slot. -/
def WatchBarred (p : Port) (i : Fin 4) (crew : Nat) (s : State) (o : ReplyOutcome) : Prop :=
  let other := ∃ w, vget s.flt.watches i = some w ∧ w.owner ≠ p
  (o = .owned ∧ other) ∨ (o = .notPermitted ∧ ¬other ∧ p = .service
    ∧ ¬∃ c, crewOf crew s = some c ∧ c.level = 0)

theorem watchRefusal_iff (p : Port) (i : Fin 4) (crew : Nat) (s : State) (o : ReplyOutcome) :
    watchRefusal p i crew s = some o ↔ WatchBarred p i crew s o := by
  have hother : (vget s.flt.watches i).any (fun w => decide (w.owner ≠ p)) = true ↔
      ∃ w, vget s.flt.watches i = some w ∧ w.owner ≠ p := by
    cases vget s.flt.watches i <;> simp
  unfold watchRefusal WatchBarred
  rw [← supervisor_iff, ← hother]
  by_cases h : (vget s.flt.watches i).any (fun w => decide (w.owner ≠ p)) = true
  · rw [if_pos h]
    constructor
    · rintro ⟨⟩
      exact .inl ⟨rfl, h⟩
    · rintro (⟨rfl, -⟩ | ⟨-, hno, -⟩)
      · rfl
      · exact absurd h hno
  · rw [if_neg h]
    by_cases hs : p = .service ∧ (!supervisor crew s) = true
    · obtain ⟨hp, hn⟩ := hs
      rw [if_pos ⟨hp, hn⟩]
      constructor
      · rintro ⟨⟩
        exact .inr ⟨rfl, h, hp, by simpa using hn⟩
      · rintro (⟨-, hother⟩ | ⟨rfl, -⟩)
        · exact absurd hother h
        · rfl
    · rw [if_neg hs]
      constructor
      · rintro ⟨⟩
      · rintro (⟨-, hother⟩ | ⟨-, -, hp, hn⟩)
        · exact absurd hother h
        · exact absurd ⟨hp, by simpa using hn⟩ hs

theorem watchRefusal_none {p : Port} {i : Fin 4} {crew : Nat} {s : State}
    (h : ∀ o, ¬WatchBarred p i crew s o) : watchRefusal p i crew s = none := by
  cases hr : watchRefusal p i crew s with
  | none => rfl
  | some o => exact absurd ((watchRefusal_iff p i crew s o).1 hr) (h o)

/-- The part with its watches put. -/
def watchesPut (watches : Vector (Option Watch) 4) (s : State) : State :=
  { s with flt := { s.flt with watches := watches } }

/-- A watch request, as its step. -/
theorem watch_step {p : Port} {k : RequestKind} {tag : Nat} {form : Bool} {take : State → State}
    {s : State} {o : ReplyOutcome} {b : Body} {watches : Vector (Option Watch) 4}
    (h : Accepts p k tag s) (hf : form = true)
    (hx : ∀ j, take (s.setPi j) = reply p k tag o b (watchesPut watches (s.setPi j))) :
    ∃ t, stepOf (slotRequest p k tag form take) s = .next t ∧ Replied p k tag o b s t
      ∧ StoreKept s t
      ∧ t = { s with pi := t.pi, rs := t.rs, flt := { s.flt with watches := watches } } :=
  request_kept (x := watchesPut watches s) h hf rfl hx

section
variable {p : Port} {tag crew base span : Nat} {cond : WatchCond} {action : WatchAction}
  {enabled : Bool} {i : Fin 4} {s : State}

theorem takeWatchSet_barred {o : ReplyOutcome} (hc : Clean s) (h : WatchBarred p i crew s o) :
    takeWatchSet p tag i.val crew base span cond action enabled s =
      reply p .watchSet tag o .empty s := by
  unfold takeWatchSet
  rw [readCrewsFor_clean hc, watchSlot_val]
  simp only [(watchRefusal_iff p i crew s o).2 h]

theorem takeWatchSet_set (hc : Clean s) (h : ∀ o, ¬WatchBarred p i crew s o) :
    takeWatchSet p tag i.val crew base span cond action enabled s =
      reply p .watchSet tag .set (.watchReplaced (vget s.flt.watches i).isSome)
        (watchesPut
          (vset s.flt.watches i
            (some { owner := p, base := base, span := span, cond := cond, action := action,
                    enabled := enabled, hit := false })) s) := by
  unfold takeWatchSet
  rw [readCrewsFor_clean hc, watchSlot_val]
  simp only [watchRefusal_none h]
  rfl

theorem takeWatchDrop_barred {o : ReplyOutcome} (hc : Clean s) (h : WatchBarred p i crew s o) :
    takeWatchDrop p tag i.val crew s = reply p .watchDrop tag o .empty s := by
  unfold takeWatchDrop
  rw [readCrewsFor_clean hc, watchSlot_val]
  simp only [(watchRefusal_iff p i crew s o).2 h]

theorem takeWatchDrop_none (hc : Clean s) (h : ∀ o, ¬WatchBarred p i crew s o)
    (hv : vget s.flt.watches i = none) :
    takeWatchDrop p tag i.val crew s = reply p .watchDrop tag .notDefined .empty s := by
  unfold takeWatchDrop
  rw [readCrewsFor_clean hc, watchSlot_val]
  simp only [watchRefusal_none h, hv]

theorem takeWatchDrop_some {w : Watch} (hc : Clean s) (h : ∀ o, ¬WatchBarred p i crew s o)
    (hv : vget s.flt.watches i = some w) :
    takeWatchDrop p tag i.val crew s =
      reply p .watchDrop tag .dropped (.watchHit w.hit)
        (watchesPut (vset s.flt.watches i none) s) := by
  unfold takeWatchDrop
  rw [readCrewsFor_clean hc, watchSlot_val]
  simp only [watchRefusal_none h, hv]
  rfl

theorem takeWatchClearHits_one :
    takeWatchClearHits p tag (some i.val) s =
      match vget s.flt.watches i with
      | none => reply p .watchClearHits tag .notDefined .empty s
      | some w =>
        if w.owner = p then reply p .watchClearHits tag .cleared .empty (clearHit p s i)
        else reply p .watchClearHits tag .owned .empty s := by
  unfold takeWatchClearHits
  cases hv : vget s.flt.watches i <;> simp only [watchSlot_val, hv]

end

/-! ### Hits cleared (R170) -/

/-- A slot with the hit of a port's own watch set to no. -/
def ownHitCleared (p : Port) (w : Watch) : Watch := if w.owner = p then { w with hit := false } else w

theorem ownHitCleared_twice (p : Port) (o : Option Watch) :
    (o.map (ownHitCleared p)).map (ownHitCleared p) = o.map (ownHitCleared p) := by
  cases o with
  | none => rfl
  | some w => by_cases h : w.owner = p <;> simp [ownHitCleared, h]

theorem clearHit_eq (p : Port) (s : State) (i : Fin 4) :
    clearHit p s i =
      watchesPut (vset s.flt.watches i ((vget s.flt.watches i).map (ownHitCleared p))) s := by
  unfold clearHit
  cases hv : vget s.flt.watches i with
  | none =>
    dsimp only [Option.map_none]
    rw [← hv, vset_self]
    rfl
  | some w =>
    dsimp only [Option.map_some, ownHitCleared]
    by_cases h : w.owner = p
    · rw [if_pos h, if_pos h]
      rfl
    · rw [if_neg h, if_neg h, ← hv, vset_self]
      rfl

theorem clearHits_eq (p : Port) (l : List (Fin 4)) (s : State) :
    l.foldl (clearHit p) s =
      watchesPut (l.foldl (fun v j => vset v j ((vget v j).map (ownHitCleared p))) s.flt.watches)
        s := by
  induction l generalizing s with
  | nil => rfl
  | cons i l ih =>
    rw [List.foldl_cons, ih, clearHit_eq]
    rfl

/-- The slots with the hits of a port's own watches set to no. -/
def hitsCleared (p : Port) (v : Vector (Option Watch) 4) : Vector (Option Watch) 4 :=
  (finList 4).foldl (fun v j => vset v j ((vget v j).map (ownHitCleared p))) v

theorem vget_hitsCleared (p : Port) (v : Vector (Option Watch) 4) (i : Fin 4) :
    vget (hitsCleared p v) i = (vget v i).map (ownHitCleared p) := by
  rw [hitsCleared, vget_foldl_vset (ownHitCleared_twice p), if_pos (mem_finList i)]

theorem takeWatchClearHits_all {p : Port} {tag : Nat} {s : State} :
    takeWatchClearHits p tag none s =
      reply p .watchClearHits tag .cleared
        (.count (s.flt.watches.toList.countP fun o => o.any fun w => decide (w.owner = p)))
        (watchesPut (hitsCleared p s.flt.watches) s) := by
  unfold takeWatchClearHits ownedWatches
  simp only [clearHits_eq, List.countP_eq_length_filter]
  rfl

/-- Settles O50. -/
theorem watchesAreSetAndHit : Obligations.WatchesAreSetAndHit := by
  refine ⟨fun p tag s hc => ?requests, fun c d s => ?event⟩
  case event =>
    exact ⟨dockEvent_frame_eq c d s, vget_dockEvent c d s, fun p =>
      ⟨getPort_dockEvent c d p s, held_iff d s⟩⟩
  case requests =>
    refine ⟨fun i crew base span cond action enabled hacc hb hs => ?set,
      fun i crew hacc => ?drop, fun hacc => ⟨fun i => ?clearOne, ?clearAll⟩, fun hacc => ?read⟩
    case set =>
      have hform : watchInForm i.val base span = true := by
        simp [watchInForm, watchSlotInForm_val, hb, hs]
      refine ⟨fun o ho => ?_, fun ho => ?_⟩
      · exact watch_step hacc hform fun j => takeWatchSet_barred (s := s.setPi j) hc ho
      · exact watch_step hacc hform fun j => takeWatchSet_set (s := s.setPi j) hc ho
    case drop =>
      have hform := watchSlotInForm_val i
      refine ⟨fun o ho => ?_, fun ho => ⟨fun hv => ?_, fun w hv => ?_⟩⟩
      · exact watch_step hacc hform fun j => takeWatchDrop_barred (s := s.setPi j) hc ho
      · exact watch_step hacc hform fun j => takeWatchDrop_none (s := s.setPi j) hc ho hv
      · exact watch_step hacc hform fun j => takeWatchDrop_some (s := s.setPi j) hc ho hv
    case clearOne =>
      have hform := watchSlotInForm_val i
      refine ⟨fun hv => ?_, fun w hv => ⟨fun ho => ?_, fun ho => ?_⟩⟩
      · refine watch_step hacc hform fun j => ?_
        rw [takeWatchClearHits_one]
        simp only [State.setPi, hv]
        rfl
      · refine watch_step hacc hform fun j => ?_
        rw [takeWatchClearHits_one]
        simp only [State.setPi, hv, if_neg ho]
        rfl
      · refine watch_step hacc hform fun j => ?_
        rw [takeWatchClearHits_one, clearHit_eq]
        simp only [State.setPi, hv, if_pos ho, Option.map_some, ownHitCleared]
    case clearAll =>
      exact ⟨hitsCleared p s.flt.watches,
        watch_step hacc rfl fun j => takeWatchClearHits_all (s := s.setPi j),
        vget_hitsCleared p s.flt.watches⟩
    case read =>
      exact watch_step hacc rfl fun j => rfl

end Sys2Proof.Machine
end

section
/-! Suspensions (R4 to R6) and fault raisings (R153 to R158). -/

namespace Sys2Proof.Machine

/-! ### Suspensions (R4 to R6) -/

theorem inhibited_suspended (r : DockRecord) (b : Bool) (h : r.suspended ≠ b) :
    inhibited { r with suspended := b } ≠ inhibited r ↔ r.state = .vacant := by
  cases hs : r.state <;> cases b <;> simp_all [inhibited]

/-- The record of a dock put with another suspension: its claim is counted anew, it is handed, and the
inhibit of a surveyed VACANT dock follows. -/
theorem suspension_put {d : DockNo} {b : Bool} {s : State} (h : (dockOf d s).suspended ≠ b) :
    let r' := { dockOf d s with suspended := b }
    putDock d r' s =
      { s with
        dlc := { s.dlc with
          docks := vset s.dlc.docks d r',
          lines :=
            if (lineOf d s).surveyed = true ∧ (dockOf d s).state = .vacant then
              vset s.dlc.lines d { lineOf d s with
                waiting := placeIn (.inhibit b) (lineOf d s).waiting }
            else s.dlc.lines },
        rq := { s.rq with
          claims := vset s.rq.claims d (claimOf r'),
          claimTotal := (vset s.rq.claims d (claimOf r')).toList.sum },
        rs := handAll [(.dock d, .dock (retainedOf r'))] s.rs } := by
  intro r'
  have hret : retainedOf r' ≠ retainedOf (dockOf d s) := fun e =>
    h (congrArg RetainedDock.suspended e).symm
  have hinh := inhibited_suspended (dockOf d s) b h
  have hlines : vset s.dlc.lines d (inhibitFollows (dockOf d s) r' (lineOf d s)) =
      if (lineOf d s).surveyed = true ∧ (dockOf d s).state = .vacant then
        vset s.dlc.lines d { lineOf d s with
          waiting := placeIn (.inhibit b) (lineOf d s).waiting }
      else s.dlc.lines := by
    unfold inhibitFollows
    by_cases hv : (dockOf d s).state = .vacant
    · have hi : inhibited r' = b := by cases b <;> simp [inhibited, r', hv]
      have habs : r'.state ≠ .absent := by simp [r', hv]
      rw [hi]
      by_cases hsurv : (lineOf d s).surveyed = true
      · rw [if_pos ⟨hsurv, by rw [← hi]; exact hinh.2 hv, habs⟩, if_pos ⟨hsurv, hv⟩]
      · rw [if_neg fun hh => hsurv hh.1, if_neg fun hh => hsurv hh.1]
        exact vset_self _ _
    · rw [if_neg fun hh => hv (hinh.1 hh.2.1), if_neg fun hh => hv hh.2]
      exact vset_self _ _
  rw [putDock_put, dockPut, hlines, if_neg hret]

theorem suspendDock_suspended {d : DockNo} {s : State} (h : (dockOf d s).suspended = true) :
    suspendDock d s = s := if_pos h

theorem suspendDock_put {d : DockNo} {s : State} (h : (dockOf d s).suspended = false) :
    suspendDock d s = putDock d { dockOf d s with suspended := true } s :=
  if_neg (by simp [h])

/-- Settles O52. -/
theorem suspensionsAreLaidAndLifted : Obligations.SuspensionsAreLaidAndLifted := by
  intro s d hc r becomes
  refine ⟨suspendDock_suspended, fun h => ?lay, fun h => ⟨fun hs => ?lift, fun hv hg => ?backlog⟩,
    fun hs h => ?unchanged, fun hs => ?busy, fun hs => ?notResumable⟩
  case lay =>
    exact (suspendDock_put h).trans (suspension_put (b := true) (by rw [h]; simp))
  case lift =>
    have hput : unsuspend d s = _ := suspension_put (b := false) (by rw [h]; simp)
    have hres : resumeDock d s = (.resumed, unsuspend d s) := by
      rcases hs with hs | ⟨hs, hg⟩
      · simp only [resumeDock, show (dockOf d s).state = .docked from hs,
          show (dockOf d s).suspended = true from h, if_true]
      · simp only [resumeDock, show (dockOf d s).state = .vacant from hs,
          show (dockOf d s).suspended = true from h, if_true, readQueueHead_clean hc,
          (gate_eq 1 s).2 hg]
    rw [hres]
    exact ⟨rfl, hput⟩
  case backlog =>
    have hgate : gateAdmits 1 s = false :=
      Bool.eq_false_iff.2 fun hh => Nat.not_le.2 hg ((gate_eq 1 s).1 hh)
    simp only [resumeDock, show (dockOf d s).state = .vacant from hv,
      show (dockOf d s).suspended = true from h, if_true, readQueueHead_clean hc, hgate,
      Bool.false_eq_true, if_false]
  case unchanged =>
    have hn : (dockOf d s).suspended = false := h
    rcases hs with hs | hs <;>
      simp only [resumeDock, show (dockOf d s).state = _ from hs, hn, Bool.false_eq_true, if_false]
  case busy =>
    rcases hs with hs | hs | hs <;> simp only [resumeDock, show (dockOf d s).state = _ from hs]
  case notResumable =>
    rcases hs with hs | hs | hs <;> simp only [resumeDock, show (dockOf d s).state = _ from hs]

/-! ### Raisings, step by step (R153 to R155) -/

/-- The record of a dock whose fault set takes a kind. -/
def faultEntered (k : FaultKind) (r : DockRecord) : DockRecord :=
  { r with faults := r.faults.put k true }

theorem put_twice (k : FaultKind) (f : FaultSet) : (f.put k true).put k true = f.put k true := by
  cases k <;> rfl

theorem enterFault_again {d : DockNo} {k : FaultKind} {s : State} (h : ClaimsRight s)
    (hf : (dockOf d s).faults.put k true = (dockOf d s).faults) : enterFault d k s = s := by
  have hr : { dockOf d s with faults := (dockOf d s).faults.put k true } = dockOf d s := by
    rw [hf]
  unfold enterFault
  dsimp only
  rw [hr, putDock_same h]

/-- Whether a raising is entered whatever its policy (R155). -/
abbrev EnteredAlways (k : FaultKind) (r : DockRecord) : Prop :=
  k = .lockJam ∨ (k = .dockReturned ∧ r.state = .parked)

theorem EnteredAlways.dockClass {k : FaultKind} {r : DockRecord} (h : EnteredAlways k r) :
    faultClass k = .dock := by
  rcases h with rfl | ⟨rfl, -⟩ <;> rfl

theorem fixedEntries_dockless {r : Raising} {s : State} (h : r.dock = none) :
    fixedEntries r s = s := by
  rw [fixedEntries, h]

theorem fixedEntries_entered {r : Raising} {d : DockNo} {s : State} (hd : r.dock = some d)
    (h : EnteredAlways r.kind (dockOf d s)) : fixedEntries r s = enterFault d r.kind s := by
  unfold fixedEntries
  rw [hd]
  dsimp only
  rcases h with h | ⟨h, hp⟩
  · rw [if_pos h, h]
  · rw [if_neg (by rw [h]; decide), if_pos ⟨h, hp⟩, h]

theorem fixedEntries_not {r : Raising} {d : DockNo} {s : State} (hd : r.dock = some d)
    (h : ¬EnteredAlways r.kind (dockOf d s)) : fixedEntries r s = s := by
  unfold fixedEntries
  rw [hd]
  dsimp only
  rw [if_neg fun hk => h (.inl hk), if_neg fun hk => h (.inr hk)]

/-- FAULT_ALERT set, for the policies that alert. -/
def alerted (p : Policy) (s : State) : State :=
  match p with
  | .ignore => s
  | .log => s
  | .logNotify => faultAlert s
  | .suspend => faultAlert s

theorem faultAlert_frame (s : State) : faultAlert s = s.setPi (faultAlert s).pi := by
  conv_lhs => rw [faultAlert, setEvent, setPort_frame, setEvent, setPort_frame]
  rfl

theorem faultAlert_pi {s y : State} (h : y.pi = s.pi) : (faultAlert y).pi = (faultAlert s).pi := by
  simp [faultAlert, setEvent, setPort, getPort, State.setPi, h]

theorem alerted_frame (p : Policy) (s : State) : alerted p s = s.setPi (alerted p s).pi := by
  cases p with
  | ignore => rfl
  | log => rfl
  | logNotify => exact faultAlert_frame s
  | suspend => exact faultAlert_frame s

theorem getPort_alerted (q : Policy) (p : Port) (s : State) :
    getPort p (alerted q s) =
      if p ≠ .terminal ∧ (q = .logNotify ∨ q = .suspend) then
        { getPort p s with
          events := { (getPort p s).events with faultAlert := true },
          reported := { (getPort p s).reported with faultAlert := false } }
      else getPort p s := by
  have halert : getPort p (faultAlert s) = if p ≠ .terminal then
      { getPort p s with
        events := { (getPort p s).events with faultAlert := true },
        reported := { (getPort p s).reported with faultAlert := false } }
      else getPort p s := by
    unfold faultAlert
    rw [getPort_setEvent, getPort_setEvent]
    cases p <;> rfl
  cases q with
  | ignore => simp [alerted]
  | log => simp [alerted]
  | logNotify => simpa [alerted] using halert
  | suspend => simpa [alerted] using halert

theorem enterFault_frame (d : DockNo) (k : FaultKind) (s : State) (p : PortInterface) :
    enterFault d k (s.setPi p) = (enterFault d k s).setPi p := by
  unfold enterFault
  rw [putDock_eq, putDock_eq]
  rfl

theorem suspendDock_frame (d : DockNo) (s : State) (p : PortInterface) :
    suspendDock d (s.setPi p) = (suspendDock d s).setPi p := by
  by_cases h : (dockOf d s).suspended = true
  · rw [suspendDock_suspended h, suspendDock_suspended (by exact h)]
  · have h := Bool.eq_false_iff.2 h
    rw [suspendDock_put h, suspendDock_put (by exact h), putDock_eq, putDock_eq]
    rfl

/-- A policy's action on a raising of no dock, or of no class DOCK kind. -/
theorem policyAction_plain {p : Policy} {r : Raising} {s : State}
    (h : r.dock = none ∨ faultClass r.kind ≠ .dock) (hp : p ≠ .ignore) :
    policyAction p r s = alerted p (logFault r s) := by
  have henter : ∀ y, enterRaising r y = y := fun y => by
    unfold enterRaising
    rcases h with h | h
    · rw [h]
    · cases r.dock with
      | none => rfl
      | some d => exact if_neg h
  have hsusp : ∀ y, suspendRaising r y = y := fun y => by
    unfold suspendRaising
    rcases h with h | h
    · rw [h]
    · cases r.dock with
      | none => rfl
      | some d => exact if_neg h
  cases p with
  | ignore => exact absurd rfl hp
  | log => simp only [policyAction, henter, alerted]
  | logNotify => simp only [policyAction, henter, alerted]
  | suspend => simp only [policyAction, henter, hsusp, alerted]

/-- A dock with a kind entered, and suspended by the policy SUSPEND. -/
def entersDock (d : DockNo) (k : FaultKind) (p : Policy) (s : State) : State :=
  if p = .suspend then suspendDock d (enterFault d k s) else enterFault d k s

/-- A policy's action on a raising of class DOCK. -/
theorem policyAction_dock {p : Policy} {r : Raising} {d : DockNo} {s : State}
    (hd : r.dock = some d) (h : faultClass r.kind = .dock) (hp : p ≠ .ignore) :
    policyAction p r s = entersDock d r.kind p (alerted p (logFault r s)) := by
  have henter : ∀ y, enterRaising r y = enterFault d r.kind y := fun y => by
    unfold enterRaising
    rw [hd]
    exact if_pos h
  have hsusp : ∀ y, suspendRaising r y = suspendDock d y := fun y => by
    unfold suspendRaising
    rw [hd]
    exact if_pos h
  have hport : ∀ y, faultAlert (enterFault d r.kind y) = enterFault d r.kind (faultAlert y) :=
    fun y => by
      have hpi : (enterFault d r.kind y).pi = y.pi := (enterFault_effect d r.kind y).2.1
      rw [faultAlert_frame, faultAlert_frame y, enterFault_frame, faultAlert_pi hpi]
  cases p with
  | ignore => exact absurd rfl hp
  | log => simp only [policyAction, henter, alerted, entersDock, reduceCtorEq, if_false]
  | logNotify => simp only [policyAction, henter, alerted, entersDock, reduceCtorEq, if_false, hport]
  | suspend => simp only [policyAction, henter, hsusp, alerted, entersDock, if_true, hport]

/-- What a raising's log entry hands: the head, and the record where the log had room. -/
def logHanded (fault : FaultRecord) (head : FaultHead) (s : State) : List (Place × Content) :=
  if s.flt.log.length < 32 then
    bothCopies .faultHead (.faultHead head)
      ++ [(.fault (faultRing s.flt.oldestPlace s.flt.log.length), .fault fault)]
  else bothCopies .faultHead (.faultHead head)

/-- The fault record that a raising makes. -/
def faultOf (r : Raising) (s : State) : FaultRecord :=
  { seq := s.flt.nextSeq, kind := r.kind, time := stationTime s, dock := r.dock,
    bike := if r.bike = some 0 then none else r.bike, detail := r.detail }

theorem raisedBike_eq (b : Option Nat) :
    (b.filter fun b => decide (b ≠ 0)) = if b = some 0 then none else b := by
  cases b with
  | none => rfl
  | some b => by_cases h : b = 0 <;> simp [h]

theorem logFault_eq (r : Raising) (s : State) :
    logFault r s =
      { s with
        flt := (logFault r s).flt,
        rs := handAll (logHanded (faultOf r s) (faultHeadOf (logFault r s)) s) s.rs } := by
  unfold logHanded
  by_cases h : s.flt.log.length < 32
  · have hlog : (s.flt.log ++ [faultOf r s])[s.flt.log.length]? = some (faultOf r s) := by simp
    have hl : logFault r s = handFault s.flt.log.length (handFaultHead (s.setFlt
        { s.flt with
          log := s.flt.log ++ [faultOf r s], nextSeq := (s.flt.nextSeq + 1) % 65536 })) := by
      rw [logFault, if_neg (Nat.not_le.2 h), raisedBike_eq]
      rfl
    rw [if_pos h, hl]
    simp only [handFault, handFaultHead, handBoth, hand, State.setRs, State.setFlt, hlog]
    rfl
  · rw [if_neg h, logFault, if_pos (Nat.not_lt.1 h)]
    rfl

theorem raiseRead_eq {r : Raising} {s : State} (hc : Clean s)
    (hw : ∀ i, vget s.flt.watches i = none) : raise r s = raiseRead r s := by
  rw [raise_clean hc, watchRaising]
  cases r.dock with
  | none => rfl
  | some d => exact congrArg (raiseRead r) (dockEvent_none _ _ _ hw)

/-! ### A raising, whole -/

/-- The record of a dock after a raising of class DOCK. -/
def raisedRecord (k : FaultKind) (p : Policy) (r : DockRecord) : DockRecord :=
  { r with
    faults :=
      if p ≠ .ignore ∨ k = .lockJam ∨ (k = .dockReturned ∧ r.state = .parked) then
        r.faults.put k true
      else r.faults,
    suspended := r.suspended || decide (p = .suspend) }

theorem raisedRecord_entered {k : FaultKind} {p : Policy} {r : DockRecord} (h : p ≠ .ignore) :
    raisedRecord k p r =
      { faultEntered k r with suspended := r.suspended || decide (p = .suspend) } := by
  unfold raisedRecord
  rw [if_pos (.inl h)]
  rfl

theorem toInhibit_faults (r : DockRecord) (f : FaultSet) : toInhibit { r with faults := f } = toInhibit r :=
  rfl

theorem entersDock_put {d : DockNo} {k : FaultKind} {p : Policy} {s : State} (hp : p ≠ .ignore) :
    entersDock d k p s = putDock d (raisedRecord k p (dockOf d s)) s := by
  rw [raisedRecord_entered hp, entersDock]
  by_cases hs : p = .suspend
  · rw [if_pos hs]
    cases h : (dockOf d s).suspended with
    | true =>
      rw [suspendDock_suspended (by rw [enterFault, dockOf_putDock_self]; exact h), hs]
      have hr : { faultEntered k (dockOf d s) with
          suspended := true || decide (Policy.suspend = .suspend) } =
          faultEntered k (dockOf d s) := by
        rw [faultEntered, ← h]
        simp [h]
      rw [hr]
      rfl
    | false =>
      have htwice := putDock_putDock d (faultEntered k (dockOf d s))
        { faultEntered k (dockOf d s) with suspended := true } s rfl
        (fun e => absurd (congrArg RetainedDock.suspended e) (by simp [retainedOf, h]))
      rw [suspendDock_put (by rw [enterFault, dockOf_putDock_self]; exact h), enterFault,
        dockOf_putDock_self, hs]
      exact htwice
  · rw [if_neg hs, decide_eq_false hs, Bool.or_false]
    rfl

/-- What a raising makes of its dock once it is logged. -/
def dockRaised (r : Raising) (p : Policy) (y : State) : State :=
  match r.dock with
  | some d =>
    if faultClass r.kind = FaultClass.dock then putDock d (raisedRecord r.kind p (dockOf d y)) y
    else y
  | none => y

/-- A raising that the policy ignores, at its dock (R155). -/
theorem raised_ignored {r : Raising} {d : DockNo} {s : State} (hr : ClaimsRight s)
    (hd : r.dock = some d) :
    fixedEntries r s = putDock d (raisedRecord r.kind .ignore (dockOf d s)) s := by
  unfold raisedRecord
  by_cases he : EnteredAlways r.kind (dockOf d s)
  · rw [fixedEntries_entered hd he, enterFault, if_pos (.inr he)]
    simp
  · have hn : ¬(Policy.ignore ≠ .ignore ∨ EnteredAlways r.kind (dockOf d s)) := by simp [he]
    rw [fixedEntries_not hd he, if_neg hn]
    simp [putDock_same hr]

/-- The entries made whatever the policy add none to those that the policy made (R154, R155). -/
theorem fixedEntries_raised {r : Raising} {d : DockNo} {p : Policy} {s : State} (hr : ClaimsRight s)
    (hd : r.dock = some d) (hp : p ≠ .ignore) :
    fixedEntries r (putDock d (raisedRecord r.kind p (dockOf d s)) s) =
      putDock d (raisedRecord r.kind p (dockOf d s)) s := by
  by_cases he : EnteredAlways r.kind
      (dockOf d (putDock d (raisedRecord r.kind p (dockOf d s)) s))
  · rw [fixedEntries_entered hd he, enterFault_again (claims_putDock hr)]
    rw [dockOf_putDock_self, raisedRecord_entered hp]
    exact put_twice _ _
  · rw [fixedEntries_not hd he]

/-- A raising: its log entry and its notices, then its dock. -/
theorem raiseRead_raised {r : Raising} {p : Policy} {s : State} (hr : ClaimsRight s)
    (hp : policyOf r.kind s = p) :
    raiseRead r s = dockRaised r p (if p = .ignore then s else alerted p (logFault r s)) := by
  have hclaims : ClaimsRight (alerted p (logFault r s)) := by
    rw [alerted_frame, logFault_eq]
    exact hr
  unfold raiseRead dockRaised
  rw [hp]
  cases hd : r.dock with
  | none =>
    rw [fixedEntries_dockless hd]
    by_cases hi : p = .ignore
    · rw [if_pos hi, hi]
      rfl
    · rw [if_neg hi, policyAction_plain (.inl hd) hi]
  | some d =>
    dsimp only
    by_cases hk : faultClass r.kind = .dock
    · rw [if_pos hk]
      by_cases hi : p = .ignore
      · rw [if_pos hi]
        subst hi
        exact raised_ignored hr hd
      · rw [if_neg hi, policyAction_dock hd hk hi, entersDock_put hi]
        exact fixedEntries_raised hclaims hd hi
    · rw [if_neg hk]
      have hfix : ∀ y, fixedEntries r y = y := fun y =>
        fixedEntries_not hd fun he => hk he.dockClass
      rw [hfix]
      by_cases hi : p = .ignore
      · rw [if_pos hi, hi]
        rfl
      · rw [if_neg hi, policyAction_plain (.inr hk) hi]

theorem fixedEntries_effect (r : Raising) (y : State) :
    (fixedEntries r y).flt = y.flt ∧ (fixedEntries r y).pi = y.pi
      ∧ ∀ e, (r.dock = some e ∧ EnteredAlways r.kind (dockOf e y) →
          dockOf e (fixedEntries r y) = faultEntered r.kind (dockOf e y))
        ∧ (¬(r.dock = some e ∧ EnteredAlways r.kind (dockOf e y)) →
          dockOf e (fixedEntries r y) = dockOf e y) := by
  cases hd : r.dock with
  | none =>
    rw [fixedEntries_dockless hd]
    exact ⟨rfl, rfl, fun e => ⟨fun h => absurd h.1 (by simp), fun _ => rfl⟩⟩
  | some d =>
    by_cases he : EnteredAlways r.kind (dockOf d y)
    · rw [fixedEntries_entered hd he]
      obtain ⟨hflt, hpi, hdock⟩ := enterFault_effect d r.kind y
      refine ⟨hflt, hpi, fun e => ⟨fun h => ?_, fun h => ?_⟩⟩
      · have hde : d = e := Option.some.inj h.1
        subst hde
        exact (hdock d).trans (if_pos rfl)
      · exact (hdock e).trans (if_neg fun hde => h ⟨congrArg some hde, hde ▸ he⟩)
    · rw [fixedEntries_not hd he]
      refine ⟨rfl, rfl, fun e => ⟨fun h => absurd h.2 ?_, fun _ => rfl⟩⟩
      rw [← Option.some.inj h.1]
      exact he

/-- A policy's action on faults, ports and dock records. -/
theorem policyAction_effect {r : Raising} {p : Policy} {s : State} (hp : p ≠ .ignore) :
    (policyAction p r s).flt = (logFault r s).flt
      ∧ (policyAction p r s).pi = (alerted p (logFault r s)).pi
      ∧ ∀ e, dockOf e (policyAction p r s) =
          if r.dock = some e ∧ faultClass r.kind = .dock then raisedRecord r.kind p (dockOf e s)
          else dockOf e s := by
  have hflt : (alerted p (logFault r s)).flt = (logFault r s).flt := by
    rw [alerted_frame]
    rfl
  have hdocks : ∀ e, dockOf e (alerted p (logFault r s)) = dockOf e s := fun e => by
    rw [alerted_frame, logFault_eq]
    rfl
  by_cases h : r.dock = none ∨ faultClass r.kind ≠ .dock
  · rw [policyAction_plain h hp]
    refine ⟨hflt, rfl, fun e => ?_⟩
    rw [hdocks, if_neg]
    rintro ⟨hd, hk⟩
    rcases h with h | h
    · rw [h] at hd
      cases hd
    · exact h hk
  · obtain ⟨hd, hk⟩ := not_or.1 h
    have hk := not_not.1 hk
    obtain ⟨d, hd⟩ := Option.ne_none_iff_exists'.1 hd
    rw [policyAction_dock hd hk hp, entersDock_put hp]
    refine ⟨by rw [putDock_flt, hflt], by rw [putDock_pi], fun e => ?_⟩
    rw [dockOf_putDock, hdocks, hdocks]
    by_cases hde : d = e
    · subst hde
      rw [if_pos rfl, if_pos ⟨hd, hk⟩]
    · rw [if_neg hde, if_neg]
      rintro ⟨he, -⟩
      exact hde (Option.some.inj (hd.symm.trans he))

/-- A raising on faults, ports and dock records. -/
theorem raiseRead_effect {r : Raising} {p : Policy} {s : State} (hp : policyOf r.kind s = p) :
    (raiseRead r s).flt = (if p = .ignore then s else logFault r s).flt
      ∧ (raiseRead r s).pi = (if p = .ignore then s else alerted p (logFault r s)).pi
      ∧ ∀ e, dockOf e (raiseRead r s) =
          if r.dock = some e ∧ faultClass r.kind = .dock then raisedRecord r.kind p (dockOf e s)
          else dockOf e s := by
  unfold raiseRead
  rw [hp]
  obtain ⟨hflt, hpi, hdock⟩ := fixedEntries_effect r (policyAction p r s)
  rw [hflt, hpi]
  by_cases hi : p = .ignore
  · subst hi
    refine ⟨rfl, rfl, fun e => ?_⟩
    by_cases he : r.dock = some e ∧ EnteredAlways r.kind (dockOf e s)
    · rw [(hdock e).1 he, if_pos ⟨he.1, he.2.dockClass⟩, raisedRecord, if_pos (.inr he.2)]
      simp [faultEntered, policyAction]
    · rw [(hdock e).2 he]
      have hsame : r.dock = some e → raisedRecord r.kind .ignore (dockOf e s) = dockOf e s :=
        fun hd => by
          have hn : ¬(Policy.ignore ≠ .ignore ∨ EnteredAlways r.kind (dockOf e s)) := by
            simpa using fun ha => he ⟨hd, ha⟩
          rw [raisedRecord, if_neg hn]
          simp
      split
      case isTrue h => exact (hsame h.1).symm
      case isFalse h => rfl
  · rw [if_neg hi, if_neg hi]
    obtain ⟨hflt, hpi, haction⟩ := policyAction_effect (r := r) (s := s) hi
    refine ⟨hflt, hpi, fun e => ?_⟩
    by_cases he : r.dock = some e ∧ EnteredAlways r.kind (dockOf e (policyAction p r s))
    · rw [(hdock e).1 he, haction, if_pos ⟨he.1, he.2.dockClass⟩, raisedRecord_entered hi]
      simp only [faultEntered, put_twice]
    · rw [(hdock e).2 he, haction]

/-- A raising's log entry and its notices, beside the docks. -/
theorem raisingLogged_eq (r : Raising) (p : Policy) (s : State) :
    let y := if p = .ignore then s else alerted p (logFault r s)
    y = { s with
      pi := y.pi, flt := y.flt,
      rs := handAll (if p = .ignore then [] else logHanded (faultOf r s) (faultHeadOf y) s) s.rs } := by
  intro y
  by_cases hi : p = .ignore
  · simp only [y, if_pos hi, handAll_nil]
  · simp only [y, if_neg hi]
    have hhead : faultHeadOf (alerted p (logFault r s)) = faultHeadOf (logFault r s) := by
      rw [alerted_frame]
      rfl
    have hflt : (alerted p (logFault r s)).flt = (logFault r s).flt := by
      rw [alerted_frame]
      rfl
    rw [hhead, hflt]
    conv_lhs => rw [alerted_frame]
    generalize (alerted p (logFault r s)).pi = ports
    conv_lhs => rw [logFault_eq]
    rfl

theorem dockRaised_flt (r : Raising) (p : Policy) (y : State) : (dockRaised r p y).flt = y.flt := by
  unfold dockRaised
  cases r.dock with
  | none => rfl
  | some d =>
    dsimp only
    split
    · rw [putDock_flt]
    · rfl

theorem dockRaised_pi (r : Raising) (p : Policy) (y : State) : (dockRaised r p y).pi = y.pi := by
  unfold dockRaised
  cases r.dock with
  | none => rfl
  | some d =>
    dsimp only
    split
    · rw [putDock_pi]
    · rfl

/-- What a raising makes of its dock, beside the ports and the faults. -/
theorem dockRaised_entered {r : Raising} {p : Policy} {s y : State} {ports : PortInterface}
    {faults : FaultUnit} (hdlc : y.dlc = s.dlc) :
    dockRaised r p { y with pi := ports, flt := faults } =
      { (match r.dock with
        | some d =>
          if faultClass r.kind = FaultClass.dock then
            dockPut d (raisedRecord r.kind p (dockOf d s)) (lineOf d s)
              (claimOf (raisedRecord r.kind p (dockOf d s))) y
          else y
        | none => y) with pi := ports, flt := faults } := by
  have hdock : ∀ d, dockOf d s = dockOf d y := fun d => by rw [dockOf, dockOf, hdlc]
  have hline : ∀ d, lineOf d s = lineOf d y := fun d => by rw [lineOf, lineOf, hdlc]
  unfold dockRaised
  cases r.dock with
  | none => rfl
  | some d =>
    dsimp only
    by_cases hk : faultClass r.kind = .dock
    · rw [if_pos hk, if_pos hk, putDock_put, hdock, hline]
      rfl
    · rw [if_neg hk, if_neg hk]

/-- Settles O51. -/
theorem raisingsFollowThePolicy : Obligations.RaisingsFollowThePolicy := by
  intro r s hc hw policy t fault record head handed logged entered
  have ht : t = raiseRead r s := raiseRead_eq hc hw
  obtain ⟨hflt, hpi, hdock⟩ := raiseRead_effect (r := r) (s := s) (p := policy) rfl
  rw [← ht] at hflt hpi hdock
  obtain ⟨-, -, hroom, hfull⟩ := logFault_effect r s
  refine ⟨fun hr => ?whole, fun hi => ?_, fun hi hl => ?_, fun hi hl => ?_, fun p => ?_, hdock⟩
  case whole =>
    have hraised := raiseRead_raised (r := r) (p := policy) hr rfl
    have hlogged := raisingLogged_eq r policy s
    dsimp only at hlogged
    rw [← ht] at hraised
    generalize (if policy = .ignore then s else alerted policy (logFault r s)) = y at hraised hlogged
    have hf : t.flt = y.flt := by rw [hraised, dockRaised_flt]
    have hp : t.pi = y.pi := by rw [hraised, dockRaised_pi]
    have hhead : faultHeadOf y = faultHeadOf t := by rw [faultHeadOf, faultHeadOf, hf]
    have hly : y = { logged with pi := t.pi, flt := t.flt } := by
      rw [hf, hp]
      exact hlogged.trans (by rw [hhead]; rfl)
    rw [hly] at hraised
    exact hraised.trans (dockRaised_entered rfl)
  · rw [hflt, if_pos hi]
  · rw [hflt, if_neg hi]
    exact hroom hl
  · rw [hflt, if_neg hi]
    exact hfull hl
  · rw [getPort_congr hpi p]
    by_cases hi : policy = .ignore
    · rw [if_pos hi, hi]
      simp
    · rw [if_neg hi, getPort_alerted, getPort_congr (logFault_effect r s).1 p]

end Sys2Proof.Machine
end

section
/-! The byte layouts of tags, member records and reports (R25, R205 to R207). -/

namespace Sys2Proof.Machine

/-- A number that fits its bytes, at its place in a layout. -/
theorem field_number {a b c : List Byte} {i k n : Nat} (hi : a.length = i) (hn : n < 256 ^ k)
    (hb : b = a ++ leBytes k n ++ c) : field b i k = n := by
  rw [hb, List.append_assoc, field_at a (leBytes k n) c i k hi (leBytes_length k n), leNat_leBytes,
    Nat.mod_eq_of_lt hn]

/-- One byte, at its place in a layout. -/
theorem field_byte {a b c : List Byte} {i : Nat} {x : Byte} (hi : a.length = i)
    (hb : b = a ++ [x] ++ c) : field b i 1 = x.toNat := by
  rw [hb, List.append_assoc, field_at a [x] c i 1 hi rfl]
  simp [leNat]

/-! ### Tag records (R205) -/

/-- The 21 bytes of a tag record that its check word covers. -/
def tagCovered (bike : Nat) (mark : Bool) (stamp : Option Stamp) : List Byte :=
  leBytes 4 bike
    ++ [BitVec.ofNat 8 ((if mark then 1 else 0) + (if stamp.isSome then 2 else 0))]
    ++ stampBytes stamp

theorem tagBytes_eq (bike : Nat) (mark : Bool) (stamp : Option Stamp) :
    tagBytes bike mark stamp = tagCovered bike mark stamp
      ++ leBytes 2 (checkWord (tagCovered bike mark stamp)).toNat := rfl

theorem tagBytes_length (bike : Nat) (mark : Bool) (stamp : Option Stamp) :
    (tagBytes bike mark stamp).length = 23 := by
  simp [tagBytes_eq, tagCovered]

theorem tagBytes_bike {bike : Nat} (mark : Bool) (stamp : Option Stamp) (h : bike ≤ 4294967295) :
    field (tagBytes bike mark stamp) 0 4 = bike := by
  refine field_number (a := []) (c := ?_) rfl (by omega) ?_
  · exact [BitVec.ofNat 8 ((if mark then 1 else 0) + (if stamp.isSome then 2 else 0))]
      ++ stampBytes stamp ++ leBytes 2 (checkWord (tagCovered bike mark stamp)).toNat
  · simp [tagBytes_eq, tagCovered]

theorem tagBytes_bits (bike : Nat) (mark : Bool) (stamp : Option Stamp) :
    field (tagBytes bike mark stamp) 4 1 =
      (if mark then 1 else 0) + (if stamp.isSome then 2 else 0) := by
  rw [field_byte (a := leBytes 4 bike) (leBytes_length 4 bike)
    (by rw [tagBytes_eq, tagCovered, List.append_assoc, List.append_assoc])]
  cases mark <;> cases stamp <;> rfl

section
variable (bike : Nat) (mark : Bool) (t : Stamp)

/-- The byte of a stamp that holds its plan and its authorisation kind. -/
def planByte (t : Stamp) : Byte := BitVec.ofNat 8 (t.plan % 16 + 16 * authCode t.auth)

theorem tagBytes_stamped :
    tagBytes bike mark (some t) =
      leBytes 4 bike ++ [BitVec.ofNat 8 ((if mark then 1 else 0) + 2)] ++ leBytes 2 t.origin
        ++ leBytes 2 t.trip ++ leBytes 7 t.card ++ leBytes 4 t.start ++ [planByte t]
        ++ leBytes 2 (checkWord (tagCovered bike mark (some t))).toNat := by
  rw [tagBytes_eq]
  conv_lhs => arg 1; rw [tagCovered, stampBytes]
  simp only [List.append_assoc]
  rfl

theorem tagBytes_origin (h : t.origin ≤ 65535) :
    field (tagBytes bike mark (some t)) 5 2 = t.origin :=
  field_number
    (a := leBytes 4 bike ++ [BitVec.ofNat 8 ((if mark then 1 else 0) + 2)])
    (c := leBytes 2 t.trip ++ leBytes 7 t.card ++ leBytes 4 t.start ++ [planByte t]
      ++ leBytes 2 (checkWord (tagCovered bike mark (some t))).toNat)
    (by simp) (by omega) (by rw [tagBytes_stamped]; simp only [List.append_assoc])

theorem tagBytes_trip (h : t.trip ≤ 65535) :
    field (tagBytes bike mark (some t)) 7 2 = t.trip :=
  field_number
    (a := leBytes 4 bike ++ [BitVec.ofNat 8 ((if mark then 1 else 0) + 2)] ++ leBytes 2 t.origin)
    (c := leBytes 7 t.card ++ leBytes 4 t.start ++ [planByte t]
      ++ leBytes 2 (checkWord (tagCovered bike mark (some t))).toNat)
    (by simp) (by omega) (by rw [tagBytes_stamped]; simp only [List.append_assoc])

theorem tagBytes_card (h : t.card < 72057594037927936) :
    field (tagBytes bike mark (some t)) 9 7 = t.card :=
  field_number
    (a := leBytes 4 bike ++ [BitVec.ofNat 8 ((if mark then 1 else 0) + 2)] ++ leBytes 2 t.origin
      ++ leBytes 2 t.trip)
    (c := leBytes 4 t.start ++ [planByte t]
      ++ leBytes 2 (checkWord (tagCovered bike mark (some t))).toNat)
    (by simp) (by omega) (by rw [tagBytes_stamped]; simp only [List.append_assoc])

theorem tagBytes_start (h : t.start ≤ 4294967295) :
    field (tagBytes bike mark (some t)) 16 4 = t.start :=
  field_number
    (a := leBytes 4 bike ++ [BitVec.ofNat 8 ((if mark then 1 else 0) + 2)] ++ leBytes 2 t.origin
      ++ leBytes 2 t.trip ++ leBytes 7 t.card)
    (c := [planByte t] ++ leBytes 2 (checkWord (tagCovered bike mark (some t))).toNat)
    (by simp) (by omega) (by rw [tagBytes_stamped]; simp only [List.append_assoc])

theorem tagBytes_plan :
    field (tagBytes bike mark (some t)) 20 1 = t.plan % 16 + 16 * authCode t.auth := by
  rw [field_byte (x := planByte t)
    (a := leBytes 4 bike ++ [BitVec.ofNat 8 ((if mark then 1 else 0) + 2)] ++ leBytes 2 t.origin
      ++ leBytes 2 t.trip ++ leBytes 7 t.card ++ leBytes 4 t.start)
    (by simp) (tagBytes_stamped bike mark t), planByte, BitVec.toNat_ofNat]
  cases t.auth <;> simp only [authCode] <;> omega

end

theorem authOf_authCode (a : AuthKind) : authOf (authCode a) = some a := by cases a <;> rfl

theorem authCode_lt (a : AuthKind) : authCode a < 3 := by cases a <;> decide

theorem tagReading_unstamped {bike : Nat} (mark : Bool) (h0 : 0 < bike) (h : bike ≤ 4294967295) :
    tagReading (some (tagBytes bike mark none)) = .readable bike mark none := by
  unfold tagReading
  dsimp only
  rw [tagBytes_bike mark none h, tagBytes_bits,
    if_neg (not_or.2 ⟨not_not.2 (tagBytes_length _ _ _), Nat.ne_of_gt h0⟩)]
  cases mark <;> rfl

/-- A stamped tag's record read, by its fields (R25). -/
theorem tagReading_stamped {bike : Nat} (mark : Bool) {t : Stamp} (h0 : 0 < bike)
    (h : bike ≤ 4294967295) (ho : t.origin ≤ 65535) (ht : t.trip ≤ 65535)
    (hc : t.card < 72057594037927936) (hs : t.start ≤ 4294967295) (hp : t.plan ≤ 15) :
    tagReading (some (tagBytes bike mark (some t))) =
      if t.origin = 0 ∨ t.card = 0 then .unreadable else .readable bike mark (some t) := by
  have hauth : (t.plan % 16 + 16 * authCode t.auth) / 16 % 4 = authCode t.auth := by
    have := authCode_lt t.auth
    omega
  have hplan : (t.plan % 16 + 16 * authCode t.auth) % 16 = t.plan := by omega
  unfold tagReading
  dsimp only
  rw [tagBytes_bike mark (some t) h, tagBytes_bits, tagBytes_plan, hauth, hplan, authOf_authCode,
    tagBytes_origin _ _ _ ho, tagBytes_trip _ _ _ ht, tagBytes_card _ _ _ hc,
    tagBytes_start _ _ _ hs,
    if_neg (not_or.2 ⟨not_not.2 (tagBytes_length _ _ _), Nat.ne_of_gt h0⟩)]
  cases mark <;> simp

theorem tagReading_zero (mark : Bool) (stamp : Option Stamp) :
    tagReading (some (tagBytes 0 mark stamp)) = .unreadable := by
  unfold tagReading
  dsimp only
  rw [if_pos (.inr (tagBytes_bike mark stamp (by omega)))]

/-! ### Member records (R206) -/

theorem memberBytes_length (m : MemberRecord) : (memberBytes m).length = 19 := by
  simp [memberBytes, signedBytes]

theorem signed32_bytes {x : Int} (h0 : -2147483648 ≤ x) (h1 : x ≤ 2147483647) :
    signed32 (x % 4294967296).toNat = x := by
  unfold signed32
  split <;> omega

theorem memberOf_memberBytes {m : MemberRecord} (hc : m.card < 72057594037927936)
    (hs : m.standing ≤ 255) (hp : m.plan ≤ 255) (hb0 : -2147483648 ≤ m.balance)
    (hb1 : m.balance ≤ 2147483647) (hl : m.hireLimit ≤ 255) (ho : m.baseOpen ≤ 255)
    (hm : m.baseMark ≤ 4294967295) : memberOf (memberBytes m) = some m := by
  have hcard : field (memberBytes m) 0 7 = m.card :=
    field_number (a := [])
      (c := leBytes 1 m.standing ++ leBytes 1 m.plan ++ signedBytes m.balance
        ++ leBytes 1 m.hireLimit ++ leBytes 1 m.baseOpen ++ leBytes 4 m.baseMark)
      rfl (by omega) (by simp only [memberBytes, List.append_assoc, List.nil_append])
  have hstanding : field (memberBytes m) 7 1 = m.standing :=
    field_number (a := leBytes 7 m.card)
      (c := leBytes 1 m.plan ++ signedBytes m.balance
        ++ leBytes 1 m.hireLimit ++ leBytes 1 m.baseOpen ++ leBytes 4 m.baseMark)
      (by simp) (by omega) (by simp only [memberBytes, List.append_assoc])
  have hplan : field (memberBytes m) 8 1 = m.plan :=
    field_number (a := leBytes 7 m.card ++ leBytes 1 m.standing)
      (c := signedBytes m.balance
        ++ leBytes 1 m.hireLimit ++ leBytes 1 m.baseOpen ++ leBytes 4 m.baseMark)
      (by simp) (by omega) (by simp only [memberBytes, List.append_assoc])
  have hbalance : field (memberBytes m) 9 4 = (m.balance % 4294967296).toNat :=
    field_number (a := leBytes 7 m.card ++ leBytes 1 m.standing ++ leBytes 1 m.plan)
      (c := leBytes 1 m.hireLimit ++ leBytes 1 m.baseOpen ++ leBytes 4 m.baseMark)
      (by simp) (by omega) (by simp only [memberBytes, signedBytes, List.append_assoc])
  have hlimit : field (memberBytes m) 13 1 = m.hireLimit :=
    field_number (a := leBytes 7 m.card ++ leBytes 1 m.standing ++ leBytes 1 m.plan
        ++ signedBytes m.balance)
      (c := leBytes 1 m.baseOpen ++ leBytes 4 m.baseMark)
      (by simp [signedBytes]) (by omega) (by simp only [memberBytes, List.append_assoc])
  have hopen : field (memberBytes m) 14 1 = m.baseOpen :=
    field_number (a := leBytes 7 m.card ++ leBytes 1 m.standing ++ leBytes 1 m.plan
        ++ signedBytes m.balance ++ leBytes 1 m.hireLimit)
      (c := leBytes 4 m.baseMark)
      (by simp [signedBytes]) (by omega) (by simp only [memberBytes, List.append_assoc])
  have hmark : field (memberBytes m) 15 4 = m.baseMark :=
    field_number (a := leBytes 7 m.card ++ leBytes 1 m.standing ++ leBytes 1 m.plan
        ++ signedBytes m.balance ++ leBytes 1 m.hireLimit ++ leBytes 1 m.baseOpen)
      (c := []) (by simp [signedBytes]) (by omega)
      (by simp only [memberBytes, List.append_assoc, List.append_nil])
  rw [memberOf, if_pos (memberBytes_length m), hcard, hstanding, hplan, hbalance, hlimit, hopen,
    hmark, signed32_bytes hb0 hb1]

/-! ### Reports (R207) -/

theorem reportPlaceBytes_length (p : Option ReportPlace) : (reportPlaceBytes p).length = 9 := by
  cases p <;> simp [reportPlaceBytes]

theorem fareBytes_length (f : Option Nat) : (fareBytes f).length = 2 := by
  cases f <;> simp [fareBytes]

theorem moveBytes_length (m : Option MovePart) : (moveBytes m).length = 3 := by
  cases m <;> simp [moveBytes]

theorem reportBytes_length (r : Report) : (reportBytes r).length = 40 := by
  simp [reportBytes, reportPlaceBytes_length, fareBytes_length, moveBytes_length]

/-- Settles O60. -/
theorem recordBytesReadBack : Obligations.RecordBytesReadBack := by
  refine ⟨fun bike mark h0 h => ⟨tagReading_unstamped mark h0 h, fun stamp ho ht hc hs hp =>
      ⟨fun ho0 hc0 => ?_, fun hz => ?_⟩⟩,
    tagReading_zero, rfl, tagBytes_length,
    fun m hc hs hp hb0 hb1 hl ho hm =>
      ⟨memberOf_memberBytes hc hs hp hb0 hb1 hl ho hm, memberBytes_length m⟩,
    reportBytes_length⟩
  · rw [tagReading_stamped mark h0 h ho ht hc hs hp,
      if_neg (not_or.2 ⟨Nat.ne_of_gt ho0, Nat.ne_of_gt hc0⟩)]
  · rw [tagReading_stamped mark h0 h ho ht hc hs hp, if_pos hz]

end Sys2Proof.Machine
end

section
/-! The execution of work orders (R134, R135, R140, R141, R146). -/

namespace Sys2Proof.Machine

/-! ### The slot that runs or waits -/

theorem findSome_only {α β : Type} {f : α → Option β} {l : List α} {a : α} {b : β} (hm : a ∈ l)
    (ha : f a = some b) (hn : ∀ c, c ≠ a → f c = none) : l.findSome? f = some b := by
  induction l with
  | nil => cases hm
  | cons c l ih =>
    by_cases hc : c = a
    · rw [List.findSome?_cons, hc, ha]
    · rw [List.findSome?_cons, hn c hc]
      exact ih ((List.mem_cons.1 hm).resolve_left fun h => hc h.symm)

/-- No slot but one is RUNNING or WAITING. -/
def OthersIdle (i : Fin 2) (s : State) : Prop :=
  ∀ j v, j ≠ i → vget s.woe.slots j = some v → v.state ≠ .running ∧ v.state ≠ .waiting

section
variable {s : State} {i : Fin 2} {w : WorkSlot}

theorem runningSlot_eq (hi : vget s.woe.slots i = some w) (hst : w.state = .running)
    (ho : OthersIdle i s) : runningSlot s = some (i, w) := by
  refine findSome_only (mem_finList i) ?_ fun j hj => ?_
  · simp only [slotOf, hi, hst, if_true]
  · simp only [slotOf]
    cases hv : vget s.woe.slots j with
    | none => rfl
    | some v => simp only [if_neg (ho j v hj hv).1]

theorem placingSlot_eq {placed deadline count timeout : Nat} (hi : vget s.woe.slots i = some w)
    (hst : w.state = .waiting) (hp : w.progress = some (.place placed deadline))
    (ho : w.orders[w.index]? = some (.place count timeout)) (hlt : placed < count)
    (hidle : ∀ j v, j ≠ i → vget s.woe.slots j = some v → v.state ≠ .waiting) :
    placingSlot s = some (i, w, placed, count, deadline) := by
  refine findSome_only (mem_finList i) ?_ fun j hj => ?_
  · simp only [slotOf, hi, hst, hp, ho, if_pos hlt]
  · simp only [slotOf]
    cases hv : vget s.woe.slots j with
    | none => rfl
    | some v =>
      have hne := hidle j v hj hv
      dsimp only
      split
      case h_1 hwait _ _ => exact absurd hwait hne
      case h_2 => rfl

/-! ### The checks (R135) -/

theorem permits_iff (c : Crew) (d : Nat) :
    permits c d = true ↔ d < c.mapLength ∧ c.map[d]? = some true := by
  unfold permits
  cases c.map[d]? <;> simp

/-- A crew is permitted every dock that an order names. -/
def OrderAllowed (c : Crew) (o : Order) : Prop :=
  ∀ d ∈ namedDocks o, d < c.mapLength ∧ c.map[d]? = some true

theorem allPermitted_iff (c : Crew) (o : Order) :
    ((namedDocks o).all fun d => permits c d) = true ↔ OrderAllowed c o := by
  simp only [List.all_eq_true, permits_iff, OrderAllowed]

theorem mildOrder_iff (o : Order) :
    mildOrder o = true ↔ orderKindOf o = .resume ∨ orderKindOf o = .clearBike
      ∨ orderKindOf o = .clearFault := by
  cases o <;> simp [mildOrder, orderKindOf]

variable {o : Order} {c : Crew}

theorem checkOrder_limit (h : 96 ≤ w.executed) : checkOrder w o s = .abort .orderLimit := if_pos h

theorem checkOrder_unknown (h : w.executed < 96) (hc : crewOf w.crew s = none) :
    checkOrder w o s = .abort .unknownCrew := by
  rw [checkOrder, if_neg (Nat.not_le.2 h), hc]

theorem checkOrder_permission (h : w.executed < 96) (hc : crewOf w.crew s = some c)
    (ha : ¬OrderAllowed c o) : checkOrder w o s = .abort .permission := by
  have hall := Bool.eq_false_iff.2 (mt (allPermitted_iff c o).1 ha)
  rw [checkOrder, if_neg (Nat.not_le.2 h), hc]
  dsimp only
  rw [hall]
  rfl

theorem checkOrder_floor (h : w.executed < 96) (hc : crewOf w.crew s = some c)
    (ha : OrderAllowed c o) :
    checkOrder w o s =
      if vget s.woe.floors (orderIndex (orderKindOf o)) < c.level then
        if mildOrder o then .notApplied else .abort .level
      else .execute := by
  have hall := (allPermitted_iff c o).2 ha
  rw [checkOrder, if_neg (Nat.not_le.2 h), hc]
  dsimp only
  rw [hall]
  rfl

/-! ### One execution (R134) -/

theorem readForOrder_clean (hc : Clean s) : readForOrder w o s = s := by
  unfold readForOrder
  rw [readCrews_clean hc, readPlaces_clean hc rfl, ite_self]

theorem executeRunning_eq (hc : Clean s) (hi : vget s.woe.slots i = some w)
    (hst : w.state = .running) (hidle : OthersIdle i s) (ho : w.orders[w.index]? = some o) :
    executeRunning s =
      match checkOrder w o s with
      | .abort reason => abortActive i w reason s
      | .notApplied =>
        completeOrder i { w with executed := w.executed + 1 } .notApplied (w.index + 1) s
      | .execute => runOrder i { w with executed := w.executed + 1 } o s := by
  rw [executeRunning, runningSlot_eq hi hst hidle]
  dsimp only
  rw [executeSlot, ho]
  dsimp only
  cases hck : checkOrder w o s <;> simp only [readForOrder_clean hc, hck]

/-- The abort of a slot whose order was not begun. -/
theorem abortActive_unbegun {reason : AbortReason} (hp : w.progress = none) :
    abortActive i w reason s =
      startListJudged (abortRaised i w reason 0 (slotPut i
        { w with
          state := .aborted, abort := some (reason, w.index), endedAt := some (stationTime s) }
        s)) := by
  rw [abortActive_cut (cut := []) (by rw [cutResult, hp]) (left := 0) (by rw [leftOutstanding, hp]),
    List.append_nil, ← hp]

theorem runEnd_quiet : runOrder i w (.endList false) s =
    startListJudged (slotPut i
      { w with
        state := .ended, results := w.results ++ [.done 0], index := w.index + 1,
        endedAt := some (stationTime s) } s) :=
  endSlot_judged i { w with results := w.results ++ [.done 0], index := w.index + 1 } s

theorem runJump_always {target : Nat} : runOrder i w (.jumpIf .always target) s =
    orderCompleted i w (.done 1) target s :=
  completeOrder_completed i w (.done 1) target s

theorem orderCompleted_next {r : OrderResult} {next : Nat} (h : next < w.orders.length) :
    orderCompleted i w r next s =
      slotPut i
        { w with
          results := w.results ++ [r], index := next, progress := none, state := .running } s :=
  if_pos h

theorem runPlace_waits {count timeout : Nat} : runOrder i w (.place count timeout) s =
    slotPut i
      { w with
        state := .waiting, progress := some (.place 0 (s.sc.timebase + 1000 * timeout)) } s := rfl

end

theorem running_step {f : State → State} {s y : State} (hr : running s = true) (hf : f s = y) :
    stepOf (whileRunning f) s = .next (endStep y) := by
  rw [stepOf_eq, whileRunning_eq hr, hf]

/-- Settles O46. -/
theorem ordersAreCheckedAndRun : Obligations.OrdersAreCheckedAndRun := by
  intro s i w hrun hi hidle executes goes
  refine ⟨fun hst hc o ho => ?execute,
    fun placed deadline count timeout hst hp ho hlt => ?deadline⟩
  case deadline =>
    refine running_step hrun ?_
    rw [placeExpires, placingSlot_eq hi hst hp ho hlt fun j v hj hv => (hidle j v hj hv).2]
    exact completeOrder_completed _ _ _ _ _
  case execute =>
    have hexec := executeRunning_eq hc hi hst hidle ho
    have habort : ∀ reason, checkOrder w o s = .abort reason → w.progress = none →
        stepOf (whileRunning executeRunning) s = .next (endStep (startListJudged
          (abortRaised i w reason 0 (slotPut i
            { w with
              state := .aborted, abort := some (reason, w.index),
              endedAt := some (stationTime s) } s)))) := fun reason hcheck hp => by
      refine running_step hrun ?_
      rw [hexec, hcheck]
      exact abortActive_unbegun hp
    intro aborts
    refine ⟨fun h => habort _ (checkOrder_limit h), fun h =>
      ⟨fun hcrew => habort _ (checkOrder_unknown h hcrew), fun c hcrew =>
        ⟨fun ha => habort _ (checkOrder_permission h hcrew ha), fun ha => ?_⟩⟩⟩
    have hfloor := checkOrder_floor h hcrew ha
    refine ⟨fun hl hm => habort _ ?_, fun hl hm => ?_, fun hl => ?_⟩
    · rw [hfloor, if_pos hl, if_neg (mt (mildOrder_iff o).1 hm)]
    · refine running_step hrun ?_
      rw [hexec, hfloor, if_pos hl, if_pos ((mildOrder_iff o).2 hm)]
      exact completeOrder_completed _ _ _ _ _
    · have hrunOrder : executeRunning s = runOrder i { w with executed := w.executed + 1 } o s := by
        rw [hexec, hfloor, if_neg (Nat.not_lt.2 hl)]
      have hslot : ∀ v, executeRunning s = slotPut i v s → executes v := fun v hv => by
        obtain ⟨t, hstep, hports, hrs, ht⟩ := event_step hrun hv rfl
        exact ⟨t, hstep, hports, kept_of_rs hrs rfl, ht⟩
      refine ⟨running_step hrun hrunOrder, fun hend => ?_, fun target hjump hlt => ?_,
        fun count timeout hplace => ?_⟩
      · subst hend
        exact running_step hrun (hrunOrder.trans runEnd_quiet)
      · subst hjump
        refine hslot _ (hrunOrder.trans (runJump_always.trans ?_))
        rw [orderCompleted_next (by exact hlt), ← hst]
      · subst hplace
        exact hslot _ (hrunOrder.trans runPlace_waits)

end Sys2Proof.Machine
end

section
/-! What each kind of order does (R137 to R146). -/

namespace Sys2Proof.Machine

section
variable {s : State} {i : Fin 2} {w : WorkSlot}

/-! ### COLLECT (R137 to R139) -/

/-- The part with a slot in WAITING. -/
def slotWaits (i : Fin 2) (w : WorkSlot) (p : Progress) (x : State) : State :=
  { x with woe := { x.woe with
    slots := vset x.woe.slots i (some { w with state := .waiting, progress := some p }) } }

theorem collectGoesOn_nil (taken ended : Nat) (stopped : Bool) (x : State) :
    collectGoesOn i w [] taken ended stopped x =
      orderCompleted i w (if stopped then .partialDone taken .backlog else .done taken)
        (w.index + 1) x :=
  completeOrder_completed _ _ _ _ _

theorem collectGoesOn_some {out : List DockNo} (h : out ≠ []) (taken ended : Nat) (stopped : Bool)
    (x : State) :
    collectGoesOn i w out taken ended stopped x =
      slotWaits i w (.collect out taken ended stopped) x := by
  rw [collectGoesOn, if_neg (by simpa using h)]
  rfl

theorem runCollect_eq {first last count : Nat} {f : Bool} (hc : Clean s) :
    runOrder i w (.collect first last count f) s =
      let r := selectDocks (.order i w.index w.crew) count f (dockRange first last) [] s
      collectGoesOn i w r.1 0 0 r.2.1 r.2.2 := by
  rw [runOrder, runCollect, readRegistry_clean hc]

theorem select_full {h : Holder} {count : Nat} {f : Bool} {d : DockNo} {rest taken : List DockNo}
    {x : State} (hl : count ≤ taken.length) :
    selectDocks h count f (d :: rest) taken x = (taken, false, x) := if_pos hl

theorem collectOutcome_eq {d : DockNo} {got : Bool} {out : List DockNo} {taken ended : Nat}
    {stopped : Bool} (hi : vget s.woe.slots i = some w) (hst : w.state = .waiting)
    (hp : w.progress = some (.collect out taken ended stopped)) :
    collectOutcome d i got s =
      if d ∈ out then
        collectGoesOn i w (out.erase d) (if got = true then taken + 1 else taken)
          (if got = true then ended else ended + 1) stopped s
      else s := by
  unfold collectOutcome
  simp only [slotOf, hi, hst, hp, List.contains_iff_mem]

theorem collectOutcome_other {d : DockNo} {got : Bool} (hi : vget s.woe.slots i = some w)
    (hst : w.state ≠ .waiting) : collectOutcome d i got s = s := by
  unfold collectOutcome
  simp only [slotOf, hi]
  split
  case h_1 hwait _ => exact absurd hwait hst
  case h_2 => rfl

/-! ### SUSPEND and RESUME (R142, R143) -/

theorem runSuspend_eq (first last : Nat) :
    runOrder i w (.suspend first last) s =
      orderCompleted i w
        (.done ((dockRange first last).countP fun d => decide ((dockOf d s).suspended = false)))
        (w.index + 1) ((dockRange first last).foldl (fun x d => suspendDock d x) s) := by
  have hcount : ((dockRange first last).filter fun d => !(dockOf d s).suspended).length =
      (dockRange first last).countP fun d => decide ((dockOf d s).suspended = false) := by
    rw [List.countP_eq_length_filter]
    congr 2
    funext d
    cases (dockOf d s).suspended <;> rfl
  rw [runOrder, runSuspend, hcount]
  exact completeOrder_completed _ _ _ _ _

theorem resumeDocks_resumed {d : DockNo} {rest : List DockNo} {n : Nat}
    (h : (resumeDock d s).1 = .resumed) :
    resumeDocks (d :: rest) n s = resumeDocks rest (n + 1) (resumeDock d s).2 := by
  simp only [resumeDocks, h]

theorem resumeDocks_backlog {d : DockNo} {rest : List DockNo} {n : Nat}
    (h : (resumeDock d s).1 = .backlog) :
    resumeDocks (d :: rest) n s = (n, true, (resumeDock d s).2) := by
  simp only [resumeDocks, h]

theorem resumeDocks_other {d : DockNo} {rest : List DockNo} {n : Nat}
    (h : (resumeDock d s).1 ≠ .resumed) (h' : (resumeDock d s).1 ≠ .backlog) :
    resumeDocks (d :: rest) n s = resumeDocks rest n (resumeDock d s).2 := by
  rw [resumeDocks]
  cases ha : (resumeDock d s).1 with
  | resumed => exact absurd ha h
  | backlog => exact absurd ha h'
  | unchanged => rfl
  | busy => rfl
  | notResumable => rfl

/-! ### FLAG_BIKE and CLEAR_BIKE (R144) -/

theorem runFlagBike_eq {bike : Nat} (hc : Clean s) :
    runOrder i w (.flagBike bike) s =
      orderCompleted i w
        (match flagOutcome bike s with
        | .entered => .done 1
        | .present _ => .done 0
        | .full => .partialDone 0 .registryFull)
        (w.index + 1) (enterFlag bike .crew s) := by
  rw [runOrder, runFlagBike, readRegistry_clean hc]
  exact completeOrder_completed _ _ _ _ _

theorem flagOutcome_some {bike : Nat} (h : ∃ e ∈ s.flt.registry, e.bike = bike) :
    ∃ e, flagOutcome bike s = .present e := by
  obtain ⟨e, he, hb⟩ := h
  cases hf : s.flt.registry.find? fun e => decide (e.bike = bike) with
  | some e => exact ⟨e, flagOutcome_present hf⟩
  | none => exact absurd hb (by simpa using List.find?_eq_none.1 hf e he)

theorem runClearBike_eq {bike : Nat} {named : Option DockNo} (hc : Clean s)
    (hn : dockNaming bike (clearFlag bike s) = named) :
    runOrder i w (.clearBike bike) s =
      orderCompleted i w (.done (if flagged bike s then 1 else 0)) (w.index + 1)
        ((clearFlag bike s).setDlc
          { (clearFlag bike s).dlc with lines := markPlaced named (clearFlag bike s) }) := by
  subst hn
  rw [runOrder, runClearBike, readRegistry_clean hc]
  rw [completeOrder_completed, clearBike]
  cases dockNaming bike (clearFlag bike s) <;> rfl

/-- The part with a MARK clear placed at the dock that names a bike. -/
def marksCleared (named : Option DockNo) (x : State) : State :=
  match named with
  | some d =>
    let l := lineOf d x
    let l' := { l with waiting := placeIn (.mark false) l.waiting }
    { x with dlc := { x.dlc with lines := vset x.dlc.lines d l' } }
  | none => x

theorem marksCleared_eq (named : Option DockNo) (x : State) :
    x.setDlc { x.dlc with lines := markPlaced named x } = marksCleared named x := by
  cases named <;> rfl

/-! ### CLEAR_FAULT (R145) -/

theorem kindsToClear_eq (choice : FaultChoice) (f : FaultSet) :
    kindsToClear choice f =
      faultKinds.filter fun k => decide (choice = .all ∨ choice = .kind k) && f.has k := by
  unfold kindsToClear
  rw [List.filter_filter]
  refine List.filter_congr fun k _ => ?_
  rw [Bool.and_comm]
  congr 1
  cases choice with
  | all => simp
  | kind c => simp [eq_comm]

theorem runClearFault_eq (d : DockNo) (choice : FaultChoice) :
    runOrder i w (.clearFault d.val choice) s =
      let r := clearKinds d
        (faultKinds.filter fun k =>
          decide (choice = .all ∨ choice = .kind k) && (dockOf d s).faults.has k) 0 false s
      orderCompleted i w (if r.2.1 then .partialDone r.1 .backlog else .done r.1) (w.index + 1)
        r.2.2 := by
  have hd : (⟨d.val % 48, Nat.mod_lt _ (by decide)⟩ : DockNo) = d :=
    Fin.ext (Nat.mod_eq_of_lt d.isLt)
  rw [runOrder, runClearFault, hd, kindsToClear_eq]
  exact completeOrder_completed _ _ _ _ _

section
variable {d : DockNo} {k : FaultKind}

/-- A dock with a probe started that takes a kind out of its fault set. -/
def probed (d : DockNo) (k : FaultKind) (clearing : Bool) (claim : Nat) (x : State) : State :=
  dockPut d
    { dockOf d x with
      deadline := some (.actuation none false), faults := (dockOf d x).faults.put k false }
    { lineOf d x with waiting := placeIn (.relock clearing .probe) (lineOf d x).waiting } claim x

theorem clearKind_probes (hr : ClaimsRight s) (hk : k = .lockJam) (hj : (dockOf d s).state = .jammed)
    (hd : (dockOf d s).deadline = none) :
    clearKind d k s =
      (true, probed d k ((dockOf d s).holder.any fun h => decide (holderKind h = .hire))
        (vget s.rq.claims d) s) := by
  have hclaim : claimOf { dockOf d s with
      deadline := some (.actuation none false),
      faults := (dockOf d s).faults.put .lockJam false } = vget s.rq.claims d := by
    rw [hr.claim d]
    simp [claimOf, hj]
  subst hk
  unfold clearKind
  dsimp only
  rw [if_pos ⟨hj, hd⟩, probe_put, hclaim]
  rfl

theorem clearKind_readmits (hc : Clean s) (hk : k = .dockReturned)
    (hp : (dockOf d s).state = .parked) (hg : gateAdmits 1 s = true) :
    clearKind d k s = (true, probed d k false 1 s) := by
  have hclaim : claimOf { dockOf d s with
      deadline := some (.actuation none false),
      faults := (dockOf d s).faults.put .dockReturned false } = 1 := by
    simp [claimOf, hp, actuating]
  subst hk
  unfold clearKind
  dsimp only
  rw [if_pos hp, readmit, readQueueHead_clean hc, if_pos hg, probe_put, hclaim]
  rfl

theorem clearKind_stays (hc : Clean s) (hk : k = .dockReturned)
    (hp : (dockOf d s).state = .parked) (hg : gateAdmits 1 s = false) :
    clearKind d k s = (false, s) := by
  subst hk
  unfold clearKind
  dsimp only
  rw [if_pos hp, readmit, readQueueHead_clean hc, if_neg (by simp [hg])]

theorem clearKind_leaves (hr : ClaimsRight s)
    (hn : ¬(k = .dockReturned ∧ (dockOf d s).state = .parked))
    (hp : ¬(k = .lockJam ∧ (dockOf d s).state = .jammed ∧ (dockOf d s).deadline = none)) :
    clearKind d k s =
      (true, dockPut d { dockOf d s with faults := (dockOf d s).faults.put k false } (lineOf d s)
        (vget s.rq.claims d) s) := by
  rw [← clearDockFault_put hr]
  unfold clearKind
  split
  · exact if_neg fun h => hp ⟨rfl, h⟩
  · exact if_neg fun h => hn ⟨rfl, h⟩
  · rfl

theorem clearKinds_removed {rest : List FaultKind} {n : Nat} {stayed : Bool} {y : State}
    (h : clearKind d k s = (true, y)) :
    clearKinds d (k :: rest) n stayed s = clearKinds d rest (n + 1) stayed y := by
  simp only [clearKinds, h, if_true, Bool.not_true, Bool.or_false]

theorem clearKinds_stayed {rest : List FaultKind} {n : Nat} {stayed : Bool} {y : State}
    (h : clearKind d k s = (false, y)) :
    clearKinds d (k :: rest) n stayed s = clearKinds d rest n true y := by
  simp only [clearKinds, h, Bool.false_eq_true, if_false, Bool.not_false, Bool.or_true]

end

/-! ### JUMP_IF and END (R146) -/

/-- Whether a condition of JUMP_IF holds. -/
def JumpHolds (cond : Condition) (w : WorkSlot) (s : State) : Prop :=
  let vacant := allDocks.countP fun d =>
    decide ((dockOf d s).state = .vacant) && !(dockOf d s).suspended
  let hireables := allDocks.countP fun d => hireable d s
  let last := match w.results.getLast? with
    | some (.done n) => n
    | some (.partialDone n _) => n
    | _ => 0
  cond = .always ∨ (∃ n, cond = .vacantAtLeast n ∧ n ≤ vacant)
    ∨ (∃ n, cond = .hireableAtLeast n ∧ n ≤ hireables) ∨ ∃ n, cond = .lastBelow n ∧ last < n

theorem conditionHolds_iff (cond : Condition) (w : WorkSlot) (s : State) :
    conditionHolds cond w s = true ↔ JumpHolds cond w s := by
  unfold JumpHolds
  cases cond with
  | always => simp [conditionHolds]
  | vacantAtLeast n => simp [conditionHolds, List.countP_eq_length_filter]
  | hireableAtLeast n => simp [conditionHolds, List.countP_eq_length_filter]
  | lastBelow n =>
    constructor
    · exact fun h => .inr (.inr (.inr ⟨n, rfl, of_decide_eq_true h⟩))
    · rintro (h | ⟨m, h, -⟩ | ⟨m, h, -⟩ | ⟨m, h, hm⟩)
      · cases h
      · cases h
      · cases h
      · cases h
        exact decide_eq_true hm

theorem runJump_eq {cond : Condition} {target : Nat} (hc : Clean s) :
    runOrder i w (.jumpIf cond target) s =
      if conditionHolds cond w s then orderCompleted i w (.done 1) target s
      else orderCompleted i w (.done 0) (w.index + 1) s := by
  unfold runOrder runJump
  cases cond <;> simp only [readRegistry_clean hc, completeOrder_completed]

theorem runEnd_eq (notify : Bool) :
    runOrder i w (.endList notify) s =
      let ended := startListJudged (slotPut i
        { w with
          state := .ended, results := w.results ++ [.done 0], index := w.index + 1,
          endedAt := some (stationTime s) } s)
      if notify = true then
        { ended with pi := { ended.pi with service := { ended.pi.service with
          events := { ended.pi.service.events with orderEnded := true },
          reported := { ended.pi.service.reported with orderEnded := false } } } }
      else ended := by
  cases notify with
  | false => exact runEnd_quiet
  | true =>
    have hpi : (startListJudged (slotPut i
        { w with
          state := .ended, results := w.results ++ [.done 0], index := w.index + 1,
          endedAt := some (stationTime s) } s)).pi = s.pi := by
      rw [startListJudged_frame]
      rfl
    dsimp only
    rw [if_pos rfl, hpi, ← startListJudged_ports]
    exact endSlot_judged i { w with results := w.results ++ [.done 0], index := w.index + 1 }
      (setEvent .service .orderEnded s)

end

/-- Settles O47. -/
theorem ordersActOnTheDocks : Obligations.OrdersActOnTheDocks := by
  intro s i w hc hr runs completes done waits range admits h
  refine ⟨fun first last count flagged => ?collect, fun d got hi => ?outcome,
    fun first last => runSuspend_eq first last, fun first last => ?resume, fun bike => ?bikes,
    fun d choice => ?clear, fun cond target => ?jump, fun notify => runEnd_eq notify⟩
  case collect =>
    intro select y stopped
    have hrun := runCollect_eq (i := i) (w := w) (first := first) (last := last) (count := count)
      (f := flagged) hc
    refine ⟨fun hnil => ?_, fun hsome => ?_, fun d rest taken x hcx hrx => ?_⟩
    · rw [show runs (.collect first last count flagged) = _ from hrun]
      dsimp only
      rw [show (selectDocks h count flagged (dockRange first last) [] s).1 = [] from hnil]
      exact collectGoesOn_nil _ _ _ _
    · exact hrun.trans (collectGoesOn_some hsome _ _ _ _)
    · intro r eligible' n
      refine ⟨rfl, select_full, fun hlt => ⟨fun hno => ?_, fun he hd => ⟨fun hg => ?_, fun hg => ?_⟩⟩⟩
      · exact (select_step hcx hrx h count flagged d rest taken hlt).1
          (Bool.eq_false_iff.2 (mt (eligible_eq d flagged x).1 hno))
      · exact ((select_step hcx hrx h count flagged d rest taken hlt).2
          ((eligible_eq d flagged x).2 he) hd).1 (Bool.eq_false_iff.2 (mt (gate_eq n x).1 hg))
      · have hstep := ((select_step hcx hrx h count flagged d rest taken hlt).2
          ((eligible_eq d flagged x).2 he) hd).2 ((gate_eq n x).2 hg)
        rw [order_release d h he.1] at hstep
        exact hstep
  case outcome =>
    refine ⟨fun out taken ended stopped hst hp => ?_, fun hst => collectOutcome_other hi hst⟩
    have hout := collectOutcome_eq (d := d) (got := got) hi hst hp
    refine ⟨fun hm hnil => ?_, fun hm hsome => ?_, fun hm => ?_⟩
    · rw [hout, if_pos hm, hnil]
      exact collectGoesOn_nil _ _ _ _
    · rw [hout, if_pos hm]
      exact collectGoesOn_some hsome _ _ _ _
    · rw [hout, if_neg hm]
  case resume =>
    intro r
    exact ⟨completeOrder_completed _ _ _ _ _, fun d rest n x =>
      ⟨rfl, resumeDocks_resumed, resumeDocks_backlog, resumeDocks_other⟩⟩
  case bikes =>
    intro registry present
    refine ⟨fun hp => ?_, fun hp hl => ?_, fun hp hl => ?_, fun named h0 hd hn => ?_⟩
    · obtain ⟨e, he⟩ := flagOutcome_some (s := s) hp
      refine (runFlagBike_eq hc).trans ?_
      rw [he, enterFlag_present hp]
    · have hno : ∀ e ∈ s.flt.registry, e.bike ≠ bike := fun e he hb => hp ⟨e, he, hb⟩
      refine (runFlagBike_eq hc).trans ?_
      rw [flagOutcome_entered hno hl]
    · have hno : ∀ e ∈ s.flt.registry, e.bike ≠ bike := fun e he hb => hp ⟨e, he, hb⟩
      refine (runFlagBike_eq hc).trans ?_
      rw [flagOutcome_full.2 ⟨hno, hl⟩, enterFlag_full hno hl]
      rfl
    · have hnaming : ∀ y : State, y.dlc = s.dlc → dockNaming bike y = named := fun y hy =>
        dockNaming_eq (s := y) h0 ⟨fun d e => by rw [dockOf, hy]; simpa only [dockOf, hy] using hd d e,
          fun e d => by rw [dockOf, hy]; exact hn e d⟩
      refine ⟨fun hp => ?_, fun a e b hreg he ha => ?_⟩
      · have hno : ∀ e ∈ s.flt.registry, e.bike ≠ bike := fun e he hb => hp ⟨e, he, hb⟩
        have hclear : clearFlag bike s = s := clearFlag_absent hno
        refine (runClearBike_eq hc (hnaming _ (by rw [hclear]))).trans ?_
        rw [hclear, (flagged_iff bike s).2 hno, marksCleared_eq]
        rfl
      · have hclear := (clearFlag_removed hreg he ha).trans (removed_flag s a b e hreg)
        have hmem : e ∈ s.flt.registry := by
          rw [show s.flt.registry = a ++ e :: b from hreg]
          exact List.mem_append_right a List.mem_cons_self
        have hflag : flagged bike s = true := flagged_of_mem hmem he
        refine (runClearBike_eq hc (hnaming _ (by rw [hclear]))).trans ?_
        rw [hclear, hflag, marksCleared_eq]
        rfl
  case clear =>
    intro kinds r
    refine ⟨runClearFault_eq d choice, fun n stayed x hcx hrx => ⟨rfl, fun k rest => ?_⟩⟩
    intro r gone probed' readmits probes
    refine ⟨fun ⟨hk, hj, hd⟩ => clearKinds_removed (clearKind_probes hrx hk hj hd),
      fun ⟨hk, hp⟩ hg => clearKinds_removed (clearKind_readmits hcx hk hp ((gate_eq 1 x).2 hg)),
      fun ⟨hk, hp⟩ hg => clearKinds_stayed
        (clearKind_stays hcx hk hp (Bool.eq_false_iff.2 (mt (gate_eq 1 x).1 hg))),
      fun hn hp => clearKinds_removed (clearKind_leaves hrx hn hp)⟩
  case jump =>
    intro vacant hireables last holds
    refine ⟨fun hh => ?_, fun hh => ?_⟩
    · exact (runJump_eq hc).trans (if_pos ((conditionHolds_iff cond w s).2 hh))
    · exact (runJump_eq hc).trans (if_neg (mt (conditionHolds_iff cond w s).1 hh))

end Sys2Proof.Machine
end

section
/-! Authorisations: denials, the online and the offline decision, and the lookup (R43, R44, R50, R51,
R61, R62, R71 to R74). -/

namespace Sys2Proof.Machine

/-! ### Denials (R74) -/

theorem heldByHire_iff (d : DockNo) (tag : Nat) (s : State) :
    heldByHire d tag s = true ↔ ∃ stamp, (dockOf d s).holder = some (.hire tag stamp) := by
  unfold heldByHire
  cases (dockOf d s).holder with
  | none => simp
  | some x => cases x <;> simp

section
variable {d : DockNo} {tag : Nat} {s : State}

/-- The holder of a hire leaves a dock that is still DOCKED. -/
theorem withdrawHire_held (hk : (dockOf d s).state = .docked)
    (hh : ∃ stamp, (dockOf d s).holder = some (.hire tag stamp)) :
    withdrawHire d tag s = dockPut d { dockOf d s with holder := none } (lineOf d s) 0 s := by
  rw [withdrawHire, if_pos ⟨(heldByHire_iff d tag s).2 hh, hk⟩, putDock_put]
  have hclaim : claimOf { dockOf d s with holder := none } = 0 := by simp [claimOf, hk]
  rw [hclaim]

theorem withdrawHire_other
    (hn : ¬((dockOf d s).state = .docked ∧ ∃ stamp, (dockOf d s).holder = some (.hire tag stamp))) :
    withdrawHire d tag s = s :=
  if_neg fun h => hn ⟨h.2, (heldByHire_iff d tag s).1 h.1⟩

end

theorem withdrawChosen_some {h : HireRecord} {d : DockNo} (hd : h.chosen = some d) (s : State) :
    withdrawChosen h s = withdrawHire d h.tag s := by
  unfold withdrawChosen
  rw [hd]

/-! ### The tests of a decision (R61, R72) -/

/-- The tests that the online and the offline decision share: what the first that fails denies, and what
holds where none fails. -/
def Tested (terms : Option Plan) (v : HandedValues) (denies : DenyReason → Prop)
    (passes : Plan → Prop) : Prop :=
  (terms = none → denies .planUndefined)
  ∧ ∀ p, terms = some p →
    (v.standing = .barred → denies .barred)
    ∧ (v.standing = .expired → denies .expired)
    ∧ (v.standing = .active →
      (v.balance < p.minBalance → denies .lowBalance)
      ∧ (p.minBalance ≤ v.balance →
        (v.hireLimit ≤ v.openCount ∨ 4 ≤ v.pendingCount → denies .limit)
        ∧ (v.openCount < v.hireLimit → v.pendingCount < 4 → passes p)))

theorem tested_of {terms : Option Plan} {v : HandedValues} {denies : DenyReason → Prop}
    {passes : Plan → Prop} (hd : ∀ r, decisionTests terms v = some r → denies r)
    (hp : ∀ p, terms = some p → decisionTests terms v = none → passes p) :
    Tested terms v denies passes := by
  refine ⟨fun h => hd _ (by rw [h]; rfl), fun p h => ⟨fun hs => hd _ ?_, fun hs => hd _ ?_, fun hs =>
    ⟨fun hb => hd _ ?_, fun hb => ⟨fun hl => hd _ ?_, fun ho hn => hp p h ?_⟩⟩⟩⟩
  · simp [decisionTests, h, hs]
  · simp [decisionTests, h, hs]
  · simp [decisionTests, h, hs, hb]
  · simp [decisionTests, h, hs, Int.not_lt.2 hb, hl]
  · simp [decisionTests, h, hs, Int.not_lt.2 hb, ho, hn]

section
variable {s : State} (hc : Clean s)
include hc

theorem decideOnline_denies {h : HireRecord} {v : HandedValues} {r : DenyReason}
    (ht : decisionTests (planOf (h.plan.getD v.plan) s) v = some r) :
    decideOnline h v s = denyHire h r s := by
  simp only [decideOnline, readPlan_clean hc, ht]

theorem decideOnline_grants {h : HireRecord} {v : HandedValues}
    (ht : decisionTests (planOf (h.plan.getD v.plan) s) v = none) :
    decideOnline h v s = grantHire h .online (h.plan.getD v.plan) s := by
  simp only [decideOnline, readPlan_clean hc, ht]

theorem decideValid_denies {e : CardEntry} {asked : Option Nat} {r : DenyReason}
    (ht : decisionTests (planOf (asked.getD e.plan) s) (entryValues e) = some r) :
    decideValid e asked s = (.deny r, s) := by
  simp only [decideValid, readPlan_clean hc, ht]

theorem decideValid_passes {e : CardEntry} {asked : Option Nat} {p : Plan}
    (hp : planOf (asked.getD e.plan) s = some p)
    (ht : decisionTests (planOf (asked.getD e.plan) s) (entryValues e) = none) :
    decideValid e asked s
      = if p.offline then (.grant .stale (asked.getD e.plan), s) else (.deny .offlineRefused, s) := by
  rw [hp] at ht
  simp only [decideValid, readPlan_clean hc, hp, ht, Option.any_some]

/-! ### The unknown-card test (R62) -/

theorem readUnknownTest_clean : readUnknownTest s = s := by
  simp only [readUnknownTest, readConfig_clean hc, readPlan_clean hc]

theorem decideUnknown_denies {k : Nat} {a : Bool} {r : DenyReason} (ht : unknownTest s = some r) :
    decideUnknown k a s = (.deny r, s) := by
  simp only [decideUnknown, readUnknownTest_clean hc, ht]

theorem decideUnknown_grants {k : Nat} {a : Bool} (ht : unknownTest s = none) :
    decideUnknown k a s =
      (.grant .offlineUnknown s.sc.config.defaultOfflinePlan,
        if a && s.cc.allocate then
          (allocate (provisionalEntry k s.sc.config.defaultOfflinePlan) (countGrant s)).getD (countGrant s)
        else countGrant s) := by
  simp only [decideUnknown, readUnknownTest_clean hc, ht]
  rfl

end

/-- The unknown-card test: what it denies, and what holds where it passes. -/
def UnknownTested (s : State) (denies : DenyReason → Prop) (passes : Prop) : Prop :=
  (s.sc.config.offlineUnknownAllowed = false → denies .offlineRefused)
  ∧ (s.sc.config.offlineUnknownAllowed = true →
    (s.sc.config.offlineQuota ≤ s.cc.offlineGrants → denies .offlineRefused)
    ∧ (s.cc.offlineGrants < s.sc.config.offlineQuota →
      (planOf s.sc.config.defaultOfflinePlan s = none → denies .planUndefined)
      ∧ (planOf s.sc.config.defaultOfflinePlan s ≠ none → passes)))

theorem unknownTested_of {s : State} {denies : DenyReason → Prop} {passes : Prop}
    (hd : ∀ r, unknownTest s = some r → denies r) (hp : unknownTest s = none → passes) :
    UnknownTested s denies passes := by
  refine ⟨fun ha => hd _ ?_, fun ha => ⟨fun hq => hd _ ?_, fun hq => ⟨fun h => hd _ ?_, fun h => hp ?_⟩⟩⟩
  · simp [unknownTest, ha]
  · simp [unknownTest, ha, hq]
  · simp [unknownTest, ha, Nat.not_le.2 hq, h]
  · simp [unknownTest, ha, Nat.not_le.2 hq, h]

/-! ### The offline decision (R61, R62) -/

/-- The state after an OFFLINE_UNKNOWN grant is counted, with the cache's sets as given. -/
def grantCounted (sets : Vector (List CardEntry) 32) (s : State) : State :=
  { s with cc := { s.cc with offlineGrants := s.cc.offlineGrants + 1, sets := sets } }

section
variable {k : Nat} {asked : Option Nat} {s : State}

theorem decideOffline_none (he : entryOf k s = none) :
    decideOffline k asked s = decideUnknown k true s := by
  simp only [decideOffline, he]

section
variable {e : CardEntry} (he : entryOf k s = some e)
include he

theorem decideOffline_revoked (hr : e.state = .revoked) :
    decideOffline k asked s = (.deny .revoked, s) := by
  simp only [decideOffline, he, hr, if_true]

theorem decideOffline_bypass (hr : e.state ≠ .revoked) (hs : s.cc.serve = false) :
    decideOffline k asked s = decideUnknown k false s := by
  simp only [decideOffline, he, if_neg hr, hs, Bool.not_false, if_true]

theorem decideOffline_valid (hv : e.state = .valid) (hs : s.cc.serve = true) :
    decideOffline k asked s = decideValid e asked s := by
  simp [decideOffline, he, hs, hv]

theorem decideOffline_provisional (hp : e.state = .provisional) (hs : s.cc.serve = true) :
    decideOffline k asked s
      = if pinned e ∨ 1 ≤ effectiveOpen e.baseOpen e.hireAdj then (.deny .limit, s)
        else decideUnknown k false s := by
  simp [decideOffline, he, hp, hs]

end

theorem provisional_out (e : CardEntry) :
    (pinned e = true ∨ 1 ≤ effectiveOpen e.baseOpen e.hireAdj)
      ↔ (e.pendingTrips ≠ [] ∨ 1 ≤ (e.baseOpen : Int) + e.hireAdj) := by
  have hpin : pinned e = true ↔ e.pendingTrips ≠ [] := by simp [pinned]
  have hopen : 1 ≤ effectiveOpen e.baseOpen e.hireAdj ↔ 1 ≤ (e.baseOpen : Int) + e.hireAdj := by
    unfold effectiveOpen
    rw [limit_eq _ _ _ (by omega)]
    omega
  rw [hpin, hopen]

/-- A grant of the unknown-card test with an entry, or where none is allocated, is counted alone. -/
theorem decideUnknown_counts (hc : Clean s) (ht : unknownTest s = none) {a : Bool}
    (ha : (a && s.cc.allocate) = false) :
    decideUnknown k a s
      = (.grant .offlineUnknown s.sc.config.defaultOfflinePlan, grantCounted s.cc.sets s) := by
  rw [decideUnknown_grants hc ht, ha]
  rfl

/-- A grant of the unknown-card test without an entry, where allocation is on. -/
theorem decideUnknown_allocates (hc : Clean s) (ht : unknownTest s = none) (ha : s.cc.allocate = true) :
    decideUnknown k true s
      = (.grant .offlineUnknown s.sc.config.defaultOfflinePlan,
        (allocate (provisionalEntry k s.sc.config.defaultOfflinePlan) (countGrant s)).getD
          (countGrant s)) := by
  rw [decideUnknown_grants hc ht, ha]
  rfl

theorem decideUnknown_free (hc : Clean s) (ht : unknownTest s = none) (ha : s.cc.allocate = true)
    (hl : (vget s.cc.sets (cardSet k)).length < 4) :
    decideUnknown k true s
      = (.grant .offlineUnknown s.sc.config.defaultOfflinePlan,
        grantCounted (vset s.cc.sets (cardSet k)
          (provisionalEntry k s.sc.config.defaultOfflinePlan :: vget s.cc.sets (cardSet k))) s) := by
  rw [decideUnknown_allocates hc ht ha,
    allocate_free (s := countGrant s) (e := provisionalEntry k s.sc.config.defaultOfflinePlan) hl]
  rfl

theorem decideUnknown_pinned (hc : Clean s) (ht : unknownTest s = none) (ha : s.cc.allocate = true)
    (hl : 4 ≤ (vget s.cc.sets (cardSet k)).length)
    (hp : ∀ e ∈ vget s.cc.sets (cardSet k), e.pendingTrips ≠ []) :
    decideUnknown k true s
      = (.grant .offlineUnknown s.sc.config.defaultOfflinePlan, grantCounted s.cc.sets s) := by
  rw [decideUnknown_allocates hc ht ha,
    allocate_full (s := countGrant s) (e := provisionalEntry k s.sc.config.defaultOfflinePlan) hl,
    evict_none (l := vget (countGrant s).cc.sets
      (cardSet (provisionalEntry k s.sc.config.defaultOfflinePlan).card)) hp]
  rfl

theorem decideUnknown_evicts (hc : Clean s) (ht : unknownTest s = none) (ha : s.cc.allocate = true)
    {a b : List CardEntry} {v : CardEntry} (hl : 4 ≤ (vget s.cc.sets (cardSet k)).length)
    (hset : vget s.cc.sets (cardSet k) = a ++ v :: b) (hv : v.pendingTrips = [])
    (hp : ∀ e ∈ b, e.pendingTrips ≠ []) :
    decideUnknown k true s
      = (.grant .offlineUnknown s.sc.config.defaultOfflinePlan,
        grantCounted (vset s.cc.sets (cardSet k)
          (provisionalEntry k s.sc.config.defaultOfflinePlan :: (a ++ b))) s) := by
  have hs : vget (countGrant s).cc.sets
      (cardSet (provisionalEntry k s.sc.config.defaultOfflinePlan).card) = a ++ v :: b := hset
  rw [decideUnknown_allocates hc ht ha,
    allocate_full (s := countGrant s) (e := provisionalEntry k s.sc.config.defaultOfflinePlan) hl, hs,
    evict_some hv hp]
  rfl

end

/-! ### The lookup (R50, R51) -/

section
variable {k : Nat} {s : State}

/-- The entry of a card moves to the head of its set. -/
theorem touchEntry_eq {a b : List CardEntry} {e : CardEntry} (hl : vget s.cc.sets (cardSet k) = a ++ e :: b)
    (he : e.card = k) (ha : ∀ x ∈ a ++ b, x.card ≠ k) :
    touchEntry k s
      = { s with cc := { s.cc with sets := vset s.cc.sets (cardSet k) (e :: (a ++ b)) } } := by
  have hown : ∀ l : List CardEntry, (∀ x ∈ l, x.card ≠ k) →
      l.filter (fun e => decide (e.card = k)) = [] ∧ l.filter (fun e => decide (e.card ≠ k)) = l :=
    fun l h => ⟨List.filter_eq_nil_iff.2 fun x hx => by simpa using h x hx,
      List.filter_eq_self.2 fun x hx => by simpa using h x hx⟩
  obtain ⟨ha1, ha2⟩ := hown a fun x hx => ha x (List.mem_append_left b hx)
  obtain ⟨hb1, hb2⟩ := hown b fun x hx => ha x (List.mem_append_right a hx)
  have hlist : (a ++ e :: b).filter (fun e => decide (e.card = k))
      ++ (a ++ e :: b).filter (fun e => decide (e.card ≠ k)) = e :: (a ++ b) := by
    rw [List.filter_append, List.filter_append, ha1, ha2, List.filter_cons, List.filter_cons, hb1, hb2]
    simp [he]
  unfold touchEntry
  simp only [hl, hlist]
  rfl

theorem fresh_iff (e : CardEntry) (s : State) :
    fresh e s = true ↔ s.sc.station.clockValid = true
      ∧ ∃ t, e.filledAt = some t ∧ t ≤ s.sc.clock
        ∧ s.sc.clock ≤ t + s.sc.config.maximumAge * 60 := by
  unfold fresh
  cases e.filledAt with
  | none => simp
  | some t =>
    simp only [Bool.and_eq_true, decide_eq_true_eq, Option.some.injEq, exists_eq_left',
      Nat.sub_le_iff_le_add']

theorem issueFill_waiter {w : Waiter} {f : Fill} (hf : fillOf k s = some f) :
    issueFill k w s = { s with cc := { s.cc with fills := s.cc.fills.map fun f =>
      if f.card = k then { f with waiter := some w } else f } } := by
  unfold issueFill
  rw [hf]
  rfl

theorem issueFill_new (hc : Clean s) {w : Waiter} (hf : fillOf k s = none) :
    issueFill k w s = { s with cc := { s.cc with fills := s.cc.fills ++
      [{ card := k, fetched := false, issuedAt := stationTime s,
         expiry := s.sc.timebase + 1000 * s.sc.config.fillTimeout, waiter := some w,
         poisoned := false }] } } := by
  simp only [issueFill, hf, readConfig_clean hc]
  rfl

theorem fillRoom_iff (k : Nat) (s : State) :
    fillRoom k s = true ↔ (fillOf k s).isSome = true ∨ s.cc.fills.length < 8 := by
  simp [fillRoom]

end

/-- What a HIRE whose lookup asks a fill becomes: it waits on the fill its card has, or on one issued
for it. -/
def AsksFill (s : State) (h : HireRecord) (x y : State) : Prop :=
  s.sc.linkUp = true →
    (∀ f, s.cc.fills.find? (fun f => decide (f.card = h.card)) = some f →
      y = { x with cc := { x.cc with fills := s.cc.fills.map fun f =>
        if f.card = h.card then { f with waiter := some { tag := h.tag, plan := h.plan } } else f } })
    ∧ ((∀ f ∈ s.cc.fills, f.card ≠ h.card) → s.cc.fills.length < 8 →
      y = { x with cc := { x.cc with fills := s.cc.fills ++
        [{ card := h.card, fetched := false, issuedAt := stationTime s,
           expiry := s.sc.timebase + 1000 * s.sc.config.fillTimeout,
           waiter := some { tag := h.tag, plan := h.plan }, poisoned := false }] } })

/-- What a HIRE whose lookup finds no fill to wait on becomes: its offline decision is acted on. -/
def DecidesOffline (s : State) (h : HireRecord) (x y : State) : Prop :=
  s.sc.linkUp = false ∨ (8 ≤ s.cc.fills.length ∧ ∀ f ∈ s.cc.fills, f.card ≠ h.card) →
    (∀ kind plan z, decideOffline h.card h.plan x = (.grant kind plan, z) →
      y = grantHire h kind plan z)
    ∧ ∀ reason z, decideOffline h.card h.plan x = (.deny reason, z) → y = denyHire h reason z

/-- What the HU does with the answer FILL or OFFLINE. -/
def actOnFill (h : HireRecord) (s : State) : State :=
  let r := lookupFill h.card { tag := h.tag, plan := h.plan } s
  match r.1 with
  | .deny => denyHire h .revoked r.2
  | .decide v => decideOnline h v r.2
  | .fill => r.2
  | .offline x => actOn h x r.2

theorem actOnFill_fill {h : HireRecord} {s : State} (hu : s.sc.linkUp = true)
    (hr : fillRoom h.card s = true) :
    actOnFill h s = issueFill h.card { tag := h.tag, plan := h.plan } s := by
  simp only [actOnFill, lookupFill, hu, hr, Bool.and_self, if_true]

theorem actOnFill_offline {h : HireRecord} {s : State}
    (hr : (s.sc.linkUp && fillRoom h.card s) = false) :
    actOnFill h s = actOn h (decideOffline h.card h.plan s).1 (decideOffline h.card h.plan s).2 := by
  simp only [actOnFill, lookupFill, hr, Bool.false_eq_true, if_false]

theorem fillOf_none {k : Nat} {s : State} (h : ∀ f ∈ s.cc.fills, f.card ≠ k) : fillOf k s = none :=
  List.find?_eq_none.2 fun f hf => by simpa using h f hf

theorem actOnFill_asks {s x : State} {h : HireRecord} (hc : Clean s)
    (hx : x = { s with cc := { s.cc with sets := x.cc.sets } }) : AsksFill s h x (actOnFill h x) := by
  have hfills : x.cc.fills = s.cc.fills := by rw [hx]
  have hsc : x.sc = s.sc := by rw [hx]
  have hcx : Clean x := by rw [hx]; exact hc
  have hfo : fillOf h.card x = s.cc.fills.find? fun f => decide (f.card = h.card) := by
    rw [fillOf, hfills]
  intro hu
  have hux : x.sc.linkUp = true := hsc ▸ hu
  refine ⟨fun f hf => ?_, fun hn hl => ?_⟩
  · have hsome : fillOf h.card x = some f := hfo.trans hf
    rw [actOnFill_fill hux ((fillRoom_iff _ _).2 (.inl (by rw [hsome]; rfl))), issueFill_waiter hsome,
      hfills]
  · have hnone : fillOf h.card x = none := fillOf_none (hfills ▸ hn)
    have htime : stationTime x = stationTime s := by unfold stationTime; rw [hsc]
    rw [actOnFill_fill hux ((fillRoom_iff _ _).2 (.inr (hfills ▸ hl))), issueFill_new hcx hnone, hfills,
      hsc, htime]

theorem actOnFill_decides {s x : State} {h : HireRecord}
    (hx : x = { s with cc := { s.cc with sets := x.cc.sets } }) :
    DecidesOffline s h x (actOnFill h x) := by
  have hfills : x.cc.fills = s.cc.fills := by rw [hx]
  have hsc : x.sc = s.sc := by rw [hx]
  intro hor
  have hno : (x.sc.linkUp && fillRoom h.card x) = false := by
    rcases hor with hu | ⟨hl, hn⟩
    · rw [hsc, hu, Bool.false_and]
    · have hnone : fillOf h.card x = none := fillOf_none (hfills ▸ hn)
      have hroom : fillRoom h.card x = false := by
        rw [fillRoom, hnone, hfills]
        simpa using hl
      rw [hroom, Bool.and_false]
  have heq := actOnFill_offline hno
  exact ⟨fun kind plan z hd => by rw [heq, hd]; rfl, fun reason z hd => by rw [heq, hd]; rfl⟩

section
variable {h : HireRecord} {s : State}

theorem authorise_absent (he : entryOf h.card s = none) : authorise h s = actOnFill h s := by
  simp only [authorise, lookup, he]
  rfl

section
variable {e : CardEntry} (he : entryOf h.card s = some e)
include he

theorem authorise_revoked (hr : e.state = .revoked) :
    authorise h s = denyHire h .revoked (touchEntry h.card s) := by
  simp only [authorise, lookup, he, hr, if_true]

theorem authorise_fresh (hc : Clean s) (hv : e.state = .valid) (hs : s.cc.serve = true)
    (hf : fresh e (touchEntry h.card s) = true) :
    authorise h s = decideOnline h (entryValues e) (touchEntry h.card s) := by
  have hr : e.state ≠ .revoked := by simp [hv]
  have hserve : e.state = .valid ∧ (touchEntry h.card s).cc.serve = true := ⟨hv, hs⟩
  have hclean : Clean (touchEntry h.card s) := hc
  simp only [authorise, lookup, he, if_neg hr, if_pos hserve, readConfig_clean hclean, hf, if_true]

theorem authorise_stale (hc : Clean s) (hr : e.state ≠ .revoked)
    (hf : ¬(e.state = .valid ∧ s.cc.serve = true ∧ fresh e (touchEntry h.card s) = true)) :
    authorise h s = actOnFill h (touchEntry h.card s) := by
  have hclean : Clean (touchEntry h.card s) := hc
  have hserve : (touchEntry h.card s).cc.serve = s.cc.serve := rfl
  by_cases hv : e.state = .valid ∧ s.cc.serve = true
  · have hfalse : fresh e (touchEntry h.card s) = false :=
      Bool.eq_false_iff.2 fun hft => hf ⟨hv.1, hv.2, hft⟩
    simp only [authorise, lookup, he, if_neg hr, hserve, if_pos hv, readConfig_clean hclean, hfalse,
      Bool.false_eq_true, if_false]
    rfl
  · simp only [authorise, lookup, he, if_neg hr, hserve, if_neg hv]
    rfl

end

end

/-- Settles O37. -/
theorem authorisationsGrantOrDeny : Obligations.AuthorisationsGrantOrDeny := by
  unfold Obligations.AuthorisationsGrantOrDeny
  intro tested values isOut s hc
  refine ⟨?_, ?_, ?_, ?_⟩
  · intro h d reason hd kept answered
    have hdeny : denyHire h reason s
        = hireAnswered h.tag .denied (.denied reason) .ended (withdrawHire d h.tag s) := by
      rw [denyHire, withdrawChosen_some hd]
      rfl
    exact ⟨fun hk => by rw [hdeny, withdrawHire_held hk.1 hk.2],
      fun hn => by rw [hdeny, withdrawHire_other hn]⟩
  · intro h v plan
    exact tested_of (fun r ht => decideOnline_denies hc ht) fun p _ ht => decideOnline_grants hc ht
  · intro card asked l denies config default counted grants unknown fresh put
    refine ⟨fun hn => ?_, fun e hfind => ⟨fun hr => ?_, fun hr hs => ?_, fun hv hs => ?_, fun hp hs => ?_⟩⟩
    · have heq : decideOffline card asked s = decideUnknown card true s :=
        decideOffline_none (entryOf_none hn)
      refine unknownTested_of (fun r ht => heq.trans (decideUnknown_denies hc ht)) fun ht =>
        ⟨fun ha => ?_, fun ha hl => ?_, fun ha hl hp => ?_, fun a v b ha hl hset hv hp => ?_⟩
      · exact heq.trans (decideUnknown_counts hc ht (by rw [ha]; rfl))
      · exact heq.trans (decideUnknown_free hc ht ha hl)
      · exact heq.trans (decideUnknown_pinned hc ht ha hl hp)
      · exact heq.trans (decideUnknown_evicts hc ht ha hl hset hv hp)
    · exact decideOffline_revoked hfind hr
    · have heq : decideOffline card asked s = decideUnknown card false s :=
        decideOffline_bypass hfind hr hs
      exact unknownTested_of (fun r ht => heq.trans (decideUnknown_denies hc ht)) fun ht =>
        heq.trans (decideUnknown_counts hc ht rfl)
    · have heq : decideOffline card asked s = decideValid e asked s := decideOffline_valid hfind hv hs
      have hvals : values e = entryValues e := (values_eq e).symm
      intro plan
      rw [hvals]
      refine tested_of (fun r ht => heq.trans (decideValid_denies hc ht)) fun p hp ht => ?_
      have hpass := heq.trans (decideValid_passes hc hp ht)
      exact ⟨fun ho => hpass.trans (if_pos ho),
        fun ho => hpass.trans (if_neg (Bool.eq_false_iff.1 ho))⟩
    · have heq := decideOffline_provisional (asked := asked) hfind hp hs
      refine ⟨fun ho => ?_, fun ho => ?_⟩
      · rw [if_pos ((provisional_out e).2 ho)] at heq
        exact heq
      · rw [if_neg (mt (provisional_out e).1 ho)] at heq
        exact unknownTested_of (fun r ht => heq.trans (decideUnknown_denies hc ht)) fun ht =>
          heq.trans (decideUnknown_counts hc ht rfl)
  · intro h l w fills decides
    refine ⟨fun hn => ?_, fun a e b hl he ha => ?_⟩
    · rw [authorise_absent (entryOf_none hn)]
      exact ⟨actOnFill_asks hc rfl, actOnFill_decides rfl⟩
    · intro touched fresh
      have hfind : entryOf h.card s = some e := entryOf_some hl ha he
      have htouch : touchEntry h.card s = touched := touchEntry_eq hl he ha
      have hfresh : fresh ↔ (e.state = .valid ∧ s.cc.serve = true
          ∧ Machine.fresh e (touchEntry h.card s) = true) := by
        rw [fresh_iff]
        exact Iff.rfl
      refine ⟨fun hr => ?_, fun hf => ?_, fun hr hf => ?_⟩
      · rw [authorise_revoked hfind hr, htouch]
      · obtain ⟨hv, hs, hfr⟩ := hfresh.1 hf
        rw [authorise_fresh hfind hc hv hs hfr, htouch, values_eq]
      · rw [authorise_stale hfind hc hr (mt hfresh.2 hf), htouch]
        exact ⟨actOnFill_asks (s := touched) hc rfl, actOnFill_decides (s := touched) rfl⟩

end Sys2Proof.Machine
end

section
/-! Grants: the release that a granted hire begins, and the answers where none begins (R12, R47, R75 to
R77). -/

namespace Sys2Proof.Machine

/-! ### The conditions of R23 that fail -/

/-- The numbers of the conditions that fail, by which of the seven do. -/
def failNumbers (fails : List Bool) : List Nat :=
  (fails.zipIdx.filter fun x => x.1).map fun x => x.2 + 1

theorem failNumbers_third (a b c d e f g : Bool) :
    failNumbers [a, b, c, d, e, f, g] = [3]
      ↔ (failNumbers [a, b, c, d, e, f, g]).all (fun n => decide (n = 3)) = true ∧ c = true := by
  revert a b c d e f g
  decide

theorem failNumbers_second (a b c d e f g : Bool) :
    failNumbers [a, b, c, d, e, f, g] = [3] → b = false := by
  revert a b c d e f g
  decide

/-- Only the holder is in the way of a dock's hire. -/
theorem failing_holder (d : DockNo) (s : State) :
    failing d s = [3] ↔ hireableButHolder d s = true ∧ (dockOf d s).holder.isSome = true :=
  failNumbers_third ..

theorem failing_suspended {d : DockNo} {s : State} (h : failing d s = [3]) :
    (dockOf d s).suspended = false := failNumbers_second _ _ _ _ _ _ _ h

/-! ### The beginning of a hire's release (R12) -/

section
variable {d : DockNo} {tag : Nat} {stamp : Stamp} {s : State}

/-- Whether a begin-release is taken for a hire. -/
abbrev ReleaseTaken (d : DockNo) (tag : Nat) (s : State) : Prop :=
  (dockOf d s).state = .docked ∧ (dockOf d s).holder = some (.hire tag none)
    ∧ (dockOf d s).deadline = none ∧ failing d s = [3]

theorem releaseTaken_iff :
    (beginOwn d (.hire tag none) s && hireableButHolder d s) = true ↔ ReleaseTaken d tag s := by
  rw [Bool.and_eq_true, ReleaseTaken, failing_holder]
  simp only [beginOwn, Bool.and_eq_true, decide_eq_true_eq, Option.isNone_iff_eq_none]
  constructor
  · rintro ⟨⟨⟨hs, hh⟩, hd⟩, hb⟩
    exact ⟨hs, hh, hd, hb, by rw [hh]; rfl⟩
  · rintro ⟨hs, hh, hd, hb, -⟩
    exact ⟨⟨⟨hs, hh⟩, hd⟩, hb⟩

theorem beginHireRelease_other (hc : Clean s) (h : ¬ReleaseTaken d tag s) :
    beginHireRelease d tag stamp s = (.notHireable, s) := by
  simp only [beginHireRelease, readRegistry_clean hc, if_neg (mt releaseTaken_iff.1 h)]

theorem beginHireRelease_backlog (hc : Clean s) (h : ReleaseTaken d tag s)
    (hg : ¬s.rq.held.length + s.rq.claimTotal + 2 ≤ 96) :
    beginHireRelease d tag stamp s = (.backlog, s) := by
  obtain ⟨-, -, -, hf⟩ := id h
  have hinc : releaseIncrease d s = 2 := by
    rw [releaseIncrease, failing_suspended hf, if_neg Bool.false_ne_true]
  simp only [beginHireRelease, readRegistry_clean hc, readQueueHead_clean hc,
    if_pos (releaseTaken_iff.2 h), hinc, if_neg (mt (gate_eq 2 s).1 hg)]

theorem beginHireRelease_started (hc : Clean s) (h : ReleaseTaken d tag s)
    (hg : s.rq.held.length + s.rq.claimTotal + 2 ≤ 96) :
    beginHireRelease d tag stamp s
      = (.started, startRelease d (.hire tag (some stamp)) (some stamp) s) := by
  obtain ⟨-, -, -, hf⟩ := id h
  have hinc : releaseIncrease d s = 2 := by
    rw [releaseIncrease, failing_suspended hf, if_neg Bool.false_ne_true]
  simp only [beginHireRelease, readRegistry_clean hc, readQueueHead_clean hc,
    if_pos (releaseTaken_iff.2 h), hinc, if_pos ((gate_eq 2 s).2 hg)]

end

/-- A dock's record as a release begins. -/
def releasing (x : Holder) (r : DockRecord) : DockRecord :=
  { r with state := .unlocking, holder := some x, deadline := some (.actuation none false) }

/-- The release of a hire begins at a DOCKED dock that is not suspended (R12). -/
theorem startRelease_hire {d : DockNo} {s : State} (x : Holder) (stamp : Option Stamp)
    (hr : ClaimsRight s) (hd : (dockOf d s).state = .docked) (hs : (dockOf d s).suspended = false) :
    startRelease d x stamp s =
      { dockEvent .release d s with
        dlc := { s.dlc with
          docks := vset s.dlc.docks d (releasing x (dockOf d s)),
          lines := vset s.dlc.lines d
            { lineOf d s with waiting := placeIn (.release stamp) (lineOf d s).waiting } },
        rq := { s.rq with
          claims := vset s.rq.claims d 2, claimTotal := s.rq.claimTotal + 2 },
        rs := handAll [(.dock d, .dock (retainedOf (releasing x (dockOf d s))))] s.rs } := by
  have hinh : inhibited (releasing x (dockOf d s)) = inhibited (dockOf d s) := by
    simp [inhibited, releasing, hd]
  have hclaim : claimOf (releasing x (dockOf d s)) = 2 := by simp [claimOf, releasing, hs]
  have hret : retainedOf (releasing x (dockOf d s)) ≠ retainedOf (dockOf d s) := fun heq => by
    have hstate := congrArg RetainedDock.state heq
    simp [retainedOf, releasing, hd] at hstate
  have htotal : (vset s.rq.claims d 2).toList.sum = s.rq.claimTotal + 2 := by
    have hsum := claims_sum hr d 2
    have hzero : claimOf (dockOf d s) = 0 := by simp [claimOf, hd]
    omega
  have hput : placeCommand d (.release stamp) (putDock d (releasing x (dockOf d s)) s) =
      { s with
        dlc := { s.dlc with
          docks := vset s.dlc.docks d (releasing x (dockOf d s)),
          lines := vset s.dlc.lines d
            { lineOf d s with waiting := placeIn (.release stamp) (lineOf d s).waiting } },
        rq := { s.rq with
          claims := vset s.rq.claims d 2, claimTotal := s.rq.claimTotal + 2 },
        rs := handAll [(.dock d, .dock (retainedOf (releasing x (dockOf d s))))] s.rs } := by
    rw [placed_release d _ _ hinh, dockPut, inhibitFollows_same _ hinh, hclaim, if_neg hret, htotal]
  exact (congrArg (dockEvent .release d) hput).trans (dockEvent_with .release d s _ _ _)

/-- What the HU does on STARTED (R76). -/
theorem hireStarted_eq (h : HireRecord) (stamp : Stamp) (s : State) :
    hireStarted h stamp s =
      { s with
        rs := handAll (bothCopies .station (.station { s.sc.station with trip := stamp.trip })) s.rs,
        sc := { s.sc with station := { s.sc.station with trip := stamp.trip } },
        cc := { s.cc with
          sets := vset s.cc.sets (cardSet h.card)
            ((vget s.cc.sets (cardSet h.card)).map fun e =>
              if e.card = h.card ∧ e.pendingTrips.length < 4 then
                { e with
                  pendingTrips := e.pendingTrips ++ [stamp.trip], hireAdj := min 100 (e.hireAdj + 1) }
              else e) },
        hu := s.hu.map fun x => if x.tag = h.tag then { x with state := .unlocking } else x } := by
  have hmap : ((vget s.cc.sets (cardSet h.card)).map fun e =>
      if e.card = h.card then
        if e.pendingTrips.length < 4 then
          { e with
            pendingTrips := e.pendingTrips ++ [stamp.trip], hireAdj := min 100 (e.hireAdj + 1) }
        else e
      else e) = (vget s.cc.sets (cardSet h.card)).map fun e =>
      if e.card = h.card ∧ e.pendingTrips.length < 4 then
        { e with
          pendingTrips := e.pendingTrips ++ [stamp.trip], hireAdj := min 100 (e.hireAdj + 1) }
      else e := List.map_congr_left fun e _ => by rw [ite_and]
  rw [← hmap]
  rfl

/-! ### The grant (R75 to R77) -/

section
variable {h : HireRecord} {kind : AuthKind} {plan : Nat} {d : DockNo} {s : State} (hd : h.chosen = some d)
include hd

theorem grantHire_backlog (hc : Clean s) (ht : ReleaseTaken d h.tag s)
    (hg : ¬s.rq.held.length + s.rq.claimTotal + 2 ≤ 96) :
    grantHire h kind plan s = hireAnswered h.tag .backlog .empty .ended (withdrawHire d h.tag s) := by
  simp only [grantHire, hd, beginHireRelease_backlog hc ht hg]
  rfl

theorem grantHire_other (hc : Clean s) (ht : ¬ReleaseTaken d h.tag s) :
    grantHire h kind plan s =
      hireAnswered h.tag .noBike
        (.noBike (if h.dockRequest = none then [] else failing d (withdrawHire d h.tag s))) .ended
        (withdrawHire d h.tag s) := by
  simp only [grantHire, hd, beginHireRelease_other hc ht, noBikeBody]
  cases h.dockRequest <;> rfl

theorem grantHire_started (hc : Clean s) (ht : ReleaseTaken d h.tag s)
    (hg : s.rq.held.length + s.rq.claimTotal + 2 ≤ 96) :
    grantHire h kind plan s =
      hireStarted h (stampFor h kind plan s)
        (startRelease d (.hire h.tag (some (stampFor h kind plan s))) (some (stampFor h kind plan s))
          s) := by
  simp only [grantHire, hd, beginHireRelease_started hc ht hg]

end

/-- Settles O38. -/
theorem grantsBeginTheRelease : Obligations.GrantsBeginTheRelease := by
  unfold Obligations.GrantsBeginTheRelease
  intro s h kind plan d r hc hcl hd hr
  subst hr
  intro own fits withdrawn
  refine ⟨fun ho hf => ?_, fun ho => ?_, fun ho hf => ?_⟩
  · obtain ⟨hs, hh, -, -⟩ := id ho
    rw [grantHire_backlog hd hc ho hf, withdrawHire_held hs ⟨none, hh⟩]
  · intro noBike
    refine ⟨fun stamp hs hh => ?_, fun hn => ?_⟩
    · have hgrant := grantHire_other (kind := kind) (plan := plan) hd hc ho
      rwa [withdrawHire_held hs ⟨stamp, hh⟩] at hgrant
    · have hgrant := grantHire_other (kind := kind) (plan := plan) hd hc ho
      have hoff : ¬((dockOf d s).state = .docked
          ∧ ∃ stamp, (dockOf d s).holder = some (.hire h.tag stamp)) :=
        fun ⟨hs, stamp, hh⟩ => hn.elim (fun hne => hne hs) fun hne => hne stamp hh
      rwa [withdrawHire_other hoff] at hgrant
  · obtain ⟨hs, -, -, hfail⟩ := id ho
    intro stamp record station
    rw [grantHire_started hd hc ho hf, startRelease_hire _ _ hcl hs (failing_suspended hfail),
      hireStarted_eq]
    dsimp only
    rw [dockEvent_frame_eq]
    rfl

end Sys2Proof.Machine
end

section
/-! HIRE: its checks, its dock and the claim gate; the reservation of its dock, and the replies that turn
it away (R65, R67 to R71). -/

namespace Sys2Proof.Machine

/-- An accepted request is answered ACCEPTED and takes its slot. -/
theorem accepted_eq (p : Port) (k : RequestKind) (tag : Nat) (s : State) :
    takeSlot p k tag (giveAnswer p (answerFor .accepted tag (kindCode k) .nothing) s)
      = accepted p k tag s := by
  cases p <;> rfl

/-- What an accepted request does to the part, whatever comes of it. -/
theorem accepted_step {p : Port} {k : RequestKind} {tag : Nat} {form : Bool} {take : State → State}
    {s : State} (h : Accepts p k tag s) (hf : form = true) :
    stepOf (slotRequest p k tag form take) s = .next (endStep (take (accepted p k tag s))) := by
  rw [hf, stepOf_eq, slotRequest_taken take h]

theorem requestedDock_dock (d : DockNo) : requestedDock (.dock d.val) = some d := dif_pos d.isLt

/-! ### A new hire record -/

/-- The record of a HIRE just accepted. -/
def askedHire (tag card : Nat) (dock : Option DockNo) (plan : Option Nat) : HireRecord :=
  { tag := tag, card := card, dockRequest := dock, plan := plan, state := .authWait, chosen := none,
    cancelRequested := false }

/-- The state with a new hire record. -/
def hireJoined (h : HireRecord) (s : State) : State := s.setHu (s.hu ++ [h])

section
variable {h : HireRecord} {s : State} (hn : ∀ x ∈ s.hu, x.tag ≠ h.tag)
include hn

theorem mapHire_joined (f : HireRecord → HireRecord) :
    mapHire h.tag f (hireJoined h s) = hireJoined (f h) s := by
  have hmap : (s.hu.map fun x => if x.tag = h.tag then f x else x) = s.hu :=
    (List.map_congr_left fun x hx => if_neg (hn x hx)).trans (List.map_id _)
  simp only [mapHire, hireJoined, State.setHu_hu, List.map_append, hmap, List.map_cons, if_true,
    List.map_nil]
  rfl

/-- A new hire is answered, and its record is ENDED. -/
theorem finishHire_joined {o : ReplyOutcome} (ho : o ≠ .released) (b : Body) :
    finishHire h.tag o b (hireJoined h s)
      = reply .terminal .hire h.tag o b (hireJoined { h with state := .ended } s) := by
  simp only [finishHire, if_neg ho, mapHire_joined hn]

end

/-! ### The checks (R68, R69) -/

/-- Whether another hire of a new hire's card has not ended. -/
abbrev SameCard (card : Nat) (s : State) : Prop :=
  ∃ x ∈ s.hu, x.card = card ∧ (x.state = .authWait ∨ x.state = .unlocking)

section
variable {h : HireRecord} {s : State}

theorem sameCard_iff (hn : ∀ x ∈ s.hu, x.tag ≠ h.tag) :
    ((s.hu ++ [h]).any fun x => decide (x.tag ≠ h.tag) && decide (x.card = h.card) && notEnded x) = true
      ↔ SameCard h.card s := by
  simp only [notEnded, List.any_eq_true, List.mem_append, List.mem_singleton, Bool.and_eq_true,
    Bool.or_eq_true, decide_eq_true_eq]
  constructor
  · rintro ⟨x, hx | rfl, ⟨hne, hcard⟩, hstate⟩
    · exact ⟨x, hx, hcard, hstate⟩
    · exact absurd rfl hne
  · rintro ⟨x, hx, hcard, hstate⟩
    exact ⟨x, .inl hx, ⟨hn x hx, hcard⟩, hstate⟩

theorem hireRefusal_mode (hm : s.sc.mode ≠ .inService) :
    hireRefusal h (hireJoined h s) = some (.notInService, .empty) := if_pos hm

theorem hireRefusal_station (hm : s.sc.mode = .inService) (hc : commissioned s = false) :
    hireRefusal h (hireJoined h s) = some (.notCommissioned, .empty) := by
  have hc' : commissioned (hireJoined h s) = false := hc
  have hm' : ¬(hireJoined h s).sc.mode ≠ .inService := not_not_intro hm
  rw [hireRefusal, if_neg hm', hc']
  rfl

theorem hireRefusal_card (hm : s.sc.mode = .inService) (hc : commissioned s = true)
    (hn : ∀ x ∈ s.hu, x.tag ≠ h.tag) (hs : SameCard h.card s) :
    hireRefusal h (hireJoined h s) = some (.retry, .retry .sameCard) := by
  have hc' : commissioned (hireJoined h s) = true := hc
  have hm' : ¬(hireJoined h s).sc.mode ≠ .inService := not_not_intro hm
  rw [hireRefusal, if_neg hm', hc', Bool.not_true, if_neg Bool.false_ne_true]
  exact if_pos ((sameCard_iff hn).2 hs)

theorem hireRefusal_none (hm : s.sc.mode = .inService) (hc : commissioned s = true)
    (hn : ∀ x ∈ s.hu, x.tag ≠ h.tag) (hs : ¬SameCard h.card s) :
    hireRefusal h (hireJoined h s) = none := by
  have hc' : commissioned (hireJoined h s) = true := hc
  have hm' : ¬(hireJoined h s).sc.mode ≠ .inService := not_not_intro hm
  rw [hireRefusal, if_neg hm', hc', Bool.not_true, if_neg Bool.false_ne_true]
  exact if_neg (mt (sameCard_iff hn).1 hs)

end

/-- Whether a dock that is not hireable is only held for a while (R69, R137). -/
abbrev HeldForAWhile (d : DockNo) (s : State) : Prop :=
  failing d s = [3] ∨ failing d s = [1, 3]
    ∧ ∃ slot index crew, (dockOf d s).holder = some (.order slot index crew)

theorem collectHeld_iff (d : DockNo) (s : State) :
    collectHeld d s = true ↔ ∃ slot index crew, (dockOf d s).holder = some (.order slot index crew) := by
  unfold collectHeld
  cases (dockOf d s).holder with
  | none => simp
  | some x => cases x <;> simp

theorem mayComeFree_iff (d : DockNo) (s : State) : mayComeFree d s = true ↔ HeldForAWhile d s := by
  simp only [mayComeFree, Bool.or_eq_true, Bool.and_eq_true, decide_eq_true_eq, collectHeld_iff]

theorem hireable_failing {d : DockNo} {s : State} (h : hireable d s = true) : failing d s = [] := by
  have hall : ∀ x ∈ conditionsFail d s, x = false := by
    simpa [hireable] using h
  have hnone : ((conditionsFail d s).zipIdx.filter fun x => x.1) = [] :=
    List.filter_eq_nil_iff.2 fun x hx => by
      rw [hall x.1 (List.fst_mem_of_mem_zipIdx hx)]
      exact Bool.false_ne_true
  rw [failing, hnone, List.map_nil]

section
variable {d : DockNo} {s : State}

theorem dockCheck_retries (h : HeldForAWhile d s) :
    dockCheck (some d) s = .error (.retry, .retry .dockHeld) := by
  have hno : hireable d s = false := Bool.eq_false_iff.2 fun hh => by
    have hnil := hireable_failing hh
    rcases h with h | ⟨h, -⟩ <;> rw [hnil] at h <;> cases h
  simp only [dockCheck, hno, (mayComeFree_iff d s).2 h, Bool.false_eq_true, if_false, if_true]

theorem dockCheck_noBike (hno : hireable d s = false) (h : ¬HeldForAWhile d s) :
    dockCheck (some d) s = .error (.noBike, .noBike (failing d s)) := by
  simp only [dockCheck, hno, Bool.eq_false_iff.2 (mt (mayComeFree_iff d s).1 h), Bool.false_eq_true,
    if_false]

theorem dockCheck_any (h : ∀ d, hireable d s = false) :
    dockCheck none s = .error (.noBike, .noBike []) := by
  simp only [dockCheck, choose_none h]

theorem dockCheck_named (h : hireable d s = true) : dockCheck (some d) s = .ok d := by
  simp only [dockCheck, h, if_true]

theorem dockCheck_chosen (h : chooseDock s = some d) : dockCheck none s = .ok d := by
  simp only [dockCheck, h]

end

/-! ### The HIRE -/

section
variable {tag card : Nat} {request : DockRequest} {plan : Option Nat} {s : State} {o : ReplyOutcome}
  {b : Body}

theorem takeHire_refused
    (hr : hireRefusal (askedHire tag card (requestedDock request) plan)
      (hireJoined (askedHire tag card (requestedDock request) plan) s) = some (o, b)) :
    takeHire tag card request plan s
      = finishHire tag o b (hireJoined (askedHire tag card (requestedDock request) plan) s) := by
  unfold takeHire
  simp only [askedHire, hireJoined] at hr ⊢
  rw [hr]

section
variable (hr : hireRefusal (askedHire tag card (requestedDock request) plan)
  (hireJoined (askedHire tag card (requestedDock request) plan) s) = none) (hc : Clean s)
include hr hc

theorem takeHire_dockless (hd : dockCheck (requestedDock request) s = .error (o, b)) :
    takeHire tag card request plan s
      = finishHire tag o b (hireJoined (askedHire tag card (requestedDock request) plan) s) := by
  have hcj : Clean (hireJoined (askedHire tag card (requestedDock request) plan) s) := hc
  have hdj : dockCheck (requestedDock request)
      (hireJoined (askedHire tag card (requestedDock request) plan) s) = .error (o, b) := hd
  unfold takeHire
  simp only [askedHire, hireJoined] at hr hcj hdj ⊢
  simp only [hr, readRegistry_clean hcj, hdj]

theorem takeHire_docked {d : DockNo} (hd : dockCheck (requestedDock request) s = .ok d) :
    takeHire tag card request plan s =
      if s.rq.held.length + s.rq.claimTotal + 2 ≤ 96 then
        reserveDock (askedHire tag card (requestedDock request) plan) d
          (hireJoined (askedHire tag card (requestedDock request) plan) s)
      else finishHire tag .backlog .empty
        (hireJoined (askedHire tag card (requestedDock request) plan) s) := by
  have hcj : Clean (hireJoined (askedHire tag card (requestedDock request) plan) s) := hc
  have hdj : dockCheck (requestedDock request)
      (hireJoined (askedHire tag card (requestedDock request) plan) s) = .ok d := hd
  have hgate := gate_eq 2 (hireJoined (askedHire tag card (requestedDock request) plan) s)
  unfold takeHire
  simp only [askedHire, hireJoined] at hr hcj hdj hgate ⊢
  simp only [hr, readRegistry_clean hcj, hdj, readQueueHead_clean hcj, hgate]
  rfl

end

/-- A dock reserved for a new hire: it is authorised with its holder on the dock (R70). -/
theorem reserveDock_joined {h : HireRecord} {d : DockNo} (hcl : ClaimsRight s)
    (hn : ∀ x ∈ s.hu, x.tag ≠ h.tag) (hd : (dockOf d s).state = .docked) :
    reserveDock h d (hireJoined h s) =
      authorise { h with chosen := some d }
        (hireJoined { h with chosen := some d }
          (s.setDlc { s.dlc with
            docks := vset s.dlc.docks d { dockOf d s with holder := some (.hire h.tag none) } })) := by
  have hclj : ClaimsRight (hireJoined h s) := hcl
  have hplace : placeHolder d (.hire h.tag none) (hireJoined h s)
      = hireJoined h (s.setDlc { s.dlc with
          docks := vset s.dlc.docks d { dockOf d s with holder := some (.hire h.tag none) } }) := by
    have hdj : (dockOf d (hireJoined h s)).state = .docked := hd
    refine (putDock_quiet hclj ?_ ?_ ?_).trans rfl
    · simp [claimOf, hdj]
    · simp [toInhibit, hdj]
    · simp [retainedOf]
  unfold reserveDock
  dsimp only
  rw [hplace]
  exact congrArg _ (mapHire_joined (s := s.setDlc { s.dlc with
    docks := vset s.dlc.docks d { dockOf d s with holder := some (.hire h.tag none) } }) hn _)

end

/-- A HIRE answered at once: its record is ENDED and nothing else changes. -/
theorem hire_ended {tag card : Nat} {request : DockRequest} {dock : Option DockNo} {plan : Option Nat}
    {s : State} {o : ReplyOutcome} {b : Body} (hacc : Accepts .terminal .hire tag s)
    (hform : hireInForm card request plan = true) (hn : ∀ x ∈ s.hu, x.tag ≠ tag) (ho : o ≠ .released)
    (hreq : requestedDock request = dock)
    (hx : ∀ i, takeHire tag card request plan (s.setPi i)
      = finishHire tag o b (hireJoined (askedHire tag card (requestedDock request) plan) (s.setPi i))) :
    ∃ t, exec (.hire tag card request plan) s = .next t ∧ Replied .terminal .hire tag o b s t
      ∧ StoreKept s t
      ∧ t = { s with
          pi := t.pi, rs := t.rs,
          hu := s.hu ++
            [{ tag := tag, card := card, dockRequest := dock, plan := plan, state := .ended,
               chosen := none, cancelRequested := false }] } := by
  subst hreq
  exact request_kept (x := hireJoined { askedHire tag card (requestedDock request) plan with state := .ended } s)
    hacc hform rfl fun i => (hx i).trans
      (finishHire_joined (h := askedHire tag card (requestedDock request) plan) (s := s.setPi i) hn ho b)

/-- Settles O36. -/
theorem hiresAreTurnedAway : Obligations.HiresAreTurnedAway := by
  unfold Obligations.HiresAreTurnedAway
  intro tag card request plan s hacc hform hc hn ended retries sameCard dock hreq
  have hdock : requestedDock request = dock := by
    rw [hreq]
    cases dock with
    | none => rfl
    | some d => exact requestedDock_dock d
  have hend : ∀ {o : ReplyOutcome} {b : Body}, o ≠ .released →
      (∀ i, takeHire tag card request plan (s.setPi i)
        = finishHire tag o b
            (hireJoined (askedHire tag card (requestedDock request) plan) (s.setPi i))) →
      ended o b dock := fun ho hx => hire_ended hacc hform hn ho hdock hx
  refine ⟨fun hm => ?_, fun hm => ⟨fun hcom => ?_, fun hcom => ⟨fun hs => ?_, fun hs => ?_⟩⟩⟩
  · exact hend nofun fun i => takeHire_refused (hireRefusal_mode (s := s.setPi i) hm)
  · exact hend nofun fun i => takeHire_refused (hireRefusal_station (s := s.setPi i) hm hcom)
  · exact hend nofun fun i => takeHire_refused (hireRefusal_card (s := s.setPi i) hm hcom hn hs)
  · have hpass : ∀ i, hireRefusal (askedHire tag card (requestedDock request) plan)
        (hireJoined (askedHire tag card (requestedDock request) plan) (s.setPi i)) = none :=
      fun i => hireRefusal_none (s := s.setPi i) hm hcom hn hs
    have hcheck : ∀ {o : ReplyOutcome} {b : Body}, o ≠ .released →
        dockCheck dock s = .error (o, b) → ended o b dock := fun ho he =>
      hend ho fun i => takeHire_dockless (s := s.setPi i) (hpass i) hc (by rw [hdock]; exact he)
    refine ⟨fun d hd hw => ?_, fun d hd hno hw => ?_, fun hd hno => ?_, fun hnamed hany hfull => ?_⟩
    · exact hcheck nofun (by rw [hd]; exact dockCheck_retries hw)
    · exact hcheck nofun (by rw [hd]; exact dockCheck_noBike hno hw)
    · exact hcheck nofun (by rw [hd]; exact dockCheck_any hno)
    · have hok : ∃ d, dockCheck dock s = .ok d := by
        cases hdk : dock with
        | none =>
          obtain ⟨d, hh⟩ := hany hdk
          obtain ⟨e, he⟩ := choose_ex hh
          exact ⟨e, dockCheck_chosen he⟩
        | some d => exact ⟨d, dockCheck_named (hnamed d hdk)⟩
      obtain ⟨d, hd⟩ := hok
      exact hend nofun fun i =>
        (takeHire_docked (s := s.setPi i) (hpass i) hc (by rw [hdock]; exact hd)).trans
          (if_neg (Nat.not_le.2 hfull))

/-- A HIRE that passes its checks is authorised with its record in AUTH_WAIT and its holder on its
dock. -/
theorem takeHire_reserves {tag card : Nat} {request : DockRequest} {plan : Option Nat} {d : DockNo}
    {s : State} (hc : Clean s) (hcl : ClaimsRight s) (hm : s.sc.mode = .inService)
    (hcom : commissioned s = true)
    (hn : ∀ h ∈ s.hu, h.tag ≠ tag ∧ (h.card = card → h.state ≠ .authWait ∧ h.state ≠ .unlocking))
    (hh : hireable d s = true)
    (hreq : request = .dock d.val ∨ (request = .any ∧ ∀ e, hireable e s = true →
      dockedSince d s < dockedSince e s ∨ (dockedSince d s = dockedSince e s ∧ d ≤ e)))
    (hroom : s.rq.held.length + s.rq.claimTotal + 2 ≤ 96) :
    takeHire tag card request plan s =
      authorise { askedHire tag card (if request = .any then none else some d) plan with chosen := some d }
        (hireJoined
          { askedHire tag card (if request = .any then none else some d) plan with chosen := some d }
          (s.setDlc { s.dlc with
            docks := vset s.dlc.docks d { dockOf d s with holder := some (.hire tag none) } })) := by
  have hdock : requestedDock request = (if request = .any then none else some d) := by
    rcases hreq with rfl | ⟨rfl, -⟩
    · exact (requestedDock_dock d).trans (if_neg nofun).symm
    · rfl
  have hok : dockCheck (requestedDock request) s = .ok d := by
    rcases hreq with rfl | ⟨rfl, hmin⟩
    · rw [requestedDock_dock]
      exact dockCheck_named hh
    · exact dockCheck_chosen (choose_some hh hmin)
  have hother : ¬SameCard card s := fun ⟨x, hx, hcard, hstate⟩ =>
    hstate.elim (fun h => ((hn x hx).2 hcard).1 h) fun h => ((hn x hx).2 hcard).2 h
  have htag : ∀ x ∈ s.hu, x.tag ≠ tag := fun x hx => (hn x hx).1
  rw [takeHire_docked (hireRefusal_none hm hcom htag hother) hc hok, if_pos hroom,
    reserveDock_joined hcl htag (hireable_docked hh).1, hdock]
  rfl

/-- Without an entry and a fill of its card, and with the link UP and fill room, a hire waits on a fill
issued for it (R50, R51). -/
theorem authorise_asks {h : HireRecord} {s : State} (hc : Clean s)
    (hent : ∀ e ∈ vget s.cc.sets (cardSet h.card), e.card ≠ h.card) (hup : s.sc.linkUp = true)
    (hfill : ∀ f ∈ s.cc.fills, f.card ≠ h.card) (hlen : s.cc.fills.length < 8) :
    authorise h s = { s with cc := { s.cc with fills := s.cc.fills ++
      [{ card := h.card, fetched := false, issuedAt := stationTime s,
         expiry := s.sc.timebase + 1000 * s.sc.config.fillTimeout,
         waiter := some { tag := h.tag, plan := h.plan }, poisoned := false }] } } := by
  rw [authorise_absent (entryOf_none hent), actOnFill_fill hup ((fillRoom_iff _ _).2 (.inr hlen)),
    issueFill_new hc (fillOf_none hfill)]

/-- Settles O35. -/
theorem hiresReserveAndAskAFill : Obligations.HiresReserveAndAskAFill := by
  unfold Obligations.HiresReserveAndAskAFill
  intro tag card request plan d s hacc hform hc hcl hm hcom hn hh hreq hroom h x docks
  have hx : x = accepted .terminal .hire tag s := accepted_eq ..
  have htake : takeHire tag card request plan (accepted .terminal .hire tag s)
      = authorise h
        { accepted .terminal .hire tag s with
          hu := s.hu ++ [h], dlc := { s.dlc with docks := docks } } :=
    takeHire_reserves (s := accepted .terminal .hire tag s) hc hcl hm hcom hn hh hreq hroom
  refine ⟨?_, fun hent hup hfill hlen => ?_⟩
  · rw [hx, ← htake]
    exact accepted_step hacc hform
  · have hauth := authorise_asks (h := h)
      (s := { accepted .terminal .hire tag s with
        hu := s.hu ++ [h], dlc := { s.dlc with docks := docks } }) hc hent hup hfill hlen
    obtain ⟨t, hstep, htaken, hrs, ht⟩ := left_unfinished hacc hform (htake.trans hauth) rfl
    exact ⟨t, hstep, htaken, kept_of_rs hrs rfl, ht⟩

end Sys2Proof.Machine
end

section
/-! CANCEL by the state of its target (R63, R83 to R85). -/

namespace Sys2Proof.Machine

theorem hireOf_mem {tag : Nat} {s : State} {h : HireRecord} (hf : hireOf tag s = some h) : h.tag = tag := by
  simpa using List.find?_some hf

section
variable {tag target : Nat} {s : State} {h : HireRecord}

theorem takeCancel_none (hn : ∀ h ∈ s.hu, h.tag ≠ target) :
    takeCancel tag target s = reply .terminal .cancel tag .noSuchTag .empty s := by
  have hf : hireOf target s = none := List.find?_eq_none.2 fun x hx => by simpa using hn x hx
  simp only [takeCancel, hf]

section
variable (hf : hireOf target s = some h)
include hf

theorem takeCancel_unlocking (hs : h.state = .unlocking) :
    takeCancel tag target s =
      reply .terminal .cancel tag .pending .empty
        (mapHire target (fun h => { h with cancelRequested := true }) s) := by
  simp only [takeCancel, hf, hs]

theorem takeCancel_late (hs : h.state = .offered ∨ h.state = .ended) :
    takeCancel tag target s = reply .terminal .cancel tag .tooLate .empty s := by
  rcases hs with hs | hs <;> simp only [takeCancel, hf, hs]

theorem takeCancel_waiting (hs : h.state = .authWait) :
    takeCancel tag target s = reply .terminal .cancel tag .done .empty (cancelWaiting h s) := by
  simp only [takeCancel, hf, hs]

end

/-- A hire's holder leaves its DOCKED dock, which changes nothing else. -/
theorem withdrawHire_quiet {d : DockNo} (hcl : ClaimsRight s) (hd : (dockOf d s).state = .docked)
    (hh : ∃ stamp, (dockOf d s).holder = some (.hire tag stamp)) :
    withdrawHire d tag s = s.setDlc { s.dlc with
      docks := vset s.dlc.docks d { dockOf d s with holder := none } } := by
  rw [withdrawHire, if_pos ⟨(heldByHire_iff d tag s).2 hh, hd⟩]
  refine putDock_quiet hcl ?_ ?_ ?_
  · simp [claimOf, hd]
  · simp [toInhibit, hd]
  · simp [retainedOf]

/-- A hire in AUTH_WAIT withdrawn, with its record ENDED, whatever the ports. -/
def waitingCancelled (target : Nat) (d : DockNo) (s : State) : State :=
  { s with
    hu := s.hu.map fun x => if x.tag = target then { x with state := .ended } else x,
    dlc := { s.dlc with docks := vset s.dlc.docks d { dockOf d s with holder := none } },
    cc := { s.cc with
      fills := s.cc.fills.map fun f =>
        if f.waiter.any (fun w => decide (w.tag = target)) then { f with waiter := none } else f } }

theorem cancelWaiting_held {d : DockNo} {stamp : Option Stamp} (hcl : ClaimsRight s)
    (ht : h.tag = target) (hd : h.chosen = some d) (hk : (dockOf d s).state = .docked)
    (hh : (dockOf d s).holder = some (.hire target stamp)) :
    cancelWaiting h s =
      reply .terminal .hire target .cancelled (.dock (some d)) (waitingCancelled target d s) := by
  subst ht
  have hdock : withdrawnDock h s = some d := by
    rw [withdrawnDock, hd, Option.filter_some, (heldByHire_iff d h.tag s).2 ⟨stamp, hh⟩, hk]
    rfl
  have hw : withdrawHire d h.tag (withdrawWaiter h.tag s) = _ :=
    withdrawHire_quiet (s := withdrawWaiter h.tag s) hcl hk ⟨stamp, hh⟩
  simp only [cancelWaiting, hdock, withdrawChosen_some hd, hw]
  rfl

/-- The Terminal port after a CANCEL that ends its target's hire: the HIRE's reply and then its own. -/
theorem cancelled_ports {b : Body} (hacc : Accepts .terminal .cancel tag s) {x : State}
    (hx : x.pi = (accepted .terminal .cancel tag s).pi) (q : Port) :
    getPort q (reply .terminal .cancel tag .done .empty
        (reply .terminal .hire target .cancelled b x)) =
      if q = .terminal then
        { getPort .terminal s with
          unfinished := (getPort .terminal s).unfinished.filter fun u => decide (u.1 ≠ target),
          finished := (getPort .terminal s).finished ++
            [{ tag := target, kind := .hire, outcome := .cancelled, body := b },
             { tag := tag, kind := .cancel, outcome := .done, body := .empty }],
          answer := some (answerFor .accepted tag 5 .nothing), reported := .clear }
      else getPort q s := by
  split
  case isTrue hq =>
    subst hq
    have hlist := (List.filter_comm (p := fun u : Nat × RequestKind => decide (u.1 ≠ tag))
      (q := fun u => decide (u.1 ≠ target))
      (l := (getPort .terminal s).unfinished ++ [(tag, .cancel)])).trans
      (congrArg _ (filter_held hacc))
    simp only [reply, finishReply, getPort_setPort_self, getPort_congr hx .terminal, accepted, hlist,
      List.append_assoc]
    rfl
  case isFalse hq =>
    simp only [reply, finishReply, getPort_setPort_ne _ _ hq, getPort_congr hx q, accepted]

end

/-- Settles O39. -/
theorem cancelsEndTheWaiting : Obligations.CancelsEndTheWaiting := by
  unfold Obligations.CancelsEndTheWaiting
  intro tag target s hacc answered change
  refine ⟨fun hn => ?_, fun h hf => ⟨fun hs => ?_, fun hs => ?_, fun hs d stamp hd hcl hk hh => ?_⟩⟩
  · exact request_kept (x := s) hacc rfl rfl fun i => takeCancel_none (s := s.setPi i) hn
  · exact request_kept (x := s.setHu (change fun x => { x with cancelRequested := true })) hacc rfl rfl
      fun i => takeCancel_unlocking (s := s.setPi i) hf hs
  · exact request_kept (x := s) hacc rfl rfl fun i => takeCancel_late (s := s.setPi i) hf hs
  · have hcancel : takeCancel tag target (accepted .terminal .cancel tag s) = _ :=
      (takeCancel_waiting (s := accepted .terminal .cancel tag s) hf hs).trans
        (congrArg _ (cancelWaiting_held (s := accepted .terminal .cancel tag s) hcl (hireOf_mem hf) hd
          hk hh))
    obtain ⟨t, hstep, hport, hrs, ht⟩ := step_ends
      (f := slotRequest .terminal .cancel tag true (takeCancel tag target))
      ((slotRequest_taken _ hacc).trans hcancel)
    have hports := cancelled_ports (target := target) (b := .dock (some d)) hacc
      (x := waitingCancelled target d (accepted .terminal .cancel tag s)) rfl
    refine ⟨t, hstep, ?_, fun q hq => ?_, ?_, ?_⟩
    · rw [hport .terminal, hports .terminal, if_pos rfl]
    · rw [hport q, hports q, if_neg hq]
    · exact kept_of_rs hrs rfl
    · exact ht

end Sys2Proof.Machine
end

section
/-! Fill expiries, and the waiters decided with an answer or an expiry (R45, R46, R52, R53, R55, R56,
R73). -/

namespace Sys2Proof.Machine

/-! ### Expiries without a waiter (R52) -/

/-- The state in which a card's fill entry has expired and left the queue. -/
def fillExpired (f : Fill) (card : Nat) (s : State) : State :=
  { s with
    sc := { s.sc with timebase := max s.sc.timebase f.expiry },
    cc := { s.cc with fills := s.cc.fills.filter fun x => decide (x.card ≠ card) } }

theorem fillExpires_eq {card : Nat} {f : Fill} {s : State} (hf : fillOf card s = some f) :
    fillExpires card s = advanceRun (expireWaiter f (fillExpired f card s)) := by
  simp only [fillExpires, hf]
  rfl

theorem forWaiter_none {f : Fill} (h : f.waiter = none) (act : HireRecord → State → State) (s : State) :
    forWaiter f act s = s := by
  simp only [forWaiter, h]

theorem expireWaiter_none {f : Fill} (h : f.waiter = none) (s : State) : expireWaiter f s = s := by
  rw [expireWaiter, forWaiter_none h, h]
  exact ite_self _

/-- The state with the run counter put. -/
def runCounted (n : Nat) (s : State) : State := { s with cc := { s.cc with runCounter := n } }

theorem advanceRun_counts {s : State} (h : min 3 (s.cc.runCounter + 1) < 3 ∨ s.sc.linkUp = false) :
    advanceRun s = runCounted (min 3 (s.cc.runCounter + 1)) s := by
  have hno : ¬(min 3 (s.cc.runCounter + 1) = 3
      ∧ (s.setCc { s.cc with runCounter := min 3 (s.cc.runCounter + 1) }).sc.linkUp = true) := by
    rintro ⟨hn, hup⟩
    rcases h with h | h
    · omega
    · exact Bool.false_ne_true (h.symm.trans hup)
  exact if_neg hno

theorem raise_ignored {r : Raising} {s : State} (hc : Clean s) (hd : r.dock = none)
    (hp : policyOf r.kind s = .ignore) : raise r s = s := by
  rw [raise_dockless hc hd, hp]

/-- The third expiry in a row takes the link down; LINK_DOWN is raised, here under policy IGNORE. -/
theorem advanceRun_down {s : State} (hc : Clean s) (hn : min 3 (s.cc.runCounter + 1) = 3)
    (hup : s.sc.linkUp = true) (hp : policyOf .linkDown s = .ignore) :
    advanceRun s =
      setEvent .uplink .linkDown (linkDown (runCounted (min 3 (s.cc.runCounter + 1)) s)) := by
  have hdown : advanceRun s = setEvent .uplink .linkDown (raise (stationRaising .linkDown .none)
      (linkDown (runCounted (min 3 (s.cc.runCounter + 1)) s))) := if_pos ⟨hn, hup⟩
  rw [hdown, raise_ignored (s := linkDown (runCounted (min 3 (s.cc.runCounter + 1)) s)) hc rfl hp]

/-! ### Waiters (R55, R56, R73) -/

/-- The offline decision leaves the hire records. -/
theorem hireOf_decideOffline {k tag : Nat} {p : Option Nat} {s : State} (hc : Clean s) :
    hireOf tag (decideOffline k p s).2 = hireOf tag s := by
  rw [decideOffline_frame hc]
  rfl

section
variable {f : Fill} {w : Waiter} {h : HireRecord} (hw : f.waiter = some w)
include hw

theorem forWaiter_some {s : State} (hh : hireOf w.tag s = some h) (act : HireRecord → State → State) :
    forWaiter f act s = act h s := by
  simp only [forWaiter, hw, hh]

theorem discardFill_waiter {tag : Nat} {s : State} (hh : hireOf w.tag s = some h) :
    discardFill tag f s =
      reply .uplink .fillAnswer tag .discarded .empty (denyHire h .revoked (dropFill f.card s)) := by
  rw [discardFill, forWaiter_some (s := dropFill f.card s) hw hh]

theorem expireWaiter_poisoned {s : State} (hp : f.poisoned = true) (hh : hireOf w.tag s = some h) :
    expireWaiter f s = denyHire h .revoked s := by
  rw [expireWaiter, if_pos hp, forWaiter_some hw hh]

theorem expireWaiter_decided {s : State} (hc : Clean s) (hp : f.poisoned = false)
    (hh : hireOf w.tag s = some h) :
    expireWaiter f s =
      actOn h (decideOffline f.card w.plan s).1 (decideOffline f.card w.plan s).2 := by
  simp only [expireWaiter, hp, hw, Bool.false_eq_true, if_false]
  exact forWaiter_some hw ((hireOf_decideOffline hc).trans hh) _

theorem decideWaiter_values {m : MemberRecord} {p : Placement} {s y : State} {v : HandedValues}
    (hv : waiterValues m p s = (some v, y)) (hh : hireOf w.tag y = some h) :
    decideWaiter m f p s = decideOnline h v y := by
  simp only [decideWaiter, hw, hv, Option.isSome_some, if_true]
  exact forWaiter_some hw hh _

theorem decideWaiter_revoked {m : MemberRecord} {s : State} (hh : hireOf w.tag s = some h) :
    decideWaiter m f (.notKept true) s = denyHire h .revoked s := by
  simp only [decideWaiter, hw, waiterValues, Option.isSome_some, if_true]
  exact forWaiter_some hw hh _

end

theorem waiterValues_entry {m : MemberRecord} {p : Placement} {s : State} {e : CardEntry}
    (hp : p = .placed ∨ p = .refreshed) (he : entryOf m.card s = some e) :
    waiterValues m p s = (some (entryValues e), s) := by
  rcases hp with rfl | rfl <;> simp only [waiterValues, he, Option.map_some]

/-- The values handed for a record that was not kept (R45). -/
theorem waiterValues_notional {m : MemberRecord} {s : State} (hc : Clean s) (hs : SequencesAgree s) :
    waiterValues m (.notKept false) s =
      (some
        { standing := (standingOf m.standing).getD .active, plan := m.plan,
          hireLimit := (within 1 4 m.hireLimit).toNat, pendingCount := releasesOf m.card s,
          openCount := (min 15 (max 0 (within 0 15 m.baseOpen
            + (recompute m.card m.baseMark (releasesOf m.card s) s).1))).toNat,
          balance := max (-1000000) (within (-1000000) 1000000 m.balance
            - (recompute m.card m.baseMark (releasesOf m.card s) s).2) }, s) := by
  have hopen : ((within 0 15 m.baseOpen).toNat : Int) = within 0 15 m.baseOpen := by
    rw [← limit_within (by decide)]
    exact toNat_limit (le_refl 0) _
  simp only [waiterValues, notionalValues, readHeldReports_agree hc hs, values_eq, memberEntry, limit_within (lo := 0) (hi := 15) (by decide),
    limit_within (lo := 1) (hi := 4) (by decide),
    limit_within (lo := -1000000) (hi := 1000000) (by decide), hopen]

/-! ### FILL_ANSWER (R55 to R57) -/

section
variable {tag : Nat} {m : MemberRecord} {f : Fill} {s : State} (hf : fillOf m.card s = some f)
include hf

theorem takeFillAnswer_poisoned (hp : f.poisoned = true) :
    takeFillAnswer tag m s = discardFill tag f (answerLink s) := by
  have hfa : fillOf m.card (answerLink s) = some f := (fillOf_answerLink _ s).trans hf
  simp only [takeFillAnswer, hfa, if_pos hp]

theorem takeFillAnswer_placed {p : Placement} {x : State} (hp : f.poisoned = false)
    (hx : placeMember m (answeredUp m.card s) = (p, x)) :
    takeFillAnswer tag m s =
      reply .uplink .fillAnswer tag (placementOutcome p) (.clamped (memberLimited m))
        (decideWaiter m f p x) := by
  have hfa : fillOf m.card (answerLink s) = some f := (fillOf_answerLink _ s).trans hf
  simp only [takeFillAnswer, hfa, hp, Bool.false_eq_true, if_false, dropFill_answerLink, hx]

end

section
variable {tag card : Nat} {f : Fill} {s : State} (hf : fillOf card s = some f)
include hf

theorem takeFillNotFound_poisoned (hp : f.poisoned = true) :
    takeFillNotFound tag card s = discardFill tag f (answerLink s) := by
  have hfa : fillOf card (answerLink s) = some f := (fillOf_answerLink _ s).trans hf
  simp only [takeFillNotFound, hfa, if_pos hp]

theorem takeFillNotFound_denied (hp : f.poisoned = false) :
    takeFillNotFound tag card s =
      reply .uplink .fillAnswer tag .notFoundTaken .empty
        (invalidateEntry card
          (forWaiter f (fun h s => denyHire h .unknownCard s) (answeredUp card s))).2 := by
  have hfa : fillOf card (answerLink s) = some f := (fillOf_answerLink _ s).trans hf
  simp only [takeFillNotFound, hfa, hp, Bool.false_eq_true, if_false, dropFill_answerLink]

end

/-- Settles O33. -/
theorem expiriesAndWaitersAreDecided : Obligations.ExpiriesAndWaitersAreDecided := by
  unfold Obligations.ExpiriesAndWaitersAreDecided
  refine ⟨fun s card f hr hf hw => ?quiet, fun s hr card => running_step hr rfl,
    fun tag s hacc => ?answers, fun s f w h hc hs hf hw hh => ?waiters⟩
  case quiet =>
    intro n cc now
    have hexp : fillExpires card s = advanceRun (fillExpired f card s) := by
      rw [fillExpires_eq hf, expireWaiter_none hw]
    refine ⟨fun hn => ?_, fun hn hup hc hp => ?_⟩
    · have hrun : whileRunning (fillExpires card) s = _ :=
        (whileRunning_eq hr).trans (hexp.trans (advanceRun_counts (s := fillExpired f card s) hn))
      obtain ⟨t, hstep, hport, hrs, ht⟩ := step_ends hrun
      exact ⟨t, hstep, hport, kept_of_rs hrs rfl, ht⟩
    · have hrun : whileRunning (fillExpires card) s = _ := (whileRunning_eq hr).trans
        (hexp.trans (advanceRun_down (s := fillExpired f card s) hc hn hup hp))
      obtain ⟨t, hstep, hport, hrs, ht⟩ := step_ends hrun
      refine ⟨t, hstep, fun q hq => ?_, kept_of_rs hrs rfl, ?_, ht⟩
      · rw [hport q, setEvent, getPort_setPort_ne _ _ hq]
        rfl
      · rw [hport .uplink, setEvent, getPort_setPort_self]
        rfl
  case answers =>
    intro x
    have hx : x = accepted .uplink .fillAnswer tag s := accepted_eq ..
    rw [hx]
    exact ⟨fun m hm => accepted_step hacc hm, fun card h0 hlt =>
      accepted_step hacc (decide_eq_true ⟨h0, hlt⟩)⟩
  case waiters =>
    intro fills up late
    have hup : answeredUp f.card s = up := rfl
    have hlate : fillExpired f f.card s = late := rfl
    have hhup : hireOf w.tag up = some h := hh
    refine ⟨fun tag m hm => ?_, fun tag => ?_, fun hp => ?_, fun hp => ?_⟩
    · intro answers
      rw [← hm] at hf hup
      refine ⟨fun hp => ?_, fun hp p x hx => ?_⟩
      · refine (takeFillAnswer_poisoned hf hp).trans ?_
        rw [discardFill_waiter (s := answerLink s) hw ((congrArg _ (answerLink_eq s)).trans hh),
          dropFill_answerLink, ← hm, hup]
      · have hplace := takeFillAnswer_placed (tag := tag) hf hp (hup ▸ hx)
        have hframe : x = { up with cc := x.cc } := by
          have heq := placeMember_frame (m := m) (s := up) hc hs
          rw [hx] at heq
          exact heq
        have hhx : hireOf w.tag x = some h := by rw [hframe]; exact hh
        refine ⟨fun e hpe he => ?_, fun hpe => ?_, fun hpe => ?_⟩
        · rw [decideWaiter_values hw (waiterValues_entry hpe he) hhx, values_eq] at hplace
          rcases hpe with rfl | rfl <;> exact hplace
        · subst hpe
          rw [decideWaiter_revoked hw hhx] at hplace
          exact hplace
        · subst hpe
          have hcx : Clean x := by rw [hframe]; exact hc
          have hsx : SequencesAgree x := by rw [hframe]; exact hs
          have hrel : releasesOf m.card x = releasesOf m.card s := by rw [hframe]; rfl
          have hrq : x.rq = s.rq := by rw [hframe]
          intro within out adj
          have hout : releasesOf m.card s = out := by
            refine congrArg List.length (List.filter_congr fun d _ => congrArg₂ (· && ·) ?_ rfl)
            simp only [Bool.decide_or, Bool.or_assoc]
          rw [decideWaiter_values hw (waiterValues_notional hcx hsx) hhx, hrel,
            recompute_congr hrq, hout] at hplace
          exact hplace
    · intro answers
      refine ⟨fun hp => ?_, fun hp => ?_⟩
      · refine (takeFillNotFound_poisoned hf hp).trans ?_
        rw [discardFill_waiter (s := answerLink s) hw ((congrArg _ (answerLink_eq s)).trans hh),
          dropFill_answerLink, hup]
      · refine (takeFillNotFound_denied hf hp).trans ?_
        rw [hup, forWaiter_some hw hhup]
    · rw [fillExpires_eq hf, hlate, expireWaiter_poisoned (s := late) hw hp hh]
    · have hact : fillExpires f.card s = advanceRun (actOn h (decideOffline f.card w.plan late).1
          (decideOffline f.card w.plan late).2) := by
        rw [fillExpires_eq hf, hlate, expireWaiter_decided (s := late) hw hc hp hh]
      exact ⟨fun kind plan x hx => by rw [hact, hx]; rfl, fun reason x hx => by rw [hact, hx]; rfl⟩

end Sys2Proof.Machine
end

section
/-! The release of a dock: OPENED, STAMP_FAIL and CLOSED by the dock's state (R16, R19, R27, R29, R79, R80,
R82). -/

namespace Sys2Proof.Machine

/-! ### Dock records put with their lines -/

/-- A dock's line without the command kept for a resend (R13). -/
def unkept (l : LineState) : LineState := { l with actuation := none }

/-- A dock record put where its actuation ends. -/
theorem endActuation_putDock (d : DockNo) (r : DockRecord) (s : State) :
    endActuation d (putDock d r s) = dockPut d r (unkept (lineOf d s)) (claimOf r) s := by
  rw [putDock_put, endActuation_dockPut]
  rfl

/-- A dock record put after its line was. -/
theorem putDock_setLine (d : DockNo) (r : DockRecord) (l : LineState) (s : State) :
    putDock d r (setLine d l s) = dockPut d r l (claimOf r) s := by
  rw [putDock_put, lineOf_setLine_self, dockPut_setLine]

/-- A command placed after a change of the dock's record that leaves its inhibit. -/
theorem placeCommand_dockPut {d : DockNo} {r : DockRecord} {l : LineState} {n : Nat} {s : State}
    (c : Command) (hi : inhibited r = inhibited (dockOf d s)) :
    placeCommand d c (dockPut d r l n s) =
      dockPut d r { l with waiting := placeIn c l.waiting } n s := by
  rw [placeCommand, lineOf_dockPut, if_pos rfl, inhibitFollows_same _ hi]
  exact setLine_dockPut (by rw [inhibitFollows_same _ hi])

/-- A dock record put again, where neither change moves the inhibit, on a state whose dock line is that of
the first. -/
theorem dockOf_congr {s x : State} (h : x.dlc = s.dlc) (d : DockNo) : dockOf d x = dockOf d s := by
  rw [dockOf, h]
  rfl

theorem lineOf_congr {s x : State} (h : x.dlc = s.dlc) (d : DockNo) : lineOf d x = lineOf d s := by
  rw [lineOf, h]
  rfl

section
variable {d : DockNo} {c : DockCondition} {s : State}

/-! ### OPENED (R16) -/

/-- The holder's hire has cancel requested. -/
abbrev CancelAsked (d : DockNo) (s : State) : Prop :=
  ∃ tag stamp, (dockOf d s).holder = some (.hire tag stamp) ∧ ∃ h ∈ s.hu, h.tag = tag
    ∧ h.state = .unlocking ∧ h.chosen = some d ∧ h.cancelRequested = true

/-- Of hire records with tags of their own, the one found by its tag is the one there is. -/
theorem matchingHire_unique {tag : Nat} {h : HireRecord} (hn : (s.hu.map HireRecord.tag).Nodup)
    (hm : h ∈ s.hu) (ht : h.tag = tag) (hs : h.state = .unlocking) (hc : h.chosen = some d) :
    matchingHire d tag s = some h := by
  cases hf : matchingHire d tag s with
  | none =>
    have hno := List.find?_eq_none.1 hf h hm
    simp [ht, hs, hc] at hno
  | some x =>
    have hx := List.find?_some hf
    simp only [Bool.and_eq_true, decide_eq_true_eq] at hx
    obtain ⟨⟨hxt, -⟩, -⟩ := hx
    rw [List.inj_on_of_nodup_map hn (List.mem_of_find?_eq_some hf) hm (hxt.trans ht.symm)]

theorem cancelled_iff (hn : (s.hu.map HireRecord.tag).Nodup) :
    cancelled d s = true ↔ CancelAsked d s := by
  unfold cancelled CancelAsked
  constructor
  · cases hh : (dockOf d s).holder with
    | none => exact nofun
    | some x =>
      cases x with
      | order i j k => exact nofun
      | hire tag stamp =>
        intro ha
        obtain ⟨h, hf, hr⟩ := (Option.any_eq_true _ _).1 ha
        have hx := List.find?_some hf
        simp only [Bool.and_eq_true, decide_eq_true_eq] at hx
        obtain ⟨⟨hxt, hxs⟩, hxc⟩ := hx
        exact ⟨tag, stamp, rfl, h, List.mem_of_find?_eq_some hf, hxt, hxs, hxc, hr⟩
  · rintro ⟨tag, stamp, hh, h, hm, ht, hs, hc, hr⟩
    rw [hh]
    have hf := matchingHire_unique hn hm ht hs hc
    exact (congrArg (Option.any fun h : HireRecord => h.cancelRequested) hf).trans hr

/-- The dock passes to RELOCKING with a RELOCK waiting (R16, R17). -/
theorem relockDock_put (clearing : Bool) (cause : RelockCause)
    (hi : inhibited (dockOf d s) = false) :
    relockDock d clearing cause s =
      dockPut d { dockOf d s with state := .relocking, deadline := some (.actuation none false) }
        { unkept (lineOf d s) with
          waiting := placeIn (.relock clearing cause) (lineOf d s).waiting }
        (if (dockOf d s).suspended = true then 1 else 2) s := by
  unfold relockDock
  dsimp only
  rw [endActuation_putDock, placeCommand_dockPut _ (by rw [hi]; simp [inhibited])]
  rfl

/-- A dock whose release is under way is not inhibited (R6). -/
theorem inhibited_releasing {r : DockRecord}
    (h : r.state = .unlocking ∨ r.state = .offered ∨ r.state = .relocking) : inhibited r = false := by
  rcases h with h | h | h <;> simp [inhibited, h]

/-- The record of a dock that is OFFERED, with its take window (R16). -/
def offeredRecord (d : DockNo) (s : State) : DockRecord :=
  { dockOf d s with
    state := .offered, deadline := some (.take (s.sc.timebase + 1000 * s.sc.config.takeWindow)) }

theorem offerDock_put (hc : Clean s) :
    offerDock d s = handOpened d (dockOf d s).holder (recordBike d s)
      (dockPut d (offeredRecord d s) (unkept (lineOf d s))
        (if (dockOf d s).suspended = true then 1 else 2) s) := by
  unfold offerDock
  dsimp only
  rw [readConfig_clean hc, endActuation_putDock]
  unfold recordBike
  rw [dockOf_dockPut, if_pos rfl]
  rfl

/-! ### STAMP_FAIL (R19, R27) -/

/-- A DOCKED dock without deadline and holder. -/
def redocked (r : DockRecord) : DockRecord :=
  { r with state := .docked, deadline := none, holder := none }

theorem redock_put (d : DockNo) (s : State) :
    redock d s = dockPut d (redocked (dockOf d s)) (unkept (lineOf d s)) 0 s :=
  endActuation_putDock d (redocked (dockOf d s)) s

theorem recordBike_some {b : Bike} (hb : (dockOf d s).bike = some b) : recordBike d s = b.id := by
  rw [recordBike, hb]
  rfl

theorem flagFailedWrite_entered {bike : Nat} (hc : Clean s) (hb : 0 < bike)
    (h : (∃ e ∈ s.flt.registry, e.bike = bike) ∨ s.flt.registry.length < 64) :
    flagFailedWrite d bike s = enterFlag bike .station s := by
  have hfull : flagOutcome bike s ≠ .full := fun hf => by
    obtain ⟨hno, hlen⟩ := flagOutcome_full.1 hf
    rcases h with ⟨e, he, heb⟩ | h
    · exact hno e he heb
    · omega
  unfold flagFailedWrite
  rw [if_neg hb.ne', readRegistry_clean hc]
  dsimp only
  cases ho : flagOutcome bike s with
  | full => exact absurd ho hfull
  | present | entered => rfl

theorem flagFailedWrite_full {bike : Nat} (hc : Clean s) (hb : 0 < bike)
    (hno : ∀ e ∈ s.flt.registry, e.bike ≠ bike) (hlen : 64 ≤ s.flt.registry.length) :
    flagFailedWrite d bike s = putMark d bike true (enterFlag bike .station s) := by
  have hfull : flagOutcome bike s = .full := flagOutcome_full.2 ⟨hno, hlen⟩
  unfold flagFailedWrite
  rw [if_neg hb.ne', readRegistry_clean hc]
  dsimp only
  rw [hfull]

/-- The tag mark of a bike put into the record of a dock that names it. -/
theorem putMark_named {b : Bike} {m : Bool} (hb : (dockOf d s).bike = some b) :
    putMark d b.id m s =
      dockPut d { dockOf d s with bike := some { b with mark := m } } (lineOf d s)
        (claimOf { dockOf d s with bike := some { b with mark := m } }) s := by
  simp only [putMark, hb, if_true, putDock_put]

/-- A failed stamp write of a hire's release (R27). -/
theorem stampFail_hire {tag : Nat} {t : Stamp} {b : Bike}
    (hh : (dockOf d s).holder = some (.hire tag (some t))) (hb : (dockOf d s).bike = some b) :
    stampFail d s =
      failedFor d (dockOf d s).holder
        (raise
          { kind := .tagWriteFail, dock := some d, bike := some b.id,
            detail := .tagWriteFail (.stamp t.trip) }
          (flagFailedWrite d b.id
            (dockPut d (redocked (dockOf d s)) (unkept (lineOf d s)) 0 s))) := by
  simp only [stampFail, hh, recordBike_some hb, redock_put, handFailed_for]
  rfl

theorem stampFail_other (hh : ∀ tag stamp, (dockOf d s).holder ≠ some (.hire tag stamp)) :
    stampFail d s =
      failedFor d (dockOf d s).holder
        (dockPut d (redocked (dockOf d s)) (unkept (lineOf d s)) 0 s) := by
  cases hx : (dockOf d s).holder with
  | none => simp only [stampFail, hx, redock_put, handFailed_for]
  | some x =>
    cases x with
    | hire tag stamp => exact absurd hx (hh tag stamp)
    | order i j k => simp only [stampFail, hx, redock_put, handFailed_for]

/-! ### CLOSED (R19, R29) -/

/-- The state in which a RELOCK's tag write is closed. -/
theorem closeRelockWrite_none (h : c.bike = none) :
    closeRelockWrite d c s = dropTagWrite d .relock s := by
  rw [closeRelockWrite, h]
  rfl

theorem closeRelockWrite_some (h : c.bike ≠ none) : closeRelockWrite d c s = s := by
  cases hb : c.bike with
  | none => exact absurd hb h
  | some b => rw [closeRelockWrite, hb]; rfl

theorem closedEvent_lapses (hs : (dockOf d s).state = .relocking) (hb : c.bike ≠ none) :
    closedEvent d c s =
      lapsedFor d (dockOf d s).holder
        (dockPut d (redocked (dockOf d s)) (unkept (lineOf d s)) 0 s) := by
  have hsome : c.bike.isSome = true := Option.isSome_iff_ne_none.2 hb
  simp only [closedEvent, closeRelockWrite_some hb, hs, hsome, if_true, lapseDock, redock_put,
    handLapsed_for]

theorem closedEvent_takes (hs : (dockOf d s).state = .relocking) (hb : c.bike = none) :
    closedEvent d c s = takeReleased d (dropTagWrite d .relock s) := by
  have hs' : (dockOf d (dropTagWrite d .relock s)).state = .relocking := hs
  simp only [closedEvent, closeRelockWrite_none hb, hs', hb, if_true, Option.isSome_none,
    Bool.false_eq_true, if_false]

/-- A dock has a probe in flight. -/
theorem probing_iff (d : DockNo) (s : State) :
    probing d s = true ↔ (∃ time used, (dockOf d s).deadline = some (.actuation time used))
      ∧ ((dockOf d s).state = .jammed ∨ (dockOf d s).state = .parked ∨ (dockOf d s).state = .absent) := by
  have hact : actuating (dockOf d s) = true
      ↔ ∃ time used, (dockOf d s).deadline = some (.actuation time used) := by
    unfold actuating
    rcases (dockOf d s).deadline with _ | (_ | _) <;> simp
  simp only [probing, Bool.and_eq_true, Bool.or_eq_true, decide_eq_true_eq, hact, or_assoc]

theorem closedEvent_idle (hs : (dockOf d s).state ≠ .relocking) (hp : probing d s = false) :
    closedEvent d c s = closeRelockWrite d c s := by
  have hdock : dockOf d (closeRelockWrite d c s) = dockOf d s := by
    unfold closeRelockWrite
    split <;> rfl
  have hprobe : probing d (closeRelockWrite d c s) = false := by
    rw [← hp, probing, hdock]
    rfl
  simp only [closedEvent, hdock, if_neg hs, hprobe, Bool.false_eq_true, if_false]

end

/-- Settles O55. -/
theorem releaseEventsMoveTheDock : Obligations.ReleaseEventsMoveTheDock := by
  unfold Obligations.ReleaseEventsMoveTheDock
  intro d c s hc hn r l claim asked docked closed
  refine ⟨fun hs => ⟨fun ha => ?_, fun ha => ?_, fun tag t b hh hb hpos => ?_, fun hh => ?_⟩,
    fun hs => ⟨fun hb => closedEvent_lapses hs hb, fun hb => ?_⟩, fun hs => ⟨if_neg hs, if_neg hs⟩,
    fun hs hidle => ?_⟩
  · have hopen : takeEvent d .opened c s = openDock d s := if_pos hs
    rw [hopen, openDock, if_pos ((cancelled_iff hn).2 ha),
      relockDock_put _ _ (inhibited_releasing (.inl hs))]
    rfl
  · intro offered
    have hopen : takeEvent d .opened c s = openDock d s := if_pos hs
    have hoffer : takeEvent d .opened c s
        = handOpened d (dockOf d s).holder (recordBike d s) offered := by
      rw [hopen, openDock, if_neg (mt (cancelled_iff hn).1 ha), offerDock_put hc]
      rfl
    refine ⟨fun tag t hh => ?_, fun hh => ?_⟩
    · rw [hoffer, show (dockOf d s).holder = _ from hh]
      exact finishMatching_ends _ _ _ _ _
    · rw [hoffer]
      cases hx : (dockOf d s).holder with
      | none => rfl
      | some x =>
        cases x with
        | order i j k => rfl
        | hire tag stamp =>
          cases stamp with
          | none => rfl
          | some t => exact absurd hx (hh tag t)
  · intro flags fails
    have hfail : takeEvent d .stampFail c s = stampFail d s := if_pos hs
    have hput : Clean (dockPut d docked l 0 s) := dockPut_clean hc
    refine ⟨fun hreg => ?_, fun hno hlen => ?_⟩
    · refine (hfail.trans (stampFail_hire hh hb)).trans (congrArg fails ?_)
      exact flagFailedWrite_entered hput hpos hreg
    · refine (hfail.trans (stampFail_hire hh hb)).trans (congrArg fails ?_)
      obtain ⟨hdlc, -, -, -⟩ := enterFlag_frame b.id .station hput
      have hinh : inhibited docked = inhibited r := by
        rw [inhibited_releasing (r := r) (.inl hs)]
        simp [inhibited, docked]
      have hdock : dockOf d flags = docked := by
        rw [dockOf_congr hdlc, dockOf_dockPut, if_pos rfl]
      have hline : lineOf d flags = l := by
        rw [lineOf_congr hdlc, lineOf_dockPut, if_pos rfl, inhibitFollows_same _ hinh]
      have hmark := putMark_named (d := d) (s := flags) (m := true) (b := b) (by rw [hdock]; exact hb)
      rw [hdock, hline] at hmark
      exact (flagFailedWrite_full hput hpos hno hlen).trans hmark
  · have hfail : takeEvent d .stampFail c s = stampFail d s := if_pos hs
    exact hfail.trans (stampFail_other hh)
  · have htake : takeEvent d .taken c closed = takeReleased d closed := by
      have hstate : (dockOf d closed).state = .relocking := hs
      simp only [takeEvent, takenEvent, hstate]
    exact (closedEvent_takes hs hb).trans htake.symm
  · have hno : probing d s = false := Bool.eq_false_iff.2 fun hp => by
      obtain ⟨⟨time, used, hd⟩, hstate⟩ := (probing_iff d s).1 hp
      have hr : r.state = .jammed ∨ r.state = .parked ∨ r.state = .absent := hstate
      rcases hidle with h | h | h | h | h
      iterate 4 rw [h] at hr; simp at hr
      exact h time used hd
    refine (closedEvent_idle hs hno).trans ?_
    split
    case isTrue hb => exact closeRelockWrite_none hb
    case isFalse hb => exact closeRelockWrite_some hb

end Sys2Proof.Machine
end

section
/-! Jams, and the ends of probes (R14, R15, R21, R22). -/

namespace Sys2Proof.Machine

section
variable {d : DockNo} {c : DockCondition} {s : State}

/-- LOCK_JAM raised for a dock whose record is known. -/
theorem raiseJam_record {r : DockRecord} (phase : JamPhase) (hr : dockOf d s = r) :
    raiseJam d phase s = jamRaised d phase r.holder r.bike s := by
  rw [raiseJam_raised, hr]

/-! ### Jams (R14, R15) -/

/-- A jammed dock's record. -/
def jammedRecord (r : DockRecord) : DockRecord :=
  { r with state := .jammed, suspended := true, deadline := none }

theorem claimOf_jammed {r : DockRecord} {b : Bike} (hb : r.bike = some b) :
    claimOf (jammedRecord r) = 1 := by
  simp [claimOf, jammedRecord, hb]

theorem jamDock_put {b : Bike} (hb : (dockOf d s).bike = some b) :
    endActuation d (putDock d (jammedRecord (dockOf d s)) s) =
      dockPut d (jammedRecord (dockOf d s)) (unkept (lineOf d s)) 1 s := by
  rw [endActuation_putDock, claimOf_jammed hb]

theorem jamDock_release {b : Bike} (hb : (dockOf d s).bike = some b)
    (hs : (dockOf d s).state = .unlocking) :
    jamDock d s =
      jamRaised d .release (dockOf d s).holder (dockOf d s).bike
        (failedFor d (dockOf d s).holder
          (dockPut d (jammedRecord (dockOf d s)) (unkept (lineOf d s)) 1 s)) := by
  have hdock : dockOf d (failedFor d (dockOf d s).holder
      (dockPut d (jammedRecord (dockOf d s)) (unkept (lineOf d s)) 1 s)) = jammedRecord (dockOf d s) := by
    rw [dockOf_congr (failedFor_dlc _ _ _), dockOf_dockPut, if_pos rfl]
  have hjam : jamDock d s = raiseJam d .release (handFailed d (dockOf d s).holder
      (endActuation d (putDock d (jammedRecord (dockOf d s)) s))) := if_pos hs
  rw [hjam, jamDock_put hb, handFailed_for, raiseJam_record _ hdock]
  rfl

theorem jamDock_relock {b : Bike} (hb : (dockOf d s).bike = some b)
    (hs : (dockOf d s).state = .relocking) :
    jamDock d s =
      jamRaised d .relock (dockOf d s).holder (dockOf d s).bike
        (lapsedFor d (dockOf d s).holder
          (dockPut d (jammedRecord (dockOf d s)) (unkept (lineOf d s)) 1 s)) := by
  have hdock : dockOf d (lapsedFor d (dockOf d s).holder
      (dockPut d (jammedRecord (dockOf d s)) (unkept (lineOf d s)) 1 s)) = jammedRecord (dockOf d s) := by
    rw [dockOf_congr (lapsedFor_dlc _ _ _), dockOf_dockPut, if_pos rfl]
  have hne : (dockOf d s).state ≠ .unlocking := by simp [hs]
  have hjam : jamDock d s = raiseJam d .relock (handLapsed d (dockOf d s).holder
      (endActuation d (putDock d (jammedRecord (dockOf d s)) s))) := if_neg hne
  rw [hjam, jamDock_put hb, handLapsed_for, raiseJam_record _ hdock]
  rfl

/-- A suspended dock keeps its holder and its bike. -/
theorem raiseJam_suspended (d : DockNo) (s : State) :
    raiseJam d .reported (suspendDock d s) =
      jamRaised d .reported (dockOf d s).holder (dockOf d s).bike (suspendDock d s) := by
  rw [raiseJam_raised]
  unfold suspendDock
  dsimp only
  split
  · rfl
  · rw [dockOf_putDock_self]

/-! ### The ends of a probe (R21, R22) -/

/-- A dock without deadline and holder, suspended. -/
def probedRecord (r : DockRecord) : DockRecord :=
  { r with suspended := true, deadline := none, holder := none }

/-- A probe's success frees the dock, from whatever its line was put to. -/
theorem probeCloses_vacant (hb : c.bike = none) (l : LineState) :
    probeCloses d c (setLine d l s) =
      dockPut d { probedRecord (dockOf d s) with state := .vacant, bike := none } (unkept l) 0 s := by
  simp only [probeCloses, hb, endActuation, lineOf_setLine_self, dockOf_setLine]
  rw [putDock_setLine, dockPut_setLine]
  rfl

theorem probeCloses_docked {b : SensedBike} (hb : c.bike = some b) (l : LineState) :
    probeCloses d c (setLine d l s) =
      bikeEntered d (sensedBike b s).id (sensedBike b s).mark
        (dockPut d { probedRecord (dockOf d s) with state := .docked, bike := some (sensedBike b s) }
          (unkept l) 0 s) := by
  simp only [probeCloses, hb, endActuation, lineOf_setLine_self, dockOf_setLine]
  rw [putDock_setLine, dockPut_setLine]
  rfl

theorem readmissionFails_empty (hb : (lineOf d s).lastCondition.bind DockCondition.bike = none) :
    readmissionFails d s =
      jamRaised d .probe (dockOf d s).holder none
        (dockPut d { jammedRecord (dockOf d s) with bike := none } (unkept (lineOf d s)) 0 s) := by
  have hlast : lastSensed d (setLine d { lineOf d s with actuation := none } s) = none := by
    rw [lastSensed, lineOf_setLine_self]
    exact hb
  simp only [readmissionFails, endActuation, hlast, raiseJam_raised]
  rw [putDock_setLine, dockOf_dockPut, if_pos rfl]
  rfl

theorem readmissionFails_sensed {b : SensedBike}
    (hb : (lineOf d s).lastCondition.bind DockCondition.bike = some b) :
    readmissionFails d s =
      raiseJam d .probe
        (bikeEntered d (sensedBike b s).id (sensedBike b s).mark
          (dockPut d { jammedRecord (dockOf d s) with bike := some (sensedBike b s) }
            (unkept (lineOf d s)) 1 s)) := by
  have hlast : lastSensed d (setLine d { lineOf d s with actuation := none } s) = some b := by
    rw [lastSensed, lineOf_setLine_self]
    exact hb
  simp only [readmissionFails, endActuation, hlast]
  rw [putDock_setLine]
  rfl

theorem jamProbeFails_put (hs : (dockOf d s).state = .jammed) :
    jamProbeFails d s =
      jamRaised d .probe (dockOf d s).holder (dockOf d s).bike
        (dockPut d { dockOf d s with deadline := none } (unkept (lineOf d s))
          (if (dockOf d s).bike = none then 0 else 1) s) := by
  have hclaim : claimOf { dockOf d s with deadline := none }
      = if (dockOf d s).bike = none then 0 else 1 := by
    cases hb : (dockOf d s).bike <;> simp [claimOf, hs, hb]
  rw [jamProbeFails, endActuation_putDock, hclaim, raiseJam_raised, dockOf_dockPut, if_pos rfl]

/-- CLOSED at a dock with a probe in flight. -/
theorem closedEvent_probing (hs : (dockOf d s).state ≠ .relocking) (hp : probing d s = true) :
    closedEvent d c s = probeCloses d c (closeRelockWrite d c s) := by
  have hdock : dockOf d (closeRelockWrite d c s) = dockOf d s := by
    unfold closeRelockWrite
    split <;> rfl
  have hprobe : probing d (closeRelockWrite d c s) = true := by
    rw [← hp, probing, hdock]
    rfl
  simp only [closedEvent, hdock, if_neg hs, hprobe, if_true]

theorem actuatorFault_probing (hs : (dockOf d s).state ≠ .unlocking ∧ (dockOf d s).state ≠ .relocking)
    (hp : probing d s = true) : actuatorFault d s = probeFails d s := by
  simp only [actuatorFault, hs.1, hs.2, or_self, if_false, hp, if_true]

end

/-- Settles O56. -/
theorem jamsAndProbesEndTheActuation : Obligations.JamsAndProbesEndTheActuation := by
  unfold Obligations.JamsAndProbesEndTheActuation
  intro d c s hc r l moving actuates probed jammed
  refine ⟨fun b hb => ⟨fun hs => ?_, fun hs => ?_⟩, fun hm ha => ?_, fun hp => ?_⟩
  · have hjam : takeEvent d .actuatorFault c s = jamDock d s := if_pos (.inl hs)
    exact hjam.trans (jamDock_release hb hs)
  · have hjam : takeEvent d .actuatorFault c s = jamDock d s := if_pos (.inr hs)
    exact hjam.trans (jamDock_relock hb hs)
  · have hno : probing d s = false := Bool.eq_false_iff.2 fun hp => ha ((probing_iff d s).1 hp).1
    have hidle : takeEvent d .actuatorFault c s = raiseJam d .reported (suspendDock d s) :=
      (if_neg hm).trans (if_neg (Bool.eq_false_iff.1 hno))
    exact hidle.trans (raiseJam_suspended d s)
  · intro free l'
    obtain ⟨hstate, hact⟩ := id hp
    have hprobe : probing d s = true :=
      (probing_iff d s).2 ⟨hact, hstate.imp_right .inl⟩
    have hnr : (dockOf d s).state ≠ .relocking := by rcases hstate with h | h <;> simp [r, h]
    have hnu : (dockOf d s).state ≠ .unlocking := by rcases hstate with h | h <;> simp [r, h]
    have hclosed : takeEvent d .closed c s = probeCloses d c (closeRelockWrite d c s) :=
      closedEvent_probing hnr hprobe
    have hfault : takeEvent d .actuatorFault c s = probeFails d s :=
      actuatorFault_probing ⟨hnu, hnr⟩ hprobe
    refine ⟨fun hb => ?_, fun b hb => ?_, fun hj => ?_, fun hk => ?_⟩
    · rw [hclosed, closeRelockWrite_none hb, dropTagWrite, probeCloses_vacant hb]
      simp only [l', if_pos hb]
      rfl
    · have hsome : c.bike ≠ none := by rw [hb]; exact nofun
      have hdocked := probeCloses_docked (d := d) (s := s) hb (lineOf d s)
      rw [setLine_same] at hdocked
      rw [hclosed, closeRelockWrite_some hsome, hdocked]
      simp only [l', if_neg hsome]
      rfl
    · have hnp : (dockOf d s).state ≠ .parked := by simp [show (dockOf d s).state = .jammed from hj]
      exact (hfault.trans (if_neg hnp)).trans (jamProbeFails_put hj)
    · intro sensed
      have hfails : takeEvent d .actuatorFault c s = readmissionFails d s := hfault.trans (if_pos hk)
      exact ⟨fun hn => hfails.trans (readmissionFails_empty hn), fun b hb =>
        (hfails.trans (readmissionFails_sensed hb)).trans (raiseJam_raised d .probe _)⟩

end Sys2Proof.Machine
end

section
/-! Confirmations of tag writes, the fault button, and bikes put into records (R28 to R31, R38 to R41). -/

namespace Sys2Proof.Machine

section
variable {d : DockNo} {s : State}

/-! ### Confirmations (R29 to R31) -/

section
variable {w : WriteCommand} {x : TagWrite} (hx : tagWriteOf d w s = some x)
include hx

theorem tagCleared_stamp (hw : x.write = .stampClear) : tagCleared d w s = dropTagWrite d w s := by
  simp only [tagCleared, hx, hw]

theorem tagCleared_set (hw : x.write = .markSet) :
    tagCleared d w s = putMark d x.bike true (dropTagWrite d w s) := by
  simp only [tagCleared, hx, hw]

theorem tagCleared_clear (hw : x.write = .markClear) :
    tagCleared d w s = putMark d x.bike false (dropTagWrite d w s) := by
  simp only [tagCleared, hx, hw]

/-- A confirmation puts no mark into the record of a dock that does not name the bike. -/
theorem tagCleared_other (hb : (dockOf d s).bike.map Bike.id ≠ some x.bike) :
    tagCleared d w s = dropTagWrite d w s := by
  have hmark : ∀ m, putMark d x.bike m (dropTagWrite d w s) = dropTagWrite d w s := fun m =>
    putMark_other (x := dropTagWrite d w s) hb
  cases hw : x.write with
  | stampClear => exact tagCleared_stamp hx hw
  | markSet => exact (tagCleared_set hx hw).trans (hmark true)
  | markClear => exact (tagCleared_clear hx hw).trans (hmark false)

theorem tagWriteFailed_mark (hw : x.write ≠ .stampClear) :
    tagWriteFailed d w s = raise (writeFailRaising d x.bike .mark) (dropTagWrite d w s) := by
  cases hk : x.write with
  | stampClear => exact absurd hk hw
  | markSet => simp only [tagWriteFailed, hx, hk]
  | markClear => simp only [tagWriteFailed, hx, hk]

theorem tagWriteFailed_stamp (hw : x.write = .stampClear) :
    tagWriteFailed d w s =
      raise (writeFailRaising d x.bike .clear) (flagFailedWrite d x.bike (dropTagWrite d w s)) := by
  simp only [tagWriteFailed, hx, hw]

end

theorem tagEvents_none {w : WriteCommand} (h : tagWriteOf d w s = none) :
    tagCleared d w s = s ∧ tagWriteFailed d w s = s := by
  constructor <;> simp only [tagCleared, tagWriteFailed, h]

/-- A mark put into a dock's record where its tag write is closed. -/
theorem putMark_closed {w : WriteCommand} {bike : Nat} {m : Bool} {b : Bike} {y : State}
    (hcl : ClaimsRight s) (hy : y.dlc = (dropTagWrite d w s).dlc) (hrq : y.rq = s.rq)
    (hb : (dockOf d s).bike = some b) (hid : b.id = bike) :
    putMark d bike m y =
      dockPut d { dockOf d s with bike := some { b with mark := m } }
        { lineOf d s with tagWrites := closeTagWrite w (lineOf d s).tagWrites }
        (vget s.rq.claims d) y :=
  putMark_put hcl _ hy hrq hb hid

/-! ### The fault button (R40, R41) -/

/-- A press is a rider's report of the bike of a record's arrival. -/
abbrev ReportsBike (d : DockNo) (s : State) (b : Bike) (a : LastArrival) : Prop :=
  (dockOf d s).bike = some b ∧ (dockOf d s).lastArrival = some a
    ∧ s.sc.station.clockValid = true ∧ 0 < b.id ∧ a.bike = b.id ∧ a.time ≤ s.sc.clock
    ∧ s.sc.clock ≤ a.time + s.sc.config.buttonWindow

theorem riderReport_some {b : Bike} {a : LastArrival} (h : ReportsBike d s b a) :
    riderReport d s = some (b.id, a) := by
  obtain ⟨hb, ha, hv, hpos, hbike, htime, hwin⟩ := h
  have hcond : s.sc.station.clockValid = true ∧ b.id ≠ 0 ∧ a.bike = b.id ∧ a.time ≤ s.sc.clock
      ∧ s.sc.clock - a.time ≤ s.sc.config.buttonWindow := ⟨hv, hpos.ne', hbike, htime, by omega⟩
  simp only [riderReport, hb, ha, if_pos hcond]

theorem riderReport_none (h : ∀ b a, ¬ReportsBike d s b a) : riderReport d s = none := by
  cases hb : (dockOf d s).bike with
  | none => simp only [riderReport, hb]
  | some b =>
    cases ha : (dockOf d s).lastArrival with
    | none => simp only [riderReport, hb, ha]
    | some a =>
      have hcond : ¬(s.sc.station.clockValid = true ∧ b.id ≠ 0 ∧ a.bike = b.id ∧ a.time ≤ s.sc.clock
          ∧ s.sc.clock - a.time ≤ s.sc.config.buttonWindow) := fun ⟨hv, hne, hbike, htime, hwin⟩ =>
        h b a ⟨hb, ha, hv, Nat.pos_of_ne_zero hne, hbike, htime, by omega⟩
      simp only [riderReport, hb, ha, if_neg hcond]

theorem pressButton_dock (hc : Clean s) (h : ∀ b a, ¬ReportsBike d s b a) :
    pressButton d s = reportDock d s := by
  simp only [pressButton, readConfig_clean hc, riderReport_none h]

theorem pressButton_bike {b : Bike} {a : LastArrival} (hc : Clean s) (h : ReportsBike d s b a) :
    pressButton d s = if a.reported then s else reportBike d b.id a s := by
  simp only [pressButton, readConfig_clean hc, riderReport_some h]

theorem askFlag_clean (hc : Clean s) (b : Nat) (o : FlagOrigin) : askFlag b o s = enterFlag b o s := by
  rw [askFlag, readRegistry_clean hc]

theorem reportBike_put {b : Nat} {a : LastArrival} (hc : Clean s) (hcl : ClaimsRight s) :
    reportBike d b a s =
      raise { kind := .riderBikeReport, dock := some d, bike := some b, detail := .none }
        (dockPut d { dockOf d s with lastArrival := some { a with reported := true } }
          { lineOf d s with waiting := placeIn (.mark true) (lineOf d s).waiting }
          (vget s.rq.claims d) (enterFlag b .rider s)) := by
  obtain ⟨hdlc, -, -, -⟩ := enterFlag_frame b .rider hc
  have hclaim : claimOf { dockOf d s with lastArrival := some { a with reported := true } }
      = vget s.rq.claims d := by
    rw [hcl.claim d]
    rfl
  simp only [reportBike, askFlag_clean hc, placeCommand, dockOf_setLine]
  rw [putDock_setLine, dockOf_congr hdlc, lineOf_congr hdlc, hclaim]

/-! ### Bikes put into records (R38, R39) -/

theorem flagMarked_eq {bike : Nat} (hc : Clean s) (hb : 0 < bike) (mark : Bool) :
    flagMarked bike mark s = if mark = true then enterFlag bike .tag s else s := by
  rw [flagMarked, askFlag_clean hc]
  cases mark <;> simp [hb.ne']

theorem bikeEntered_zero (d : DockNo) (mark : Bool) (s : State) : bikeEntered d 0 mark s = s := by
  simp [bikeEntered, flagMarked, checkDuplicate]

theorem checkDuplicate_none {bike : Nat}
    (h : ∀ e, e ≠ d → (dockOf e s).bike.map Bike.id ≠ some bike) : checkDuplicate d bike s = s := by
  have hno : otherNaming d bike s = none := List.find?_eq_none.2 fun e _ => by
    by_cases he : e = d
    · simp [he]
    · simp [h e he]
  simp only [checkDuplicate, hno, ite_self]

theorem otherNaming_first {bike : Nat} {e : DockNo} (he : e ≠ d)
    (hb : (dockOf e s).bike.map Bike.id = some bike)
    (hfirst : ∀ f < e, f ≠ d → (dockOf f s).bike.map Bike.id ≠ some bike) :
    otherNaming d bike s = some e :=
  firstDock (by simp [he, hb]) fun f hf => by
    by_cases hfd : f = d
    · simp [hfd]
    · simp [hfirst f hf hfd]

theorem checkDuplicate_some {bike : Nat} {e : DockNo} {b : Bike} (hcl : ClaimsRight s) (hpos : 0 < bike)
    (he : e ≠ d) (hb : (dockOf e s).bike = some b) (hid : b.id = bike)
    (hfirst : ∀ f < e, f ≠ d → (dockOf f s).bike.map Bike.id ≠ some bike) :
    checkDuplicate d bike s =
      raise { kind := .tagDuplicate, dock := some e, bike := none, detail := .tagDuplicate bike }
        (dockPut e { dockOf e s with bike := some { b with id := 0 } } (lineOf e s)
          (vget s.rq.claims e) s) := by
  have hother : otherNaming d bike s = some e :=
    otherNaming_first he (by rw [hb, Option.map_some, hid]) hfirst
  have hclaim : claimOf { dockOf e s with bike := some { b with id := 0 } } = vget s.rq.claims e := by
    rw [hcl.claim e]
    exact claimOf_otherBike hb
  simp only [checkDuplicate, if_neg hpos.ne', hother, hb, Option.map_some, putDock_put, hclaim]

end

/-- Settles O57. -/
theorem tagEventsAreAnswered : Obligations.TagEventsAreAnswered := by
  unfold Obligations.TagEventsAreAnswered
  intro d c s hc hcl r claim
  refine ⟨fun w => ?writes, ?button, fun bike mark => ?entered⟩
  case writes =>
    intro l closed
    refine ⟨fun hno => ?_, fun x hp hx => ?_⟩
    · by_cases hp : r.state = .parked
      · exact ⟨if_pos hp, if_pos hp⟩
      · have hnone : tagWriteOf d w s = none :=
          List.find?_eq_none.2 fun x hx => by simpa using hno.resolve_left hp x hx
        exact ⟨(if_neg hp).trans (tagEvents_none hnone).1, (if_neg hp).trans (tagEvents_none hnone).2⟩
    · intro marks fails
      have hcleared : takeEvent d (.cleared w) c s = tagCleared d w s := if_neg hp
      have hfailed : takeEvent d (.writeFail w) c s = tagWriteFailed d w s := if_neg hp
      have hclean : Clean closed := hc
      refine ⟨fun hw => ?_, fun hb => ?_, fun hb => ?_, fun hw => ?_, fun hw h0 => ?_,
        fun hw hpos hreg => ?_, fun hw hpos hno hlen => ?_⟩
      · exact hcleared.trans (tagCleared_stamp hx hw)
      · exact hcleared.trans (tagCleared_other hx hb)
      · obtain ⟨b, hbike, hid⟩ := Option.map_eq_some_iff.1 hb
        have hmark : ∀ m, putMark d x.bike m closed
            = dockPut d { r with bike := some { b with mark := m } } l claim s := fun m =>
          (putMark_closed hcl rfl rfl hbike hid).trans (dockPut_setLine ..)
        exact ⟨fun hw => ⟨b, hbike, hid, (hcleared.trans (tagCleared_set hx hw)).trans (hmark true)⟩,
          fun hw => ⟨b, hbike, hid, (hcleared.trans (tagCleared_clear hx hw)).trans (hmark false)⟩⟩
      · exact hfailed.trans (tagWriteFailed_mark hx hw)
      · refine (hfailed.trans (tagWriteFailed_stamp hx hw)).trans (congrArg _ ?_)
        rw [h0]
        exact if_pos rfl
      · exact (hfailed.trans (tagWriteFailed_stamp hx hw)).trans
          (congrArg _ (flagFailedWrite_entered hclean hpos hreg))
      · obtain ⟨hdlc, hrq, -, -⟩ := enterFlag_frame x.bike .station hclean
        have hfull : takeEvent d (.writeFail w) c s = _ :=
          (hfailed.trans (tagWriteFailed_stamp hx hw)).trans
            (congrArg _ (flagFailedWrite_full hclean hpos hno hlen))
        refine ⟨fun hb => ?_, fun b hb hid => ?_⟩
        · have hdock : dockOf d (enterFlag x.bike .station closed) = r := dockOf_congr hdlc d
          exact hfull.trans (congrArg _ (putMark_other
            (x := enterFlag x.bike .station closed) (by rw [hdock]; exact hb)))
        · exact hfull.trans (congrArg _ (putMark_closed hcl hdlc hrq hb hid))
  case button =>
    intro reports
    refine ⟨fun b a hrep => ⟨fun hr => ?_, fun hr => ?_⟩, fun hno => ⟨fun hf => ?_, fun hf => ?_⟩⟩
    · exact (pressButton_bike hc hrep).trans (if_pos hr)
    · exact ((pressButton_bike hc hrep).trans (if_neg (Bool.eq_false_iff.1 hr))).trans
        (reportBike_put hc hcl)
    · exact (pressButton_dock hc hno).trans (if_pos hf)
    · exact (pressButton_dock hc hno).trans (if_neg (Bool.eq_false_iff.1 hf))
  case entered =>
    intro flags
    refine ⟨bikeEntered_zero d mark s, fun hb hno => ?_, fun e b hpos he hb hid hfirst => ?_⟩
    · rw [bikeEntered, checkDuplicate_none hno]
      exact flagMarked_eq hc hb mark
    · rw [bikeEntered, checkDuplicate_some hcl hpos he hb hid hfirst]
      exact flagMarked_eq (raise_keepsClean (dockPut_clean hc) _) hpos mark

end Sys2Proof.Machine
end

section
/-! The ACTUATION and TAKE deadlines (R13, R14, R17, R21, R22). -/

namespace Sys2Proof.Machine

/-! ### Outcomes handed to a hire -/

theorem releaseUndone_frame (card trip : Nat) (s : State) :
    releaseUndone card trip s = s.setCc (releaseUndone card trip s).cc := by
  unfold releaseUndone dropRevoked
  split
  · split <;> rfl
  · rfl

theorem stampUndone_frame (stamp : Option Stamp) (s : State) :
    stampUndone stamp s = s.setCc (stampUndone stamp s).cc := by
  cases stamp with
  | none => rfl
  | some t => exact releaseUndone_frame t.card t.trip s

theorem hireEnds_frame (d : DockNo) (tag : Nat) (o : ReplyOutcome) (b : Body) (st : HireState)
    (s : State) :
    hireEnds d tag o b st s =
      { s with hu := (hireEnds d tag o b st s).hu, pi := (hireEnds d tag o b st s).pi } := by
  unfold hireEnds
  split <;> rfl

/-- FAILED handed to a hire touches the hires, their cards and the Terminal port alone. -/
theorem failedFor_hire (d : DockNo) (tag : Nat) (stamp : Option Stamp) (s : State) :
    let y := failedFor d (some (.hire tag stamp)) s
    y = { s with hu := y.hu, pi := y.pi, cc := y.cc } := by
  intro y
  have hy : y = hireEnds d tag .releaseFailed (.dock (some d)) .ended (stampUndone stamp s) := rfl
  rw [hireEnds_frame, stampUndone_frame] at hy
  rw [hy]
  rfl

/-- LAPSED handed to a hire touches the hires, their cards and the Terminal port alone. -/
theorem lapsedFor_hire (d : DockNo) (tag : Nat) (stamp : Option Stamp) (s : State) :
    let y := lapsedFor d (some (.hire tag stamp)) s
    y = { s with hu := y.hu, pi := y.pi, cc := y.cc } := by
  intro y
  have hy : y = hireEnds d tag .cancelled (.dock (some d)) .ended
      (stationChanged (stampUndone stamp s)) := rfl
  rw [hireEnds_frame, stampUndone_frame] at hy
  rw [hy]
  rfl

section
variable {d : DockNo} {s : State}

/-! ### Changes that leave the claim and the inhibit -/

/-- A dock record and line put, where the claim and the inhibit stay. -/
theorem dockPut_quiet {r : DockRecord} {n : Nat} (l : LineState) (hcl : ClaimsRight s)
    (hn : n = claimOf (dockOf d s)) (hi : inhibited r = inhibited (dockOf d s)) :
    dockPut d r l n s =
      { s with
        dlc := { s.dlc with docks := vset s.dlc.docks d r, lines := vset s.dlc.lines d l },
        rs := handAll
          (if retainedOf r = retainedOf (dockOf d s) then [] else [(.dock d, .dock (retainedOf r))])
          s.rs } := by
  have hclaims : vset s.rq.claims d n = s.rq.claims := by rw [hn, ← hcl.claim d, vset_self]
  unfold dockPut
  rw [inhibitFollows_same _ hi, hclaims, ← hcl.total]
  by_cases hret : retainedOf r = retainedOf (dockOf d s)
  · rw [if_pos hret, if_pos hret, handAll_nil]
  · rw [if_neg hret, if_neg hret]

/-- A step that hands records but where what the store keeps of them stays. -/
theorem step_hands_unless {f : State → State} {x : State} {kept : Prop} [Decidable kept]
    {l : List (Place × Content)} (hl : l ≠ []) (hx : f s = x) (hp : x.pi = s.pi)
    (hr : x.rs = handAll (if kept then [] else l) s.rs) :
    ∃ t, stepOf f s = .next t ∧ PortsKept s t
      ∧ (if kept then StoreKept s t else t.rs = stepHands l s.rs)
      ∧ t = { x with pi := t.pi, rs := t.rs } := by
  obtain ⟨t, hstep, hport, hrs, ht⟩ := plain_step hx hp
  refine ⟨t, hstep, hport, ?_, ht⟩
  by_cases hk : kept
  · rw [if_pos hk] at hr ⊢
    exact kept_of_rs hrs hr
  · rw [if_neg hk] at hr ⊢
    rw [hrs, endStep_hands hl hr]

/-- A step that puts one dock's record and line. -/
theorem deadline_step {f : State → State} {r : DockRecord} {l : LineState} {n time : Nat}
    (hrun : running s = true) (hcl : ClaimsRight s) (hn : n = claimOf (dockOf d s))
    (hi : inhibited r = inhibited (dockOf d s)) (hf : f s = dockPut d r l n (reachTime time s)) :
    ∃ t, stepOf (whileRunning f) s = .next t ∧ PortsKept s t
      ∧ (if retainedOf r = retainedOf (dockOf d s) then StoreKept s t
        else t.rs = stepHands [(.dock d, .dock (retainedOf r))] s.rs)
      ∧ t = { s with
          pi := t.pi, rs := t.rs,
          dlc := { s.dlc with docks := vset s.dlc.docks d r, lines := vset s.dlc.lines d l },
          sc := { s.sc with timebase := max s.sc.timebase time } } := by
  have hput := dockPut_quiet (s := reachTime time s) l hcl hn hi
  exact step_hands_unless (List.cons_ne_nil _ _) ((whileRunning_eq hrun).trans (hf.trans hput)) rfl rfl

/-! ### The ACTUATION deadline (R13) -/

theorem retryActuation_put {c : Command} (hk : (lineOf d s).actuation = some c) :
    retryActuation d s =
      dockPut d { dockOf d s with deadline := some (.actuation none true) }
        { lineOf d s with waiting := placeIn c (lineOf d s).waiting }
        (claimOf { dockOf d s with deadline := some (.actuation none true) }) s := by
  have hretry : retryActuation d s = placeCommand d c
      (putDock d { dockOf d s with deadline := some (.actuation none true) } s) := by
    simp only [retryActuation, hk]
  exact hretry.trans (placed_release d _ c (by simp [inhibited]))

theorem claimOf_retry {r : DockRecord} {time : Option Nat} {used : Bool}
    (hd : r.deadline = some (.actuation time used)) :
    claimOf { r with deadline := some (.actuation none true) } = claimOf r := by
  simp [claimOf, actuating, hd]

theorem actuationEvent_first {time : Nat} (hd : (dockOf d s).deadline = some (.actuation (some time) false)) :
    actuationEvent d s = retryActuation d (reachTime time s) := by
  simp only [actuationEvent, hd, Bool.false_eq_true, if_false]

theorem actuationEvent_second {time : Nat} (hd : (dockOf d s).deadline = some (.actuation (some time) true)) :
    actuationEvent d s = actuationFails d (reachTime time s) := by
  simp only [actuationEvent, hd, if_true]

theorem actuationEvent_none (hd : ∀ time used, (dockOf d s).deadline ≠ some (.actuation (some time) used)) :
    actuationEvent d s = s := by
  cases hx : (dockOf d s).deadline with
  | none => simp only [actuationEvent, hx]
  | some x =>
    cases x with
    | take t => simp only [actuationEvent, hx]
    | actuation time used =>
      cases time with
      | none => simp only [actuationEvent, hx]
      | some t => exact absurd hx (hd t used)

/-- A second expiry acts as ACTUATOR_FAULT does. -/
theorem actuationFails_fault {time : Option Nat} {used : Bool}
    (hd : (dockOf d s).deadline = some (.actuation time used))
    (h : (dockOf d s).state = .unlocking ∨ (dockOf d s).state = .relocking
      ∨ (((dockOf d s).state = .jammed ∨ (dockOf d s).state = .parked)
        ∧ ∀ v, s.dlc.survey = some v → v.dock ≠ d)) :
    actuationFails d s = actuatorFault d s := by
  by_cases hm : (dockOf d s).state = .unlocking ∨ (dockOf d s).state = .relocking
  · simp only [actuationFails, actuatorFault, if_pos hm]
  · obtain ⟨hstate, hv⟩ : ((dockOf d s).state = .jammed ∨ (dockOf d s).state = .parked)
        ∧ ∀ v, s.dlc.survey = some v → v.dock ≠ d := by
      rcases h with h | h | h
      · exact absurd (.inl h) hm
      · exact absurd (.inr h) hm
      · exact h
    have hsurvey : surveyDock s ≠ some d := by
      unfold surveyDock
      cases hs : s.dlc.survey with
      | none => exact nofun
      | some v => simpa using hv v hs
    have hprobe : probing d s = true := (probing_iff d s).2 ⟨⟨time, used, hd⟩, hstate.imp_right .inl⟩
    simp only [actuationFails, actuatorFault, if_neg hm, if_neg hsurvey, hprobe, if_true]

/-! ### A jam with a hire's holder (R14) -/

/-- LOCK_JAM raised at a dock that is jammed enters its fault set whatever the policy. -/
theorem dockOf_jamRaised {x : State} {r : DockRecord} (phase : JamPhase) (hc : Clean x)
    (hw : ∀ i, vget x.flt.watches i = none) (hd : dockOf d x = jammedRecord r) (e : DockNo) :
    dockOf e (raiseJam d phase x) =
      if d = e then { jammedRecord r with faults := { r.faults with lockJam := true } }
      else dockOf e x := by
  obtain ⟨-, -, hdock⟩ := raiseRead_effect (s := x)
    (r := jamRaising d phase (dockOf d x).holder ((dockOf d x).bike.map Bike.id)) rfl
  have hraise : raiseJam d phase x = raiseRead
      (jamRaising d phase (dockOf d x).holder ((dockOf d x).bike.map Bike.id)) x := raiseRead_eq hc hw
  rw [hraise, hdock]
  by_cases he : d = e
  · subst he
    rw [if_pos rfl, if_pos ⟨rfl, rfl⟩, hd, raisedRecord,
      if_pos (.inr (.inl rfl))]
    rfl
  · rw [if_neg he, if_neg fun h => he (Option.some.inj h.1)]

/-- A jam with a hire's holder, on the docks. -/
theorem dockOf_jamDock {tag : Nat} {stamp : Option Stamp} (hc : Clean s)
    (hw : ∀ i, vget s.flt.watches i = none) (hh : (dockOf d s).holder = some (.hire tag stamp))
    (e : DockNo) :
    dockOf e (jamDock d s) =
      if d = e then
        { jammedRecord (dockOf d s) with faults := { (dockOf d s).faults with lockJam := true } }
      else dockOf e s := by
  have hput := endActuation_putDock d (jammedRecord (dockOf d s)) s
  have hclean : Clean (dockPut d (jammedRecord (dockOf d s)) (unkept (lineOf d s))
      (claimOf (jammedRecord (dockOf d s))) s) := dockPut_clean hc
  have hends : ∀ (y : State) phase,
      y.dlc = (dockPut d (jammedRecord (dockOf d s)) (unkept (lineOf d s))
        (claimOf (jammedRecord (dockOf d s))) s).dlc → Clean y → y.flt = s.flt →
      dockOf e (raiseJam d phase y) =
        if d = e then
          { jammedRecord (dockOf d s) with faults := { (dockOf d s).faults with lockJam := true } }
        else dockOf e s := by
    intro y phase hy hcy hf
    rw [dockOf_jamRaised phase hcy (by rw [hf]; exact hw)
      (by rw [dockOf_congr hy, dockOf_dockPut, if_pos rfl]) e, dockOf_congr hy, dockOf_dockPut]
    by_cases he : d = e
    · rw [if_pos he, if_pos he]
    · rw [if_neg he, if_neg he, if_neg he]
  by_cases hs : (dockOf d s).state = .unlocking
  · have hjam : jamDock d s = raiseJam d .release (handFailed d (dockOf d s).holder
        (endActuation d (putDock d (jammedRecord (dockOf d s)) s))) := if_pos hs
    have hframe := failedFor_hire d tag stamp (dockPut d (jammedRecord (dockOf d s))
      (unkept (lineOf d s)) (claimOf (jammedRecord (dockOf d s))) s)
    rw [hjam, hput, handFailed_for, hh]
    exact hends _ _ (failedFor_dlc _ _ _) (by rw [hframe]; exact hclean) (by rw [hframe]; rfl)
  · have hjam : jamDock d s = raiseJam d .relock (handLapsed d (dockOf d s).holder
        (endActuation d (putDock d (jammedRecord (dockOf d s)) s))) := if_neg hs
    have hframe := lapsedFor_hire d tag stamp (dockPut d (jammedRecord (dockOf d s))
      (unkept (lineOf d s)) (claimOf (jammedRecord (dockOf d s))) s)
    rw [hjam, hput, handLapsed_for, hh]
    exact hends _ _ (lapsedFor_dlc _ _ _) (by rw [hframe]; exact hclean) (by rw [hframe]; rfl)

/-! ### The TAKE deadline (R17) -/

theorem takeExpires_offered {time : Nat} (hs : (dockOf d s).state = .offered)
    (hd : (dockOf d s).deadline = some (.take time)) :
    takeExpires d s = relockDock d (holderIsHire (dockOf d s).holder) .lapse (reachTime time s) := by
  simp only [takeExpires, hs, hd]

theorem takeExpires_none
    (h : (dockOf d s).state ≠ .offered ∨ ∀ time, (dockOf d s).deadline ≠ some (.take time)) :
    takeExpires d s = s := by
  unfold takeExpires
  dsimp only
  split
  case h_1 t hs hd => exact (h.elim (fun hn => hn hs) fun hn => hn t hd).elim
  case h_2 => rfl

end

/-- Settles O54. -/
theorem deadlinesResendJamAndRelock : Obligations.DeadlinesResendJamAndRelock := by
  unfold Obligations.DeadlinesResendJamAndRelock
  intro d s hrun hc hcl r l becomes
  refine ⟨fun time c hd hk => ?_, fun time tag stamp hd hs hh hw => ?_, fun time c hd hs => ?_,
    fun hd => idle_step ((whileRunning_eq hrun).trans (actuationEvent_none hd)),
    fun time hs hd => ?_,
    fun h => idle_step ((whileRunning_eq hrun).trans (takeExpires_none h))⟩
  · refine deadline_step (n := claimOf r) hrun hcl rfl rfl ((actuationEvent_first hd).trans ?_)
    have hretry := retryActuation_put (d := d) (s := reachTime time s) hk
    rw [claimOf_retry (r := dockOf d (reachTime time s)) hd] at hretry
    exact hretry
  · have hjam : actuationEvent d s = jamDock d (reachTime time s) :=
      (actuationEvent_second hd).trans (if_pos hs)
    obtain ⟨t, hstep, -, -, ht⟩ := step_ends ((whileRunning_eq hrun).trans hjam)
    have hdock : ∀ e, dockOf e t = dockOf e (jamDock d (reachTime time s)) := fun e =>
      dockOf_congr (congrArg State.dlc ht) e
    have hdocks := dockOf_jamDock (d := d) (s := reachTime time s) hc hw hh
    refine ⟨t, hstep, ?_, fun e he => ?_⟩
    · rw [hdock, hdocks, if_pos rfl]
      rfl
    · rw [hdock, hdocks, if_neg he.symm]
      rfl
  · have hfault : actuationEvent d s = actuatorFault d (reachTime time s) :=
      (actuationEvent_second hd).trans (actuationFails_fault (s := reachTime time s) hd hs)
    exact running_step hrun hfault
  · have hinh : inhibited r = false := inhibited_releasing (.inr (.inl hs))
    have hrelock : takeExpires d s = _ :=
      (takeExpires_offered hs hd).trans (relockDock_put (s := reachTime time s) _ _ hinh)
    refine deadline_step hrun hcl ?_ ?_ hrelock
    · simp only [claimOf, show (dockOf d s).state = .offered from hs]
      rfl
    · rw [show inhibited (dockOf d s) = false from hinh]
      exact inhibited_releasing (.inr (.inr rfl))

end Sys2Proof.Machine
end

section
/-! Takes, by the dock's state and holder (R18). -/

namespace Sys2Proof.Machine

/-- The queueing of a record leaves the dock line. -/
theorem queueReport_dlc (n : NewReport) {s : State} (hc : Clean s) : (queueReport n s).dlc = s.dlc := by
  rw [queueReport, readQueueHead_clean hc, appendReport_eq]

section
variable {d : DockNo} {s : State}

/-- A command's tag write closed after a change of its dock's record. -/
theorem dropTagWrite_dockPut (c : WriteCommand) (r : DockRecord) (l : LineState) (n : Nat) :
    dropTagWrite d c (dockPut d r l n s) =
      dockPut d r { l with tagWrites := closeTagWrite c l.tagWrites } n s := by
  refine setLine_dockPut ?_
  rw [lineOf_dockPut, if_pos rfl]
  unfold inhibitFollows
  dsimp only
  split <;> rfl

/-! ### OFFERED and RELOCKING -/

/-- The record of a dock whose bike has been taken. -/
def vacated (r : DockRecord) : DockRecord :=
  { r with state := .vacant, bike := none, deadline := none, holder := none }

theorem claimOf_vacated (r : DockRecord) :
    claimOf (vacated r) = if r.suspended = true then 0 else 1 := rfl

/-- The tag writes that a take leaves (R29). -/
def writesLeft (d : DockNo) (s : State) : List TagWrite :=
  if (dockOf d s).state = .relocking then closeTagWrite .relock (lineOf d s).tagWrites
  else (lineOf d s).tagWrites

theorem takeReleased_put (hc : Clean s) :
    takeReleased d s =
      takenFor d (dockOf d s).holder (recordBike d s)
        (dockEvent .take d
          (dockPut d (vacated (dockOf d s))
            { unkept (lineOf d s) with tagWrites := writesLeft d s }
            (if (dockOf d s).suspended = true then 0 else 1)
            (queueReport (takeReport d (dockOf d s).holder (recordBike d s)) s))) := by
  have hline : lineOf d (queueReport (takeReport d (dockOf d s).holder (recordBike d s)) s)
      = lineOf d s := lineOf_congr (queueReport_dlc _ hc) d
  have hput := endActuation_putDock d (vacated (dockOf d s))
    (queueReport (takeReport d (dockOf d s).holder (recordBike d s)) s)
  rw [hline, claimOf_vacated] at hput
  unfold takeReleased
  dsimp only
  rw [show { dockOf d s with state := .vacant, bike := none, deadline := none, holder := none }
    = vacated (dockOf d s) from rfl, hput, handTaken_for]
  unfold writesLeft
  by_cases hs : (dockOf d s).state = .relocking
  · simp only [if_pos hs]
    rw [dropTagWrite_dockPut]
    rfl
  · simp only [if_neg hs]
    rfl

/-! ### JAMMED -/

/-- The record of a JAMMED dock whose bike has been taken. -/
def jamEmptied (r : DockRecord) : DockRecord := { r with bike := none, holder := none }

/-- The state in which a JAMMED dock's bike is taken and its record queued. -/
def jamTaken (d : DockNo) (s : State) : State :=
  dockPut d (jamEmptied (dockOf d s)) (lineOf d s) 0
    (queueReport (takeReport d (dockOf d s).holder (recordBike d s)) s)

theorem takeJammed_put (hc : Clean s) (hs : (dockOf d s).state = .jammed) :
    takeJammed d s =
      dockEvent .take d
        (if (dockOf d s).holder.isNone then
          raise (unaccountedRaising d (recordBike d s) .takeFromJammed)
            (lateTake (dockOf d s).holder (jamTaken d s))
        else lateTake (dockOf d s).holder (jamTaken d s)) := by
  have hclaim : claimOf (jamEmptied (dockOf d s)) = 0 := by simp [claimOf, jamEmptied, hs]
  have hput := putDock_put d (jamEmptied (dockOf d s))
    (queueReport (takeReport d (dockOf d s).holder (recordBike d s)) s)
  rw [lineOf_congr (queueReport_dlc _ hc) d, hclaim] at hput
  unfold takeJammed
  dsimp only
  rw [show { dockOf d s with bike := none, holder := none } = jamEmptied (dockOf d s) from rfl, hput]
  rfl

/-! ### DOCKED, and the takes that are discarded -/

theorem takeDocked_put (d : DockNo) (s : State) :
    takeDocked d s =
      dockEvent .take d
        (raise (unaccountedRaising d (recordBike d s) .takeFromDocked)
          (dockPut d { vacated (dockOf d s) with suspended := true } (lineOf d s) 0 s)) := by
  unfold takeDocked
  dsimp only
  rw [putDock_put]
  rfl

theorem takenEvent_released (hs : (dockOf d s).state = .offered ∨ (dockOf d s).state = .relocking) :
    takenEvent d s = takeReleased d s := by
  rcases hs with hs | hs <;> simp only [takenEvent, hs]

theorem takenEvent_discarded
    (hs : (dockOf d s).state = .vacant ∨ (dockOf d s).state = .parked ∨ (dockOf d s).state = .absent
      ∨ (dockOf d s).state = .jammed ∧ (dockOf d s).bike = none) : takenEvent d s = s := by
  rcases hs with hs | hs | hs | ⟨hs, hb⟩
  · simp only [takenEvent, hs]
  · simp only [takenEvent, hs]
  · simp only [takenEvent, hs]
  · simp only [takenEvent, hs, hb, Option.isSome_none, Bool.false_eq_true, if_false]

end

/-- Settles O58. -/
theorem takesAreRecorded : Obligations.TakesAreRecorded := by
  unfold Obligations.TakesAreRecorded
  intro d s hc r l t unaccounted told
  refine ⟨fun _ => rfl, fun hcl => keep_takenEvent claims_closed d hcl, fun bike hb => ?_,
    fun hs c => ?_, fun hs => ?_, takenEvent_discarded⟩
  · intro new queued
    have hbike : recordBike d s = bike.id := recordBike_some hb
    have hnew : takeReport d (dockOf d s).holder (recordBike d s) = new := by
      rw [hbike]
      cases hx : (dockOf d s).holder with
      | none => simp only [takeReport, plainReport, new, r, hx]
      | some x => cases x <;> simp only [takeReport, plainReport, new, r, hx]
    refine ⟨fun hs _ => ?_, fun hs => ?_⟩
    · intro tagWrites
      have htaken : t = takeReleased d s := takenEvent_released hs
      rw [htaken, takeReleased_put hc, hnew, hbike]
      rfl
    · intro left
      have hsome : (dockOf d s).bike.isSome = true := by
        rw [show (dockOf d s).bike = some bike from hb]
        rfl
      have htaken : t = takeJammed d s := by
        have hstate : (dockOf d s).state = .jammed := hs
        simp only [t, takenEvent, hstate, hsome, if_true]
      have hleft : jamTaken d s = left := by rw [jamTaken, hnew]; rfl
      rw [takeJammed_put hc hs, hleft, hbike] at htaken
      refine ⟨fun tag stamp hh => ?_, fun i index crew hh => ?_, fun hh => ?_⟩
      · simp only [show (dockOf d s).holder = _ from hh, lateTake, Option.isNone_some,
          Bool.false_eq_true, if_false] at htaken
        exact htaken
      · simp only [show (dockOf d s).holder = _ from hh, lateTake, Option.isNone_some,
          Bool.false_eq_true, if_false] at htaken
        exact htaken
      · simp only [show (dockOf d s).holder = _ from hh, lateTake, Option.isNone_none,
          if_true] at htaken
        exact htaken
  · have hopen : takeEvent d .opened c s = openDock d s := if_pos hs
    have htaken : t = takeReleased d (openDock d s) := by
      have hstate : (dockOf d s).state = .unlocking := hs
      simp only [t, takenEvent, hstate]
    rw [htaken, hopen]
    exact (takenEvent_released (openDock_state d s)).symm
  · have htaken : t = takeDocked d s := by
      have hstate : (dockOf d s).state = .docked := hs
      simp only [t, takenEvent, hstate]
    rw [htaken, takeDocked_put]
    rfl

end Sys2Proof.Machine
end

section
/-! Latched bikes, by the dock's state and the tag (R20, R32 to R39, R49, R106, R140). -/

namespace Sys2Proof.Machine

/-! ### Raisings leave the station and the fares -/

/-- Two states with one station and one set of plans. -/
def SameStation (s t : State) : Prop := t.sc = s.sc ∧ t.fu = s.fu

section
variable {s t : State} (h : SameStation s t)
include h

theorem sameStation_putDock (d : DockNo) (r : DockRecord) : SameStation s (putDock d r t) :=
  ⟨(putDock_sc d r t).trans h.1, (putDock_fu d r t).trans h.2⟩

theorem sameStation_enterFault (d : DockNo) (k : FaultKind) : SameStation s (enterFault d k t) :=
  sameStation_putDock h _ _

theorem sameStation_enterRaising (r : Raising) : SameStation s (enterRaising r t) := by
  unfold enterRaising
  split
  · split
    · exact sameStation_enterFault h _ _
    · exact h
  · exact h

theorem sameStation_suspendRaising (r : Raising) : SameStation s (suspendRaising r t) := by
  unfold suspendRaising suspendDock
  split
  · split
    · dsimp only
      split
      · exact h
      · exact sameStation_putDock h _ _
    · exact h
  · exact h

theorem sameStation_logFault (r : Raising) : SameStation s (logFault r t) := by
  rw [logFault_eq]
  exact h

theorem sameStation_faultAlert : SameStation s (faultAlert t) := by
  rw [faultAlert_frame]
  exact h

theorem sameStation_policyAction (p : Policy) (r : Raising) : SameStation s (policyAction p r t) := by
  have hlog := sameStation_enterRaising (sameStation_logFault h r) r
  cases p with
  | ignore => exact h
  | log => exact hlog
  | logNotify => exact sameStation_faultAlert hlog
  | suspend => exact sameStation_suspendRaising (sameStation_faultAlert hlog) r

theorem sameStation_fixedEntries (r : Raising) : SameStation s (fixedEntries r t) := by
  unfold fixedEntries
  split
  · exact h
  · split
    · exact sameStation_enterFault h _ _
    · split
      · exact sameStation_enterFault h _ _
      · exact h

theorem sameStation_watchRaising (r : Raising) : SameStation s (watchRaising r t) := by
  unfold watchRaising
  split
  · rw [dockEvent_frame_eq]
    exact h
  · exact h

theorem sameStation_raise (hc : Clean t) (r : Raising) : SameStation s (raise r t) := by
  rw [raise_clean hc]
  exact sameStation_fixedEntries (sameStation_policyAction (sameStation_watchRaising h r) _ r) r

end

/-! ### The PLACE that counts an arrival (R140) -/

/-- A slot waits in a PLACE that still counts. -/
abbrev PlaceExecutes (s : State) (i : Fin 2) (w : WorkSlot) (placed deadline count timeout : Nat) :
    Prop :=
  vget s.woe.slots i = some w ∧ w.state = .waiting ∧ w.progress = some (.place placed deadline)
    ∧ w.orders[w.index]? = some (.place count timeout) ∧ placed < count

section
variable {s : State}

theorem placingSlot_none
    (h : ∀ i w placed deadline count timeout, ¬PlaceExecutes s i w placed deadline count timeout) :
    placingSlot s = none := by
  refine List.findSome?_eq_none_iff.2 fun i _ => ?_
  simp only [slotOf]
  cases hv : vget s.woe.slots i with
  | none => rfl
  | some w =>
    dsimp only
    split
    case h_1 placed deadline count timeout hst hp ho =>
      exact if_neg fun hlt => h i w placed deadline count timeout ⟨hv, hst, hp, ho, hlt⟩
    case h_2 => rfl

theorem countPlace_none
    (h : ∀ i w placed deadline count timeout, ¬PlaceExecutes s i w placed deadline count timeout) :
    countPlace s = (none, s) := by
  simp only [countPlace, placingSlot_none h]

theorem countPlace_some {i : Fin 2} {w : WorkSlot} {placed deadline count timeout : Nat}
    (h : PlaceExecutes s i w placed deadline count timeout)
    (hidle : ∀ j v, j ≠ i → vget s.woe.slots j = some v → v.state ≠ .waiting) :
    countPlace s =
      (some { crew := w.crew, slot := i, index := w.index },
        if placed + 1 < count then
          slotPut i { w with progress := some (.place (placed + 1) deadline) } s
        else orderCompleted i w (.done count) (w.index + 1) s) := by
  obtain ⟨hi, hst, hp, ho, hlt⟩ := h
  have hwait : waitOrder i w (.place (placed + 1) deadline) s
      = slotPut i { w with progress := some (.place (placed + 1) deadline) } s := by
    rw [waitOrder, ← hst]
    rfl
  simp only [countPlace, placingSlot_eq hi hst hp ho hlt hidle]
  rw [completeOrder_completed, hwait]
  split <;> rfl

end

theorem orderCompleted_frame (i : Fin 2) (w : WorkSlot) (r : OrderResult) (next : Nat) (s : State) :
    orderCompleted i w r next s = s.setWoe (orderCompleted i w r next s).woe := by
  unfold orderCompleted
  dsimp only
  split
  · rfl
  · rw [startListJudged_frame]
    rfl

/-! ### What every arrival does (R32) -/

section
variable {d : DockNo} {t : TagReading} {s y : State}

/-- The state in which an arrival's record is queued and its bike is in the dock's record and in no
other's. -/
def arrivalRecorded (d : DockNo) (t : TagReading) (n : NewReport) (s y : State) : State :=
  bikeEntered d (readingBike t) false
    (dockPut d (arrivalRecord (dockOf d s) t s) (lineOf d s) 0 (queueReport n y))

/-- The state in which an arrival's bike is flagged, its ACCEPT waits, and the watches are told. -/
def arrivalTold (d : DockNo) (t : TagReading) (y : State) : State :=
  let x := if readingBike t ≠ 0 ∧ readingMark t = true then enterFlag (readingBike t) .tag y else y
  dockEvent .arrival d (placeCommand d (.accept (readingStamp t).isSome) x)

theorem arrivalTold_eq (hc : Clean y) :
    dockEvent .arrival d (placeCommand d (.accept (readingStamp t).isSome)
      (flagMarked (readingBike t) (readingMark t) y)) = arrivalTold d t y := by
  unfold arrivalTold flagMarked
  rw [askFlag_clean hc]

theorem queueReport_clean (n : NewReport) (hc : Clean s) : Clean (queueReport n s) := by
  rw [queueReport, readQueueHead_clean hc, appendReport_eq]
  exact hc

theorem sameStation_queueReport (n : NewReport) (hc : Clean s) : SameStation s (queueReport n s) := by
  rw [queueReport, readQueueHead_clean hc, appendReport_eq]
  exact ⟨rfl, rfl⟩

/-- The duplicate check leaves the state, or puts one record and raises TAG_DUPLICATE. -/
theorem checkDuplicate_cases (d : DockNo) (bike : Nat) (s : State) :
    checkDuplicate d bike s = s ∨ ∃ e r k, checkDuplicate d bike s = raise k (putDock e r s) := by
  unfold checkDuplicate
  split
  · exact .inl rfl
  · split
    · exact .inl rfl
    · exact .inr ⟨_, _, _, rfl⟩

theorem checkDuplicate_clean (bike : Nat) (hc : Clean s) : Clean (checkDuplicate d bike s) := by
  rcases checkDuplicate_cases d bike s with h | ⟨e, r, k, h⟩
  · rwa [h]
  · rw [h]
    exact raise_keepsClean (putDock_clean hc) k

theorem sameStation_checkDuplicate (bike : Nat) (hc : Clean y) (h : SameStation s y) :
    SameStation s (checkDuplicate d bike y) := by
  rcases checkDuplicate_cases d bike y with he | ⟨e, r, k, he⟩
  · rwa [he]
  · rw [he]
    exact sameStation_raise (sameStation_putDock h e r) (putDock_clean hc) k

theorem bikeEntered_unmarked (d : DockNo) (bike : Nat) (s : State) :
    bikeEntered d bike false s = checkDuplicate d bike s := by
  simp [bikeEntered, flagMarked]

theorem arrivalRecorded_clean (n : NewReport) (hc : Clean y) : Clean (arrivalRecorded d t n s y) := by
  rw [arrivalRecorded, bikeEntered_unmarked]
  exact checkDuplicate_clean _ (dockPut_clean (queueReport_clean n hc))

theorem sameStation_arrivalRecorded (n : NewReport) (hc : Clean y) :
    SameStation y (arrivalRecorded d t n s y) := by
  rw [arrivalRecorded, bikeEntered_unmarked]
  exact sameStation_checkDuplicate _ (dockPut_clean (queueReport_clean n hc))
    (sameStation_queueReport n hc)

/-- An arrival at a dock, by its report and by what its kind brings with it. -/
theorem arrive_put {n : NewReport} (hc : Clean s) (hread : readForArrival t s = s)
    (hx : arrivalReport d t s = (n, y)) (hy : y = s.setWoe y.woe) :
    arrive d t s =
      dockEvent .arrival d (placeCommand d (.accept (readingStamp t).isSome)
        (flagMarked (readingBike t) (readingMark t)
          (followArrival d t (arrivalRecorded d t n s y)))) := by
  have hcy : Clean y := by rw [hy]; exact hc
  have hdlc : y.dlc = s.dlc := by rw [hy]; rfl
  have htime : stationTime y = stationTime s := by rw [hy]; rfl
  have hqueue : appendReport (reportOf n y) y = queueReport n y := by
    rw [queueReport, readQueueHead_clean hcy]
  have hrecord : arrivalRecord (dockOf d y) t y = arrivalRecord (dockOf d s) t s := by
    rw [arrivalRecord, htime, dockOf_congr hdlc, arrivalRecord]
  have hput : recordArrival d t s
      = dockPut d (arrivalRecord (dockOf d s) t s) (lineOf d s) 0 (queueReport n y) := by
    have hline : lineOf d (queueReport n y) = lineOf d s :=
      lineOf_congr ((queueReport_dlc n hcy).trans hdlc) d
    simp only [recordArrival, hx, hqueue, hrecord, putDock_put, hline]
    rfl
  simp only [arrive, hread, hput, arrivalRecorded, bikeEntered_unmarked]

end

/-! ### The kinds of arrival (R33 to R36) -/

/-- A fare depends on the station and the plans alone. -/
theorem fareOf_congr {s y : State} (h : SameStation s y) (stamp : Stamp) :
    fareOf stamp y = fareOf stamp s := by
  unfold fareOf planOf
  rw [h.1, h.2]

section
variable {d : DockNo} {t : TagReading} {s : State} (hc : Clean s)
include hc

theorem readForArrival_clean (t : TagReading) : readForArrival t s = s := by
  unfold readForArrival
  rw [readRegistry_clean hc, readQueueHead_clean hc]
  split
  · rw [readForFare, readPlan_clean hc, readConfig_clean hc, ite_self]
  · rfl

theorem arrive_unreadable (ht : t = .unreadable) :
    arrive d t s = arrivalTold d t (raise (readFailRaising d)
      (arrivalRecorded d t (plainReport .arrival d (readingBike t)) s s)) := by
  subst ht
  have hrep : arrivalReport d .unreadable s = (plainReport .arrival d (readingBike .unreadable), s) := rfl
  have hfollow : ∀ y, followArrival d .unreadable y = raise (readFailRaising d) y := fun _ => rfl
  rw [arrive_put hc (readForArrival_clean hc _) hrep rfl, hfollow]
  exact arrivalTold_eq (raise_keepsClean (arrivalRecorded_clean _ hc) _)

/-- An arrival of an unstamped bike, by what a PLACE makes of it. -/
theorem arrive_unstamped {id : Nat} {mark : Bool} {y : State} {part : Option MovePart}
    (ht : t = .readable id mark none) (hx : countPlace s = (part, y)) (hy : y = s.setWoe y.woe) :
    arrive d t s = arrivalTold d t (arrivalRecorded d t
      (match part with
        | some part => { plainReport .moveIn d (readingBike t) with move := some part }
        | none => plainReport .strayIn d (readingBike t)) s y) := by
  subst ht
  have hcy : Clean y := by rw [hy]; exact hc
  cases part with
  | none =>
    have hrep : arrivalReport d (.readable id mark none) s = (plainReport .strayIn d id, y) := by
      simp only [arrivalReport, hx]
    rw [arrive_put hc (readForArrival_clean hc _) hrep hy]
    exact arrivalTold_eq (arrivalRecorded_clean _ hcy)
  | some part =>
    have hrep : arrivalReport d (.readable id mark none) s
        = ({ plainReport .moveIn d id with move := some part }, y) := by
      simp only [arrivalReport, hx]
    rw [arrive_put hc (readForArrival_clean hc _) hrep hy]
    exact arrivalTold_eq (arrivalRecorded_clean _ hcy)

/-- Whether a bike stands in the registry because its stamp could not be cleared (R34). -/
def clearFailed (bike : Nat) (s : State) : Bool :=
  (s.flt.registry.find? fun e => decide (e.bike = bike)).any fun e => decide (e.origin = .station)

/-- An arrival of a stamped bike. -/
theorem arrive_stamped {id : Nat} {mark : Bool} {stamp : Stamp} {fare : Option (Nat × FareFlags)}
    (ht : t = .readable id mark (some stamp)) (hf : fareOf stamp s = fare) :
    arrive d t s = arrivalTold d t (raiseSkew d (readingBike t) stamp fare
      (arrivalWrite stamp.card ((fare.map Prod.fst).getD 0)
        (arrivalRecorded d t
          (stampedReport d (readingBike t) stamp (clearFailed (readingBike t) s) fare) s s))) := by
  subst ht
  have hrep : arrivalReport d (.readable id mark (some stamp)) s
      = (stampedReport d id stamp (clearFailed id s) fare, s) := by
    rw [← hf]
    rfl
  have hstation := sameStation_arrivalRecorded (d := d) (t := .readable id mark (some stamp)) (s := s)
    (stampedReport d id stamp (clearFailed id s) fare) hc
  have hclean := arrivalRecorded_clean (d := d) (t := .readable id mark (some stamp)) (s := s)
    (stampedReport d id stamp (clearFailed id s) fare) hc
  have hfollow : followArrival d (.readable id mark (some stamp))
      (arrivalRecorded d (.readable id mark (some stamp))
        (stampedReport d id stamp (clearFailed id s) fare) s s) =
      raiseSkew d id stamp fare (arrivalWrite stamp.card ((fare.map Prod.fst).getD 0)
        (arrivalRecorded d (.readable id mark (some stamp))
          (stampedReport d id stamp (clearFailed id s) fare) s s)) := by
    simp only [followArrival, fareOf_congr hstation, hf]
  rw [arrive_put hc (readForArrival_clean hc _) hrep rfl, hfollow]
  refine arrivalTold_eq ?_
  unfold raiseSkew
  split
  · exact raise_keepsClean (by exact hclean) _
  · exact hclean

end

theorem raiseSkew_none (d : DockNo) (bike : Nat) (stamp : Stamp) (y : State) :
    raiseSkew d bike stamp none y = y := rfl

/-- CLOCK_SKEW is raised for a fare with SKEW, after its write-through (R106). -/
theorem raiseSkew_written {d : DockNo} {bike : Nat} {stamp : Stamp} {f : Nat × FareFlags} {s y : State}
    (card fare : Nat) (h : y.sc = s.sc) :
    raiseSkew d bike stamp (some f) (arrivalWrite card fare y) =
      if f.2.skew = true then
        raise
          { kind := .clockSkew, dock := some d, bike := some bike,
            detail := .clockSkew stamp.origin stamp.start s.sc.clock } (arrivalWrite card fare y)
      else arrivalWrite card fare y := by
  have hsc : (arrivalWrite card fare y).sc = s.sc := h
  rw [raiseSkew, Option.any_some, hsc]
  rfl

/-- A latch at a suspended VACANT dock takes the bike in (R20). -/
theorem latchSuspended_put (d : DockNo) (t : TagReading) (s : State) :
    latchSuspended d t s =
      bikeEntered d (readingBike t) (readingMark t)
        (dockPut d
          { dockOf d s with
            state := .docked,
            bike := some { id := readingBike t, mark := readingMark t, since := stationTime s } }
          (lineOf d s) 0 s) := by
  unfold latchSuspended
  dsimp only
  rw [putDock_put]
  rfl

/-- Settles O59. -/
theorem latchedBikesAreRecorded : Obligations.LatchedBikesAreRecorded := by
  unfold Obligations.LatchedBikesAreRecorded
  intro d tag s hc r reading bike mark time t k docked new recorded arrived raised
  refine ⟨fun _ => rfl, fun hs hp => ?_, fun hs hp => ?_, fun hs => if_neg hs⟩
  · have ht : t = arrive d reading s := (if_pos hs).trans (if_neg (Bool.eq_false_iff.1 hp))
    refine ⟨fun hr => ht.trans (arrive_unreadable hc hr), fun id mark hr => ?_,
      fun id mark stamp hr => ?_⟩
    · intro executes
      refine ⟨fun hno => ?_, fun i w placed deadline count timeout he hidle => ?_⟩
      · exact ht.trans (arrive_unstamped hc hr (countPlace_none hno) rfl)
      · have hframe : (if placed + 1 < count then
              slotPut i { w with progress := some (.place (placed + 1) deadline) } s
            else orderCompleted i w (.done count) (w.index + 1) s)
            = s.setWoe (if placed + 1 < count then
              slotPut i { w with progress := some (.place (placed + 1) deadline) } s
            else orderCompleted i w (.done count) (w.index + 1) s).woe := by
          split
          · rfl
          · exact orderCompleted_frame ..
        exact ht.trans (arrive_unstamped hc hr (countPlace_some he hidle) hframe)
    · intro failed hired
      refine ⟨fun hv => ?_, fun hv => ?_⟩
      · have hfare : fareOf stamp s = none := if_neg (Bool.eq_false_iff.1 hv)
        exact (ht.trans (arrive_stamped hc hr hfare)).trans
          (congrArg (arrivalTold d reading) (raiseSkew_none d bike stamp _))
      · intro f written
        have hfare : fareOf stamp s = some f := if_pos hv
        have hstation := raiseSkew_written (d := d) (stamp := stamp) (bike := bike) (f := f) stamp.card f.1
          (sameStation_arrivalRecorded (d := d) (t := reading) (s := s)
            { hired with fareFlags := f.2, fare := some f.1 } hc).1
        exact (ht.trans (arrive_stamped hc hr hfare)).trans
          (congrArg (arrivalTold d reading) hstation)
  · have ht : t = latchSuspended d reading s := (if_pos hs).trans (if_pos hp)
    exact ht.trans (latchSuspended_put d reading s)

end Sys2Proof.Machine
end

section
/-! Exchanges: answers, missed exchanges, service requests and sweeps, and the grant that follows each
(R6 to R11). -/

namespace Sys2Proof.Machine

/-! ### Outcomes beside the dock line -/

section
variable (x : DockLine) (s : State)

theorem startListJudged_setDlc : startListJudged (s.setDlc x) = (startListJudged s).setDlc x := by
  have hwoe : (startListJudged (s.setDlc x)).woe = (startListJudged s).woe := by
    unfold startListJudged
    rw [State.setDlc_woe]
    cases s.woe.startList with
    | nil => rfl
    | cons i rest =>
      dsimp only
      rw [apply_ite State.woe, apply_ite State.woe]
      rfl
  rw [startListJudged_frame, hwoe, startListJudged_frame s]
  rfl

theorem orderCompleted_setDlc (i : Fin 2) (w : WorkSlot) (r : OrderResult) (next : Nat) :
    orderCompleted i w r next (s.setDlc x) = (orderCompleted i w r next s).setDlc x := by
  unfold orderCompleted
  dsimp only
  split
  · rfl
  · exact startListJudged_setDlc x (slotPut i _ s)

theorem collectGoesOn_setDlc (i : Fin 2) (w : WorkSlot) (out : List DockNo) (taken ended : Nat)
    (stopped : Bool) :
    collectGoesOn i w out taken ended stopped (s.setDlc x)
      = (collectGoesOn i w out taken ended stopped s).setDlc x := by
  unfold collectGoesOn
  split
  · rw [completeOrder_completed, completeOrder_completed, orderCompleted_setDlc]
  · rfl

theorem collectOutcome_setDlc (d : DockNo) (i : Fin 2) (taken : Bool) :
    collectOutcome d i taken (s.setDlc x) = (collectOutcome d i taken s).setDlc x := by
  unfold collectOutcome
  have hslot : slotOf i (s.setDlc x) = slotOf i s := rfl
  rw [hslot]
  split
  · rfl
  · split
    · split
      · exact collectGoesOn_setDlc x s ..
      · rfl
    · rfl

theorem releaseUndone_setDlc (card trip : Nat) :
    releaseUndone card trip (s.setDlc x) = (releaseUndone card trip s).setDlc x := by
  have hdrop : ∀ y : State, dropRevoked card (y.setDlc x) = (dropRevoked card y).setDlc x := by
    intro y
    have hentry : entryOf card (y.setDlc x) = entryOf card y := rfl
    unfold dropRevoked
    rw [hentry]
    split
    · split <;> rfl
    · rfl
  unfold releaseUndone
  exact hdrop (mapEntry card _ s)

theorem stampUndone_setDlc (stamp : Option Stamp) :
    stampUndone stamp (s.setDlc x) = (stampUndone stamp s).setDlc x := by
  cases stamp with
  | none => rfl
  | some t => exact releaseUndone_setDlc x s t.card t.trip

theorem hireEnds_setDlc (d : DockNo) (tag : Nat) (o : ReplyOutcome) (b : Body) (st : HireState) :
    hireEnds d tag o b st (s.setDlc x) = (hireEnds d tag o b st s).setDlc x := by
  unfold hireEnds
  rw [State.setDlc_hu]
  split <;> rfl

theorem failedFor_setDlc (d : DockNo) (h : Option Holder) :
    failedFor d h (s.setDlc x) = (failedFor d h s).setDlc x := by
  cases h with
  | none => rfl
  | some h =>
    cases h with
    | order i j k => exact collectOutcome_setDlc x s d i false
    | hire tag stamp =>
      simp only [failedFor, stampUndone_setDlc, hireEnds_setDlc]

theorem lapsedFor_setDlc (d : DockNo) (h : Option Holder) :
    lapsedFor d h (s.setDlc x) = (lapsedFor d h s).setDlc x := by
  cases h with
  | none => rfl
  | some h =>
    cases h with
    | order i j k => exact collectOutcome_setDlc x s d i false
    | hire tag stamp =>
      have hchanged : ∀ y : State, stationChanged (y.setDlc x) = (stationChanged y).setDlc x :=
        fun _ => rfl
      simp only [lapsedFor, stampUndone_setDlc, hchanged, hireEnds_setDlc]

end

section
variable {d : DockNo} {s : State}

theorem failedFor_setLine (l : LineState) (h : Option Holder) :
    failedFor d h (setLine d l s) = setLine d l (failedFor d h s) := by
  rw [setLine, failedFor_setDlc, setLine, failedFor_dlc]

theorem lapsedFor_setLine (l : LineState) (h : Option Holder) :
    lapsedFor d h (setLine d l s) = setLine d l (lapsedFor d h s) := by
  rw [setLine, lapsedFor_setDlc, setLine, lapsedFor_dlc]

/-! ### A line put as an exchange ends -/

/-- The state with an exchange, a dock's line and the timebase put. -/
def lined (d : DockNo) (exchange : Option Exchange) (l : LineState) (time : Nat) (s : State) : State :=
  { s with
    dlc := { s.dlc with exchange := exchange, lines := vset s.dlc.lines d l },
    sc := { s.sc with timebase := time } }

@[simp] theorem lineOf_lined (e : Option Exchange) (l : LineState) (time : Nat) :
    lineOf d (lined d e l time s) = l := vget_vset_self _ _ _

@[simp] theorem setLine_lined (e : Option Exchange) (l l' : LineState) (time : Nat) :
    setLine d l' (lined d e l time s) = lined d e l' time s := by
  simp only [setLine, lined, State.setDlc, vset_vset]

@[simp] theorem dockOf_lined (f : DockNo) (e : Option Exchange) (l : LineState) (time : Nat) :
    dockOf f (lined d e l time s) = dockOf f s := rfl

/-- The line of a dock whose answer is received. -/
def heardLine (a : DockAnswer) (now : Nat) (l : LineState) : LineState :=
  { l with
    lastExchange := now, sweepDue := false, missCount := 0, lastCondition := some a.condition,
    serviceRequest := l.serviceRequest && a.event.isSome }

theorem endExchange_eq (d : DockNo) (s : State) :
    endExchange d s =
      lined d none { lineOf d s with lastExchange := s.sc.timebase, sweepDue := false } s.sc.timebase s :=
  rfl

theorem receiveAnswer_eq (d : DockNo) (a : DockAnswer) (s : State) :
    receiveAnswer d a s
      = lined d none (heardLine a s.sc.timebase (lineOf d s)) s.sc.timebase s := by
  simp only [receiveAnswer, endExchange_eq, lineOf_lined, setLine_lined]
  rfl

/-- A step that ends in the grant of the line from a state that differs in the line and the time alone. -/
theorem grants_of {f : State → State} {e : Option Exchange} {l : LineState} {time : Nat}
    (hrun : running s = true) (hcl : ClaimsRight s) (hs : s.dlc.survey = none)
    (hf : f s = grantLine (lined d e l time s)) :
    ∃ t x, stepOf (whileRunning f) s = .next t ∧ Granted (lined d e l time s) x ∧ PortsKept s t
      ∧ StoreKept s t ∧ t = { x with pi := t.pi, rs := t.rs } := by
  have hcl' : ClaimsRight (lined d e l time s) := hcl
  have hframe := grantLine_frame hcl' hs
  obtain ⟨t, hstep, hport, hstore, ht⟩ := quiet_step ((whileRunning_eq hrun).trans hf)
    (by rw [hframe]; rfl) (by rw [hframe]; rfl)
  exact ⟨t, grantLine (lined d e l time s), hstep, grantLine_granted (u := lined d e l time s) hrun hcl' hs,
    hport, hstore, ht⟩

/-! ### Answers (R7, R8, R11) -/

section
variable {x : Exchange} {a : DockAnswer} (hx : s.dlc.exchange = some x) (hd : x.dock = d)
  (hv : x.survey = false) (hsv : (lineOf d s).surveyed = true)
include hx hd hv

theorem exchangeWith_dock : exchangeWith d false s = true := by
  simp [exchangeWith, hx, hd, hv]

theorem answerEvent_grants : answerEvent d a s = grantLine (dockAnswers d a s) :=
  if_pos (exchangeWith_dock hx hd hv)

end

theorem dockAnswers_present {a : DockAnswer} (hst : (dockOf d s).state ≠ .absent) :
    dockAnswers d a s =
      takeAnswer d a (lined d none (heardLine a s.sc.timebase (lineOf d s)) s.sc.timebase s) := by
  rw [dockAnswers, receiveAnswer_eq]
  exact if_neg fun h => hst h.2

theorem takeAnswer_repeated {a : DockAnswer}
    (h : a.event = none ∨ ∃ n e, a.event = some (n, e) ∧ (lineOf d s).lastEvent = some n) :
    takeAnswer d a s = s := by
  rcases h with h | ⟨n, e, h, hl⟩
  · simp only [takeAnswer, h]
  · simp only [takeAnswer, h, if_pos hl]

theorem takeAnswer_new {a : DockAnswer} {n : Nat} {e : DockEvent} (h : a.event = some (n, e))
    (hl : (lineOf d s).lastEvent ≠ some n) (hsv : (lineOf d s).surveyed = true) :
    takeAnswer d a s = takeEvent d e a.condition (setLine d { lineOf d s with lastEvent := some n } s) := by
  simp only [takeAnswer, h, if_neg hl, hsv, if_true, noteEvent]

/-- The number of an answer's event, or the last taken without one. -/
def answerNumber (a : DockAnswer) (l : LineState) : Option Nat :=
  match a.event with
  | some (n, _) => some n
  | none => l.lastEvent

theorem noteAnswer_eq (a : DockAnswer) (d : DockNo) (s : State) :
    noteAnswer d a s = setLine d { lineOf d s with lastEvent := answerNumber a (lineOf d s) } s := by
  cases h : a.event with
  | none =>
    simp only [noteAnswer, answerNumber, h]
    exact (setLine_same d s).symm
  | some e => simp only [noteAnswer, answerNumber, h, noteEvent]

/-- An ABSENT dock that answers is PARKED (R11). -/
theorem dockReturns_put (l : LineState) :
    dockReturns d (setLine d l s) =
      raise (returnedRaising d .returned)
        (dockPut d { dockOf d s with state := .parked, deadline := none } l 0 s) := by
  unfold dockReturns
  rw [putDock_setLine]
  rfl

/-! ### Missed exchanges (R7, R8, R10) -/

/-- A command whose exchange was missed goes back to the head of the waiting ones. -/
def GoesBack (c : Command) (l : List Command) : Prop :=
  match c with
  | .accept _ => ∀ c ∈ l, ∀ b, c ≠ .accept b
  | .mark _ => ∀ c ∈ l, ∀ b, c ≠ .mark b
  | .inhibit _ => ∀ c ∈ l, ∀ b, c ≠ .inhibit b
  | _ => False

/-- Whether one of a kind waits. -/
theorem kindWaits_iff {l : List Command} {make : Bool → Command} {n : Nat}
    (h : ∀ c, commandKind c = n ↔ ∃ b, c = make b) :
    (l.any fun x => decide (commandKind x = n)) = true ↔ ¬∀ c ∈ l, ∀ b, c ≠ make b := by
  simp only [List.any_eq_true, decide_eq_true_eq, h]
  push Not
  exact Iff.rfl

theorem putBack_eq {c : Command} {l waiting : List Command} (hb : GoesBack c l → waiting = c :: l)
    (hn : ¬GoesBack c l → waiting = l) : putBack c l = waiting := by
  have hkind : ∀ {make : Bool → Command} {n : Nat}, (∀ c, commandKind c = n ↔ ∃ b, c = make b) →
      (GoesBack c l ↔ ∀ c ∈ l, ∀ b, c ≠ make b) →
      (if (l.any fun x => decide (commandKind x = n)) = true then l else c :: l) = waiting := by
    intro make n hk hg
    by_cases h : GoesBack c l
    · rw [if_neg fun ha => (kindWaits_iff hk).1 ha (hg.1 h), hb h]
    · rw [if_pos ((kindWaits_iff hk).2 (mt hg.2 h)), hn h]
  cases c with
  | poll => exact (hn id).symm
  | release t => exact (hn id).symm
  | relock b cause => exact (hn id).symm
  | accept b => exact hkind (make := .accept) (fun c => by cases c <;> simp [commandKind]) Iff.rfl
  | mark b => exact hkind (make := .mark) (fun c => by cases c <;> simp [commandKind]) Iff.rfl
  | inhibit b => exact hkind (make := .inhibit) (fun c => by cases c <;> simp [commandKind]) Iff.rfl

/-- The line of a dock whose exchange was missed. -/
def missedLine (c : Command) (time : Nat) (l : LineState) : LineState :=
  { l with
    lastExchange := time, sweepDue := false, missCount := min 2 (l.missCount + 1),
    waiting := putBack c l.waiting }

theorem missedEvent_eq {x : Exchange} (hx : s.dlc.exchange = some x) (hd : x.dock = d)
    (hv : x.survey = false) (hsv : (lineOf d s).surveyed = true) :
    missedEvent d s = grantLine
      (if (lineOf d s).missCount = 2 ∧ (dockOf d s).state ≠ .absent then
        dockAbsent d (lined d none (missedLine x.command (max s.sc.timebase (x.sentAt + 20)) (lineOf d s))
          (max s.sc.timebase (x.sentAt + 20)) s)
      else lined d none (missedLine x.command (max s.sc.timebase (x.sentAt + 20)) (lineOf d s))
        (max s.sc.timebase (x.sentAt + 20)) s) := by
  subst hd
  have hmissed : missedEvent x.dock s = grantLine (exchangeMissed x s) := by
    simp only [missedEvent, hx, if_true]
  have hend : endExchange x.dock (reachTime (x.sentAt + 20) s)
      = lined x.dock none
          { lineOf x.dock s with
            lastExchange := max s.sc.timebase (x.sentAt + 20), sweepDue := false }
          (max s.sc.timebase (x.sentAt + 20)) s := rfl
  rw [hmissed, exchangeMissed, hend, if_neg (Bool.eq_false_iff.1 hv), lineOf_lined, if_pos hsv,
    dockMissed, lineOf_lined]
  dsimp only
  rw [setLine_lined, dockOf_lined]
  rfl

/-- The outcome handed to the holder of a dock that becomes ABSENT. -/
def absentHanded (d : DockNo) (r : DockRecord) (s : State) : State :=
  match r.state with
  | .unlocking => failedFor d r.holder s
  | .offered | .relocking => lapsedFor d r.holder s
  | _ => s

theorem absentHanded_setLine (r : DockRecord) (l : LineState) :
    absentHanded d r (setLine d l s) = setLine d l (absentHanded d r s) := by
  unfold absentHanded
  cases r.state with
  | unlocking => exact failedFor_setLine l r.holder
  | offered | relocking => exact lapsedFor_setLine l r.holder
  | vacant | docked | jammed | absent | parked => rfl

/-- The record of an ABSENT dock (R10). -/
def absentRecord (r : DockRecord) : DockRecord :=
  { r with state := .absent, suspended := true, bike := none, holder := none, deadline := none,
           lastArrival := none }

/-- A dock that becomes ABSENT (R10). -/
theorem dockAbsent_put (l : LineState) :
    dockAbsent d (setLine d l s) =
      raise
        { kind := .dockSilent, dock := some d, bike := none,
          detail := .dockSilent (some (dockOf d s).state) }
        (dockPut d (absentRecord (dockOf d s))
          { l with waiting := [], lastEvent := none, tagWrites := [], actuation := none } 0
          (absentHanded d (dockOf d s) s)) := by
  have hhanded : (match (dockOf d s).state with
      | .unlocking => handFailed d (dockOf d s).holder (setLine d l s)
      | .offered => handLapsed d (dockOf d s).holder (setLine d l s)
      | .relocking => handLapsed d (dockOf d s).holder (setLine d l s)
      | _ => setLine d l s) = setLine d l (absentHanded d (dockOf d s) s) := by
    rw [← absentHanded_setLine]
    cases hst : (dockOf d s).state <;>
      simp only [absentHanded, hst, handFailed_for, handLapsed_for]
  have hfollow : ∀ old m, inhibitFollows old (absentRecord (dockOf d s)) m = m := fun old m => by
    simp [inhibitFollows, absentRecord]
  have hput : putDock d (absentRecord (dockOf d s)) (setLine d l (absentHanded d (dockOf d s) s))
      = dockPut d (absentRecord (dockOf d s)) l 0 (absentHanded d (dockOf d s) s) := putDock_setLine ..
  have hline : lineOf d (dockPut d (absentRecord (dockOf d s)) l 0 (absentHanded d (dockOf d s) s)) = l := by
    rw [lineOf_dockPut, if_pos rfl, hfollow]
  have hset : ∀ l', setLine d l' (dockPut d (absentRecord (dockOf d s)) l 0
      (absentHanded d (dockOf d s) s)) = dockPut d (absentRecord (dockOf d s)) l' 0
      (absentHanded d (dockOf d s) s) := fun l' => setLine_dockPut (hfollow _ l').symm
  have habsent : dockAbsent d (setLine d l s) =
      raise
        { kind := .dockSilent, dock := some d, bike := none,
          detail := .dockSilent (some (dockOf d s).state) }
        (setLine d
          { lineOf d (putDock d (absentRecord (dockOf d s)) (match (dockOf d s).state with
              | .unlocking => handFailed d (dockOf d s).holder (setLine d l s)
              | .offered => handLapsed d (dockOf d s).holder (setLine d l s)
              | .relocking => handLapsed d (dockOf d s).holder (setLine d l s)
              | _ => setLine d l s)) with
            waiting := [], lastEvent := none, tagWrites := [], actuation := none }
          (putDock d (absentRecord (dockOf d s)) (match (dockOf d s).state with
              | .unlocking => handFailed d (dockOf d s).holder (setLine d l s)
              | .offered => handLapsed d (dockOf d s).holder (setLine d l s)
              | .relocking => handLapsed d (dockOf d s).holder (setLine d l s)
              | _ => setLine d l s))) := rfl
  rw [habsent, hhanded, hput, hline, hset]

end

/-- Settles O53. -/
theorem exchangesEndAndTheLineIsGranted : Obligations.ExchangesEndAndTheLineIsGranted := by
  unfold Obligations.ExchangesEndAndTheLineIsGranted
  intro d s hrun hcl hsurvey l now grants
  have hgrants : ∀ {c f e l time}, exec c s = stepOf (whileRunning f) s →
      f s = grantLine (lined d e l time s) → grants c e l time := fun hexec hf => by
    have h := grants_of hrun hcl hsurvey hf
    rw [← hexec] at h
    exact h
  refine ⟨fun x a hx hd hv hsv hst => ?answers, fun x hx hd hv hsv hmiss => ?missed,
    fun x a hx hd hv hsv hst => ?returns, fun x hx hd hv hsv hmiss hst => ?absent,
    fun hx => ?service, fun hsv => hgrants rfl (if_pos hsv)⟩
  case answers =>
    intro heard
    have hanswer : answerEvent d a s = grantLine (takeAnswer d a (lined d none heard now s)) := by
      rw [answerEvent_grants hx hd hv, dockAnswers_present hst]
      rfl
    refine ⟨fun hrep => ?_, fun n e he hl => ?_⟩
    · refine hgrants rfl (hanswer.trans (congrArg _ (takeAnswer_repeated ?_)))
      rw [lineOf_lined]
      exact hrep
    · refine running_step hrun (hanswer.trans (congrArg _ ?_))
      have hnew := takeAnswer_new (d := d) (s := lined d none heard now s) he
        (by rw [lineOf_lined]; exact hl) (by rw [lineOf_lined]; exact hsv)
      rw [lineOf_lined, setLine_lined] at hnew
      exact hnew
  case service =>
    refine hgrants rfl ((if_pos hx).trans (congrArg grantLine ?_))
    rw [← hx]
    rfl
  case missed =>
    intro goesBack time waiting hback hstay
    have hwait : putBack x.command l.waiting = waiting := putBack_eq hback hstay
    have hno : ¬((lineOf d s).missCount = 2 ∧ (dockOf d s).state ≠ .absent) := by
      rintro ⟨h2, hne⟩
      have hlt : (lineOf d s).missCount < 2 ∨ (dockOf d s).state = .absent := hmiss
      rcases hlt with hlt | hab
      · omega
      · exact hne hab
    have hmissed := missedEvent_eq hx hd hv hsv
    rw [if_neg hno, missedLine, hwait] at hmissed
    exact hgrants rfl hmissed
  case returns =>
    intro number
    refine running_step hrun ((answerEvent_grants hx hd hv).trans (congrArg _ ?_))
    have hreturn : dockAnswers d a s = dockReturns d (noteAnswer d a (receiveAnswer d a s)) := by
      refine if_pos ?_
      rw [receiveAnswer_eq, lineOf_lined, dockOf_lined]
      exact ⟨hsv, hst⟩
    have hnote : noteAnswer d a (receiveAnswer d a s) =
        setLine d { heardLine a now l with lastEvent := number }
          { s with dlc := { s.dlc with exchange := none } } := by
      rw [noteAnswer_eq, receiveAnswer_eq, lineOf_lined, setLine_lined]
      rfl
    rw [hreturn, hnote]
    exact dockReturns_put _
  case absent =>
    intro r time u handed
    have hmissed := missedEvent_eq hx hd hv hsv
    rw [if_pos ⟨hmiss, hst⟩] at hmissed
    refine running_step hrun (hmissed.trans (congrArg _ ?_))
    have hput := dockAbsent_put (d := d) (s := u) (missedLine x.command time l)
    have hcount : min 2 (l.missCount + 1) = 2 := by omega
    rw [missedLine, hcount] at hput
    rw [missedLine, show min 2 ((lineOf d s).missCount + 1) = 2 from hcount]
    exact hput

end Sys2Proof.Machine
end

section
/-! Words read: what a single-bit error and a double-bit error leave, and the scrub's row (R173, R174, R178,
R180). -/

namespace Sys2Proof.Machine

/-! ### One word -/

/-- A state with one word's error put. -/
def errorPut (w : Nat) (e : WordError) (s : State) : State :=
  s.setRs { s.rs with errors := assocPut w e s.rs.errors }

/-- A state with a row marked weak. -/
def rowMarked (r : Fin 64) (s : State) : State :=
  s.setRs { s.rs with weakRows := vset s.rs.weakRows r true }

theorem errorAt_errorPut (w v : Nat) (e : WordError) (s : State) :
    errorAt v (errorPut w e s) = if v = w then some e else errorAt v s := assocGet_put w v e s.rs.errors

theorem errorAt_settleWord {s : State} (h : assocSorted s.rs.errors = true) (w v : Nat) :
    errorAt v (settleWord w s) = if v = w then none else errorAt v s := assocGet_del w v s.rs.errors h

/-- The row of a word's address. -/
def rowOf (w : Nat) : Fin 64 := ⟨w / 64 % 64, Nat.mod_lt _ (by decide)⟩

theorem rowOf_word {r : Fin 64} {i : Nat} (hi : i < 64) : rowOf (64 * r.val + i) = r :=
  Fin.ext (by have := r.isLt; show (64 * r.val + i) / 64 % 64 = r.val; omega)

theorem correctWord_eq (raise : Raising → State → State) (w : Nat) (s : State) :
    correctWord raise w s =
      if vget s.rs.weakRows (rowOf w) then
        raise { kind := .storeWeakRow, dock := none, bike := none, detail := .storeWeakRow (rowOf w).val }
          (errorPut w .corrected s)
      else rowMarked (rowOf w) (errorPut w .corrected s) := rfl

theorem correctWord_marks (raise : Raising → State → State) {r : Fin 64} {i : Nat} {s : State}
    (hi : i < 64) (hr : vget s.rs.weakRows r = false) :
    correctWord raise (64 * r.val + i) s = rowMarked r (errorPut (64 * r.val + i) .corrected s) := by
  rw [correctWord_eq, rowOf_word hi, hr, if_neg Bool.false_ne_true]

theorem correctWord_raises (raise : Raising → State → State) {r : Fin 64} {i : Nat} {s : State}
    (hi : i < 64) (hr : vget s.rs.weakRows r = true) :
    correctWord raise (64 * r.val + i) s =
      raise { kind := .storeWeakRow, dock := none, bike := none, detail := .storeWeakRow r.val }
        (errorPut (64 * r.val + i) .corrected s) := by
  rw [correctWord_eq, rowOf_word hi, hr, if_pos rfl]

theorem soundWord_single (raise : Raising → State → State) {w : Nat} {s : State}
    (h : errorAt w s = some .single) : soundWord raise s w = correctWord raise w s := by
  simp only [soundWord, h]

theorem soundWord_corrected (raise : Raising → State → State) {w : Nat} {s : State}
    (h : errorAt w s = some .corrected) : soundWord raise s w = settleWord w s := by
  simp only [soundWord, h]

theorem soundWord_none (raise : Raising → State → State) {w : Nat} {s : State}
    (h : errorAt w s = none) : soundWord raise s w = s := by
  simp only [soundWord, h]

/-- What a double-bit error makes of the capture (R178). -/
def capturedIn (c : Option Collection) (w : Nat) (k : Capture) : Capture :=
  if k.locked then { k with second := true }
  else { k with locked := true, collection := c, row := w / 64, word := w % 64 }

theorem captureError_eq (c : Option Collection) (w : Nat) (s : State) :
    captureError c w s = s.setRs { s.rs with capture := capturedIn c w s.rs.capture } := rfl

theorem capturedIn_locked (c : Option Collection) (w : Nat) (k : Capture) :
    (capturedIn c w k).locked = true := by
  unfold capturedIn
  split
  case isTrue h => exact h
  case isFalse => rfl

/-! ### Reads that find no more than a corrected word -/

/-- Two states whose held records, words and write list are the same, and which read no double-bit error. -/
structure ReadAlike (s x : State) : Prop where
  rq : x.rq = s.rq
  flt : x.flt = s.flt
  array : x.rs.array = s.rs.array
  writeList : x.rs.writeList = s.rs.writeList
  sound : ∀ w, errorAt w s ≠ some .double
  reads : ∀ w, errorAt w x ≠ some .double

theorem wordReads_sound {s : State} (h : ∀ w, errorAt w s ≠ some .double) (p : Place) (i : Nat) :
    wordReads p i s = true := decide_eq_true (h _)

theorem wordContent_congr {s x : State} (h : x.rs.array = s.rs.array) (p : Place) (i : Nat) :
    wordContent p i x = wordContent p i s := by
  rw [wordContent, cellOf_congr h]; rfl

theorem inWriteList_congr {s x : State} (h : x.rs.writeList = s.rs.writeList) (p : Place) :
    inWriteList p x = inWriteList p s := by
  rw [inWriteList, h]; rfl

theorem reportSeqOk_alike {s x : State} (h : ReadAlike s x) (n : Fin 96) (i : Nat) :
    reportSeqOk n i x = reportSeqOk n i s := by
  simp only [reportSeqOk, wordReads_sound h.reads, wordReads_sound h.sound, wordContent_congr h.array,
    h.rq]

theorem faultSeqOk_alike {s x : State} (h : ReadAlike s x) (n : Fin 32) (i : Nat) :
    faultSeqOk n i x = faultSeqOk n i s := by
  simp only [faultSeqOk, faultWordsFit, loggedSeq, seqBefore, wordReads_sound h.reads,
    wordReads_sound h.sound, wordContent_congr h.array, h.flt]

theorem sequencesAgree_alike {s x : State} (h : ReadAlike s x) (ha : SequencesAgree s) :
    SequencesAgree x := by
  obtain ⟨hreports, hfaults⟩ := ha
  constructor
  · intro n i hi hw
    rw [reportSeqOk_alike h]
    exact hreports n i (by rwa [heldReportAt, h.rq] at hi) (by rwa [inWriteList_congr h.writeList] at hw)
  · intro n i hi hw
    rw [faultSeqOk_alike h]
    exact hfaults n i (by rwa [heldFaultAt, h.flt] at hi) (by rwa [inWriteList_congr h.writeList] at hw)

theorem testCommit_agree {s : State} (ha : SequencesAgree s) (raise : Raising → State → State)
    {p : Place} (hw : inWriteList p s = false) (w : Nat) : testCommit raise p w s = s := by
  unfold testCommit
  split
  · split
    next i hi => simp [ha.1 _ i hi hw]
    next => rfl
  · split
    next i hi => simp [ha.2 _ i hi hw]
    next => rfl
  · rfl

theorem testWord_agree {s : State} (ha : SequencesAgree s) (raise : Raising → State → State)
    (p : Option Place) (w : Nat) : testWord raise p w s = s := by
  cases p with
  | none => rfl
  | some p =>
    change (if inWriteList p s then s else testCommit raise p w s) = s
    split
    · rfl
    next hw => exact testCommit_agree ha raise (Bool.eq_false_iff.2 hw) w

/-- A word that reads without error is left as it is, where the sequences agree. -/
theorem readWord_none {s : State} (ha : SequencesAgree s) (raise : Raising → State → State)
    (p : Option Place) {w : Nat} (h : errorAt w s = none) : readWord raise p w s = s := by
  unfold readWord
  split
  · rfl
  · rw [if_neg (by simp [h]), soundWord_none raise h, testWord_agree ha]

/-- A single-bit error in a word of a checked record is corrected, and no more where the sequences then
agree. -/
theorem readWord_single (raise : Raising → State → State) {p : Option Place} {w : Nat} {s : State}
    (h : errorAt w s = some .single) (hp : ∀ q ∈ p, inWriteList q s = false)
    (ha : SequencesAgree (correctWord raise w s)) :
    readWord raise p w s = correctWord raise w s := by
  have hlist : ¬(p.any fun q => inWriteList q s) = true := by
    cases p with
    | none => exact fun h => nomatch h
    | some q => simp [hp q rfl]
  unfold readWord
  rw [if_neg hlist, if_neg (by simp [h]), soundWord_single raise h,
    testWord_agree ha]

/-! ### A row -/

/-- A walk over the first numbers that acts at one of them alone. -/
theorem foldl_range_once {α : Type} {f : α → Nat → α} {s t : α} {k : Nat} (hs : ∀ i, i ≠ k → f s i = s)
    (hk : f s k = t) (ht : ∀ i, i ≠ k → f t i = t) (n : Nat) :
    (List.range n).foldl f s = if k < n then t else s := by
  induction n with
  | zero => rfl
  | succ n ih =>
    rw [List.range_succ, List.foldl_append, ih, List.foldl_cons, List.foldl_nil]
    rcases Nat.lt_trichotomy k n with h | h | h
    · rw [if_pos h, if_pos (by omega), ht n (by omega)]
    · subst h
      rw [if_neg (by omega), if_pos (by omega), hk]
    · rw [if_neg (by omega), if_neg (by omega), hs n (by omega)]

theorem placeAmong_mem {ps : List Place} {w : Nat} {q : Place} (h : placeAmong ps w = some q) : q ∈ ps := by
  unfold placeAmong at h
  exact List.mem_of_find?_eq_some h

theorem readRow_clean {s : State} (h : Clean s) (ha : SequencesAgree s) (r : Fin 64) :
    readRow r s = s := by
  have hid : ∀ i, readWord raise (placeAmong (rowPlaces r) (64 * r.val + i)) (64 * r.val + i) s = s :=
    fun i => readWord_none ha raise _ (errorAt_clean h _)
  unfold readRow
  exact (foldl_range_once (k := 0) (fun i _ => hid i) (hid 0) (fun i _ => hid i) 64).trans (ite_self _)

/-- The scrub steps to the row after its own. -/
def scrubStepped (s : State) : State := s.setRs { s.rs with scrubRow := nextRow s.rs.scrubRow }

theorem scrubNext_eq (us : List Upset) (s : State) :
    scrubNext us s = scrubStepped (readRow s.rs.scrubRow (flipWords us s)) := rfl

/-- The bit of a clean word that flipped. -/
theorem flipWord_single {s : State} (h : Clean s) {r : Fin 64} {i : Nat} (hi : i < 64) :
    flipWord s { row := r.val, word := i, error := .single } =
      errorPut (64 * r.val + i) .single s := by
  unfold flipWord
  rw [if_pos ⟨r.isLt, hi⟩]
  simp only [errorAt_clean h, reduceCtorEq, or_self, if_false]
  rfl

/-- A single flipped bit of a clean row is corrected when the row is read. -/
theorem readRow_single {s : State} (h : Clean s) (ha : SequencesAgree s) {r : Fin 64} {i : Nat}
    (hi : i < 64) (hr : vget s.rs.weakRows r = false) (hp : ∀ p ∈ rowPlaces r, inWriteList p s = false) :
    readRow r (errorPut (64 * r.val + i) .single s) =
      rowMarked r (errorPut (64 * r.val + i) .corrected (errorPut (64 * r.val + i) .single s)) := by
  have hat := fun v => errorAt_errorPut (64 * r.val + i) v .single s
  have hcorrected := fun v =>
    errorAt_errorPut (64 * r.val + i) v .corrected (errorPut (64 * r.val + i) .single s)
  have hother : ∀ j, j ≠ i → 64 * r.val + j ≠ 64 * r.val + i := fun j hj => by omega
  have hflipped : ReadAlike s (errorPut (64 * r.val + i) .single s) :=
    ⟨rfl, rfl, rfl, rfl, fun v => by simp [errorAt_clean h], fun v => by
      rw [hat, errorAt_clean h]
      split <;> simp⟩
  have hmarked : ReadAlike s
      (rowMarked r (errorPut (64 * r.val + i) .corrected (errorPut (64 * r.val + i) .single s))) :=
    ⟨rfl, rfl, rfl, rfl, hflipped.sound, fun v => by
      refine (congrArg (· ≠ some .double) (hcorrected v)).mpr ?_
      split
      · simp
      · exact hflipped.reads v⟩
  have hmarks := correctWord_marks raise (s := errorPut (64 * r.val + i) .single s) hi hr
  unfold readRow
  refine (foldl_range_once (k := i) (fun j hj => ?before) ?found (fun j hj => ?after) 64).trans (if_pos hi)
  case before =>
    refine readWord_none (sequencesAgree_alike hflipped ha) raise _ ?_
    rw [hat, if_neg (hother j hj), errorAt_clean h]
  case after =>
    refine readWord_none (sequencesAgree_alike hmarked ha) raise _ ?_
    refine (hcorrected _).trans ?_
    rw [if_neg (hother j hj), hat, if_neg (hother j hj), errorAt_clean h]
  case found =>
    have hlist : ∀ q ∈ placeAmong (rowPlaces r) (64 * r.val + i), inWriteList q
        (errorPut (64 * r.val + i) .single s) = false := fun q hq => hp q (placeAmong_mem hq)
    rw [← hmarks]
    refine readWord_single raise ?_ hlist ?_
    · rw [hat, if_pos rfl]
    · rw [hmarks]
      exact sequencesAgree_alike hmarked ha

theorem scrub_clean {s : State} (hr : running s = true) (hc : Clean s) (ha : SequencesAgree s) :
    whileRunning (scrubNext []) s = scrubStepped s := by
  rw [whileRunning_eq hr, scrubNext_eq]
  exact congrArg scrubStepped (readRow_clean hc ha _)

theorem scrub_single {s : State} {word : Nat} (hr : running s = true) (hc : Clean s)
    (ha : SequencesAgree s) (hw : word < 64) (hweak : vget s.rs.weakRows s.rs.scrubRow = false)
    (hp : ∀ p ∈ rowPlaces s.rs.scrubRow, inWriteList p s = false) :
    whileRunning (scrubNext [{ row := s.rs.scrubRow.val, word := word, error := .single }]) s =
      scrubStepped (rowMarked s.rs.scrubRow
        (errorPut (64 * s.rs.scrubRow.val + word) .corrected
          (errorPut (64 * s.rs.scrubRow.val + word) .single s))) := by
  rw [whileRunning_eq hr, scrubNext_eq]
  exact congrArg scrubStepped ((congrArg (readRow s.rs.scrubRow) (flipWord_single hc hw)).trans
    (readRow_single hc ha hw hweak hp))

/-- The words in error once a clean array's one flipped bit is corrected. -/
theorem errors_corrected {s : State} (hc : Clean s) (w : Nat) :
    assocPut w WordError.corrected (assocPut w .single s.rs.errors) = [(w, .corrected)] := by
  rw [show s.rs.errors = [] from hc]
  simp [assocPut]

/-- Settles O15. -/
theorem errorsFoundAreMarkedOrCaptured : Obligations.ErrorsFoundAreMarkedOrCaptured := by
  refine ⟨fun s r word harr => ?found, fun s c r word => ?captured, fun s hr hc ha => ?clean,
    fun s word hr hc ha hw hweak hp => ?flipped⟩
  case found =>
    intro w corrected
    have hput := fun v => errorAt_errorPut w v .corrected s
    refine ⟨(hput w).trans (if_pos rfl), fun v hv => (hput v).trans (if_neg hv), fun h => ?_,
      fun h hweak => ?_, fun h hweak => ?_⟩
    · rw [soundWord_corrected raise h]
      exact ⟨(errorAt_settleWord harr.2 w w).trans (if_pos rfl),
        fun v hv => (errorAt_settleWord harr.2 w v).trans (if_neg hv)⟩
    · exact (soundWord_single raise h).trans (correctWord_marks raise word.isLt hweak)
    · exact (soundWord_single raise h).trans (correctWord_raises raise word.isLt hweak)
  case captured =>
    have hrow : (64 * r.val + word.val) / 64 = r.val := by omega
    have hword : (64 * r.val + word.val) % 64 = word.val := by omega
    refine ⟨_, captureError_eq c _ s, (storeError_eq _).trans (capturedIn_locked c _ _),
      fun h => ?_, fun h => ?_⟩
    · rw [capturedIn, if_neg (by simp [h]), hrow, hword]
    · exact if_pos h
  case clean =>
    obtain ⟨t, hstep, hports, hrs, ht⟩ := store_step (scrub_clean hr hc ha) rfl
    refine ⟨t, hstep, hports, ht.trans ?_⟩
    rw [hrs]
    rfl
  case flipped =>
    obtain ⟨t, hstep, hports, hrs, ht⟩ := store_step (scrub_single hr hc ha hw hweak hp) rfl
    refine ⟨t, hstep, hports, ht.trans ?_⟩
    rw [hrs, ← errors_corrected hc]
    rfl

end Sys2Proof.Machine
end

section
/-! Cold starts (R183, R190, R191): what flipped bits leave of a stopped part, the words that a cold clearing
keeps, and the cold start values. -/

namespace Sys2Proof.Machine

/-! ### The end of a start's step -/

/-- A start whose ports are silent and that hands nothing ends its step as it is. -/
theorem endStep_start {x : State} (hp : x.sc.power ≠ .running) (hl : x.rs.writeList = [])
    (ha : ∀ p, (getPort p x).attention = false) : endStep x = x := by
  have hlevel : ∀ p, { getPort p x with attention := attentionLevel p x } = getPort p x := fun p => by
    rw [attentionLevel_stopped hp, ← ha p]
  have hpi : (endStep x).pi = x.pi := by
    have hport := fun p => (getPort_endStep p x).trans (hlevel p)
    have hparts : ∀ a b : PortInterface, a.terminal = b.terminal → a.uplink = b.uplink →
        a.service = b.service → a = b := by
      rintro ⟨⟩ ⟨⟩ rfl rfl rfl
      rfl
    exact hparts _ _ (hport .terminal) (hport .uplink) (hport .service)
  have hrs : (endStep x).rs = x.rs := by rw [endStep_rs, hl]; rfl
  rw [endStep_frame, hpi, hrs]
  rfl

/-! ### Flipped bits -/

/-- What flipped bits leave as it was of a part that starts. -/
structure FlipKept (s x : State) : Prop where
  pending : x.pending = s.pending
  timebase : x.sc.timebase = s.sc.timebase
  cause : x.sc.cause = s.sc.cause
  writeList : x.rs.writeList = s.rs.writeList
  supplyLost : x.rs.supplyLost = s.rs.supplyLost
  stepNo : x.rs.stepNo = s.rs.stepNo

theorem FlipKept.refl (s : State) : FlipKept s s := ⟨rfl, rfl, rfl, rfl, rfl, rfl⟩

theorem FlipKept.trans {s x y : State} (h : FlipKept s x) (k : FlipKept x y) : FlipKept s y :=
  ⟨k.pending.trans h.pending, k.timebase.trans h.timebase, k.cause.trans h.cause,
    k.writeList.trans h.writeList, k.supplyLost.trans h.supplyLost, k.stepNo.trans h.stepNo⟩

theorem flipKept_words (a : List (Nat × List Content)) (e : List (Nat × WordError)) (s : State) :
    FlipKept s (s.setRs { s.rs with array := a, errors := e }) := ⟨rfl, rfl, rfl, rfl, rfl, rfl⟩

theorem flipKept_takeHead (p : Place) (c : Content) (s : State) : FlipKept s (takeHead p c s) := by
  unfold takeHead
  split
  · split <;> exact ⟨rfl, rfl, rfl, rfl, rfl, rfl⟩
  · split <;> exact ⟨rfl, rfl, rfl, rfl, rfl, rfl⟩
  · split <;> exact ⟨rfl, rfl, rfl, rfl, rfl, rfl⟩
  · exact .refl s

theorem flipKept_refresh (p : Place) (s : State) : FlipKept s (refresh p s) := by
  have head : FlipKept s (if copyA p then takeHead p (readContent p s) s else s) := by
    split
    · exact flipKept_takeHead _ _ _
    · exact .refl s
  cases p with
  | report n =>
    unfold refresh
    dsimp only
    split <;> exact ⟨rfl, rfl, rfl, rfl, rfl, rfl⟩
  | fault n =>
    unfold refresh
    dsimp only
    split <;> exact ⟨rfl, rfl, rfl, rfl, rfl, rfl⟩
  | queueHead c => exact head
  | faultHead c => exact head
  | registryHead c => exact head
  | _ => exact ⟨rfl, rfl, rfl, rfl, rfl, rfl⟩

theorem flipKept_garbleWord (p : Option Place) (w v : Nat) (s : State) :
    FlipKept s (garbleWord p w v s) := by
  cases p with
  | none => exact .refl s
  | some p =>
    unfold garbleWord
    dsimp only
    split
    · exact ⟨rfl, rfl, rfl, rfl, rfl, rfl⟩
    · exact (flipKept_words _ _ s).trans (flipKept_refresh p _)

theorem flipKept_flipWord (u : Upset) (s : State) : FlipKept s (flipWord s u) := by
  unfold flipWord
  dsimp only
  split
  · split
    · exact ⟨rfl, rfl, rfl, rfl, rfl, rfl⟩
    · exact ⟨rfl, rfl, rfl, rfl, rfl, rfl⟩
    · exact (flipKept_words _ _ s).trans (flipKept_garbleWord _ _ _ (settleWord _ s))
    · exact (flipKept_words _ _ s).trans (flipKept_garbleWord _ _ _ _)
  · exact .refl s

theorem flipKept_flipWords (us : List Upset) (s : State) : FlipKept s (flipWords us s) := by
  unfold flipWords
  induction us generalizing s with
  | nil => exact .refl s
  | cons u us ih => exact (flipKept_flipWord u s).trans (ih _)

/-! ### The words a cold clearing keeps (R183) -/

theorem mem_allPlaces (p : Place) : p ∈ allPlaces := by
  cases p with
  | config i => cases i <;> simp [allPlaces, configItems]
  | policy k => cases k <;> simp [allPlaces, faultKinds]
  | floor k => cases k <;> simp [allPlaces, orderKinds]
  | station c => simp [allPlaces]; omega
  | queueHead c => simp [allPlaces]; omega
  | faultHead c => simp [allPlaces]; omega
  | registryHead c => simp [allPlaces]; omega
  | _ => simp [allPlaces, mem_finList]

theorem mem_placeAddresses {p : Place} {w : Nat} :
    w ∈ placeAddresses p ↔ placeBase p ≤ w ∧ w < placeBase p + placeWords p := by
  unfold placeAddresses
  rw [List.mem_map]
  constructor
  · rintro ⟨k, hk, rfl⟩
    have := List.mem_range.1 hk
    omega
  · rintro ⟨hle, hlt⟩
    exact ⟨w - placeBase p, List.mem_range.2 (by omega), by omega⟩

/-- The words of a place lie in its region. -/
theorem address_region {p : Place} {w : Nat} (h : w ∈ placeAddresses p) :
    regionBase (placeRegion p) ≤ w ∧ w < regionBase (placeRegion p + 1) := by
  rw [mem_placeAddresses] at h
  have hrow : ∀ k m, 0 ≤ k / m := fun k m => Nat.zero_le _
  cases p <;> simp only [placeRegion, placeBase, placeWords, regionBase, List.getD_cons_zero,
    List.getD_cons_succ] at h ⊢
  case dock d => have := hrow d.val 12; omega
  case report n => have := hrow n.val 6; omega
  case fault n => have := hrow n.val 12; omega
  case plan n => have := hrow n.val 9; omega
  case flag n => have := hrow (n.val + 15) 21; omega
  all_goals omega

theorem placeRegion_address {p q : Place} {w : Nat} (hp : w ∈ placeAddresses p)
    (hq : w ∈ placeAddresses q) : placeRegion p = placeRegion q := by
  have h := address_region hp
  have k := address_region hq
  rcases Nat.lt_trichotomy (placeRegion p) (placeRegion q) with hl | hl | hl
  · have := regionBase_mono (placeRegion_lt p) (placeRegion_lt q) hl; omega
  · exact hl
  · have := regionBase_mono (placeRegion_lt q) (placeRegion_lt p) hl; omega

/-- A word that some place holds has a place, in its region. -/
theorem placeAt_region {p : Place} {w : Nat} (h : w ∈ placeAddresses p) :
    ∃ q, placeAt w = some q ∧ placeRegion q = placeRegion p := by
  unfold placeAt
  cases hq : allPlaces.find? fun p => decide (placeBase p ≤ w ∧ w < placeBase p + placeWords p) with
  | none => exact absurd (decide_eq_true (mem_placeAddresses.1 h)) (List.find?_eq_none.1 hq p (mem_allPlaces p))
  | some q =>
    have hword := List.find?_some hq
    rw [decide_eq_true_eq] at hword
    exact ⟨q, rfl, placeRegion_address (mem_placeAddresses.2 hword) h⟩

theorem keptAtCold_record {p : Place} {w : Nat} (hw : w ∈ placeAddresses p) (hr : ∀ n, p ≠ .report n)
    (hf : ∀ n, p ≠ .fault n) : keptAtCold w = false := by
  obtain ⟨q, hq, hregion⟩ := placeAt_region hw
  simp only [keptAtCold, hq]
  cases q with
  | report n => cases p <;> simp_all [placeRegion]
  | fault n => cases p <;> simp_all [placeRegion]
  | _ => rfl

/-! ### The cold start values -/

/-- The array of a cold clearing. -/
def clearedArray (a : List (Nat × List Content)) : List (Nat × List Content) :=
  putCell .signature [Content.signature false] (a.filter fun x => keptAtCold x.1)

/-- The words in error after a cold clearing. -/
def clearedErrors (e : List (Nat × WordError)) : List (Nat × WordError) :=
  e.filter fun x => keptAtCold x.1

theorem cell_clearedArray {a : List (Nat × List Content)} (h : assocSorted a = true) (p : Place) :
    (assocGet (placeBase p) (clearedArray a)).getD (coldCell p) =
      if p = .signature then [.signature false]
      else if keptAtCold (placeBase p) then (assocGet (placeBase p) a).getD (coldCell p)
      else coldCell p := by
  rw [clearedArray, cell_put _ _ _ _ (assocSorted_filter keptAtCold a h), assocGet_filter]
  split
  · rfl
  · split <;> rfl

theorem startDocks_cold (now : Nat) :
    (Vector.replicate 48 (LineState.start now (.record .cold))).map
        (fun l => DockRecord.start (startFaults l)) =
      Vector.replicate 48 (DockRecord.start .empty) := Vector.map_replicate

/-- The whole part after a cold start, from the state in which the decision was made. -/
def coldPart (y : State) : State :=
  { pending := y.pending,
    pi := { terminal := .start, uplink := .start, service := .start },
    dlc :=
      { docks := Vector.replicate 48 (DockRecord.start .empty),
        lines := Vector.replicate 48 (LineState.start y.sc.timebase (.record .cold)),
        exchange := none, survey := none },
    cc := .start, hu := [], fu := Vector.replicate 16 none, rq := .cold, woe := .cold, flt := .cold,
    rs :=
      { y.rs with
        array := clearedArray y.rs.array, errors := clearedErrors y.rs.errors,
        weakRows := Vector.replicate 64 false, capture := .clear, supplyLost := false, scrubRow := 0 },
    sc :=
      { y.sc with
        station := .cold, clock := 0, mode := .starting, linkUp := false, config := .default } }

/-- Every block's start values (R191). -/
def startPart (x : State) : State :=
  { x with
    pi := { terminal := .start, uplink := .start, service := .start },
    dlc :=
      { docks := x.dlc.lines.map fun l => DockRecord.start (startFaults l), lines := x.dlc.lines,
        exchange := none, survey := none },
    cc := .start, hu := [],
    rq := { x.rq with claims := Vector.replicate 48 0, claimTotal := 0 },
    woe := { x.woe with slots := Vector.replicate 2 none, startList := [] },
    flt := { x.flt with watches := Vector.replicate 4 none },
    rs := { x.rs with scrubRow := 0 },
    sc := { x.sc with mode := .starting, linkUp := false } }

theorem startValues_eq (x : State) : startValues x = startPart x := rfl

/-- The owners' cold values (R183, R184). -/
def coldHeld (s : State) : State :=
  { s with
    sc := { s.sc with station := .cold, clock := 0, config := .default },
    fu := Vector.replicate 16 none, rq := .cold, woe := .cold, flt := .cold,
    dlc :=
      { s.dlc with lines := Vector.replicate 48 (LineState.start s.sc.timebase (.record .cold)) } }

theorem coldOwners_eq (s : State) : coldOwners s = coldHeld s := rfl

theorem startValues_cold (y : State) : startValues (coldOwners (clearArray y)) = coldPart y := by
  have hdocks : (coldHeld (clearArray y)).dlc.lines.map (fun l => DockRecord.start (startFaults l)) =
      (coldPart y).dlc.docks := startDocks_cold _
  rw [coldOwners_eq, startValues_eq, startPart, hdocks]
  rfl

/-- A part in a start of a kind, with its cause. -/
def startBegun (c : StartCause) (k : StartKind) (s : State) : State :=
  s.setSc { s.sc with
    power := .starting, cause := none, resetLine := false, startKind := k, startReason := reasonOf c k }

theorem beginStart_cold {c : StartCause} {s : State} (h : startKindOf s = .cold) :
    beginStart c s = coldPart (startBegun c .cold s) := by
  unfold beginStart
  simp only [h, if_true]
  exact startValues_cold _

theorem startBegins_eq {s : State} {c : StartCause} (us : List Upset) (hp : s.sc.power = .stopped)
    (hc : s.sc.cause = some c) (hl : s.rs.writeList = []) :
    startBegins us s = beginStart c (flipWords us s) := by
  unfold startBegins
  simp only [hp, hc, hl, if_true]

theorem startKind_cold {s : State} (h : readable .signature s ≠ some (.signature true)
    ∨ s.rs.supplyLost = true ∨ s.sc.cause = some .restartCold) : startKindOf s = .cold := by
  refine if_pos ?_
  simpa [signatureReads] using h

/-- A cold start's state, with the reason of its cause. -/
theorem coldPart_eq {s y : State} (h : FlipKept s y) (hl : s.rs.writeList = []) (c : StartCause) :
    coldPart (startBegun c .cold y) =
      { pending := s.pending,
        pi := { terminal := .start, uplink := .start, service := .start },
        dlc :=
          { docks := Vector.replicate 48 (DockRecord.start .empty),
            lines := Vector.replicate 48 (LineState.start s.sc.timebase (.record .cold)),
            exchange := none, survey := none },
        cc := .start, hu := [], fu := Vector.replicate 16 none, rq := .cold, woe := .cold,
        flt := .cold,
        rs :=
          { array := clearedArray y.rs.array, errors := clearedErrors y.rs.errors, writeList := [],
            weakRows := Vector.replicate 64 false, capture := .clear, supplyLost := false,
            scrubRow := 0, stepNo := s.rs.stepNo },
        sc :=
          { station := .cold, clock := 0, mode := .starting, linkUp := false, config := .default,
            startKind := .cold, startReason := reasonOf c .cold, power := .starting, cause := none,
            resetLine := false, timebase := s.sc.timebase } } := by
  rw [← h.pending, ← h.timebase, ← h.stepNo, ← hl, ← h.writeList]
  rfl

/-- Settles O18. -/
theorem coldStartsClearThePart : Obligations.ColdStartsClearThePart := by
  intro s c us hp hc hl hcold
  have hflip := flipKept_flipWords us s
  have hkind : startKindOf (flipWords us s) = .cold := startKind_cold (by
    rw [hflip.supplyLost, hflip.cause, hc, Option.some.injEq]
    exact hcold)
  have hx := (startBegins_eq us hp hc hl).trans
    ((beginStart_cold hkind).trans (coldPart_eq hflip hl c))
  refine ⟨_, (stepOf_eq _ _).trans (congrArg Host.Outcome.next
    ((congrArg endStep hx).trans (endStep_start (fun h => nomatch h) rfl (fun p => ?_)))), ?_, ?_, ?_⟩
  · cases p <;> rfl
  · cases c <;> rfl
  · intro harr
    have hsorted := (keep_flipWords array_closed.toReads us harr)
    have hcell := cell_clearedArray ((arrayWf_iff _).1 hsorted.1).1
    refine ⟨(hcell .signature).trans (if_pos rfl), fun p hs hr hf => (hcell p).trans ?_⟩
    rw [if_neg hs, keptAtCold_record (mem_placeAddresses.2 ⟨Nat.le_refl _, ?_⟩) hr hf,
      if_neg Bool.false_ne_true]
    cases p <;> simp [placeWords]
  · intro p _ hr hf w hw
    refine (assocGet_filter keptAtCold w (flipWords us s).rs.errors).trans ?_
    rw [keptAtCold_record hw hr hf, if_neg Bool.false_ne_true]

end Sys2Proof.Machine
end

section
/-! Warm starts (R183, R190, R191): what the owners find in a store that reads clean, and the start values of
what they found. -/

namespace Sys2Proof.Machine

/-! ### Records that read clean -/

theorem wordsContent_replicate (p : Place) {c : Content} (hc : isGarbled c = false) (n : Nat) :
    wordsContent p (List.replicate (n + 1) c) = c := by
  simp [wordsContent, List.replicate_succ, hc]

/-- A record whose words are all of one content reads as it, with no entry in the write list. -/
theorem readContent_words {p : Place} {s : State} {c : Content} {n : Nat} (hl : s.rs.writeList = [])
    (hc : isGarbled c = false) (h : cellOf p s = List.replicate (n + 1) c) : readContent p s = c := by
  rw [readContent, hl, List.find?_nil, h]
  exact wordsContent_replicate p hc n

theorem readContent_rs {x y : State} (h : x.rs = y.rs) (p : Place) : readContent p x = readContent p y := by
  rw [readContent, readContent, cellOf_congr (congrArg RetainedStore.array h), h]

theorem readable_clean {s : State} (h : Clean s) (p : Place) : readable p s = some (readContent p s) := by
  refine if_pos (.inr ?_)
  simp [firstDouble, errorAt_clean h]

theorem headContent_clean {s : State} (h : Clean s) (p : Fin 2 → Place) :
    headContent p s = some (readContent (p 0) s) := by
  rw [headContent, readable_clean h]

theorem wordContent_words {p : Place} {s : State} {c : Content} {n k : Nat} (hc : isGarbled c = false)
    (h : cellOf p s = List.replicate n c) (hk : k < n) : wordContent p k s = c := by
  rw [wordContent, h, spelledWord, List.getElem?_replicate, if_pos hk, Option.getD_some]
  cases c <;> simp_all [isGarbled]

/-! ### The queue and the log -/

theorem reportRing_reportOffset (o n : Fin 96) : reportRing o (reportOffset o n) = n :=
  Fin.ext (by simp only [reportRing, reportOffset]; omega)

theorem faultRing_faultOffset (o n : Fin 32) : faultRing o (faultOffset o n) = n :=
  Fin.ext (by simp only [faultRing, faultOffset]; omega)

theorem reportRing_zero (o : Fin 96) : reportRing o 0 = o :=
  Fin.ext (by simp only [reportRing]; omega)

/-- A list read number by number. -/
theorem map_range_eq {α : Type} {f : Nat → α} {l : List α} (h : ∀ i x, l[i]? = some x → f i = x) :
    (List.range l.length).map f = l := by
  refine List.ext_getElem (by simp) fun i hi hl => ?_
  rw [List.getElem_map, List.getElem_range]
  exact h i _ (List.getElem?_eq_getElem hl)

/-- The sequence of the oldest of the held records that a queue head names. -/
def headOldest (q : QueueHead) (k : Nat) : Nat := (q.nextSeq + 4294967296 - k) % 4294967296

/-- A queue head's records are taken as they stand, where nothing claims the places (R109, R116). -/
theorem takeQueueHead_stands {q : QueueHead} {held : List Report} {x : State}
    (hclaims : x.rq.claimTotal = 0) (hcount : q.count = held.length) (hle : held.length ≤ 96)
    (hnext : q.nextSeq < 4294967296) (hmark : q.readMark < 4294967296)
    (hdist : (q.readMark + 4294967296 - headOldest q held.length) % 4294967296 ≤ held.length)
    (hstand : ∀ i r, held[i]? = some r → storedReport x (reportRing q.oldest i)
      ((headOldest q held.length + i) % 4294967296) = r) :
    takeQueueHead q x =
      x.setRq { x.rq with
        held := held, oldestPlace := q.oldest, nextSeq := q.nextSeq, readMark := q.readMark } := by
  have hnamed : min q.count 96 = held.length := by omega
  have hfit : min held.length (96 - x.rq.claimTotal) = held.length := by omega
  have hlist := map_range_eq hstand
  unfold headOldest at hdist hlist
  unfold takeQueueHead
  simp only [hnamed, hfit, Nat.sub_self, reportRing_zero, Nat.mod_eq_of_lt hnext,
    Nat.mod_eq_of_lt hmark, if_pos hdist, hlist]

/-- A fault log head's records are taken as they stand. -/
theorem takeFaultHead_stands {f : FaultHead} {log : List FaultRecord} {x : State}
    (hcount : f.count = log.length) (hle : log.length ≤ 32) (hnext : f.nextSeq < 65536)
    (hstand : ∀ i r, log[i]? = some r → storedFault x f.nextSeq (faultRing f.oldest i) = r) :
    takeFaultHead f x =
      x.setFlt { x.flt with
        log := log, oldestPlace := f.oldest, nextSeq := f.nextSeq, lost := f.lost } := by
  have hnamed : min f.count 32 = log.length := by omega
  unfold takeFaultHead
  simp only [hnamed, Nat.mod_eq_of_lt hnext, map_range_eq hstand]

theorem storedReport_found {s : State} {n : Fin 96} {r : Report} (h : readContent (.report n) s = .report r)
    {seq : Nat} (hs : r.seq = seq) : storedReport s n seq = r := by
  subst hs
  rw [storedReport, h]

theorem storedFault_found {s : State} {n : Fin 32} {r : FaultRecord} (next : Nat)
    (h : readContent (.fault n) s = .fault r) : storedFault s next n = r := by
  rw [storedFault, h]

/-! ### What the other owners find -/

/-- The configuration that a store holds. -/
def foundConfig (s : State) : Configuration :=
  configItems.foldl (fun c i => setConfigValue c i (storedConfig s i)) .default

/-- The policies that a store holds. -/
def foundPolicies (s : State) : Vector Policy 14 :=
  faultKinds.foldl (fun v k => vset v (faultIndex k) (storedPolicy s k)) defaultPolicies

/-- The floors that a store holds. -/
def foundFloors (s : State) : Vector Nat 9 :=
  orderKinds.foldl (fun v k => vset v (orderIndex k) (storedFloor s k)) defaultFloors

/-- The plans that a store holds. -/
@[irreducible] def foundPlans (s : State) : Vector (Option Plan) 16 := Vector.ofFn (storedPlan s)

/-- The crews that a store holds. -/
@[irreducible] def foundCrews (s : State) : Vector (Option Crew) 16 := Vector.ofFn (storedCrew s)

/-- The survey references that a store holds, on their lines. -/
@[irreducible] def foundLines (s : State) : Vector LineState 48 :=
  Vector.ofFn fun d => LineState.start s.sc.timebase (.record (storedDock s d))

/-- The station record that a store holds. -/
@[irreducible] def foundStation (s : State) : StationRecord :=
  ((headContent .station s).map stationIn).getD .cold

theorem vget_ofFn {α : Type} {n : Nat} (f : Fin n → α) (i : Fin n) : vget (Vector.ofFn f) i = f i := by
  simp [vget]

theorem vget_map {α β : Type} {n : Nat} (f : α → β) (v : Vector α n) (i : Fin n) :
    vget (v.map f) i = f (vget v i) := by
  simp [vget]

theorem vget_foundPlans (s : State) (i : Fin 16) : vget (foundPlans s) i = storedPlan s i := by
  unfold foundPlans
  exact vget_ofFn _ _

theorem vget_foundCrews (s : State) (i : Fin 16) : vget (foundCrews s) i = storedCrew s i := by
  unfold foundCrews
  exact vget_ofFn _ _

theorem vget_foundLines (s : State) (d : DockNo) :
    vget (foundLines s) d = LineState.start s.sc.timebase (.record (storedDock s d)) := by
  unfold foundLines
  exact vget_ofFn _ _

/-- A table filled key by key has at each key the value put there. -/
theorem vget_filled {α κ : Type} {m : Nat} {index : κ → Fin m} (g : κ → α)
    (hinj : ∀ a b, index a = index b → a = b) {k : κ} (l : List κ) (v : Vector α m)
    (h : k ∈ l ∨ vget v (index k) = g k) :
    vget (l.foldl (fun v k => vset v (index k) (g k)) v) (index k) = g k := by
  induction l generalizing v with
  | nil => exact h.resolve_left (List.not_mem_nil)
  | cons a l ih =>
    refine ih _ ?_
    by_cases ha : k = a
    · subst ha
      exact .inr (vget_vset_self _ _ _)
    · rw [vget_vset_ne _ _ fun heq => ha (hinj _ _ heq.symm)]
      exact h.imp_left fun hm => (List.mem_cons.1 hm).resolve_left ha

theorem vget_foundPolicies (s : State) (k : FaultKind) :
    vget (foundPolicies s) (faultIndex k) = storedPolicy s k :=
  vget_filled (storedPolicy s) (by intro a b; cases a <;> cases b <;> simp [faultIndex]) _ _
    (.inl (by cases k <;> simp [faultKinds]))

theorem vget_foundFloors (s : State) (k : OrderKind) :
    vget (foundFloors s) (orderIndex k) = storedFloor s k :=
  vget_filled (storedFloor s) (by intro a b; cases a <;> cases b <;> simp [orderIndex]) _ _
    (.inl (by cases k <;> simp [orderKinds]))

theorem foundConfig_of {s : State} {k : Configuration} (h : ∀ i, storedConfig s i = configValue k i) :
    foundConfig s = k := by
  simp only [foundConfig, configItems, List.foldl_cons, List.foldl_nil, h, setConfigValue, configValue,
    valueNat, valueYes, Int.toNat_natCast]

/-- The Work Order Engine as a warm start loads it. -/
def foundOrders (s : State) : WorkOrders :=
  { WorkOrders.cold with crews := foundCrews s, floors := foundFloors s }

/-- The registry as a warm start loads it, of `n` entries. -/
@[irreducible] def foundRegistry (n : Nat) (s : State) : List FlagEntry :=
  (List.range (min n 64)).map (storedFlag s)

/-- The Fault Unit as a warm start loads it, with its log's. -/
def foundUnit (L : FaultUnit) (n : Nat) (s : State) : FaultUnit :=
  { L with registry := foundRegistry n s, policies := foundPolicies s }

/-- A state with the blocks that a warm start loads as given. -/
def loadedAs (S : StationControl) (Q : ReportQueue) (L : FaultUnit) (F : Vector (Option Plan) 16)
    (W : WorkOrders) (D : DockLine) (s : State) : State :=
  { s with sc := S, rq := Q, flt := L, fu := F, woe := W, dlc := D }

/-- Station Control as a warm start loads it. -/
def foundControl (s : State) : StationControl :=
  { s.sc with station := foundStation s, config := foundConfig s }

/-- What the owners hold once a clean store is loaded, the queue and the log as given. -/
def loadedPart (Q : ReportQueue) (L : FaultUnit) (n : Nat) (s : State) : State :=
  loadedAs (foundControl s) Q (foundUnit L n s) (foundPlans s) (foundOrders s)
    { s.dlc with lines := foundLines s } s

/-! ### The owners' loads, one by one -/

/-- Two states of one store, at one time. -/
def SameStore (x s : State) : Prop := x.rs = s.rs ∧ x.sc.timebase = s.sc.timebase

/-- The state whose station record is the one found. -/
def stationLoaded (s : State) : State := s.setSc { s.sc with station := foundStation s }

theorem loadStation_eq (s : State) : loadStation s = stationLoaded s := by
  unfold loadStation stationLoaded foundStation
  rfl

theorem loadConfig_eq {x s : State} (h : SameStore x s) :
    loadConfig x = x.setSc { x.sc with config := foundConfig s } := by
  have hstored : ∀ i, storedConfig x i = storedConfig s i := fun i => by
    unfold storedConfig
    rw [readContent_rs h.1]
  unfold loadConfig foundConfig
  simp only [hstored]

theorem loadPolicies_eq {x s : State} (h : SameStore x s) :
    loadPolicies x = x.setFlt { x.flt with policies := foundPolicies s } := by
  have hstored : ∀ k, storedPolicy x k = storedPolicy s k := fun k => by
    unfold storedPolicy
    rw [readContent_rs h.1]
  unfold loadPolicies foundPolicies
  simp only [hstored]

theorem loadPlans_eq {x s : State} (h : SameStore x s) : loadPlans x = x.setFu (foundPlans s) := by
  have hstored : storedPlan x = storedPlan s := funext fun i => by
    unfold storedPlan
    rw [readContent_rs h.1]
  unfold loadPlans foundPlans
  rw [hstored]

theorem loadOrders_eq {x s : State} (h : SameStore x s) :
    loadOrders x =
      x.setWoe (foundOrders s) := by
  have hcrews : storedCrew x = storedCrew s := funext fun i => by
    unfold storedCrew
    rw [readContent_rs h.1]
  have hfloors : ∀ k, storedFloor x k = storedFloor s k := fun k => by
    unfold storedFloor
    rw [readContent_rs h.1]
  unfold loadOrders foundOrders foundCrews foundFloors
  simp only [hcrews, hfloors]

theorem loadDocks_eq {x s : State} (h : SameStore x s) :
    loadDocks x = x.setDlc { x.dlc with lines := foundLines s } := by
  have hstored : storedDock x = storedDock s := funext fun d => by
    unfold storedDock
    rw [readContent_rs h.1]
  unfold loadDocks foundLines
  rw [hstored, h.2]

theorem loadRegistry_eq {x s : State} {n : Nat} (h : SameStore x s) (hc : Clean s)
    (hn : readContent (.registryHead 0) s = .registryHead n) :
    loadRegistry x =
      x.setFlt { x.flt with registry := foundRegistry n s } := by
  have hstored : storedFlag x = storedFlag s := funext fun i => by
    unfold storedFlag
    rw [readContent_rs h.1]
  have hhead : headContent .registryHead x = some (.registryHead n) := by
    rw [headContent_clean (by unfold Clean; rw [h.1]; exact hc), readContent_rs h.1, hn]
  unfold loadRegistry foundRegistry
  simp only [hhead, takeRegistryHead, registryCountIn, hstored]

/-- The owners' loads come to the found values, where the queue's and the log's come to theirs. -/
theorem loadOwners_eq {s : State} {Q : ReportQueue} {L : FaultUnit} {n : Nat} (hc : Clean s)
    (hQ : ∀ x, SameStore x s → loadQueue x = x.setRq Q)
    (hL : ∀ x, SameStore x s → x.flt = s.flt → loadLog x = x.setFlt L)
    (hn : readContent (.registryHead 0) s = .registryHead n) :
    loadOwners s = loadedPart Q L n s := by
  have same : ∀ S Q L F W D, S.timebase = s.sc.timebase → SameStore (loadedAs S Q L F W D s) s :=
    fun _ _ _ _ _ _ h => ⟨rfl, h⟩
  have hconfig : loadConfig (stationLoaded s) =
      loadedAs (foundControl s) s.rq s.flt s.fu s.woe s.dlc s := loadConfig_eq ⟨rfl, rfl⟩
  have hqueue : loadQueue (loadedAs (foundControl s) s.rq s.flt s.fu s.woe s.dlc s) =
      loadedAs (foundControl s) Q s.flt s.fu s.woe s.dlc s := hQ _ (same _ _ _ _ _ _ rfl)
  have hlog : loadLog (loadedAs (foundControl s) Q s.flt s.fu s.woe s.dlc s) =
      loadedAs (foundControl s) Q L s.fu s.woe s.dlc s := hL _ (same _ _ _ _ _ _ rfl) rfl
  have hregistry : loadRegistry (loadedAs (foundControl s) Q L s.fu s.woe s.dlc s) =
      loadedAs (foundControl s) Q { L with registry := foundRegistry n s } s.fu s.woe s.dlc s :=
    loadRegistry_eq (same _ _ _ _ _ _ rfl) hc hn
  have hpolicies : loadPolicies
      (loadedAs (foundControl s) Q { L with registry := foundRegistry n s } s.fu s.woe s.dlc s) =
      loadedAs (foundControl s) Q (foundUnit L n s) s.fu s.woe s.dlc s :=
    loadPolicies_eq (same _ _ _ _ _ _ rfl)
  have hplans : loadPlans (loadedAs (foundControl s) Q (foundUnit L n s) s.fu s.woe s.dlc s) =
      loadedAs (foundControl s) Q (foundUnit L n s) (foundPlans s) s.woe s.dlc s :=
    loadPlans_eq (same _ _ _ _ _ _ rfl)
  have horders : loadOrders
      (loadedAs (foundControl s) Q (foundUnit L n s) (foundPlans s) s.woe s.dlc s) =
      loadedAs (foundControl s) Q (foundUnit L n s) (foundPlans s) (foundOrders s) s.dlc s :=
    loadOrders_eq (same _ _ _ _ _ _ rfl)
  unfold loadOwners
  rw [loadStation_eq, hconfig, hqueue, hlog, hregistry, hpolicies, hplans, horders]
  exact loadDocks_eq (same _ _ _ _ _ _ rfl)

/-! ### The start check -/

theorem reportSeqOk_words {n : Fin 96} {i : Nat} {s : State} {r : Report} (hi : s.rq.held[i]? = some r)
    (hcell : cellOf (.report n) s = List.replicate 10 (.report r)) : reportSeqOk n i s = true := by
  simp [reportSeqOk, wordContent_words (c := .report r) rfl hcell, reportWordSeq, reportIn, hi]

theorem faultSeqOk_words {n : Fin 32} {i : Nat} {s : State} {x : FaultRecord} {o : Nat}
    (ho : loggedSeq 0 s = some o) (hcell : cellOf (.fault n) s = List.replicate 5 (.fault x))
    (hfit : faultSeqFits o (seqBefore i s) s.flt.nextSeq x.seq = true) : faultSeqOk n i s = true := by
  simp [faultSeqOk, faultWordsFit, ho, wordContent_words (c := .fault x) rfl hcell, faultWordSeq,
    faultIn, hfit]

/-- Held reports and logged faults that stand in their places agree with them. -/
theorem sequencesAgree_stand {s : State}
    (hreports : ∀ i r, s.rq.held[i]? = some r →
      cellOf (.report (reportRing s.rq.oldestPlace i)) s = List.replicate 10 (.report r))
    (hfaults : ∀ i x, s.flt.log[i]? = some x →
      (∀ o, s.flt.log.head? = some o →
        faultSeqFits o.seq (seqBefore i s) s.flt.nextSeq x.seq = true)
      ∧ cellOf (.fault (faultRing s.flt.oldestPlace i)) s = List.replicate 5 (.fault x)) :
    SequencesAgree s := by
  constructor
  · intro n i hi _
    obtain ⟨hlt, hoffset⟩ := Option.ite_none_right_eq_some.1 hi
    obtain rfl := Option.some.inj hoffset
    have hheld := List.getElem?_eq_getElem hlt
    have hcell := hreports _ _ hheld
    rw [reportRing_reportOffset] at hcell
    exact reportSeqOk_words hheld hcell
  · intro n i hi _
    obtain ⟨hlt, hoffset⟩ := Option.ite_none_right_eq_some.1 hi
    obtain rfl := Option.some.inj hoffset
    have hlogged := List.getElem?_eq_getElem hlt
    obtain ⟨hfit, hcell⟩ := hfaults _ _ hlogged
    rw [faultRing_faultOffset] at hcell
    have hpos : 0 < s.flt.log.length := by omega
    refine faultSeqOk_words (o := s.flt.log[0].seq) ?_ hcell
      (hfit _ (by rw [List.head?_eq_getElem?, List.getElem?_eq_getElem hpos]))
    rw [loggedSeq, List.getElem?_eq_getElem hpos, Option.map_some]

theorem startCheck_clean {s : State} (h : Clean s) (ha : SequencesAgree s) : startCheck s = s := by
  have hwalk : ∀ l : List Place,
      l.foldl (fun s p => readWord raise (some p) (placeBase p + placeWords p - 1) s) s = s := by
    intro l
    induction l with
    | nil => rfl
    | cons p l ih => rw [List.foldl_cons, readWord_none ha raise _ (errorAt_clean h _), ih]
  unfold startCheck
  rw [if_pos (by rw [show s.rs.errors = [] from h]; rfl)]
  unfold checkHeld
  exact hwalk _

/-! ### The warm start -/

theorem startKind_warm {s : State} (h : readable .signature s = some (.signature true))
    (hl : s.rs.supplyLost = false) (hc : s.sc.cause ≠ some .restartCold) : startKindOf s = .warm := by
  refine if_neg ?_
  simp [signatureReads, h, hl, hc]

theorem beginStart_warm {c : StartCause} {s : State} (h : startKindOf s = .warm) :
    beginStart c s = startValues (startCheck (loadOwners (startBegun c .warm s))) := by
  unfold beginStart
  simp only [h, reduceCtorEq, if_false]
  rfl

/-- The report queue with the records of a head. -/
def queueOf (q : QueueHead) (held : List Report) : ReportQueue :=
  { ReportQueue.cold with
    held := held, oldestPlace := q.oldest, nextSeq := q.nextSeq, readMark := q.readMark }

/-- The Fault Unit with the log of a head. -/
def unitOf (f : FaultHead) (log : List FaultRecord) (L : FaultUnit) : FaultUnit :=
  { L with log := log, oldestPlace := f.oldest, nextSeq := f.nextSeq, lost := f.lost }

theorem loadQueue_stands {q : QueueHead} {held : List Report} {x : State} (hclean : Clean x)
    (hl : x.rs.writeList = [])
    (hhead : cellOf (.queueHead 0) x = List.replicate 3 (.queueHead q)) (hcount : q.count = held.length)
    (hle : held.length ≤ 96) (hnext : q.nextSeq < 4294967296) (hmark : q.readMark < 4294967296)
    (hdist : (q.readMark + 4294967296 - headOldest q held.length) % 4294967296 ≤ held.length)
    (hstand : ∀ i r, held[i]? = some r → r.seq = (headOldest q held.length + i) % 4294967296
      ∧ cellOf (.report (reportRing q.oldest i)) x = List.replicate 10 (.report r)) :
    loadQueue x = x.setRq (queueOf q held) := by
  have hhead : headContent .queueHead (x.setRq .cold) = some (.queueHead q) := by
    rw [headContent_clean (s := x.setRq .cold) hclean]
    exact congrArg some (readContent_words (s := x) hl rfl hhead)
  unfold loadQueue
  simp only [hhead]
  refine takeQueueHead_stands (x := x.setRq .cold) rfl hcount hle hnext hmark hdist fun i r hi => ?_
  obtain ⟨hseq, hcell⟩ := hstand i r hi
  exact storedReport_found (readContent_words (s := x) hl rfl hcell) hseq

theorem loadLog_stands {f : FaultHead} {log : List FaultRecord} {x : State} (hclean : Clean x)
    (hl : x.rs.writeList = [])
    (hhead : cellOf (.faultHead 0) x = List.replicate 2 (.faultHead f)) (hcount : f.count = log.length)
    (hle : log.length ≤ 32) (hnext : f.nextSeq < 65536)
    (hstand : ∀ i r, log[i]? = some r →
      cellOf (.fault (faultRing f.oldest i)) x = List.replicate 5 (.fault r)) :
    loadLog x = x.setFlt (unitOf f log x.flt) := by
  have hhead : headContent .faultHead x = some (.faultHead f) := by
    rw [headContent_clean hclean]
    exact congrArg some (readContent_words hl rfl hhead)
  unfold loadLog
  simp only [hhead]
  exact takeFaultHead_stands hcount hle hnext fun i r hi =>
    storedFault_found _ (readContent_words hl rfl (hstand i r hi))

theorem foundRegistry_length {n : Nat} (h : n ≤ 64) (s : State) : (foundRegistry n s).length = n := by
  unfold foundRegistry
  rw [List.length_map, List.length_range, Nat.min_eq_left h]

theorem foundRegistry_get {n i : Nat} (h : n ≤ 64) (hi : i < n) (s : State) :
    (foundRegistry n s)[i]? = some (storedFlag s i) := by
  unfold foundRegistry
  rw [Nat.min_eq_left h, List.getElem?_map, List.getElem?_range hi]
  rfl

theorem foundStation_of {s : State} {r : StationRecord} (hc : Clean s)
    (h : readContent (.station 0) s = .station r) : foundStation s = r := by
  unfold foundStation
  rw [headContent_clean hc, h]
  rfl

/-- The start values of a loaded part. -/
theorem startPart_warm (q : QueueHead) (held : List Report) (f : FaultHead) (log : List FaultRecord)
    (n : Nat) (c : StartCause) (s : State) :
    let t := startPart (loadedPart (queueOf q held) (unitOf f log s.flt) n (startBegun c .warm s))
    t = { pending := s.pending,
          pi := { terminal := .start, uplink := .start, service := .start },
          dlc := { docks := t.dlc.docks, lines := t.dlc.lines, exchange := none, survey := none },
          cc := .start, hu := [], fu := t.fu, rq := queueOf q held,
          woe := { WorkOrders.cold with crews := t.woe.crews, floors := t.woe.floors },
          flt := { FaultUnit.cold with
            log := log, oldestPlace := f.oldest, nextSeq := f.nextSeq, lost := f.lost,
            policies := t.flt.policies, registry := t.flt.registry },
          rs := { s.rs with scrubRow := 0 },
          sc := { s.sc with
            station := t.sc.station, config := t.sc.config, mode := .starting, linkUp := false,
            startKind := .warm, startReason := reasonOf c .warm, power := .starting, cause := none,
            resetLine := false } } := rfl

/-- Settles O19. -/
theorem warmStartsTakeTheRetained : Obligations.WarmStartsTakeTheRetained := by
  intro s c hp hc hwarm hl hclean hsupply hsign q f n held log hqueue hqcount hqle hqnext hqmark oldest
    hreports hdist hlog hlcount hlle hlnext hfaults hregistry hn
  have hkind : startKindOf s = .warm :=
    startKind_warm (by rw [readable_clean hclean, readContent_words (n := 0) hl rfl hsign]) hsupply
      (by rw [hc]; exact fun h => hwarm (Option.some.inj h))
  let y := startBegun c .warm s
  let x := loadedPart (queueOf q held) (unitOf f log y.flt) n y
  have hload : loadOwners y = x := by
    refine loadOwners_eq hclean (fun z hz => ?_) (fun z hz hflt => ?_)
      (readContent_words (n := 0) hl rfl hregistry)
    · have hcell : ∀ p, cellOf p z = cellOf p s := cellOf_congr (congrArg _ hz.1)
      refine loadQueue_stands (by rw [Clean, hz.1]; exact hclean) (by rw [hz.1]; exact hl)
        ((hcell _).trans hqueue) hqcount hqle hqnext hqmark hdist fun i r hi => ?_
      obtain ⟨hseq, hstand⟩ := hreports i r hi
      exact ⟨hseq, (hcell _).trans hstand⟩
    · have hcell : ∀ p, cellOf p z = cellOf p s := cellOf_congr (congrArg _ hz.1)
      rw [← hflt]
      refine loadLog_stands (by rw [Clean, hz.1]; exact hclean) (by rw [hz.1]; exact hl)
        ((hcell _).trans hlog) hlcount hlle hlnext fun i r hi => ?_
      obtain ⟨-, hstand⟩ := hfaults i r hi
      exact (hcell _).trans hstand
  have hagree : SequencesAgree x := by
    refine sequencesAgree_stand (fun i r hi => ?_) hfaults
    obtain ⟨-, hstand⟩ := hreports i r hi
    exact hstand
  have hx : startBegins [] s = startPart x := by
    rw [startBegins_eq [] hp hc hl]
    refine (beginStart_warm hkind).trans ?_
    change startValues (startCheck (loadOwners y)) = _
    rw [hload, startCheck_clean (s := x) hclean hagree, startValues_eq]
  have hread : ∀ {p : Place} {k : Nat} {v : Content}, isGarbled v = false →
      cellOf p s = List.replicate (k + 1) v → readContent p y = v := fun hv h =>
    readContent_words (s := y) hl hv h
  refine ⟨startPart x, (stepOf_eq _ _).trans (congrArg Host.Outcome.next
    ((congrArg endStep hx).trans (endStep_start (fun h => nomatch h) hl (fun p => ?_)))), ?_, fun r h => ?_,
    fun k h => ?_, foundRegistry_length hn y, fun i e hi h => ?_, fun k p h => ?_, fun k p h => ?_,
    fun i p h => ?_, fun i p h => ?_, fun d r h => ?_⟩
  · cases p <;> rfl
  · refine (startPart_warm q held f log n c s).trans ?_
    cases c with
    | restartCold => exact absurd rfl hwarm
    | powerReturn => rfl
    | resetLine => rfl
    | restartWarm => rfl
  · exact foundStation_of (s := y) hclean (hread (k := 1) rfl h)
  · refine foundConfig_of (s := y) fun i => ?_
    rw [storedConfig, hread (k := 0) rfl (h i)]
  · refine (foundRegistry_get hn hi y).trans (congrArg some ?_)
    rw [storedFlag, hread (k := 2) rfl h]
  · refine (vget_foundPolicies y k).trans ?_
    rw [storedPolicy, hread (k := 0) rfl h]
  · refine (vget_foundFloors y k).trans ?_
    rw [storedFloor, hread (k := 0) rfl h]
  · refine (vget_foundPlans y i).trans ?_
    rw [storedPlan, hread (k := 6) rfl h]
  · refine (vget_foundCrews y i).trans ?_
    rw [storedCrew, hread (k := 2) rfl h]
  · have hline : lineOf d (startPart x) = LineState.start s.sc.timebase (.record r) := by
      refine (vget_foundLines y d).trans ?_
      rw [storedDock, hread (k := 4) rfl h]
      rfl
    refine ⟨hline, (vget_map _ _ d).trans ?_⟩
    exact congrArg (fun l => DockRecord.start (startFaults l)) hline

end Sys2Proof.Machine
end

section
/-! The survey's polls (R7, R8, R190, R192): the beginning of the survey, its answers and missed polls, and
the exchanges of a survey probe. -/

namespace Sys2Proof.Machine

section
variable {d : DockNo} {s : State} {v : Survey}

/-! ### The grant while a dock is surveyed (R9, R192) -/

theorem surveyDock_of (hs : s.dlc.survey = some v) (hv : v.dock = d) : surveyDock s = some d := by
  rw [surveyDock, hs, ← hv]
  rfl

/-- The dock being surveyed is polled, where no dock before it has a sweep due. -/
theorem grantLine_survey (hr : running s = true) (hx : s.dlc.exchange = none) (hcl : ClaimsRight s)
    (hs : surveyDock s = some d) (hw : (lineOf d s).waiting = []) (hp : probing d s = false)
    (hbefore : ∀ e : DockNo, e.val < d.val →
      ¬((lineOf e s).surveyed = true ∧ (lineOf e s).sweepDue = true)) :
    grantLine s = s.setDlc { s.dlc with
      exchange := some
        { dock := d, command := .poll, ack := (lineOf d s).lastEvent, survey := true,
          sentAt := s.sc.timebase } } := by
  have hfind : allDocks.find? (dueDock s) = some d := by
    refine firstDock (by simp [dueDock, hs]) fun e he => ?_
    have hne : d ≠ e := fun h => absurd he (by rw [h]; exact lt_irrefl e)
    simpa [dueDock, hs, hne] using hbefore e he
  have hgrant : grantedDock s = some d := by
    unfold grantedDock
    rw [hfind]
  unfold grantLine
  rw [if_pos ⟨hr, hx⟩, hgrant]
  refine (giveTurn_poll hcl d hw).trans ?_
  rw [hs, hp, decide_eq_true rfl]
  rfl

/-! ### The beginning (R190) -/

theorem writeSignature_frame (s : State) :
    writeSignature s = { s with rs :=
      { s.rs with array := (writeSignature s).rs.array, errors := (writeSignature s).rs.errors } } := by
  unfold writeSignature
  split <;> rfl

/-- The part as its survey begins, before the first grant. -/
def surveyBegun (s : State) : State :=
  { s with
    rs := { s.rs with array := (writeSignature s).rs.array, errors := (writeSignature s).rs.errors },
    sc := { s.sc with power := .running },
    dlc := { s.dlc with survey := some (surveyOf 0) } }

theorem surveyBegins_eq (h : s.sc.power = .starting) :
    surveyBegins s = grantLine (surveyBegun s) := by
  unfold surveyBegins
  rw [if_pos h, writeSignature_frame]
  rfl

theorem writeSignature_warm (h : s.sc.startKind = .warm) : writeSignature s = s :=
  if_neg (by rw [h]; exact fun h => nomatch h)

theorem writeSignature_cold (h : s.sc.startKind = .cold) :
    writeSignature s = writeRecord .signature (.signature true) s := if_pos h

theorem errorAt_writeRecord {p : Place} {c : Content} (h : assocSorted s.rs.errors = true) (w : Nat) :
    errorAt w (writeRecord p c s) = if w ∈ placeAddresses p then none else errorAt w s :=
  assocGet_clearErrors _ h w

/-! ### Lines put while a dock is surveyed -/

/-- The state with a dock's line, the survey and the timebase put, and no exchange in progress. -/
def surveyLined (d : DockNo) (l : LineState) (v : Survey) (time : Nat) (s : State) : State :=
  { s with
    dlc := { s.dlc with exchange := none, lines := vset s.dlc.lines d l, survey := some v },
    sc := { s.sc with timebase := time } }

theorem lined_survey (hs : s.dlc.survey = some v) (l : LineState) (time : Nat) :
    lined d none l time s = surveyLined d l v time s := by
  rw [surveyLined, ← hs]
  rfl

theorem setSurvey_lined (l : LineState) (time : Nat) :
    setSurvey (some v) (lined d none l time s) = surveyLined d l v time s := rfl

theorem setLine_surveyLined (l l' : LineState) (time : Nat) :
    setLine d l' (surveyLined d l v time s) = surveyLined d l' v time s := by
  simp only [setLine, surveyLined, State.setDlc, vset_vset]

/-- The survey after an answer. -/
def surveyHeard (f : Finding) (v : Survey) : Survey :=
  { v with answers := v.answers + 1, misses := 0, finding := some f }

/-- The line of the dock being surveyed after an answer. -/
def surveyHeardLine (a : DockAnswer) (now : Nat) (l : LineState) : LineState :=
  { heardLine a now l with lastEvent := answerNumber a l }

theorem surveyAnswered_eq (hs : s.dlc.survey = some v) (a : DockAnswer) (x : SurveyExtra) :
    surveyAnswered d a x s =
      if a.event.isNone ∨ 16 ≤ v.answers + 1 then
        surveyResult d (findingOf a x)
          (surveyLined d (surveyHeardLine a s.sc.timebase (lineOf d s)) (surveyHeard (findingOf a x) v)
            s.sc.timebase s)
      else
        surveyLined d (surveyHeardLine a s.sc.timebase (lineOf d s)) (surveyHeard (findingOf a x) v)
          s.sc.timebase s := by
  have hnote : noteAnswer d a (receiveAnswer d a s) =
      lined d none (surveyHeardLine a s.sc.timebase (lineOf d s)) s.sc.timebase s := by
    rw [noteAnswer_eq, receiveAnswer_eq, lineOf_lined, setLine_lined]
    rfl
  have hsurvey : (lined d none (surveyHeardLine a s.sc.timebase (lineOf d s)) s.sc.timebase s).dlc.survey
      = some v := hs
  unfold surveyAnswered
  simp only [hnote, hsurvey]
  rfl

theorem surveyPollEvent_grants {x : Exchange} (hx : s.dlc.exchange = some x) (hd : x.dock = d)
    (hsx : x.survey = true) (hs : s.dlc.survey = some v) (hv : v.dock = d) (a : DockAnswer)
    (extra : SurveyExtra) : surveyPollEvent d a extra s = grantLine (surveyAnswered d a extra s) :=
  if_pos ⟨by simp [exchangeWith, hx, hd, hsx], surveyDock_of hs hv⟩

/-- The line of the dock being surveyed after a missed exchange. -/
def surveyMissedLine (time : Nat) (l : LineState) : LineState :=
  { l with lastExchange := time, sweepDue := false, missCount := min 2 (l.missCount + 1) }

theorem missedEvent_survey {x : Exchange} (hx : s.dlc.exchange = some x) (hd : x.dock = d)
    (hs : s.dlc.survey = some v) (hsv : x.survey = true ∨ (lineOf d s).surveyed = false) :
    missedEvent d s = grantLine
      (if x.survey then
        if 3 ≤ v.misses + 1 then
          surveySilent d (surveyLined d
            (surveyMissedLine (max s.sc.timebase (x.sentAt + 20)) (lineOf d s)) v
            (max s.sc.timebase (x.sentAt + 20)) s)
        else surveyLined d (surveyMissedLine (max s.sc.timebase (x.sentAt + 20)) (lineOf d s))
          { v with misses := v.misses + 1 } (max s.sc.timebase (x.sentAt + 20)) s
      else surveyLined d (surveyMissedLine (max s.sc.timebase (x.sentAt + 20)) (lineOf d s)) v
        (max s.sc.timebase (x.sentAt + 20)) s) := by
  subst hd
  have hmissed : missedEvent x.dock s = grantLine (exchangeMissed x s) := by
    simp only [missedEvent, hx, if_true]
  have hend : endExchange x.dock (reachTime (x.sentAt + 20) s)
      = lined x.dock none
          { lineOf x.dock s with
            lastExchange := max s.sc.timebase (x.sentAt + 20), sweepDue := false }
          (max s.sc.timebase (x.sentAt + 20)) s := rfl
  have hcount : ∀ l time, countMiss x.dock (lined x.dock none l time s) =
      lined x.dock none { l with missCount := min 2 (l.missCount + 1) } time s := fun l time => by
    rw [countMiss, lineOf_lined]
    exact setLine_lined _ _ _ _
  have hsurvey : ∀ l time, (lined x.dock none l time s).dlc.survey = some v := fun _ _ => hs
  rw [hmissed, exchangeMissed, hend, lineOf_lined, hcount]
  refine congrArg grantLine ?_
  by_cases h : x.survey = true
  · rw [if_pos h, if_pos h, surveyMissed, hsurvey]
    dsimp only
    split
    · rw [lined_survey hs]
      rfl
    · rfl
  · have hnot : (lineOf x.dock s).surveyed = false := hsv.resolve_left h
    rw [if_neg h, if_neg h, if_neg (by rw [hnot]; exact Bool.false_ne_true), lined_survey hs]
    rfl

/-- The exchanges of a survey probe: an answer that is no new event. -/
theorem takeAnswer_probe {a : DockAnswer} {n : Nat} {e : DockEvent} (h : a.event = some (n, e))
    (hl : (lineOf d s).lastEvent ≠ some n) (hsv : (lineOf d s).surveyed = false) :
    takeAnswer d a s = surveyEvent d e a.condition (setLine d { lineOf d s with lastEvent := some n } s) := by
  simp only [takeAnswer, h, if_neg hl, hsv, Bool.false_eq_true, if_false, noteEvent]

theorem dockAnswers_probe {a : DockAnswer} (hsv : (lineOf d s).surveyed = false) :
    dockAnswers d a s =
      takeAnswer d a (lined d none (heardLine a s.sc.timebase (lineOf d s)) s.sc.timebase s) := by
  rw [dockAnswers, receiveAnswer_eq]
  refine if_neg fun h => ?_
  rw [lineOf_lined] at h
  exact absurd (h.1.symm.trans hsv) (fun h => nomatch h)

/-! ### A survey probe's second expiry (R13) -/

theorem actuationEvent_used {time : Nat}
    (h : (dockOf d s).deadline = some (.actuation (some time) true)) :
    actuationEvent d s = actuationFails d (reachTime time s) := by
  simp only [actuationEvent, h, if_true]

theorem actuationFails_survey {time : Nat} (hst : (dockOf d s).state = .absent)
    (hs : surveyDock s = some d) :
    actuationFails d (reachTime time s) = surveyProbeFails d (reachTime time s) := by
  have hst' : (dockOf d (reachTime time s)).state = .absent := hst
  unfold actuationFails
  dsimp only
  rw [if_neg (by rw [hst']; simp)]
  exact if_pos hs

theorem surveyEvent_fault {time : Nat} {at' : Option Nat} {used : Bool} {c : DockCondition}
    (hst : (dockOf d s).state = .absent) (h : (dockOf d s).deadline = some (.actuation at' used)) :
    surveyEvent d .actuatorFault c (reachTime time s) = surveyProbeFails d (reachTime time s) :=
  if_pos ((probing_iff d (reachTime time s)).2 ⟨⟨at', used, h⟩, .inr (.inr hst)⟩)

end

/-- Settles O20. -/
theorem theSurveyPollsEachDock : Obligations.TheSurveyPollsEachDock := by
  refine ⟨fun s hp hcl hx hw hprobe harr => ?begins,
    fun s d v x n e condition extra hr hcl hx hd hsx hs hv hlt hw hprobe hbefore => ?polled,
    fun s d v hr hs hv => ?rest⟩
  case begins =>
    have hgrant := (surveyBegins_eq hp).trans (grantLine_survey (s := surveyBegun s) (d := 0) rfl hx hcl
      rfl hw hprobe fun e he => absurd he (Nat.not_lt_zero _))
    obtain ⟨t, hstep, hports, hrs, ht⟩ := store_step hgrant rfl
    have harray : t.rs.array = (writeSignature s).rs.array := by rw [hrs]; rfl
    have herrors : t.rs.errors = (writeSignature s).rs.errors := by rw [hrs]; rfl
    refine ⟨t, hstep, hports, ?_, fun hk => ?_, fun hk => ?_⟩
    · rw [harray, herrors]
      refine ht.trans ?_
      rw [hrs]
      rfl
    · rw [harray, herrors, writeSignature_warm hk]
      exact ⟨rfl, rfl⟩
    · rw [writeSignature_cold hk] at harray herrors
      have hcell : ∀ p, cellOf p t = if p = .signature then [.signature true] else cellOf p s :=
        fun p => (cellOf_congr harray p).trans (cellOf_writeRecord _ _ _ harr.1)
      have herror : ∀ w, errorAt w t = if w ∈ placeAddresses .signature then none else errorAt w s :=
        fun w => (errorAt_congr herrors w).trans (errorAt_writeRecord harr.2 w)
      have hmem : ∀ w, w ∈ placeAddresses .signature ↔ w = 0 := fun w => by
        rw [mem_placeAddresses, placeBase, placeWords]
        omega
      exact ⟨(hcell _).trans (if_pos rfl), (herror 0).trans (if_pos ((hmem 0).2 rfl)),
        fun p hne => (hcell p).trans (if_neg hne),
        fun w hne => (herror w).trans (if_neg fun h => hne ((hmem w).1 h))⟩
  case polled =>
    intro line
    let a : DockAnswer := { event := some (n, e), condition := condition }
    let u := surveyLined d line (surveyHeard (findingOf a extra) v) s.sc.timebase s
    have hline : surveyHeardLine a s.sc.timebase (lineOf d s) = line := by
      have hservice : ((lineOf d s).serviceRequest && a.event.isSome) = (lineOf d s).serviceRequest :=
        Bool.and_true _
      rw [surveyHeardLine, heardLine, hservice]
      rfl
    have hanswered : surveyAnswered d a extra s = u := by
      rw [surveyAnswered_eq hs, hline]
      exact if_neg fun h => by
        rcases h with h | h
        · exact nomatch h
        · omega
    have hother : ∀ e : DockNo, e.val < d.val → lineOf e u = lineOf e s := fun e he =>
      vget_vset_ne _ _ fun h => absurd he (by rw [h]; exact lt_irrefl _)
    have hself : lineOf d u = line := vget_vset_self _ _ _
    have hgrant := grantLine_survey (s := u) (d := d) hr rfl hcl (congrArg some hv)
      (by rw [hself]; exact hw) hprobe (fun e he => by rw [hother e he]; exact hbefore e he)
    rw [hself] at hgrant
    obtain ⟨t, hstep, hports, hstore, ht⟩ := quiet_step ((whileRunning_eq hr).trans
      ((surveyPollEvent_grants hx hd hsx hs hv a extra).trans ((congrArg grantLine hanswered).trans hgrant)))
      rfl rfl
    exact ⟨t, hstep, hports, hstore, ht⟩
  case rest =>
    intro l r heard puts answers
    refine ⟨fun x a extra hx hd hsx hend => ?ends, fun x hx hd hsx => ?missed,
      fun x hx hd hsx hsv => ?probeMissed, fun x a hx hd hsx hsv => ?probe,
      fun time c hst hdead => ?fails⟩
    case ends =>
      intro number finding
      refine running_step hr ((surveyPollEvent_grants hx hd hsx hs hv a extra).trans (congrArg _ ?_))
      have hlast : a.event.isNone = true ∨ 16 ≤ v.answers + 1 :=
        hend.imp (fun h => by rw [h]; rfl) (fun h => by omega)
      have hnumber : answerNumber a l = number := by
        unfold answerNumber
        cases h : a.event <;> simp only [number, h]
      rw [surveyAnswered_eq hs, if_pos hlast, surveyHeardLine, hnumber]
      rfl
    case missed =>
      intro time line late
      have hevent := missedEvent_survey hx hd hs (.inl hsx)
      rw [if_pos hsx] at hevent
      refine ⟨fun h => ?_, fun h => ?_⟩
      · rw [if_neg (by omega)] at hevent
        exact running_step hr hevent
      · rw [if_pos (by omega)] at hevent
        exact running_step hr hevent
    case probeMissed =>
      intro time line
      have hevent := missedEvent_survey hx hd hs (.inr hsv)
      rw [if_neg (by rw [hsx]; exact Bool.false_ne_true)] at hevent
      exact running_step hr hevent
    case probe =>
      have hanswer : answerEvent d a s = grantLine (takeAnswer d a (puts (heard a) (some v))) := by
        rw [answerEvent_grants hx hd hsx, dockAnswers_probe hsv, lined_survey hs]
        rfl
      have hline : lineOf d (puts (heard a) (some v)) = heard a := vget_vset_self _ _ _
      refine ⟨fun h => running_step hr (hanswer.trans (congrArg _ (takeAnswer_repeated ?_))),
        fun n e he hl => running_step hr (hanswer.trans (congrArg _ ?_))⟩
      · rw [hline]
        exact h
      · rw [takeAnswer_probe he (by rw [hline]; exact hl) (by rw [hline]; exact hsv), hline]
        exact congrArg (surveyEvent d e a.condition) (setLine_surveyLined (heard a) _ _)
    case fails =>
      have hdead' : (dockOf d s).deadline = some (.actuation (some time) true) := hdead
      have hst' : (dockOf d s).state = .absent := hst
      refine running_step hr ?_
      rw [actuationEvent_used hdead', actuationFails_survey hst' (surveyDock_of hs hv)]
      exact (surveyEvent_fault hst' hdead').symm

end Sys2Proof.Machine
end

section
/-! The survey's results (R111, R115, R177, R192 to R195): the end of a dock's survey and of the survey, and
what each finding makes of a dock. -/

namespace Sys2Proof.Machine

/-! ### The end of a dock's survey (R192, R195) -/

/-- The line of a dock whose survey has ended. -/
def surveyedLine (r : DockRecord) (l : LineState) : LineState :=
  { l with
    surveyed := true, reference := none, actuation := none,
    waiting := if r.state = .absent then l.waiting else placeIn (.inhibit (inhibited r)) l.waiting }

section
variable {d : DockNo} {s x : State}

theorem dockSurveyed_eq (d : DockNo) (x : State) :
    dockSurveyed d x = nextSurvey d (setLine d (surveyedLine (dockOf d x) (lineOf d x)) x) := by
  have hset : ∀ l l', setLine d l' (setLine d l x) = setLine d l' x := fun l l' => by
    simp only [setLine, State.setDlc, vset_vset]
  unfold dockSurveyed
  refine congrArg (nextSurvey d) ?_
  dsimp only
  rw [dockOf_setLine, ← inhibited_eq]
  unfold placeCommand surveyedLine
  simp only [lineOf_setLine_self, hset]
  by_cases ha : (dockOf d x).state = .absent
  · have hno : inhibited (dockOf d x) = false := by simp [inhibited, ha]
    simp only [ha, hno, if_true, Bool.false_eq_true, if_false]
  · cases inhibited (dockOf d x) <;> simp only [ha, if_true, Bool.false_eq_true, if_false]

/-- The survey goes on to the next dock. -/
theorem dockSurveyed_next (x : State) (h : d.val + 1 < 48) :
    dockSurveyed d x = { x with dlc := { x.dlc with
      lines := vset x.dlc.lines d (surveyedLine (dockOf d x) (lineOf d x)),
      survey := some { dock := ⟨d.val + 1, h⟩, answers := 0, misses := 0, finding := none } } } := by
  rw [dockSurveyed_eq, nextSurvey, dif_pos h]
  rfl

/-- The part at the end of its survey, before the start list is judged. -/
def surveyEnded (d : DockNo) (x : State) : State :=
  { x with
    dlc := { x.dlc with
      lines := vset x.dlc.lines d (surveyedLine (dockOf d x) (lineOf d x)), survey := none },
    sc := { x.sc with mode := x.sc.station.target },
    rs := handAll (bothCopies .station (.station x.sc.station)) x.rs }

theorem dockSurveyed_last (x : State) (h : d.val = 47) :
    dockSurveyed d x = startListJudged (surveyEnded d x) := by
  rw [dockSurveyed_eq, nextSurvey, dif_neg (by omega), endSurvey, judgeStart_judged]
  rfl

/-! ### Records put by the survey -/

/-- The state with a dock's record put by the survey, and handed. -/
def surveyPut (d : DockNo) (r : DockRecord) (claim : Nat) (x : State) : State :=
  { dockPut d r (lineOf d x) claim x with rs := handAll [(.dock d, .dock (retainedOf r))] x.rs }

theorem surveySet_eq (r : DockRecord) (x : State) : surveySet d r x = surveyPut d r (claimOf r) x :=
  surveySet_put d r x

theorem surveyPut_clean (r : DockRecord) (n : Nat) (hc : Clean x) : Clean (surveyPut d r n x) := hc

theorem surveyPark_put (c : ReturnCause) (x : State) :
    surveyPark d c x = dockSurveyed d (raise (returnedRaising d c)
      (surveyPut d (surveyRecord d .parked true none x) 0 x)) := by
  rw [surveyPark, surveySet_eq]
  rfl

theorem surveyVacant_put (suspended : Bool) (x : State) :
    surveyVacant d suspended x = dockSurveyed d
      (surveyPut d (surveyRecord d .vacant suspended none x) (if suspended = true then 0 else 1) x) := by
  rw [surveyVacant, surveySet_eq]
  rfl

theorem surveyDocked_put (suspended : Bool) (t : TagReading) (since : Nat) (x : State) :
    surveyDocked d suspended t since x = dockSurveyed d (surveyBike d t
      (surveyPut d (surveyRecord d .docked suspended (some (readingRecord t since)) x) 0 x)) := by
  rw [surveyDocked, surveySet_eq]
  rfl

/-- A dock that is put VACANT and not suspended takes a latch as an arrival. -/
theorem surveyArrival_put (tag : Option (List Byte)) (x : State) :
    surveyArrival d (tagReading tag) x = dockSurveyed d (latchedEvent d tag
      (surveyPut d (surveyRecord d .vacant false none x) 1 x)) := by
  have hdock : dockOf d (surveyPut d (surveyRecord d .vacant false none x) 1 x)
      = surveyRecord d .vacant false none x := vget_vset_self _ _ _
  rw [surveyArrival, surveySet_eq, latchedEvent, hdock]
  rfl

/-- A survey probe's dock, whose line is not surveyed yet. -/
theorem surveyProbe_put (clearing : Bool) (hs : (lineOf d x).surveyed = false) :
    surveyProbe d clearing x =
      dockPut d { dockOf d x with state := .absent, deadline := some (.actuation none false) }
        { lineOf d x with waiting := placeIn (.relock clearing .probe) (lineOf d x).waiting } 0 x := by
  have hfollow : ∀ r l, l.surveyed = false → inhibitFollows (dockOf d x) r l = l := fun r l h =>
    if_neg fun h' => by rw [h] at h'; exact nomatch h'.1
  unfold surveyProbe
  rw [putDock_put, placeCommand, lineOf_dockPut, if_pos rfl, hfollow _ _ hs]
  refine setLine_dockPut (Eq.symm (hfollow _ _ ?_))
  exact hs

/-- A dock that a failed probe leaves JAMMED. -/
theorem surveyJam_none (x : State) :
    surveyJam d none x = dockSurveyed d (raiseJam d .probe
      (surveyPut d (surveyRecord d .jammed true none x) 0 x)) := by
  change dockSurveyed d (raiseJam d .probe (surveySet d (surveyRecord d .jammed true none x) x)) = _
  rw [surveySet_eq]
  rfl

theorem surveyJam_some (t : TagReading) (x : State) :
    surveyJam d (some t) x = dockSurveyed d (raiseJam d .probe (surveyBike d t
      (surveyPut d (surveyRecord d .jammed true (some (readingRecord t (stationTime x))) x) 1 x))) := by
  change dockSurveyed d (raiseJam d .probe (surveyBike d t
    (surveySet d (surveyRecord d .jammed true (some (readingRecord t (stationTime x))) x) x))) = _
  rw [surveySet_eq]
  rfl

theorem surveyRecord_congr {y : State} (h : x.dlc = y.dlc) (st : DockState) (b : Bool) (k : Option Bike) :
    surveyRecord d st b k x = surveyRecord d st b k y := by
  rw [surveyRecord, dockOf_congr h]
  rfl

/-! ### The gate (R115) -/

theorem surveyGate_clean (hc : Clean x) (n : Nat) (f : State → State) :
    surveyGate d n f x =
      if x.rq.held.length + x.rq.claimTotal + n ≤ 96 then f x else surveyPark d .survey x := by
  simp only [surveyGate, readQueueHead_clean hc, gateAdmits, decide_eq_true_eq]

theorem queueReport_append (n : NewReport) (hc : Clean x) :
    queueReport n x = appendReport (reportOf n x) x := by
  rw [queueReport, readQueueHead_clean hc]

/-- A release found completed queues its record, behind the gate (R194). -/
theorem surveyTaken_queued {r : RetainedDock} {m : ReleaseMemory} {n : NewReport} (hc : Clean x)
    (hm : memoryReport d ((r.bike.map Bike.id).getD 0) m = some n) :
    surveyTaken d r m x =
      if x.rq.held.length + x.rq.claimTotal + ((if r.suspended = true then 0 else 1) + 1) ≤ 96 then
        dockSurveyed d (surveyPut d (surveyRecord d .vacant r.suspended none x)
          (if r.suspended = true then 0 else 1) (queueReport n x))
      else surveyPark d .survey x := by
  have hrecord : surveyRecord d .vacant r.suspended none (queueReport n x)
      = surveyRecord d .vacant r.suspended none x := surveyRecord_congr (queueReport_dlc n hc) _ _ _
  rw [← hrecord, ← surveyVacant_put, queueReport_append n hc]
  unfold surveyTaken
  simp only [hm, Option.isSome_some, if_true, surveyGate_clean hc]
  rw [if_neg (by omega), Nat.add_comm 1]

theorem surveyTaken_nothing {r : RetainedDock} (hc : Clean x) :
    surveyTaken d r .nothing x =
      if r.suspended = true then surveyVacant d true x
      else if x.rq.held.length + x.rq.claimTotal + 1 ≤ 96 then surveyVacant d false x
      else surveyPark d .survey x := by
  unfold surveyTaken
  cases hp : r.suspended <;>
    simp [memoryReport, surveyGate_clean hc]

/-! ### The warm result, by the reference (R194) -/

theorem referenceOf_some {r : RetainedDock} (h : (lineOf d x).reference = some (.record r)) :
    referenceOf d x = some r := by
  simp only [referenceOf, h]

theorem referenceOf_none (h : ∀ r, (lineOf d x).reference ≠ some (.record r)) :
    referenceOf d x = none := by
  unfold referenceOf
  cases hr : (lineOf d x).reference with
  | none => rfl
  | some ref =>
    cases ref with
    | damaged => rfl
    | record r => exact absurd hr (h r)

theorem surveyResult_cold {f : Finding} (h : x.sc.startKind = .cold) :
    surveyResult d f x = coldResult d f x := if_pos h

theorem surveyResult_warm {f : Finding} {r : RetainedDock} (h : x.sc.startKind = .warm)
    (hr : (lineOf d x).reference = some (.record r)) :
    surveyResult d f x = warmResult d r f x := by
  unfold surveyResult
  rw [if_neg (by rw [h]; exact fun h => nomatch h), referenceOf_some hr]

theorem surveyResult_damaged {f : Finding} (h : x.sc.startKind = .warm)
    (hr : ∀ r, (lineOf d x).reference ≠ some (.record r)) :
    surveyResult d f x = surveyPark d .store x := by
  unfold surveyResult
  rw [if_neg (by rw [h]; exact fun h => nomatch h), referenceOf_none hr]

/-- Any other pairing parks the dock. -/
theorem surveyOther_put (r : RetainedDock) (found : Option TagReading) (x : State) :
    surveyOther d r found x = dockSurveyed d
      (if r.state = .docked ∧ found.isNone = true then
        raise (unaccountedRaising d ((r.bike.map Bike.id).getD 0) .survey)
          (raise (returnedRaising d .survey)
            (surveyPut d (surveyRecord d .parked true none x) 0 x))
      else raise (returnedRaising d .survey)
        (surveyPut d (surveyRecord d .parked true none x) 0 x)) := by
  unfold surveyOther
  rw [surveySet_eq]
  rfl

theorem surveyOther_parks {r : RetainedDock} (h : r.state ≠ .docked) (found : Option TagReading)
    (x : State) : surveyOther d r found x = dockSurveyed d (raise (returnedRaising d .survey)
      (surveyPut d (surveyRecord d .parked true none x) 0 x)) := by
  rw [surveyOther_put, if_neg fun h' => h h'.1]

theorem surveySame_put {r : RetainedDock} {t : TagReading} {b : Bike} (hb : r.bike = some b)
    (x : State) :
    surveySame d r t x = dockSurveyed d (surveyBike d t (surveyPut d
      { surveyRecord d .docked r.suspended (some (readingRecord t b.since)) x with
        lastArrival := r.lastArrival } 0 x)) := by
  unfold surveySame
  simp only [hb, Option.map_some, Option.getD_some, surveySet_eq]
  rfl

theorem surveyJammed_bike {r : RetainedDock} {t : TagReading} {b : Bike} (hb : r.bike = some b)
    (x : State) :
    surveyJammed d r (some t) x = surveyGate d 1 (fun x => dockSurveyed d (bikeEntered d b.id (foundMarked t)
      (surveyPut d (surveyRecord d .jammed true (some b) x) 1 x))) x := by
  unfold surveyJammed
  simp only [hb, Option.map_some, Option.getD_some, surveySet_eq]
  rfl

/-- A JAMMED dock whose bike is gone queues its removal, behind the gate. -/
theorem surveyJammed_empty {r : RetainedDock} {b : Bike} (hc : Clean x) (hb : r.bike = some b) :
    surveyJammed d r none x = surveyGate d 1 (fun _ => dockSurveyed d
      (raise (unaccountedRaising d b.id .takeFromJammed)
        (surveyPut d (surveyRecord d .jammed true none x) 0
          (queueReport (plainReport .removed d b.id) x)))) x := by
  rw [surveyGate_clean hc, queueReport_append _ hc]
  unfold surveyJammed
  simp only [hb, Option.map_some, Option.getD_some, surveyGate_clean hc, surveySet_eq]
  rfl

/-! ### The ends of a survey probe (R193, R194) -/

/-- What the survey's finding remembers of a release. -/
def foundMemory (x : State) : ReleaseMemory := ((surveyFinding x).map Finding.memory).getD .nothing

theorem surveyProbeCloses_emptyCold {c : DockCondition} {y : State} (hb : c.bike = none)
    (hy : closeRelockWrite d c x = y) (hk : y.sc.startKind = .cold) :
    surveyProbeCloses d c x = surveyVacant d false y := by
  rw [surveyProbeCloses, hy, hb]
  exact if_pos hk

theorem surveyProbeCloses_emptyWarm {c : DockCondition} {y : State} {r : RetainedDock}
    (hb : c.bike = none) (hy : closeRelockWrite d c x = y) (hk : y.sc.startKind = .warm)
    (hr : (lineOf d y).reference = some (.record r)) :
    surveyProbeCloses d c x = surveyTaken d r (foundMemory x) y := by
  rw [surveyProbeCloses, hy, hb]
  refine (if_neg (by rw [hk]; exact fun h => nomatch h)).trans ?_
  rw [referenceOf_some hr]
  rfl

theorem surveyProbeCloses_bikeCold {c : DockCondition} {b : SensedBike} (hb : c.bike = some b)
    (hk : x.sc.startKind = .cold) :
    surveyProbeCloses d c x = coldBike d (probeReading b (surveyFinding x)) x := by
  rw [surveyProbeCloses, closeRelockWrite_some (by rw [hb]; exact fun h => nomatch h), hb]
  exact if_pos hk

theorem surveyProbeCloses_bikeWarm {c : DockCondition} {b : SensedBike} {r : RetainedDock}
    (hb : c.bike = some b) (hk : x.sc.startKind = .warm)
    (hr : (lineOf d x).reference = some (.record r)) :
    surveyProbeCloses d c x =
      surveyDocked d r.suspended (probeReading b (surveyFinding x)) (stationTime x) x := by
  rw [surveyProbeCloses, closeRelockWrite_some (by rw [hb]; exact fun h => nomatch h), hb]
  refine (if_neg (by rw [hk]; exact fun h => nomatch h)).trans ?_
  rw [referenceOf_some hr]

theorem surveyProbeFails_ungated
    (h : (surveyFinding x).bind Finding.bike = none ∨ x.sc.startKind = .cold) :
    surveyProbeFails d x = surveyJam d ((surveyFinding x).bind Finding.bike) x := by
  unfold surveyProbeFails
  cases hf : (surveyFinding x).bind Finding.bike with
  | none => rfl
  | some t =>
    rw [hf] at h
    exact if_pos (h.resolve_left (fun h => nomatch h))

theorem surveyProbeFails_gated {t : TagReading} (hf : (surveyFinding x).bind Finding.bike = some t)
    (hk : x.sc.startKind = .warm) :
    surveyProbeFails d x = surveyGate d 1 (fun x => surveyJam d (some t) x) x := by
  unfold surveyProbeFails
  rw [hf]
  exact if_neg (by rw [hk]; exact fun h => nomatch h)

theorem coldBike_unstamped {t : TagReading} (h : readingStamp t = none) :
    coldBike d t x = surveyDocked d false t 0 x := by
  rw [coldBike, h]
  rfl

theorem coldBike_stamped {t : TagReading} (h : readingStamp t ≠ none) :
    coldBike d t x = surveyArrival d t x := by
  rw [coldBike, if_pos (Option.isSome_iff_ne_none.2 h)]

end

/-- Settles O21. -/
theorem surveyResultsSetTheDocks : Obligations.SurveyResultsSetTheDocks := by
  intro d s v hc hs hv hsv ends record put vacant entered docked arrives probes parks gated unaccounted
    taken jams
  have hrecord : ∀ (x : State), (dockOf d x).faults = (dockOf d s).faults → ∀ st b k,
      surveyRecord d st b k x = record st b k := fun x hf st b k => by
    rw [surveyRecord, hf]
  have hpark : ∀ (c : ReturnCause) (x : State), (dockOf d x).faults = (dockOf d s).faults →
      surveyPark d c x = ends (parks c x) := fun c x hf => by
    rw [surveyPark_put, hrecord x hf]
    rfl
  have hvacant : ∀ (b : Bool) (x : State), (dockOf d x).faults = (dockOf d s).faults →
      surveyVacant d b x = vacant b x := fun b x hf => by
    rw [surveyVacant_put, hrecord x hf]
    rfl
  have hgate : ∀ (n : Nat) (f : State → State) (x : State), Clean x → x.rq = s.rq →
      (dockOf d x).faults = (dockOf d s).faults → surveyGate d n f x = gated n x (f x) := by
    intro n f x hcx hrq hf
    rw [surveyGate_clean hcx, hpark _ x hf, hrq]
  have htaken : ∀ (r : RetainedDock) (m : ReleaseMemory) (x : State), Clean x → x.rq = s.rq →
      (dockOf d x).faults = (dockOf d s).faults → surveyTaken d r m x = taken r m x := by
    intro r m x hcx hrq hf
    cases m with
    | nothing =>
      rw [surveyTaken_nothing hcx, hpark _ x hf, hvacant _ x hf, hvacant _ x hf, hrq]
      cases hp : r.suspended <;> simp only [taken, gated, hp, if_true, Bool.false_eq_true, if_false]
    | release stamp =>
      cases stamp with
      | none =>
        rw [surveyTaken_queued hcx rfl, hpark _ x hf, hrecord x hf, hrq]
        rfl
      | some t =>
        rw [surveyTaken_queued hcx rfl, hpark _ x hf, hrecord x hf, hrq]
        rfl
  refine ⟨fun x => ?ends, fun f hk => ?cold, fun f hk href => ?damaged, fun f r hk href => ?warm, ?silent,
    fun hst hdead => ?probe⟩
  case ends =>
    intro l
    refine ⟨dockSurveyed_next x, fun h47 => ?_⟩
    intro y
    refine ⟨fun h => ?_, fun i rest w hl hm hidle hi => ?_⟩
    · exact (dockSurveyed_last x h47).trans (startListJudged_nil h)
    · refine (dockSurveyed_last x h47).trans
        (startListJudged_starts (s := surveyEnded d x) hl hi hm ?_)
      rintro ⟨j, u, hj, hu⟩
      obtain ⟨hrun, hwait⟩ := hidle j u hj
      exact hu.elim hrun hwait
  case cold =>
    rw [surveyResult_cold hk, coldResult]
    refine ⟨fun ho => ?_, fun ho => ⟨fun hb => ?_, fun t hb => ⟨fun ht => ?_, fun ht tag hr => ?_⟩⟩⟩
    · rw [if_pos ho]
      exact surveyProbe_put false hsv
    · rw [if_neg (by simp [ho]), hb]
      exact surveyVacant_put false s
    · rw [if_neg (by simp [ho]), hb]
      dsimp only
      exact (coldBike_unstamped ht).trans (surveyDocked_put false t 0 s)
    · subst hr
      rw [if_neg (by simp [ho]), hb]
      dsimp only
      exact (coldBike_stamped ht).trans (surveyArrival_put tag s)
  case damaged =>
    exact (surveyResult_damaged hk href).trans (surveyPark_put .store s)
  case warm =>
    intro same moving
    have hresult := surveyResult_warm (f := f) hk href
    have hgate' := fun n (f : State → State) => hgate n f s hc rfl rfl
    have hother : r.state ≠ .docked → surveyOther d r f.bike s = ends (parks .survey s) :=
      fun h => surveyOther_parks h f.bike s
    refine ⟨fun hst => ?docked, fun hst => ?vacant, fun hst => ?moving, fun hst => ?jammed,
      fun hst => ?gone⟩
    case docked =>
      have hdocked : ∀ t, f.bike = some t → surveyResult d f s =
          if (!f.lockOpen && decide (r.bike.map Bike.id = some (readingBike t))) = true then
            surveySame d r t s
          else surveyOther d r f.bike s := fun t hb => by
        rw [hresult, warmResult]
        simp only [hst, hb]
      refine ⟨fun t b ho hb hrb hid => ?_, fun h => ?_⟩
      · rw [hdocked t hb, if_pos (by simp [ho, hrb, hid])]
        exact surveySame_put hrb s
      · have hput := surveyOther_put (d := d) r f.bike s
        cases hb : f.bike with
        | none =>
          rw [hb, if_pos ⟨hst, rfl⟩] at hput
          rw [if_pos rfl, hresult, warmResult]
          simp only [hst, hb]
          exact hput
        | some t =>
          rw [hb, if_neg (fun h => nomatch h.2)] at hput
          rw [if_neg (fun h => nomatch h), hdocked t hb, hb, if_neg ?_]
          · exact hput
          · intro hmatch
            rw [Bool.and_eq_true, Bool.not_eq_true', decide_eq_true_eq, Option.map_eq_some_iff] at hmatch
            obtain ⟨ho, b, hrb, hid⟩ := hmatch
            refine h.elim (fun h => ?_) fun h => h ⟨t, b, hb, hrb, hid⟩
            rw [ho] at h
            exact nomatch h
    case vacant =>
      have hne : r.state ≠ .docked := by rw [hst]; exact fun h => nomatch h
      rw [hresult, warmResult]
      simp only [hst]
      refine ⟨fun ho => ?_, fun ho hb => ?_, fun t ho hb => ⟨fun hp => ?_, fun hp hfit tag ht => ?_,
        fun hp hfull => ?_⟩⟩
      · rw [if_pos ho]
        exact hother hne
      · rw [if_neg (by simp [ho]), hb]
        dsimp only
        rw [hgate', hvacant _ s rfl, hvacant _ s rfl]
      · rw [if_neg (by simp [ho]), hb]
        dsimp only
        rw [if_pos hp]
        exact surveyDocked_put true t (stationTime s) s
      · subst ht
        rw [if_neg (by simp [ho]), hb]
        dsimp only
        rw [if_neg (by simp [hp]), hgate']
        exact (if_pos hfit).trans (surveyArrival_put tag s)
      · rw [if_neg (by simp [ho]), hb]
        dsimp only
        rw [if_neg (by simp [hp]), hgate']
        exact if_neg (by omega)
    case moving =>
      have hmove : surveyResult d f s =
          if f.bike.isSome then surveyProbe d (memoryStamped f.memory) s
          else surveyTaken d r f.memory s := by
        rw [hresult, warmResult]
        rcases hst with hst | hst | hst <;> simp only [hst]
      rw [hmove]
      refine ⟨fun t hb => ⟨fun x hm => ?_, fun hm => ?_⟩, fun hb => ?_⟩
      · rw [hb, hm]
        exact surveyProbe_put true hsv
      · have hno : memoryStamped f.memory = false := by
          unfold memoryStamped
          split
          next x hx => exact absurd hx (hm x)
          next => rfl
        rw [hb, hno]
        exact surveyProbe_put false hsv
      · rw [hb]
        exact htaken r f.memory s hc rfl rfl
    case jammed =>
      have hne : r.state ≠ .docked := by rw [hst]; exact fun h => nomatch h
      rw [hresult, warmResult]
      simp only [hst]
      refine ⟨fun t b hb hrb => ?_, fun b hb hrb => ?_, fun hb hrb => ?_, fun t hb hrb => ?_⟩
      · rw [if_pos (by rw [hrb]; rfl), hb, surveyJammed_bike hrb, hgate']
        refine congrArg (gated 1 s) ?_
        cases t <;> rfl
      · rw [if_pos (by rw [hrb]; rfl), hb, surveyJammed_empty hc hrb, hgate', hrecord s rfl]
        have hid : ((r.bike.map Bike.id).getD 0) = b.id := by rw [hrb]; rfl
        simp only [unaccounted, hid]
        rfl
      · rw [if_neg (by simp [hrb]), hb, if_pos Option.isNone_none, surveyJamEmpty, surveySet_eq]
        rfl
      · rw [if_neg (by simp [hrb]), if_neg (by simp [hb])]
        exact hother hne
    case gone =>
      have hne : r.state ≠ .docked := by rcases hst with hst | hst <;> rw [hst] <;> exact fun h => nomatch h
      rw [hresult, warmResult]
      rcases hst with hst | hst <;> simp only [hst] <;> exact hother hne
  case silent =>
    intro absent silent
    have hset : surveySet d (surveyRecord d .absent true none s) s = absent := by
      rw [surveySet_eq]
      rfl
    refine ⟨fun r href => ?_, fun href => ?_⟩
    · simp only [surveySilent, href, hset]
      rfl
    · simp only [surveySilent, href, hset]
      rfl
  case probe =>
    intro memory closed
    have hprobing : probing d s = true := (probing_iff d s).2 (by
      obtain ⟨t, u, h⟩ := hdead
      exact ⟨⟨t, u, h⟩, .inr (.inr hst)⟩)
    have hfinding : surveyFinding s = v.finding := by
      rw [surveyFinding, hs]
      rfl
    have hclosed : ∀ c, surveyEvent d .closed c s = surveyProbeCloses d c s := fun c => if_pos hprobing
    have hfault : ∀ c, surveyEvent d .actuatorFault c s = surveyProbeFails d s := fun c => if_pos hprobing
    have hempty : ∀ c : DockCondition, c.bike = none → closeRelockWrite d c s = closed := fun c hb =>
      closeRelockWrite_none hb
    refine ⟨fun c hb hk => ?emptyCold, fun c r hb hk href => ?emptyWarm, fun c b hb => ?sensed,
      fun c => ?fault, fun e c h1 h2 => ?other⟩
    case emptyCold =>
      exact (hclosed c).trans ((surveyProbeCloses_emptyCold hb (hempty c hb) hk).trans
        (hvacant false closed rfl))
    case emptyWarm =>
      have hline : (lineOf d closed).reference = some (.record r) := by
        refine (congrArg LineState.reference (vget_vset_self _ _ _)).trans href
      have hmemory : foundMemory s = memory := by rw [foundMemory, hfinding]
      rw [hclosed, surveyProbeCloses_emptyWarm hb (hempty c hb) hk hline, hmemory]
      exact htaken r memory closed hc rfl rfl
    case sensed =>
      intro stamp t
      have hreading : probeReading b (surveyFinding s) = t := by
        rw [hfinding, probeReading]
        simp only [t, stamp]
        split
        · rfl
        · split <;> simp only [*]
      refine ⟨fun hk => ⟨fun ht => ?_, fun ht tag hr => ?_⟩, fun r hk href => ?_⟩
      · rw [hclosed, surveyProbeCloses_bikeCold hb hk, hreading]
        exact (coldBike_unstamped ht).trans (surveyDocked_put false t 0 s)
      · rw [hclosed, surveyProbeCloses_bikeCold hb hk, hreading]
        rw [coldBike_stamped ht, ← hr]
        exact surveyArrival_put tag s
      · rw [hclosed, surveyProbeCloses_bikeWarm hb hk href, hreading]
        exact surveyDocked_put r.suspended t (stationTime s) s
    case fault =>
      intro found
      have hjam : ∀ o, surveyJam d o s = jams o s := by
        intro o
        cases o with
        | none => exact (surveyJam_none s).trans (congrArg ends (raiseJam_record .probe rfl))
        | some t => exact (surveyJam_some t s).trans (congrArg ends (raiseJam_record .probe rfl))
      refine ⟨fun h => ?_, fun h hk => ?_⟩
      · rw [hfault, surveyProbeFails_ungated (by rw [hfinding]; exact h), hfinding]
        exact hjam _
      · obtain ⟨t, ht⟩ := Option.ne_none_iff_exists'.1 h
        rw [hfault, surveyProbeFails_gated (by rw [hfinding]; exact ht) hk, hgate 1 _ s hc rfl rfl, hjam,
          ← ht]
    case other =>
      refine (if_pos hprobing).trans ?_
      cases e with
      | closed => exact absurd rfl h1
      | actuatorFault => exact absurd rfl h2
      | _ => rfl

end Sys2Proof.Machine
end

section
/-! What damage makes of a record kept in one copy, and of a free word (R121, R158, R163, R171, R173, R175,
R177). -/

namespace Sys2Proof.Machine

/-! ### Reads of a word with a double-bit error -/

section
variable {raised : Raising → State → State} {p : Place} {w : Nat} {s : State}

theorem readWord_double (hw : inWriteList p s = false) (he : errorAt w s = some .double) :
    readWord raised (some p) w s =
      if freePlace p s then clearFreeWord (some p) w s
      else doubleRead raised p w (readHeadOf raised p s) := by
  unfold readWord
  rw [if_neg (by simp [hw]), if_pos he]
  rfl

theorem doubleRead_damage (hw : inWriteList p s = false) (he : errorAt w s = some .double)
    (hf : freePlace p s = false) : doubleRead raised p w s = damageWord raised p w s := by
  unfold doubleRead
  rw [if_neg (by simp [hw, he]), if_neg (by simp [hf])]

/-- A damaged record whose removal changes no head. -/
theorem readWord_damage (hw : inWriteList p s = false) (he : errorAt w s = some .double)
    (hf : freePlace p s = false) (hh : readHeadOf raised p s = s) :
    readWord raised (some p) w s = damageWord raised p w s := by
  rw [readWord_double hw he, if_neg (by simp [hf]), hh, doubleRead_damage hw he hf]

theorem damageWord_fault (n : Fin 32) :
    damageWord raised (.fault n) w s =
      damageFault raised n (captureError (some .faultRecords) w s) := rfl

/-- The effect of a double-bit error in a record of one copy, but a fault record. -/
theorem damageWord_single (hother : otherCopy p = none) (hfault : ∀ n, p ≠ .fault n) :
    damageWord raised p w s =
      raised (damageRaising (placeCollection p) w)
        (damageSingle raised p (captureError (some (placeCollection p)) w s)) := by
  cases p with
  | fault n => exact absurd rfl (hfault n)
  | station c | queueHead c | faultHead c | registryHead c => exact nomatch hother
  | _ => rfl

/-- A word of a record that needs no correction is left as it is. -/
theorem readCopyWord_clean {other : Place} (h : inWriteList p s = true ∨ errorAt w s = none) :
    readCopyWord raised p other s w = s := by
  unfold readCopyWord
  split
  · rfl
  next hw =>
    have he : errorAt w s = none := h.resolve_left hw
    rw [if_neg (by simp [he]), soundWord_none raised he]

/-- A head that reads clean is left as it is. -/
theorem readCopyWords_clean {other : Place} (h : CleanAt p s) (l : List Nat)
    (hl : ∀ v ∈ l, v ∈ placeAddresses p) : l.foldl (readCopyWord raised p other) s = s := by
  induction l with
  | nil => rfl
  | cons v l ih =>
    rw [List.foldl_cons, readCopyWord_clean (h.imp_right fun h => h v (hl v List.mem_cons_self)),
      ih fun u hu => hl u (List.mem_cons_of_mem _ hu)]

theorem readHeadOf_fault (n : Fin 32) (h : CleanAt (.faultHead 0) s) :
    readHeadOf raised (.fault n) s = s := readCopyWords_clean h _ fun _ hv => hv

theorem readHeadOf_flag (n : Fin 64) (h : CleanAt (.registryHead 0) s) :
    readHeadOf raised (.flag n) s = s := readCopyWords_clean h _ fun _ hv => hv

/-! ### Records of fixed places -/

/-- Records handed over. -/
def handsOver (l : List (Place × Content)) (y : State) : State := { y with rs := handAll l y.rs }

theorem hand_handsOver (p : Place) (c : Content) (y : State) : hand p c y = handsOver [(p, c)] y := rfl

theorem handBoth_handsOver (p : Fin 2 → Place) (c : Content) (y : State) :
    handBoth p c y = handsOver (bothCopies p c) y := rfl

theorem configValue_set (c : Configuration) (i : ConfigItem) :
    configValue (setConfigValue c i (configValue .default i)) i = configValue .default i := by
  cases i <;> rfl

theorem damageSingle_config (i : ConfigItem) (x : State) :
    damageSingle raised (.config i) x = handsOver [(.config i, .config (configValue .default i))]
      { x with sc := { x.sc with
        config := setConfigValue x.sc.config i (configValue .default i) } } := by
  change handConfig i (x.setSc { x.sc with
    config := setConfigValue x.sc.config i (configValue .default i) }) = _
  rw [handConfig, State.setSc_sc, configValue_set, hand_handsOver]
  rfl

theorem damageSingle_policy (k : FaultKind) (x : State) :
    damageSingle raised (.policy k) x =
      handsOver [(.policy k, .policy (vget defaultPolicies (faultIndex k)))]
        { x with flt := { x.flt with
          policies := vset x.flt.policies (faultIndex k) (vget defaultPolicies (faultIndex k)) } } := by
  change handPolicy k (x.setFlt { x.flt with
    policies := vset x.flt.policies (faultIndex k) (vget defaultPolicies (faultIndex k)) }) = _
  rw [handPolicy, State.setFlt_flt, vget_vset_self, hand_handsOver]
  rfl

theorem damageSingle_floor (k : OrderKind) (x : State) :
    damageSingle raised (.floor k) x =
      handsOver [(.floor k, .floor (vget defaultFloors (orderIndex k)))]
        { x with woe := { x.woe with
          floors := vset x.woe.floors (orderIndex k) (vget defaultFloors (orderIndex k)) } } := by
  change handFloor k (x.setWoe { x.woe with
    floors := vset x.woe.floors (orderIndex k) (vget defaultFloors (orderIndex k)) }) = _
  rw [handFloor, State.setWoe_woe, vget_vset_self, hand_handsOver]
  rfl

theorem damageSingle_plan (n : Fin 16) (x : State) :
    damageSingle raised (.plan n) x =
      handsOver [(.plan n, .plan none)] { x with fu := vset x.fu n none } := by
  change handPlan n (x.setFu (vset x.fu n none)) = _
  rw [handPlan, State.setFu_fu, vget_vset_self, hand_handsOver]
  rfl

theorem damageSingle_crew (n : Fin 16) (x : State) :
    damageSingle raised (.crew n) x =
      handsOver [(.crew n, .crew none)]
        { x with woe := { x.woe with crews := vset x.woe.crews n none } } := by
  change handCrew n (x.setWoe { x.woe with crews := vset x.woe.crews n none }) = _
  rw [handCrew, State.setWoe_woe, vget_vset_self, hand_handsOver]
  rfl

theorem damageSingle_dock (d : DockNo) (x : State) :
    damageSingle raised (.dock d) x =
      if x.sc.power = .starting then setLine d { lineOf d x with reference := some .damaged } x
      else handsOver [(.dock d, .dock (retainedOf (dockOf d x)))] x := by
  change damageDock d x = _
  unfold damageDock atStart
  simp only [decide_eq_true_eq]
  rfl

/-! ### A held report (R121) -/

theorem reportRing_held {n : Fin 96} {i : Nat} (h : heldReportAt n s = some i) :
    reportRing s.rq.oldestPlace i = n := by
  obtain ⟨-, hoffset⟩ := Option.ite_none_right_eq_some.1 h
  obtain rfl := Option.some.inj hoffset
  exact reportRing_reportOffset _ _

theorem damageReport_put {n : Fin 96} {i : Nat} {r : Report} (hi : heldReportAt n s = some i)
    (hr : s.rq.held[i]? = some r) :
    damageReport n i s =
      handsOver [(.report n, .report (damagedReport r.seq (damagedKind n i s)))]
        { s with rq := { s.rq with
          held := s.rq.held.set i (damagedReport r.seq (damagedKind n i s)) } } := by
  have hlt : i < s.rq.held.length := (List.getElem?_eq_some_iff.1 hr).1
  have hget : (s.rq.held.set i (damagedReport r.seq (damagedKind n i s)))[i]?
      = some (damagedReport r.seq (damagedKind n i s)) := List.getElem?_set_self hlt
  unfold damageReport
  simp only [hr, handReport, State.setRq_rq, hget, reportRing_held hi]
  rfl

/-- The words that carry a held report's sequence agree with it, as far as they read. -/
def ReportAgrees (n : Fin 96) (r : Report) (s : State) : Prop :=
  ∀ k, k = 0 ∨ k = 9 → errorAt (placeBase (.report n) + k) s ≠ some .double →
    ∃ r', wordContent (.report n) k s = .report r' ∧ r'.seq = r.seq

theorem reportWordSeq_iff {c : Content} {q : Nat} :
    reportWordSeq c = some q ↔ ∃ r, c = .report r ∧ r.seq = q := by
  cases c <;> simp [reportWordSeq, reportIn]

theorem reportSeqOk_iff {n : Fin 96} {i : Nat} {r : Report} (hr : s.rq.held[i]? = some r) :
    reportSeqOk n i s = true ↔ ReportAgrees n r s := by
  have hword : ∀ k, (!wordReads (.report n) k s
        || decide (reportWordSeq (wordContent (.report n) k s) = some r.seq)) = true ↔
      (errorAt (placeBase (.report n) + k) s ≠ some .double →
        ∃ r', wordContent (.report n) k s = .report r' ∧ r'.seq = r.seq) := fun k => by
    rw [Bool.or_eq_true, decide_eq_true_eq, reportWordSeq_iff, Bool.not_eq_true', ← wordReads_iff,
      ← Bool.not_eq_true, imp_iff_not_or]
  unfold reportSeqOk ReportAgrees
  simp only [hr, Option.map_some, Bool.and_eq_true, hword]
  exact ⟨fun h k hk => hk.elim (fun hk => hk ▸ h.1) (fun hk => hk ▸ h.2),
    fun h => ⟨h 0 (.inl rfl), h 9 (.inr rfl)⟩⟩

/-- The kind that a damaged report keeps (R121). -/
theorem damagedKind_eq {n : Fin 96} {i : Nat} {r : Report} {kind : Option ReportKind}
    (hr : s.rq.held[i]? = some r) (hno : ¬ReportAgrees n r s → kind = none)
    (hword : ReportAgrees n r s → ∀ k,
      k = 1 ∨ (k = 8 ∧ ¬errorAt (placeBase (.report n) + 1) s ≠ some .double) →
      errorAt (placeBase (.report n) + k) s ≠ some .double →
      ∃ r', wordContent (.report n) k s = .report r' ∧ kind = r'.kind)
    (hnone : ¬errorAt (placeBase (.report n) + 1) s ≠ some .double →
      ¬errorAt (placeBase (.report n) + 8) s ≠ some .double → kind = none) :
    damagedKind n i s = kind := by
  unfold damagedKind
  dsimp only
  by_cases hok : reportSeqOk n i s = true
  · have hagree := (reportSeqOk_iff hr).1 hok
    rw [if_neg (by simp [hok])]
    split
    next h1 =>
      obtain ⟨r', hc, hk⟩ := hword hagree 1 (.inl rfl) ((wordReads_iff _ _ _).1 h1)
      simp only [hc, hk]
    next h1 =>
      have h1 := mt (wordReads_iff _ _ _).2 h1
      split
      next h8 =>
        obtain ⟨r', hc, hk⟩ := hword hagree 8 (.inr ⟨rfl, h1⟩) ((wordReads_iff _ _ _).1 h8)
        simp only [hc, hk]
      next h8 => exact (hnone h1 (mt (wordReads_iff _ _ _).2 h8)).symm
  · rw [if_pos (by simp [hok])]
    exact (hno (mt (reportSeqOk_iff hr).2 hok)).symm

end

end Sys2Proof.Machine
end

section
/-! What damage makes of the records that close up: a logged fault record and a registry entry (R158, R163,
R172, R175). -/

namespace Sys2Proof.Machine

section
variable {raised : Raising → State → State} {s : State}

/-! ### A logged fault record (R158) -/

theorem faultRing_logged {n : Fin 32} {i : Nat} (h : heldFaultAt n s = some i) :
    i < s.flt.log.length ∧ faultRing s.flt.oldestPlace i = n := by
  obtain ⟨hlt, hoffset⟩ := Option.ite_none_right_eq_some.1 h
  obtain rfl := Option.some.inj hoffset
  exact ⟨hlt, faultRing_faultOffset _ _⟩

theorem loggedSeq_head {o : FaultRecord} (h : s.flt.log.head? = some o) :
    loggedSeq 0 s = some o.seq := by
  rw [loggedSeq, ← List.head?_eq_getElem?, h]
  rfl

/-- Whether the words of a logged record fit, from the oldest record of the log. -/
theorem faultSeqOk_words_iff {n : Fin 32} {i : Nat} {o : FaultRecord} (h : s.flt.log.head? = some o) :
    faultSeqOk n i s = faultWordsFit n o.seq (seqBefore i s) s := by
  rw [faultSeqOk, loggedSeq_head h]
  rfl

/-- The class of a damaged fault record, as its words tell it (R158). -/
theorem damagedClass_eq {n : Fin 32} {fits : Bool} {c : Option FaultClass}
    (hword : ∀ k, k = 0 ∨ (k = 4 ∧ ¬errorAt (placeBase (.fault n) + 0) s ≠ some .double) → fits = true →
      errorAt (placeBase (.fault n) + k) s ≠ some .double →
      ∃ r, wordContent (.fault n) k s = .fault r ∧ c = some (faultClass r.kind))
    (hnone : fits = false ∨ (¬errorAt (placeBase (.fault n) + 0) s ≠ some .double
      ∧ ¬errorAt (placeBase (.fault n) + 4) s ≠ some .double) → c = none) :
    damagedClass n fits s = c := by
  unfold damagedClass
  dsimp only
  cases hf : fits with
  | false => exact (hnone (.inl hf)).symm
  | true =>
    rw [if_neg (by decide)]
    split
    next h0 =>
      obtain ⟨r, hc, hk⟩ := hword 0 (.inl rfl) hf ((wordReads_iff _ _ _).1 h0)
      simp only [hc, hk]
    next h0 =>
      have h0 := mt (wordReads_iff _ _ _).2 h0
      split
      next h4 =>
        obtain ⟨r, hc, hk⟩ := hword 4 (.inr ⟨rfl, h0⟩) hf ((wordReads_iff _ _ _).1 h4)
        simp only [hc, hk]
      next h4 => exact (hnone (.inr ⟨h0, mt (wordReads_iff _ _ _).2 h4⟩)).symm

/-- The lost flags after a record of a class, or of none that can be read, is lost. -/
def lostAfter (c : Option FaultClass) (lost : LostFlags) : LostFlags :=
  match c with
  | some c => setLost c lost
  | none => ⟨true, true, true⟩

theorem loseDamaged_eq (n : Fin 32) (fits : Bool) (lost : LostFlags) (s : State) :
    loseDamaged n fits lost s = lostAfter (damagedClass n fits s) lost := by
  unfold loseDamaged lostAfter
  cases damagedClass n fits s <;> rfl

/-- The state in which the log is put, with the lost flags, and handed from a record on. -/
def logClosed (i : Nat) (log : List FaultRecord) (lost : LostFlags) (x : State) : State :=
  handsOver
    (bothCopies .faultHead (.faultHead
        { nextSeq := x.flt.nextSeq, oldest := x.flt.oldestPlace, count := log.length, lost := lost })
      ++ (log.drop i).zipIdx.map fun e => (.fault (faultRing x.flt.oldestPlace (i + e.2)), .fault e.1))
    { x with flt := { x.flt with log := log, lost := lost } }

theorem logClosed_handed {i : Nat} {log : List FaultRecord} (hi : i ≤ log.length) (lost : LostFlags)
    (x : State) :
    handFaultsFrom i (handFaultHead (x.setFlt { x.flt with log := log, lost := lost })) =
      logClosed i log lost x := by
  rw [handFaultsFrom_eq i _ hi, logClosed, handsOver, handAll_append]
  rfl

/-- The records after one that close up, in their places. -/
theorem laterFaults_erased {i : Nat} (hi : i < s.flt.log.length) :
    laterFaults i s = (((s.flt.log.eraseIdx i).drop i).zipIdx i).map
      fun x => (faultRing s.flt.oldestPlace (x.2 + 1), x.1) := by
  have hdrop : (s.flt.log.eraseIdx i).drop i = s.flt.log.drop (i + 1) := by
    rw [List.eraseIdx_eq_take_drop_succ, List.drop_append_of_le_length (by simp; omega)]
    simp
  rw [laterFaults, zipIdx_later _ _ hi, hdrop]
  exact zipIdx_shift (s.flt.log.drop (i + 1)) (fun r k => (faultRing s.flt.oldestPlace k, r)) i

/-- The log without a record, whose later records all read sound. -/
theorem removeFault_sound {n : Fin 32} {i : Nat} (hi : i < s.flt.log.length)
    (hclean : ∀ k, i ≤ k → k < (s.flt.log.eraseIdx i).length →
      CleanAt (.fault (faultRing s.flt.oldestPlace (k + 1))) s)
    (hfit : ∀ k, i ≤ k → k < (s.flt.log.eraseIdx i).length → ∀ o, (s.flt.log.eraseIdx i).head? = some o →
      faultSound (faultRing s.flt.oldestPlace (k + 1)) o.seq
        (if k = 0 then none else ((s.flt.log.eraseIdx i)[k - 1]?).map FaultRecord.seq) s = true) :
    removeFault n i s =
      logClosed i (s.flt.log.eraseIdx i)
        (lostAfter (damagedClass n (faultSeqOk n i s) s) s.flt.lost) s := by
  have hlater : ∀ q ∈ (laterFaults i s).map fun x => Place.fault x.1, CleanAt q s := by
    intro q hq
    obtain ⟨k, hk, hlt, -, rfl⟩ := laterFaults_places i s q hq
    exact hclean k hk hlt
  have hbefore : ∀ k, k < i → (s.flt.log.eraseIdx i)[k]? = s.flt.log[k]? := fun k hk =>
    List.getElem?_eraseIdx_of_lt hk
  have holdest : (if i = 0 then none else loggedSeq 0 s)
      = if i = 0 then none else ((s.flt.log.eraseIdx i)[0]?).map FaultRecord.seq := by
    split
    · rfl
    · rw [loggedSeq, hbefore 0 (by omega)]
  have hprevious : seqBefore i s
      = if i = 0 then none else ((s.flt.log.eraseIdx i)[i - 1]?).map FaultRecord.seq := by
    unfold seqBefore
    split
    · rfl
    · rw [loggedSeq, hbefore (i - 1) (by omega)]
  have hjudged := judgeMoved_sound s (loseDamaged n (faultSeqOk n i s) s.flt.lost s)
    (fun k => faultRing s.flt.oldestPlace (k + 1)) (s.flt.log.eraseIdx i) _ i rfl hfit
  have hlog : s.flt.log.take i ++ (s.flt.log.eraseIdx i).drop i = s.flt.log.eraseIdx i := by
    rw [← List.take_eraseIdx_eq_take_of_le _ _ _ (Nat.le_refl i), List.take_append_drop]
  have hle : i ≤ (s.flt.log.eraseIdx i).length := by
    rw [List.length_eraseIdx_of_lt hi]
    omega
  unfold removeFault
  simp only [movedDoubles_clean _ s hlater, captureAll, List.foldl_nil]
  rw [laterFaults_erased hi, holdest, hprevious, hjudged]
  dsimp only
  rw [hlog, logClosed_handed hle, loseDamaged_eq]

theorem damageFault_sound {n : Fin 32} {i : Nat} (hi : heldFaultAt n s = some i)
    (hclean : ∀ q ∈ (laterFaults i s).map fun x => Place.fault x.1, CleanAt q s) :
    damageFault raised n s = removeFault n i s := by
  unfold damageFault
  simp only [hi, soundPlaces_clean raised _ s hclean]

/-! ### A registry entry (R163) -/

theorem flagPlace_val {n : Fin 64} : flagPlace n.val = n := Fin.ext (Nat.mod_eq_of_lt n.isLt)

/-- A list without the element of a number. -/
theorem filter_zipIdx_ne {α : Type} (l : List α) (i o : Nat) :
    ((l.zipIdx o).filter fun x => decide (x.2 ≠ o + i)).map Prod.fst = l.eraseIdx i := by
  induction l generalizing i o with
  | nil => rfl
  | cons a t ih =>
    rw [List.zipIdx_cons, List.filter_cons]
    cases i with
    | zero =>
      have hall : (t.zipIdx (o + 1)).filter (fun x => decide (x.2 ≠ o + 0)) = t.zipIdx (o + 1) := by
        refine List.filter_eq_self.2 fun x hx => ?_
        have := List.le_snd_of_mem_zipIdx hx
        simp only [decide_eq_true_eq]
        omega
      rw [if_neg (by simp), hall, List.zipIdx_map_fst]
      rfl
    | succ i =>
      have htail := ih i (o + 1)
      rw [show o + 1 + i = o + (i + 1) by omega] at htail
      rw [if_pos (by simp), List.map_cons, htail]
      rfl

/-- The registry without an entry, whose later entries all read sound. -/
theorem soundFlags_sound {i : Nat}
    (h : ∀ k, i < k → k < s.flt.registry.length → flagSound k s = true) :
    soundFlags i s = s.flt.registry.eraseIdx i := by
  have hfilter : (s.flt.registry.zipIdx.filter fun x =>
      decide (x.2 < i) || (decide (i < x.2) && flagSound x.2 s)) =
        s.flt.registry.zipIdx.filter fun x => decide (x.2 ≠ i) := by
    refine List.filter_congr fun x hx => ?_
    have hlt := (List.mem_zipIdx' hx).1
    rcases Nat.lt_trichotomy x.2 i with hl | he | hg
    · simp [hl, Nat.ne_of_lt hl]
    · simp [he]
    · simp [hg, h x.2 hg hlt, Nat.ne_of_gt hg]
  have herase := filter_zipIdx_ne s.flt.registry i 0
  rw [Nat.zero_add] at herase
  rw [soundFlags, hfilter, herase]

theorem damageFlag_sound {i : Nat}
    (h : ∀ k, i < k → k < s.flt.registry.length → CleanAt (.flag (flagPlace k)) s) :
    damageFlag raised i s = removeFlag i s := by
  have hlater : ∀ q ∈ laterFlags i s, CleanAt q s := by
    intro q hq
    obtain ⟨k, hk, rfl⟩ := List.mem_map.1 hq
    obtain ⟨hr, hlt⟩ := List.mem_filter.1 hk
    exact h k (of_decide_eq_true hlt) (List.mem_range.1 hr)
  have hsound : soundFlags i s = s.flt.registry.eraseIdx i := soundFlags_sound fun k hk hlt => by
    rcases h k hk hlt with hw | he
    · simp [flagSound, hw]
    · simp [flagSound, firstDouble_clean he]
  unfold damageFlag
  simp only [soundPlaces_clean raised _ s hlater, movedDoubles_clean _ s hlater, captureAll,
    List.foldl_nil, hsound]
  rfl

end

end Sys2Proof.Machine
end

section
/-! What damage makes of the records kept in two copies: a copy rewritten from the other, and a record
rebuilt from the places it names (R122, R171, R173, R176). -/

namespace Sys2Proof.Machine

section
variable {raised : Raising → State → State} {s : State}

/-! ### One copy damaged (R176) -/

/-- The four records of two copies. -/
def TwoCopies (pair : Fin 2 → Place) : Prop :=
  pair = .station ∨ pair = .queueHead ∨ pair = .faultHead ∨ pair = .registryHead

theorem otherCopy_pair {pair : Fin 2 → Place} (h : TwoCopies pair) (c : Fin 2) :
    otherCopy (pair c) = some (pair (1 - c)) := by
  rcases h with rfl | rfl | rfl | rfl <;> rfl

theorem placeCollection_pair {pair : Fin 2 → Place} (h : TwoCopies pair) (c e : Fin 2) :
    placeCollection (pair c) = placeCollection (pair e) := by
  rcases h with rfl | rfl | rfl | rfl <;> rfl

theorem freePlace_pair {pair : Fin 2 → Place} (h : TwoCopies pair) (c : Fin 2) (s : State) :
    freePlace (pair c) s = false := by
  rcases h with rfl | rfl | rfl | rfl <;> rfl

theorem readHeadOf_pair {pair : Fin 2 → Place} (h : TwoCopies pair) (c : Fin 2) (s : State) :
    readHeadOf raised (pair c) s = s := by
  rcases h with rfl | rfl | rfl | rfl <;> rfl

theorem pair_ne {pair : Fin 2 → Place} (h : TwoCopies pair) {c e : Fin 2} (hne : c ≠ e) :
    pair c ≠ pair e := by
  rcases h with rfl | rfl | rfl | rfl <;> intro heq <;> cases heq <;> exact hne rfl

theorem takeHead_rs (p : Place) (c : Content) (s : State) : (takeHead p c s).rs = s.rs := by
  cases p with
  | queueHead e | faultHead e | registryHead e =>
    unfold takeHead
    dsimp only
    split <;> rfl
  | _ => rfl

theorem rewriteCopy_frame (p other : Place) (s : State) :
    ∃ c, (rewriteCopy p other s).rs = handAll [(p, c)] s.rs := by
  unfold rewriteCopy
  dsimp only
  split
  · exact ⟨_, (hand_rs _ _ _).trans (by rw [takeHead_rs])⟩
  · exact ⟨_, hand_rs _ _ _⟩

/-- A damaged copy beside a sound one is rewritten from it, with nothing to correct. -/
theorem damageCopy_sound {p other : Place} {w : Nat} (h : CleanAt other s) :
    damageCopy raised p other w s = rewriteCopy p other s := by
  unfold damageCopy
  split
  · rfl
  next hw =>
    have hsound := h.resolve_left hw
    obtain ⟨c, hrs⟩ := rewriteCopy_frame p other s
    have herrors : (rewriteCopy p other s).rs.errors = s.rs.errors := by rw [hrs]; rfl
    rw [firstDouble_clean hsound]
    refine soundPlaces_clean raised _ _ fun q hq => .inr fun v hv => ?_
    rw [List.mem_singleton.1 hq] at hv
    rw [errorAt_congr herrors, hsound v hv]

/-- A copy rewritten where its owner has what the other copy holds. -/
theorem rewriteCopy_same {pair : Fin 2 → Place} (hp : TwoCopies pair) (c : Fin 2)
    (h : c = 1 ∨ pair = .station
      ∨ (pair = .queueHead ∧ readContent (pair (1 - c)) s = .queueHead (queueHeadOf s))
      ∨ (pair = .faultHead ∧ readContent (pair (1 - c)) s = .faultHead (faultHeadOf s))
      ∨ (pair = .registryHead ∧ readContent (pair (1 - c)) s = .registryHead s.flt.registry.length)) :
    rewriteCopy (pair c) (pair (1 - c)) s =
      handsOver [(pair c, readContent (pair (1 - c)) s)] s := by
  have hsecond : c = 1 → rewriteCopy (pair c) (pair (1 - c)) s =
      handsOver [(pair c, readContent (pair (1 - c)) s)] s := by
    rintro rfl
    rcases hp with rfl | rfl | rfl | rfl <;> rfl
  rcases Fin.exists_fin_two.1 ⟨c, rfl⟩ with hc | hc
  · subst hc
    rcases h with h | h | ⟨h, hcontent⟩ | ⟨h, hcontent⟩ | ⟨h, hcontent⟩
    · exact nomatch h
    · subst h
      rfl
    all_goals
      subst h
      simp only [rewriteCopy, copyA, takeHead, copyContent, hcontent, queueHeadIn, faultHeadIn,
        registryCountIn, decide_true, if_true]
      rfl
  · exact hsecond hc

theorem rewriteCopy_queue {h : QueueHead} (hcontent : readContent (.queueHead 1) s = .queueHead h)
    (hne : h ≠ queueHeadOf s) :
    rewriteCopy (.queueHead 0) (.queueHead 1) s =
      handsOver [(.queueHead 0, .queueHead (queueHeadOf (takeQueueHead h s)))] (takeQueueHead h s) := by
  simp only [rewriteCopy, copyA, takeHead, copyContent, hcontent, queueHeadIn, decide_true, if_true,
    if_neg hne]
  rfl

theorem rewriteCopy_fault {h : FaultHead} (hcontent : readContent (.faultHead 1) s = .faultHead h)
    (hne : h ≠ faultHeadOf s) :
    rewriteCopy (.faultHead 0) (.faultHead 1) s =
      handsOver [(.faultHead 0, .faultHead (faultHeadOf (takeFaultHead h s)))] (takeFaultHead h s) := by
  simp only [rewriteCopy, copyA, takeHead, copyContent, hcontent, faultHeadIn, decide_true, if_true,
    if_neg hne]
  rfl

theorem rewriteCopy_registry {n : Nat} (hcontent : readContent (.registryHead 1) s = .registryHead n)
    (hne : n ≠ s.flt.registry.length) :
    rewriteCopy (.registryHead 0) (.registryHead 1) s =
      handsOver [(.registryHead 0, .registryHead (takeRegistryHead n s).flt.registry.length)]
        (takeRegistryHead n s) := by
  simp only [rewriteCopy, copyA, takeHead, copyContent, hcontent, registryCountIn, decide_true, if_true,
    if_neg hne]
  rfl

/-! ### The head that a removal reads (R171) -/

theorem inWriteList_handed {p q : Place} {c : Content} {x : State}
    (hx : x.rs = handAll [(p, c)] s.rs) (hq : q ≠ p) : inWriteList q x = inWriteList q s := by
  have hfind := find_putEntry_other s.rs.stepNo c s.rs.writeList hq
  rw [Bool.eq_iff_iff, inWriteList_iff, inWriteList_iff, hx, ← hfind]
  rfl

theorem inWriteList_handed_self {p : Place} {c : Content} {x : State}
    (hx : x.rs = handAll [(p, c)] s.rs) : inWriteList p x = true := by
  refine (inWriteList_congr (s := hand p c s) ?_ p).trans (inWriteList_hand p c s)
  rw [hx]
  rfl

theorem placeAddresses_sorted (p : Place) : (placeAddresses p).Pairwise (· < ·) := by
  unfold placeAddresses
  exact List.pairwise_lt_range.map _ fun a b h => Nat.add_lt_add_left h _

/-- The first damaged word of a copy A has it rewritten, beside a sound copy B. -/
theorem readCopyWords_damaged {pair : Fin 2 → Place} {v : Nat}
    (hw : inWriteList (pair 0) s = false) (hclean : CleanAt (pair 1) s)
    (hv : v ∈ placeAddresses (pair 0)) (he : errorAt v s = some .double)
    (hfirst : ∀ u ∈ placeAddresses (pair 0), u < v → errorAt u s = none) :
    (placeAddresses (pair 0)).foldl (readCopyWord raised (pair 0) (pair 1)) s =
      rewriteCopy (pair 0) (pair 1) (captureError (some (placeCollection (pair 0))) v s) := by
  obtain ⟨before, after, hsplit⟩ := List.append_of_mem hv
  have hsorted := placeAddresses_sorted (pair 0)
  rw [hsplit] at hsorted hfirst
  have hbefore : ∀ u ∈ before, errorAt u s = none := fun u hu =>
    hfirst u (List.mem_append_left _ hu)
      ((List.pairwise_append.1 hsorted).2.2 u hu v List.mem_cons_self)
  have hstart : ∀ l : List Nat, (∀ u ∈ l, errorAt u s = none) →
      l.foldl (readCopyWord raised (pair 0) (pair 1)) s = s := by
    intro l hl
    induction l with
    | nil => rfl
    | cons u l ih =>
      rw [List.foldl_cons, readCopyWord_clean (.inr (hl u List.mem_cons_self)),
        ih fun x hx => hl x (List.mem_cons_of_mem _ hx)]
  have hword : readCopyWord raised (pair 0) (pair 1) s v =
      rewriteCopy (pair 0) (pair 1) (captureError (some (placeCollection (pair 0))) v s) := by
    unfold readCopyWord
    rw [if_neg (by simp [hw]), if_pos he]
    exact damageCopy_sound hclean
  obtain ⟨c, hrs⟩ := rewriteCopy_frame (pair 0) (pair 1)
    (captureError (some (placeCollection (pair 0))) v s)
  have hafter : ∀ l : List Nat, l.foldl (readCopyWord raised (pair 0) (pair 1))
      (rewriteCopy (pair 0) (pair 1) (captureError (some (placeCollection (pair 0))) v s)) =
      rewriteCopy (pair 0) (pair 1) (captureError (some (placeCollection (pair 0))) v s) := by
    intro l
    induction l with
    | nil => rfl
    | cons u l ih => rw [List.foldl_cons, readCopyWord_clean (.inl (inWriteList_handed_self hrs)), ih]
  rw [hsplit, List.foldl_append, hstart before hbefore, List.foldl_cons, hword, hafter]

/-- A record is read again once the head that its removal changes is repaired. -/
theorem readWord_repaired {p : Place} {w : Nat} {z : State} (hw : inWriteList p s = false)
    (he : errorAt w s = some .double) (hf : freePlace p s = false) (hz : readHeadOf raised p s = z)
    (hwz : inWriteList p z = false) (hez : errorAt w z = some .double)
    (hhz : readHeadOf raised p z = z) :
    readWord raised (some p) w s = readWord raised (some p) w z := by
  rw [readWord_double hw he, readWord_double hwz hez, if_neg (by simp [hf]), hz, hhz]
  split
  next hfree =>
    unfold doubleRead
    rw [if_neg (by simp [hwz, hez]), if_pos hfree]
  next => rfl

end

end Sys2Proof.Machine
end

section
/-! A record of two copies rebuilt with both copies damaged, and the words of free places (R122, R173, R175,
R176). -/

namespace Sys2Proof.Machine

section
variable {raised : Raising → State → State} {s : State}

/-! ### The rebuilt records -/

/-- The effect of damage found in both copies of a record (R176). -/
theorem damageCopy_rebuilt {p other : Place} {w v : Nat} (hw : inWriteList other s = false)
    (hv : firstDouble other s = some v) :
    damageCopy raised p other w s =
      raised (damageRaising (placeCollection p) w)
        (((placeAddresses other).filter fun u => decide (u < v)).foldl (soundWord raised)
          (rebuild raised p (captureError (some (placeCollection other)) v s))) := by
  unfold damageCopy
  rw [if_neg (by simp [hw]), hv]

theorem rebuild_station (c : Fin 2) (x : State) :
    rebuild raised (.station c) x =
      handsOver (bothCopies .station
          (.station (if x.sc.power = .starting then .cold else x.sc.station)))
        { x with sc := { x.sc with
          station := if x.sc.power = .starting then .cold else x.sc.station } } := by
  change handStation (if atStart x then x.setSc { x.sc with station := .cold } else x) = _
  unfold atStart
  by_cases h : x.sc.power = .starting
  · simp only [h, decide_true, if_true]
    rfl
  · simp only [h, decide_false, Bool.false_eq_true, if_false]
    rfl

/-- The state with the report queue rebuilt, its head handed, and the report places read. -/
def queueRebuilt (raised : Raising → State → State) (held : List Report) (oldest : Fin 96)
    (next mark : Nat) (x : State) : State :=
  rebuildReads raised ((finList 96).map Place.report)
    (handsOver
      (bothCopies .queueHead (.queueHead
        { nextSeq := next, readMark := mark, oldest := oldest, count := held.length }))
      { x with rq := { x.rq with
        held := held, oldestPlace := oldest, nextSeq := next, readMark := mark } })

theorem rebuild_queue {c : Fin 2} {x : State} {held : List Report} {oldest : Fin 96} {next mark : Nat}
    (h : rebuildQueue x = x.setRq { x.rq with
      held := held, oldestPlace := oldest, nextSeq := next, readMark := mark }) :
    rebuild raised (.queueHead c) x = queueRebuilt raised held oldest next mark x := by
  change rebuildReads raised ((finList 96).map Place.report) (handQueueHead (rebuildQueue x)) = _
  rw [h]
  rfl

theorem rebuildQueue_empty {x : State} (h : ∀ n < 96, readableReport (reportPlace n) x = none) :
    rebuildQueue x = x.setRq { x.rq with held := [], oldestPlace := 0, nextSeq := 1, readMark := 1 } := by
  unfold rebuildQueue
  simp only [longestRun_none h]

theorem rebuildQueue_run {x : State} {n : Nat} {run : List Report} {newest : Report}
    (h : RebuiltRun 96 (fun n => readableReport (reportPlace n) x)
      (fun a b => b.seq = (a.seq + 1) % 4294967296) n run) (hl : newest ∈ run.getLast?) :
    let count := min run.length (96 - x.rq.claimTotal)
    let held := run.drop (run.length - count)
    let next := (newest.seq + 1) % 4294967296
    rebuildQueue x = x.setRq { x.rq with
      held := held, oldestPlace := reportPlace (n + 97 - count), nextSeq := next,
      readMark := ((held.head?).map Report.seq).getD next } := by
  intro count held next
  have hrun := longestRun_rebuilt (f := fun a b : Report => decide (b.seq = (a.seq + 1) % 4294967296))
    (by simpa only [decide_eq_true_eq] using h)
  have hplace : n + 1 + 96 - count = n + 97 - count := by omega
  unfold rebuildQueue
  simp only [hrun, Option.mem_def.1 hl, Option.map_some, Option.getD_some]
  rw [← hplace]

/-- The state with the fault log rebuilt, its head handed, and the fault places read. -/
def logRebuilt (raised : Raising → State → State) (log : List FaultRecord) (oldest : Fin 32)
    (next : Nat) (x : State) : State :=
  rebuildReads raised ((finList 32).map Place.fault)
    (handsOver
      (bothCopies .faultHead (.faultHead
        { nextSeq := next, oldest := oldest, count := log.length, lost := ⟨true, true, true⟩ }))
      { x with flt := { x.flt with
        log := log, oldestPlace := oldest, nextSeq := next, lost := ⟨true, true, true⟩ } })

theorem rebuild_log {c : Fin 2} {x : State} {log : List FaultRecord} {oldest : Fin 32} {next : Nat}
    (h : rebuildLog x = x.setFlt { x.flt with
      log := log, oldestPlace := oldest, nextSeq := next, lost := ⟨true, true, true⟩ }) :
    rebuild raised (.faultHead c) x = logRebuilt raised log oldest next x := by
  change rebuildReads raised ((finList 32).map Place.fault) (handFaultHead (rebuildLog x)) = _
  rw [h]
  rfl

theorem rebuildLog_empty {x : State} (h : ∀ n < 32, readableFault (faultPlace n) x = none) :
    rebuildLog x = x.setFlt { x.flt with
      log := [], oldestPlace := 0, nextSeq := 1, lost := ⟨true, true, true⟩ } := by
  unfold rebuildLog
  simp only [longestRun_none h]

theorem rebuildLog_run {x : State} {n : Nat} {run : List FaultRecord} {newest : FaultRecord}
    (h : RebuiltRun 32 (fun n => readableFault (faultPlace n) x)
      (fun a b => 1 ≤ (b.seq + 65536 - a.seq % 65536) % 65536
        ∧ (b.seq + 65536 - a.seq % 65536) % 65536 ≤ 32) n run) (hl : newest ∈ run.getLast?) :
    rebuildLog x = x.setFlt { x.flt with
      log := run, oldestPlace := faultPlace (n + 33 - run.length),
      nextSeq := (newest.seq + 1) % 65536, lost := ⟨true, true, true⟩ } := by
  have hrun := longestRun_rebuilt
    (f := fun a b : FaultRecord => decide (1 ≤ (b.seq + 65536 - a.seq % 65536) % 65536
      ∧ (b.seq + 65536 - a.seq % 65536) % 65536 ≤ 32)) (by simpa only [decide_eq_true_eq] using h)
  unfold rebuildLog
  simp only [hrun, Option.mem_def.1 hl, Option.map_some, Option.getD_some]

/-- The leading numbers at which a function finds something. -/
theorem takeWhile_found {α : Type} {f : Nat → Option α} {l : List α} {m : Nat} (hlen : l.length ≤ m)
    (hl : ∀ k x, l[k]? = some x → f k = some x) (hend : l.length < m → f l.length = none) :
    ((List.range m).map f).takeWhile Option.isSome = l.map some := by
  obtain ⟨j, rfl⟩ := Nat.exists_eq_add_of_le hlen
  have hfront : (List.range l.length).map f = l.map some := by
    have hmap := map_range_eq (f := f) (l := l.map some) fun i o ho => by
      rw [List.getElem?_map, Option.map_eq_some_iff] at ho
      obtain ⟨x, hx, rfl⟩ := ho
      exact hl i x hx
    rwa [List.length_map] at hmap
  rw [List.range_add, List.map_append, hfront, List.takeWhile_append_of_pos (by simp)]
  cases j with
  | zero => simp
  | succ j =>
    have hnone := hend (by omega)
    rw [List.range_succ_eq_map, List.map_cons, List.map_cons, List.takeWhile_cons, Nat.add_zero, hnone]
    simp

/-- The entries that a rebuild finds from place 0 on. -/
theorem leadingFlags_eq {x : State} {l : List FlagEntry} (hlen : l.length ≤ 64)
    (hl : ∀ k, ∀ e ∈ l[k]?, readableFlag k x = some e)
    (hend : l.length < 64 → readableFlag l.length x = none) : leadingFlags x = l := by
  have hfound := takeWhile_found (f := fun n => readableFlag n x) hlen (fun k e he => hl k e he) hend
  rw [leadingFlags, hfound, List.filterMap_map]
  exact List.filterMap_some

theorem readableFlag_some {x : State} {k : Nat} {e : FlagEntry} (hb : e.bike ≠ 0)
    (h : readable (.flag (flagPlace k)) x = some (.flag (some e))) : readableFlag k x = some e := by
  unfold readableFlag
  rw [h]
  exact if_neg hb

theorem readableFlag_none {x : State} {k : Nat}
    (h : ∀ e, readable (.flag (flagPlace k)) x = some (.flag (some e)) → e.bike = 0) :
    readableFlag k x = none := by
  unfold readableFlag
  split
  next e he => exact if_pos (h e he)
  next => rfl

/-- The state with the registry rebuilt, its head handed, and the entry places read. -/
def registryRebuilt (raised : Raising → State → State) (l : List FlagEntry) (x : State) : State :=
  rebuildReads raised ((List.range (min 64 (l.length + 1))).map fun i => .flag (flagPlace i))
    (handsOver (bothCopies .registryHead (.registryHead l.length))
      { x with flt := { x.flt with registry := l } })

theorem rebuild_registry {c : Fin 2} {x : State} {l : List FlagEntry} (h : leadingFlags x = l) :
    rebuild raised (.registryHead c) x = registryRebuilt raised l x := by
  subst h
  rfl

/-! ### Free words (R175) -/

theorem rebuildWord_free {p : Place} {u : Nat} (hw : inWriteList p s = false)
    (he : errorAt u s = some .double) (hf : freePlace p s = true) :
    rebuildWord raised p s u = readWord raised (some p) u s := by
  rw [readWord_double hw he, if_pos hf]
  unfold rebuildWord
  rw [if_neg (by simp [hw]), if_pos he, if_pos hf]

theorem rebuildWord_sound {p : Place} {u : Nat} (hw : inWriteList p s = false)
    (he : errorAt u s ≠ some .double) : rebuildWord raised p s u = soundWord raised s u := by
  unfold rebuildWord
  rw [if_neg (by simp [hw]), if_neg he]

/-- A free word with a double-bit error is set to zero. -/
def freeWordCleared (p : Place) (w : Nat) (s : State) : State :=
  (captureError none w s).setRs { (captureError none w s).rs with
    errors := assocDel w s.rs.errors,
    array := putCell p ((cellOf p s).set (w - placeBase p) (zeroWord p)) s.rs.array }

theorem clearFreeWord_eq (p : Place) (w : Nat) (s : State) :
    clearFreeWord (some p) w s = freeWordCleared p w s := rfl

theorem zeroWord_eq (p : Place) : zeroWord p = if ∃ n, p = .flag n then .flag none else .blank := by
  cases p <;> simp [zeroWord]

theorem wordContent_cleared {p : Place} {w : Nat} (harr : assocSorted s.rs.array = true)
    (hw : w - placeBase p < (cellOf p s).length) :
    wordContent p (w - placeBase p) (freeWordCleared p w s) = zeroWord p := by
  have hcell : cellOf p (freeWordCleared p w s) = (cellOf p s).set (w - placeBase p) (zeroWord p) :=
    (cell_put p p _ _ harr).trans (if_pos rfl)
  rw [wordContent, hcell, spelledWord, List.getElem?_set_self hw, Option.getD_some]
  cases p <;> rfl

/-! ### The sequence of a record that reads clean (R122) -/

/-- The words of a record that has none in error and no entry in the write list. -/
theorem readable_words {p : Place} (hw : inWriteList p s = false) (hd : firstDouble p s = none) :
    readable p s = some (wordsContent p (cellOf p s)) := by
  have hfind : s.rs.writeList.find? (fun x => decide (x.place = p)) = none := by
    rw [Bool.eq_false_iff, ne_eq, inWriteList_iff, Option.not_isSome_iff_eq_none] at hw
    exact hw
  unfold readable
  rw [if_pos (.inr (by rw [hd]; rfl)), readContent, hfind]

/-- A record that reads as one spells it in its first word, or reads mixed. -/
theorem wordsContent_cases (p : Place) (l : List Content) :
    (l = [] ∧ wordsContent p l = coldContent p) ∨ wordsContent p l = spelledWord p l 0
      ∨ wordsContent p l = mixedWords p l := by
  cases l with
  | nil => exact .inl ⟨rfl, rfl⟩
  | cons x t =>
    refine .inr ?_
    unfold wordsContent
    dsimp only
    split
    next h =>
      have hx : isGarbled x = false := by
        rw [Bool.and_eq_true, Bool.not_eq_true'] at h
        exact h.1
      refine .inl ?_
      rw [spelledWord, List.getElem?_cons_zero, Option.getD_some]
      cases x <;> first | rfl | exact nomatch hx
    next => exact .inr rfl

theorem mixedReport_seq {p : Place} {l : List Content} {r : Report}
    (h : spelledWord p l 0 = .report r) : ∃ r', mixedReport p l = .report r' ∧ r'.seq = r.seq := by
  unfold mixedReport
  simp only [h, reportIn, Option.some_or]
  exact ⟨_, rfl, rfl⟩

theorem mixedFault_seq {p : Place} {l : List Content} {r : FaultRecord}
    (h : spelledWord p l 0 = .fault r) :
    ∃ r', mixedFault p l = .fault r' ∧ r'.seq = r.seq ∧ faultClass r'.kind = faultClass r.kind := by
  unfold mixedFault
  simp only [h, faultIn, Option.some_or]
  refine ⟨_, rfl, rfl, ?_⟩
  dsimp only
  split
  next hclass => exact hclass
  next => rfl

theorem readableReport_seq {n : Fin 96} {r : Report} (hw : inWriteList (.report n) s = false)
    (hd : firstDouble (.report n) s = none) (h : wordContent (.report n) 0 s = .report r) :
    ∃ r', readableReport n s = some r' ∧ r'.seq = r.seq := by
  have hfound : ∃ r', wordsContent (.report n) (cellOf (.report n) s) = .report r' ∧ r'.seq = r.seq := by
    rcases wordsContent_cases (.report n) (cellOf (.report n) s) with ⟨hl, -⟩ | hc | hc
    · rw [wordContent, hl] at h
      exact nomatch h
    · exact ⟨r, hc.trans h, rfl⟩
    · rw [hc]
      exact mixedReport_seq h
  obtain ⟨r', hr, hseq⟩ := hfound
  refine ⟨r', ?_, hseq⟩
  unfold readableReport
  rw [readable_words hw hd, hr]

theorem readableFault_seq {n : Fin 32} {r : FaultRecord} (hw : inWriteList (.fault n) s = false)
    (hd : firstDouble (.fault n) s = none) (h : wordContent (.fault n) 0 s = .fault r) :
    ∃ r', readableFault n s = some r' ∧ r'.seq = r.seq ∧ faultClass r'.kind = faultClass r.kind := by
  have hfound : ∃ r', wordsContent (.fault n) (cellOf (.fault n) s) = .fault r' ∧ r'.seq = r.seq
      ∧ faultClass r'.kind = faultClass r.kind := by
    rcases wordsContent_cases (.fault n) (cellOf (.fault n) s) with ⟨hl, -⟩ | hc | hc
    · rw [wordContent, hl] at h
      exact nomatch h
    · exact ⟨r, hc.trans h, rfl, rfl⟩
    · rw [hc]
      exact mixedFault_seq h
  obtain ⟨r', hr, hseq, hclass⟩ := hfound
  refine ⟨r', ?_, hseq, hclass⟩
  unfold readableFault
  rw [readable_words hw hd, hr]

end

end Sys2Proof.Machine
end

section
/-! What damage makes of the record it is found in, put together (R121, R122, R158, R163, R171, R173, R175 to
R177). -/

namespace Sys2Proof.Machine

section
variable {raised : Raising → State → State} {p : Place} {w : Nat} {s : State}

/-! ### The commit words' sequence tests (R175) -/

/-- A clean commit word is tested for its sequence. -/
theorem readWord_tested (hw : inWriteList p s = false) (he : errorAt w s = none) :
    readWord raised (some p) w s = testCommit raised p w s := by
  unfold readWord
  rw [if_neg (by simp [hw]), if_neg (by simp [he]), soundWord_none raised he]
  exact if_neg (by simp [hw])

theorem testCommit_report {n : Fin 96} {i : Nat} (hi : heldReportAt n s = some i)
    (h : reportSeqOk n i s = false) :
    testCommit raised (.report n) (placeBase (.report n) + 9) s =
      raised (damageRaising .reportRecords (placeBase (.report n) + 9)) (damageReport n i s) := by
  unfold testCommit
  simp only [hi, h, Bool.not_false, and_self, if_true]

/-- The last record of the log is removed with all three lost flags, where its sequence fails the test. -/
theorem damageFault_last {n : Fin 32} {i : Nat} (hi : heldFaultAt n s = some i)
    (h : faultSeqOk n i s = false) (hlast : i + 1 = s.flt.log.length) :
    damageFault raised n s =
      handsOver
        (bothCopies .faultHead (.faultHead
          { nextSeq := s.flt.nextSeq, oldest := s.flt.oldestPlace, count := i,
            lost := ⟨true, true, true⟩ }))
        { s with flt := { s.flt with log := s.flt.log.take i, lost := ⟨true, true, true⟩ } } := by
  obtain ⟨hlt, -⟩ := faultRing_logged hi
  have herase : s.flt.log.eraseIdx i = s.flt.log.take i := by
    simp [List.eraseIdx_eq_take_drop_succ, hlast]
  have hlength : (s.flt.log.take i).length = i := by
    rw [List.length_take]
    omega
  have hnone : ∀ k, i ≤ k → ¬k < (s.flt.log.eraseIdx i).length := fun k hk => by
    rw [herase, hlength]
    omega
  have hclass : damagedClass n (faultSeqOk n i s) s = none := by
    rw [h]
    rfl
  have hdrop : (s.flt.log.take i).drop i = [] := List.drop_eq_nil_of_le (by rw [hlength])
  rw [damageFault_sound hi ?_, removeFault_sound hlt (fun k hk hk' => absurd hk' (hnone k hk))
    (fun k hk hk' => absurd hk' (hnone k hk)), hclass, herase, logClosed, hdrop, hlength]
  · rfl
  · intro q hq
    obtain ⟨k, hk, hk', -⟩ := laterFaults_places i s q hq
    exact absurd hk' (hnone k hk)

theorem testCommit_fault {n : Fin 32} {i : Nat} (hw : inWriteList (.fault n) s = false)
    (hi : heldFaultAt n s = some i) (h : faultSeqOk n i s = false) (hc : CleanAt (.faultHead 0) s) :
    testCommit raised (.fault n) (placeBase (.fault n) + 4) s = damageFault raised n s := by
  unfold testCommit
  simp only [hi, h, Bool.not_false, and_self, if_true, readHeadOf_fault n hc]
  unfold misplacedFault
  simp only [hi, hw, h, Bool.false_eq_true, or_self, if_false]

/-! ### Two copies -/

/-- A record whose removal changes a damaged head is read again with that head repaired. -/
theorem readWord_headRepaired {q : Place} {c : Content} {y : State} (hw : inWriteList p s = false)
    (he : errorAt w s = some .double) (hf : freePlace p s = false) (hne : p ≠ q)
    (hlist : y.rs.writeList = s.rs.writeList) (herrors : y.rs.errors = s.rs.errors)
    (hhead : ∀ {x}, CleanAt q x → readHeadOf raised p x = x)
    (hz : readHeadOf raised p s = handsOver [(q, c)] y) :
    readWord raised (some p) w s = readWord raised (some p) w (handsOver [(q, c)] y) := by
  have hwz : inWriteList p (handsOver [(q, c)] y) = false :=
    (inWriteList_handed (s := y) rfl hne).trans ((inWriteList_congr hlist p).trans hw)
  have hez : errorAt w (handsOver [(q, c)] y) = some .double := (errorAt_congr herrors w).trans he
  exact readWord_repaired hw he hf hz hwz hez (hhead (.inl (inWriteList_handed_self (s := y) rfl)))

/-- A damaged copy, captured. -/
theorem readWord_copy {pair : Fin 2 → Place} (hp : TwoCopies pair) (c : Fin 2)
    (hw : inWriteList (pair c) s = false) (he : errorAt w s = some .double) :
    readWord raised (some (pair c)) w s =
      damageCopy raised (pair c) (pair (1 - c)) w
        (captureError (some (placeCollection (pair c))) w s) := by
  rw [readWord_damage hw he (freePlace_pair hp c s) (readHeadOf_pair hp c s)]
  rcases hp with rfl | rfl | rfl | rfl <;> rfl

end

/-- Settles O16. -/
theorem damagedRecordsTakeTheirForm : Obligations.DamagedRecordsTakeTheirForm := by
  intro raised s p w hwp hw x found reads hands clean wordOk
  refine ⟨fun he => ?double, fun y u hy => ⟨fun hu hf => rebuildWord_free hy hu hf, rebuildWord_sound hy⟩,
    fun n r hp hd hc => ?readReport, fun n r hp hd hc => ?readFault,
    fun n i o hp hi ho he hcommit hfit hclean hlast => ?testFault,
    fun n i r hp hi hr he hcommit hseq => ?testReport⟩
  case readReport =>
    subst hp
    exact readableReport_seq hw hd hc
  case readFault =>
    subst hp
    exact readableFault_seq hw hd hc
  case testFault =>
    intro log lost head
    subst hp hcommit
    obtain ⟨hlt, -⟩ := faultRing_logged hi
    have hno : faultSeqOk n i s = false := (faultSeqOk_words_iff ho).trans hfit
    exact (readWord_tested hw he).trans ((testCommit_fault hw hi hno hclean).trans
      (damageFault_last hi hno hlast))
  case testReport =>
    intro damaged
    subst hp hcommit
    have hno : reportSeqOk n i s = false := by
      rw [Bool.eq_false_iff, ne_eq, reportSeqOk_iff hr]
      intro hagree
      obtain ⟨k, hk, hok, hne⟩ := hseq
      obtain ⟨r', hc, hs⟩ := hagree k hk hok
      exact hne r' hc hs
    have hkind : damagedKind n i s = none := by
      unfold damagedKind
      exact if_pos (by simp [hno])
    have hput := damageReport_put hi hr
    rw [hkind] at hput
    exact (readWord_tested hw he).trans ((testCommit_report hi hno).trans
      (congrArg (raised _) hput))
  case double =>
    have hsingle : otherCopy p = none → (∀ n, p ≠ .fault n) → freePlace p s = false →
        readHeadOf raised p s = s → ∀ y, damageSingle raised p x = y → reads (found y) :=
      fun ho hf hfree hh y hy => (readWord_damage hw he hfree hh).trans
        ((damageWord_single ho hf).trans (congrArg found hy))
    refine ⟨fun i hp => ?config, fun k hp => ?policy, fun k hp => ?floor, fun n hp => ?plan,
      fun n hp => ?crew, fun hp => ?signature, fun d hp => ⟨fun hs => ?dockStart, fun hs => ?dockRuns⟩,
      fun n i r hp hi hr => ?report, fun n i c o hp hi ho => ?fault,
      fun n a e b hp hreg hn hle hclean hlater => ?flag,
      fun head hhead hwh hclean v hv hev hfirst => ?repaired,
      fun head v hwh hclean hv hev hfirst => ?taken, fun pair c hp hpair => ?pair,
      fun hfree harr => ?free⟩
    case config =>
      subst hp
      exact hsingle rfl (fun _ h => nomatch h) rfl rfl _ (damageSingle_config i x)
    case policy =>
      subst hp
      exact hsingle rfl (fun _ h => nomatch h) rfl rfl _ (damageSingle_policy k x)
    case floor =>
      subst hp
      exact hsingle rfl (fun _ h => nomatch h) rfl rfl _ (damageSingle_floor k x)
    case plan =>
      subst hp
      exact hsingle rfl (fun _ h => nomatch h) rfl rfl _ (damageSingle_plan n x)
    case crew =>
      subst hp
      exact hsingle rfl (fun _ h => nomatch h) rfl rfl _ (damageSingle_crew n x)
    case signature =>
      subst hp
      exact hsingle rfl (fun _ h => nomatch h) rfl rfl _ rfl
    case dockStart =>
      subst hp
      exact hsingle rfl (fun _ h => nomatch h) rfl rfl _ ((damageSingle_dock d x).trans (if_pos hs))
    case dockRuns =>
      subst hp
      exact hsingle rfl (fun _ h => nomatch h) rfl rfl _ ((damageSingle_dock d x).trans (if_neg hs))
    case report =>
      intro seqAgrees kind hno hword hnone damaged
      subst hp
      have hfree : freePlace (.report n) s = false := by simp [freePlace, hi]
      have hkind : damagedKind n i x = kind := damagedKind_eq (s := x) hr hno hword hnone
      have hput := damageReport_put (s := x) hi hr
      rw [hkind] at hput
      refine hsingle rfl (fun _ h => nomatch h) hfree rfl _ (Eq.trans ?_ hput)
      have hheld : heldReportAt n x = some i := hi
      unfold damageSingle
      simp only [hheld]
    case fault =>
      intro log place seqOf fits hclean hlater hword hnone lost head
      subst hp
      obtain ⟨hlt, -⟩ := faultRing_logged hi
      have hfree : freePlace (.fault n) s = false := by simp [freePlace, hi]
      have hplaces : ∀ q ∈ (laterFaults i x).map fun y => Place.fault y.1, CleanAt q x := by
        intro q hq
        obtain ⟨k, hk, hk', -, rfl⟩ := laterFaults_places i x q hq
        exact (hlater k hk hk').1
      have hsound : ∀ k, i ≤ k → k < log.length → ∀ o, log.head? = some o →
          faultSound (place (k + 1)) o.seq (if k = 0 then none else seqOf (k - 1)) x = true := by
        intro k hk hk' o ho
        obtain ⟨hcleank, hfit⟩ := hlater k hk hk'
        unfold faultSound
        rw [Bool.or_eq_true, Bool.and_eq_true]
        rcases hcleank with hin | hread
        · exact .inl hin
        · rcases hfit with hin | hfit
          · exact .inl hin
          · exact .inr ⟨by rw [firstDouble_clean (s := x) hread]; rfl, hfit o ho⟩
      have hclass : damagedClass n (faultSeqOk n i x) x = c := by
        rw [faultSeqOk_words_iff (s := x) ho]
        exact damagedClass_eq (s := x) hword hnone
      have hremoved := removeFault_sound (s := x) (n := n) hlt
        (fun k hk hk' => (hlater k hk hk').1) hsound
      rw [hclass] at hremoved
      refine (readWord_damage hw he hfree (readHeadOf_fault n hclean)).trans
        ((damageFault_sound (s := x) hi hplaces).trans (hremoved.trans ?_))
      cases c <;> rfl
    case flag =>
      subst hp
      have hlen : s.flt.registry.length = a.length + (b.length + 1) := by rw [hreg]; simp
      have hfree : freePlace (.flag n) s = false := by
        simp [freePlace]
        omega
      have hsound : ∀ k, n.val < k → k < x.flt.registry.length → CleanAt (.flag (flagPlace k)) x := by
        intro k hk hk'
        have hk'' : k < s.flt.registry.length := hk'
        have hplace := hlater (k - (n.val + 1)) (by omega)
        rwa [show n.val + 1 + (k - (n.val + 1)) = k by omega] at hplace
      have hremoved := removed_flag x a b e hreg
      rw [← hn] at hremoved
      exact hsingle rfl (fun _ h => nomatch h) hfree (readHeadOf_flag n hclean) _
        ((damageFlag_sound hsound).trans hremoved)
    case repaired =>
      have hread := readCopyWords_damaged (raised := raised) hwh hclean hv hev hfirst
      rcases hhead with ⟨rfl, ⟨n, i, rfl, hi⟩, hcontent⟩ | ⟨rfl, ⟨n, rfl, hn⟩, hcontent⟩
      · exact readWord_headRepaired (y := captureError (some (placeCollection (.faultHead 0))) v s)
          hw he (by simp [freePlace, hi]) (fun h => nomatch h) rfl rfl
          (fun h => readHeadOf_fault n h) (hread.trans (rewriteCopy_same (pair := .faultHead)
            (.inr (.inr (.inl rfl))) 0 (.inr (.inr (.inr (.inl ⟨rfl, hcontent⟩))))))
      · exact readWord_headRepaired (y := captureError (some (placeCollection (.registryHead 0))) v s)
          hw he (by simp [freePlace]; omega) (fun h => nomatch h) rfl rfl
          (fun h => readHeadOf_flag n h) (hread.trans (rewriteCopy_same (pair := .registryHead)
            (.inr (.inr (.inr rfl))) 0 (.inr (.inr (.inr (.inr ⟨rfl, hcontent⟩))))))
    case taken =>
      intro y
      have hread := readCopyWords_damaged (raised := raised) hwh hclean hv hev hfirst
      refine ⟨fun n i h hp hi hhead hcontent hne => ?_, fun n m hp hn hhead hcontent hne => ?_⟩
      · subst hp hhead
        exact readWord_headRepaired (y := takeFaultHead h y) hw he (by simp [freePlace, hi])
          (fun h => nomatch h) rfl rfl (fun h => readHeadOf_fault n h)
          (hread.trans (rewriteCopy_fault hcontent hne))
      · subst hp hhead
        exact readWord_headRepaired (y := takeRegistryHead m y) hw he (by simp [freePlace]; omega)
          (fun h => nomatch h) rfl rfl (fun h => readHeadOf_flag n h)
          (hread.trans (rewriteCopy_registry hcontent hne))
    case pair =>
      intro other content
      subst hp
      have hcopy := readWord_copy (raised := raised) hpair c hw he
      refine ⟨fun hclean => ?_, fun v hwo hv => ?_⟩
      · have hsound := hcopy.trans (damageCopy_sound (s := x) hclean)
        refine ⟨fun hsame => hsound.trans (rewriteCopy_same (s := x) hpair c hsame),
          fun h hc hcontent hne hp => ?_, fun h hc hcontent hne hp => ?_,
          fun n hc hcontent hne hp => ?_⟩
        all_goals subst hc hp
        · exact hsound.trans (rewriteCopy_queue (s := x) hcontent hne)
        · exact hsound.trans (rewriteCopy_fault (s := x) hcontent hne)
        · exact hsound.trans (rewriteCopy_registry (s := x) hcontent hne)
      · have hrebuilt := hcopy.trans (damageCopy_rebuilt (s := x) hwo hv)
        rw [placeCollection_pair hpair (1 - c) c] at hrebuilt
        intro x ahead corrects
        have hreads : ∀ z places, rebuild raised (pair c) x = rebuildReads raised places z →
            reads (found (corrects places z)) := fun z places hz => hrebuilt.trans (by rw [hz]; rfl)
        refine ⟨fun hp => ?_, fun hp => ?_, fun hp => ?_, fun hp l hlen hl hend => ?_⟩
        · subst hp
          exact hreads _ [] (rebuild_station c x)
        · intro places get rebuilt
          subst hp
          exact ⟨fun h => hreads _ _ (rebuild_queue (rebuildQueue_empty (x := x) h)),
            fun n run h newest hl => hreads _ _ (rebuild_queue (rebuildQueue_run (x := x) h hl))⟩
        · intro places get lost rebuilt
          subst hp
          exact ⟨fun h => hreads _ _ (rebuild_log (rebuildLog_empty (x := x) h)),
            fun n run h newest hl => hreads _ _ (rebuild_log (rebuildLog_run (x := x) h hl))⟩
        · subst hp
          exact hreads _ _ (rebuild_registry (leadingFlags_eq (x := x) hlen
            (fun k e he => readableFlag_some (hl k e he).1 (hl k e he).2)
            (fun h => readableFlag_none (hend h))))
    case free =>
      intro y
      have hread : readWord raised (some p) w s = freeWordCleared p w s :=
        (readWord_double hw he).trans (if_pos hfree)
      have herror : ∀ v, errorAt v (freeWordCleared p w s) = if v = w then none else errorAt v s :=
        fun v => assocGet_del w v s.rs.errors harr.2
      refine ⟨_, hread, rfl, (herror w).trans (if_pos rfl), fun v hv => (herror v).trans (if_neg hv),
        fun hlen => ?_⟩
      obtain ⟨hle, hlt⟩ := mem_placeAddresses.1 hwp
      exact (wordContent_cleared ((arrayWf_iff _).1 harr.1).1 (by omega)).trans (zeroWord_eq p)

end Sys2Proof.Machine
end
